-- ==== Sys2Proof/Word.lean ====
section
/-! DEFINITION. The words of the TD4: bytes, tags, serials, run-seconds, checks, and the small index types. -/

namespace Sys2Proof

/-- One byte, as carried on the host link, on a segment and in the body heap. -/
abbrev Byte := BitVec 8

/-- A 16-bit value carried whole: a tag (R91), a notice serial (R156), a check. -/
abbrev Word16 := BitVec 16

/-- The run-second counter and the stamps taken from it (R57), modulo 2 to the 32nd. -/
abbrev RunSecond := BitVec 32

/-- A segment, or its port: 0 to 3. -/
abbrev Seg := Fin 4

/-- An entry index: 0 to 255 (R1). -/
abbrev EntryIx := Fin 256

/-- The four segments in order. -/
def Seg.all : List Seg := [0, 1, 2, 3]

/-- One value for each of the four segments. -/
structure PerSegment (α : Type) where
  s0 : α
  s1 : α
  s2 : α
  s3 : α
  deriving DecidableEq, Repr, Inhabited

/-- The value of segment `i`. -/
def PerSegment.get {α : Type} (p : PerSegment α) (i : Seg) : α :=
  match i with
  | 0 => p.s0
  | 1 => p.s1
  | 2 => p.s2
  | 3 => p.s3

/-- `p` with the value of segment `i` replaced. -/
def PerSegment.set {α : Type} (p : PerSegment α) (i : Seg) (a : α) : PerSegment α :=
  match i with
  | 0 => { p with s0 := a }
  | 1 => { p with s1 := a }
  | 2 => { p with s2 := a }
  | 3 => { p with s3 := a }

/-- The same value for each segment. -/
def PerSegment.same {α : Type} (a : α) : PerSegment α := ⟨a, a, a, a⟩

/-- `f` applied to each segment's value. -/
def PerSegment.map {α β : Type} (f : α → β) (p : PerSegment α) : PerSegment β :=
  ⟨f p.s0, f p.s1, f p.s2, f p.s3⟩

end Sys2Proof
end

