-- ==== Sys2Proof/Syntax.lean ====
section
/-! DEFINITION. The commands of the TD4: one constructor for each row of spec/opcode_table.json.

A request row (ENTRY_DEFINE to UNKNOWN_KIND_REQUEST) carries no operand: the request itself came in with
FRAME_ARRIVAL and stands in the request queue (R139, R140). The row is the Command Interpreter's carrying out of the
request it has in hand (R143), for a request that uses the Program Store the grant of its one store operation.
The other rows are the events of the link, the schedule, the ports and the supplies. -/

namespace Sys2Proof

/-- One character as a receiver takes it: its eight data bits, and whether its stop bit was at the right level
(R137, R188). -/
structure RxChar where
  data : Byte
  stopOk : Bool
  deriving DecidableEq, Repr, Inhabited

/-- A character with a good stop bit. -/
def RxChar.good (b : Byte) : RxChar := ⟨b, true⟩

/-- What a start-up takes from outside: the levels of the straps LS1 and LS0 as it begins (R135, R170), and how many
of its record operations (writes of the cold initialisation, examinations of the integrity pass) are made before the
next event falls (R169, R172; notes/assumptions/13.md). -/
structure StartInput where
  ls1 : Bool
  ls0 : Bool
  work : Nat
  deriving DecidableEq, Repr, Inhabited

/-- A command. Each constructor is one row of spec/opcode_table.json. -/
inductive Instr where
  /-- ENTRY_DEFINE (R17) -/
  | entryDefine
  /-- ENTRY_ARM (R19) -/
  | entryArm
  /-- ENTRY_DISARM (R20) -/
  | entryDisarm
  /-- ENTRY_DELETE (R21) -/
  | entryDelete
  /-- ENTRY_READ (R22) -/
  | entryRead
  /-- ENTRY_MAP (R23) -/
  | entryMap
  /-- ENTRY_FIRE (R87) -/
  | entryFire
  /-- BODY_LOAD (R38) -/
  | bodyLoad
  /-- BODY_READ (R39) -/
  | bodyRead
  /-- BODY_DROP (R40) -/
  | bodyDrop
  /-- STORE_COMPACT (R41) -/
  | storeCompact
  /-- STORE_STATUS (R45) -/
  | storeStatus
  /-- STORE_ERASE (R46) -/
  | storeErase
  /-- CLOCK_SET (R65) -/
  | clockSet
  /-- CLOCK_READ (R67) -/
  | clockRead
  /-- CLOCK_RULE (R69) -/
  | clockRule
  /-- QUEUE_READ (R102) -/
  | queueRead
  /-- QUEUE_PURGE (R101) -/
  | queuePurge
  /-- DISPATCH_HOLD (R100) -/
  | dispatchHold
  /-- DISPATCH_RELEASE (R100) -/
  | dispatchRelease
  /-- SEGMENT_CONFIG (R128) -/
  | segmentConfig
  /-- SEGMENT_OPEN (R129) -/
  | segmentOpen
  /-- SEGMENT_CLOSE (R130) -/
  | segmentClose
  /-- SEGMENT_HOLD (R132) -/
  | segmentHold
  /-- SEGMENT_RELEASE (R132) -/
  | segmentRelease
  /-- SEGMENT_STATUS (R133) -/
  | segmentStatus
  /-- LINK_ECHO (R151) -/
  | linkEcho
  /-- PART_STATUS (R152) -/
  | partStatus
  /-- PART_RESET (R182) -/
  | partReset
  /-- NOTICE_ACK (R162) -/
  | noticeAck
  /-- NOTICE_MASK (R167) -/
  | noticeMask
  /-- UNKNOWN_KIND_REQUEST (R144) -/
  | unknownKindRequest
  /-- FRAME_ARRIVAL (R139): the characters on RXD that end with the last CHK character of a frame -/
  | frameArrival (chars : List RxChar)
  /-- FRAME_DISCARD (R137): the characters on RXD that end with the one at which a frame is discarded -/
  | frameDiscard (chars : List RxChar)
  /-- INTER_CHARACTER_TIMER_EXPIRY (R138) -/
  | interCharacterTimerExpiry
  /-- REPLY_TRANSMIT_END (R140); the operand is used when the reply is the last of a PART-RESET (R183) -/
  | replyTransmitEnd (start : StartInput)
  /-- NOTICE_FRAME_END (R161) -/
  | noticeFrameEnd
  /-- RESEND_TIMER_EXPIRY (R163) -/
  | resendTimerExpiry
  /-- UPDATE_EVENT (R51) -/
  | updateEvent
  /-- EXPIRY_SWEEP (R99) -/
  | expirySweep
  /-- SCAN_STEP (R73) -/
  | scanStep
  /-- COMPACTION_STEP (R42) -/
  | compactionStep
  /-- FETCH (R113) of one port -/
  | fetch (port : Seg)
  /-- RECORDING_OPERATION (R104) of one port's fetch line -/
  | recordingOperation (port : Seg)
  /-- SEND_START_AFTER_GAP (R109) of one port -/
  | sendStartAfterGap (port : Seg)
  /-- TELEGRAM_SEND_END (R115) of one port -/
  | telegramSendEnd (port : Seg)
  /-- DEVICE_REPLY (R111): characters on one port's SPnRX -/
  | deviceReply (port : Seg) (chars : List RxChar)
  /-- RESPONSE_WINDOW_EXPIRY (R119) of one port -/
  | responseWindowExpiry (port : Seg)
  /-- BACKOFF_EXPIRY (R118) of one port -/
  | backoffExpiry (port : Seg)
  /-- PROBE_TIMER_EXPIRY (R125) of one port -/
  | probeTimerExpiry (port : Seg)
  /-- MAIN_SUPPLY_FAIL (R169) -/
  | mainSupplyFail
  /-- MAIN_SUPPLY_RETURN (R170) -/
  | mainSupplyReturn (start : StartInput)
  /-- NRST_ASSERT (R169) -/
  | nrstAssert
  /-- NRST_RELEASE (R170) -/
  | nrstRelease (start : StartInput)
  /-- BACKUP_LOST (R171) -/
  | backupLost
  /-- START_UP_SEQUENCE_END (R172) -/
  | startUpSequenceEnd
  deriving DecidableEq, Repr

end Sys2Proof
end

