-- ==== Sys2Proof/Machine/Data.lean ====
section
/-! DEFINITION. The records that the TD4's blocks hold: headers, schedules, configuration records, jobs, telegrams,
notices, requests and replies. Plain data; a field that the part tests for its range is a number, so that a stored
value outside the range can be written down (R174, R175). -/

namespace Sys2Proof.Machine

/-! ### The calendar (03) -/

/-- A date and time (R52). The weekday is derived (R55). -/
structure Reading where
  year : Nat
  month : Nat
  day : Nat
  hour : Nat
  minute : Nat
  second : Nat
  deriving DecidableEq, Repr, Inhabited

/-- Which pass through a repeated hour a reading belongs to (R61). -/
inductive Fold where
  | normal
  | first
  | second
  deriving DecidableEq, Repr, Inhabited

/-- One transition of the daylight rule (R48, R58). The weekday is 1 Monday to 7 Sunday (Table 10-4). -/
structure Transition where
  month : Nat
  week : Nat
  weekday : Nat
  hour : Nat
  deriving DecidableEq, Repr, Inhabited

/-- The daylight rule (R48). -/
structure DaylightRule where
  enabled : Bool
  forward : Transition
  back : Transition
  deriving DecidableEq, Repr, Inhabited

/-- What is taken of the Calendar Unit as one snapshot (R52): the time stamp of a notice (R156), and what a pass is
handed (R72). -/
structure Stamp where
  reading : Reading
  fold : Fold
  valid : Bool
  runSecond : RunSecond
  deriving DecidableEq, Repr, Inhabited

/-- Direction of a transition (R63). -/
inductive ShiftDirection where
  | forward
  | back
  deriving DecidableEq, Repr, Inhabited

/-! ### Entry headers (01) -/

/-- The five entry states (R1). -/
inductive EntryState where
  | empty
  | draft
  | armed
  | retired
  | quarantined
  deriving DecidableEq, Repr, Inhabited

/-- The state field as stored: one of the five, or a value that is none of the five (R175). -/
inductive StoredState where
  | named (state : EntryState)
  | illegal (code : Byte)
  deriving DecidableEq, Repr, Inhabited

/-- The day field of a pattern (R4). -/
inductive DayField where
  | any
  | last
  | day (n : Nat)
  deriving DecidableEq, Repr, Inhabited

/-- A CALENDAR pattern (R4); `none` stands for ANY. Bit 0 of the weekday set is Monday, bit 6 Sunday (Table 10-6). -/
structure Pattern where
  second : Option Nat
  minute : Option Nat
  hour : Option Nat
  weekdays : BitVec 7
  day : DayField
  month : Option Nat
  deriving DecidableEq, Repr, Inhabited

/-- The fold policy of a CALENDAR entry (R7). -/
inductive FoldPolicy where
  | once
  | twice
  deriving DecidableEq, Repr, Inhabited

/-- The schedule fields of the two kinds (R1, R8). -/
inductive Schedule where
  | calendar (pattern : Pattern) (policy : FoldPolicy)
  | interval (period firstOffset remaining : Nat)
  deriving DecidableEq, Repr, Inhabited

/-- The report mode (R9). -/
inductive ReportMode where
  | none
  | failures
  | all
  deriving DecidableEq, Repr, Inhabited

/-- The eleven outcomes (Table 5-2). -/
inductive JobOutcome where
  | delivered
  | broadcastSent
  | rejected
  | failed
  | busyLimit
  | expired
  | dropped
  | fault
  | superseded
  | purged
  | abandoned
  deriving DecidableEq, Repr, Inhabited

/-- Last match, tagged with its form (R12). -/
inductive LastMatch where
  | reading (r : Reading) (fold : Fold)
  | runSecond (n : RunSecond)
  deriving DecidableEq, Repr, Inhabited

/-- The body reference (R11). -/
structure BodyRef where
  first : Nat
  length : Nat
  deriving DecidableEq, Repr, Inhabited

/-- The fields that a DRAFT, ARMED or RETIRED header must hold (Table 1-2). A fire count of `none` is UNLIMITED. -/
structure Definition where
  schedule : Schedule
  segment : Nat
  destination : Nat
  urgency : Nat
  fireCount : Option Nat
  remainingFires : Option Nat
  reload : Bool
  report : ReportMode
  coalesced : Nat
  deriving DecidableEq, Repr, Inhabited

/-- The contents of an entry header (Table 1-1), less its check. -/
structure Header where
  state : StoredState
  defn : Option Definition
  body : Option BodyRef
  lastOutcome : Option JobOutcome
  lastMatch : Option LastMatch
  deriving DecidableEq, Repr, Inhabited

/-- A stored header with its check (R3). -/
structure StoredHeader where
  header : Header
  check : Word16
  deriving DecidableEq, Repr, Inhabited

/-! ### Configuration records (02) -/

/-- A segment configuration record (Table 2-5). The line speed is its code (Table 10-4). -/
structure SegConfig where
  lineSpeed : Nat
  window : Nat
  retryLimit : Nat
  backoff : Nat
  busyLimit : Nat
  ageLimit : Nat
  probeInterval : Nat
  openAtStart : Bool
  deriving DecidableEq, Repr, Inhabited

/-- A stored segment configuration record with its check (R49). -/
structure StoredSegConfig where
  config : SegConfig
  check : Word16
  deriving DecidableEq, Repr, Inhabited

/-- The stored daylight rule record with its check (R49). -/
structure StoredDaylight where
  rule : DaylightRule
  check : Word16
  deriving DecidableEq, Repr, Inhabited

/-! ### The store's faults and requesters (02) -/

/-- The record of an entry in which a fault was found (R34). -/
inductive FaultRecord where
  | header
  | body
  deriving DecidableEq, Repr, Inhabited

/-- The path on which a fault was found (Table 2-4). -/
inductive FaultPath where
  | scan
  | fetch
  | hostRead
  | compaction
  | startUp
  deriving DecidableEq, Repr, Inhabited

/-- A configuration record, by name (R49). -/
inductive ConfigName where
  | segment (i : Seg)
  | daylight
  deriving DecidableEq, Repr, Inhabited

/-- An item of the start-up fault list (R174, R177). -/
inductive FaultItem where
  | config (name : ConfigName)
  | entry (e : EntryIx) (record : FaultRecord)
  deriving DecidableEq, Repr, Inhabited

/-- The seven requesters of store operations (R27). -/
inductive Requester where
  | commandInterpreter
  | matcher
  | fetch (i : Seg)
  | compactor
  deriving DecidableEq, Repr, Inhabited

/-! ### Jobs (05) -/

/-- The cause of a job (Table 5-1). -/
inductive JobCause where
  | calendar
  | interval
  | manual
  deriving DecidableEq, Repr, Inhabited

/-- A reading with its fold: a due reading (Table 5-1). -/
structure DueReading where
  reading : Reading
  fold : Fold
  deriving DecidableEq, Repr, Inhabited

/-- A job record (Table 5-1). -/
structure Job where
  tag : Word16
  entry : EntryIx
  destination : Nat
  urgency : Nat
  cause : JobCause
  due : Option DueReading
  created : RunSecond
  stale : Bool
  inService : Bool
  attempts : Nat
  busy : Nat
  deriving DecidableEq, Repr, Inhabited

/-- The reason of a DROPPED outcome (R106). -/
inductive DropReason where
  | closed
  | full
  | displaced
  deriving DecidableEq, Repr, Inhabited

/-- The end of a job, or of an offer ended at once: what a pending outcome record holds (R104) and a DISPATCH-REPORT
carries (R106). -/
structure JobEnd where
  tag : Word16
  entry : EntryIx
  segment : Seg
  destination : Nat
  cause : JobCause
  due : Option DueReading
  created : RunSecond
  outcome : JobOutcome
  reason : Option DropReason
  stale : Bool
  attempts : Nat
  busy : Nat
  deriving DecidableEq, Repr, Inhabited

/-- What an offer carries to the Dispatch Queue Manager (R80). -/
structure Offer where
  entry : EntryIx
  destination : Nat
  urgency : Nat
  cause : JobCause
  due : Option DueReading
  created : RunSecond
  deriving DecidableEq, Repr, Inhabited

/-- The disposition of an offer (R81). -/
inductive Disposition where
  | queued (tag : Word16)
  | coalesced (tag : Word16)
  | dropped
  | closed
  deriving DecidableEq, Repr, Inhabited

/-! ### Segment ports (06) -/

/-- The health of a segment (R123). -/
inductive Health where
  | closed
  | up
  | suspect
  | down
  deriving DecidableEq, Repr, Inhabited

/-- The transmitter states of a port (Table 6-2). -/
inductive TxState where
  | idle
  | fetch
  | send
  | await
  | backoff
  deriving DecidableEq, Repr, Inhabited

/-- The sequence state of a destination (R122). -/
inductive SeqState where
  | zero
  | one
  | unknown
  deriving DecidableEq, Repr, Inhabited

/-- A telegram in a transmit buffer (R110): kind PROBE or DATA, sequence bit, resync mark, body. -/
structure Telegram where
  destination : Nat
  probe : Bool
  seqBit : Bool
  resync : Bool
  body : List Byte
  deriving DecidableEq, Repr, Inhabited

/-- One bit of a character on a serial line: its start bit, a data bit, or its stop bit (R109, R135). -/
inductive LineBit where
  | start
  | data (value : Bool)
  | stop
  deriving DecidableEq, Repr, Inhabited

/-- What stands on SPnTX or TXD (R109, R135): the idle line level, or the bits of a transmission at the code of a segment's
line speed or of the link speed (Table 10-4). -/
inductive LineOutput where
  | idle
  | sends (speed : Nat) (bits : List LineBit)
  deriving DecidableEq, Repr, Inhabited

/-- The operation presented on a port's fetch line (R104, R112). -/
inductive FetchOp where
  | none
  | record
  | fetch
  deriving DecidableEq, Repr, Inhabited

/-- The cause of a SEGMENT-STATE notice (R124). -/
inductive HealthCause where
  | silence
  | reply
  | probe
  | open
  | close
  deriving DecidableEq, Repr, Inhabited

/-! ### Start-up (09) -/

/-- The cause of a start-up (R170). -/
inductive StartCause where
  | cold
  | powerOn
  | pin
  | request
  deriving DecidableEq, Repr, Inhabited

/-- The phases of the part (Table 9-1). -/
inductive Phase where
  | unpowered
  | held
  | starting
  | inService
  | resetting
  deriving DecidableEq, Repr, Inhabited

/-- One record operation of a start-up sequence: a write of the cold initialisation (R173) or an examination of the
integrity pass (R174, R175). -/
inductive StartUnit where
  | coldHeader (e : EntryIx)
  | coldSegment (i : Seg)
  | coldDaylight
  | coldCalendar
  | coldLatch
  | testSegment (i : Seg)
  | testDaylight
  | testEntry (e : EntryIx)
  deriving DecidableEq, Repr, Inhabited

/-! ### Notices (08) -/

/-- The body of a notice, by kind (Table 8-2). -/
inductive NoticeBody where
  | started (cause : StartCause) (entries records : Nat) (valid : Bool)
  | dispatchReport (jobEnd : JobEnd)
  | countExhausted (entry : EntryIx) (fireCount : Option Nat) (disposition : Disposition)
  | entryFault (entry : EntryIx) (record : FaultRecord) (path : FaultPath)
  | configFault (name : ConfigName) (path : FaultPath)
  | compactionEnd (moved topRun : Nat)
  | clockShift (direction : ShiftDirection) (candidate : Reading) (hours : Nat)
  | segmentState (segment : Seg) (before after : Health) (silence : Nat) (cause : HealthCause)
      (destination : Option Nat)
  | queueHigh (segment : Seg) (count : Nat)
  | gap (count : Nat)
  deriving DecidableEq, Repr, Inhabited

/-- A notice (R156). -/
structure Notice where
  serial : Word16
  stamp : Stamp
  body : NoticeBody
  deriving DecidableEq, Repr, Inhabited

/-- A notice in the queue, with its condition (R155). -/
structure QueuedNotice where
  notice : Notice
  inFlight : Bool
  resend : Bool
  deriving DecidableEq, Repr, Inhabited

/-! ### The host link (07) -/

/-- The link speeds (Table 7-2). -/
inductive LinkSpeed where
  | b19200
  | b57600
  | b115200
  | b230400
  deriving DecidableEq, Repr, Inhabited

/-- The receiver states with the characters kept (Table 7-3). `kept` is in order of arrival. -/
inductive Receiver where
  | hunt
  | length
  | collect (len : Byte) (kept : List Byte)
  | check (len : Byte) (kept : List Byte) (chkHigh : Option Byte)
  deriving DecidableEq, Repr, Inhabited

/-- A taken request (R140). `built`: its reply is built and placed in the reply list (R143). -/
structure Request where
  seq : Byte
  kind : Byte
  body : List Byte
  built : Bool
  deriving DecidableEq, Repr, Inhabited

/-- A reply in the reply list or on the line: the SEQ and KIND of the frame it answers, its body with the status
first, and whether it is an immediate answer (R141, R142). -/
structure Reply where
  seq : Byte
  kind : Byte
  body : List Byte
  immediate : Bool
  deriving DecidableEq, Repr, Inhabited

/-- An entry of the reply cache (R145). -/
structure CacheEntry where
  seq : Byte
  kind : Byte
  body : List Byte
  deriving DecidableEq, Repr, Inhabited

/-- The frame on TXD (R147). -/
inductive TxFrame where
  | reply (r : Reply)
  | notice (n : Notice)
  deriving DecidableEq, Repr, Inhabited

end Sys2Proof.Machine
end

