-- ==== Sys2Proof/Machine/CalendarMath.lean ====
section
/-! DEFINITION. Dates and times: month lengths, weekdays, the advance by one second, and the daylight rule
(R52 to R62). -/

namespace Sys2Proof.Machine

/-- A leap year (R5, R52). -/
def leapYear (y : Nat) : Bool := (y % 4 == 0 && y % 100 != 0) || y % 400 == 0

/-- The last day of a month in a year (R5, R52). -/
def lastDay (y m : Nat) : Nat :=
  match m with
  | 2 => if leapYear y then 29 else 28
  | 4 => 30
  | 6 => 30
  | 9 => 30
  | 11 => 30
  | _ => 31

/-- The days of the first `k` months of a year. -/
def daysInMonths (y : Nat) : Nat → Nat
  | 0 => 0
  | k + 1 => daysInMonths y k + lastDay y (k + 1)

/-- The days of the `n` years from 2000 on. -/
def daysInYears : Nat → Nat
  | 0 => 0
  | n + 1 => daysInYears n + (if leapYear (2000 + n) then 366 else 365)

/-- The days from 2000-01-01 to a date (R55). -/
def daysFrom2000 (y m d : Nat) : Nat := daysInYears (y - 2000) + daysInMonths y (m - 1) + (d - 1)

/-- The weekday of a date, 1 Monday to 7 Sunday: Saturday moved on by the days from 2000-01-01 (R55). -/
def weekdayOf (y m d : Nat) : Nat := (daysFrom2000 y m d + 5) % 7 + 1

/-- The weekday of a reading (R55). -/
def Reading.weekday (r : Reading) : Nat := weekdayOf r.year r.month r.day

/-- The reading a cold start or the end of the range writes (R54, R70). -/
def firstReading : Reading := ⟨2000, 1, 1, 0, 0, 0⟩

/-- The last reading of the range (R54). -/
def lastReading : Reading := ⟨2199, 12, 31, 23, 59, 59⟩

/-- A valid date and time of the calendar's range (R52). -/
def Reading.inRange (r : Reading) : Bool :=
  decide (2000 ≤ r.year ∧ r.year ≤ 2199 ∧ 1 ≤ r.month ∧ r.month ≤ 12 ∧ 1 ≤ r.day ∧ r.day ≤ lastDay r.year r.month ∧
    r.hour ≤ 23 ∧ r.minute ≤ 59 ∧ r.second ≤ 59)

/-- The day after a date at 00:00:00, with its carries (R53). -/
def Reading.nextDay (r : Reading) : Reading :=
  if r.day < lastDay r.year r.month then ⟨r.year, r.month, r.day + 1, 0, 0, 0⟩
  else if r.month < 12 then ⟨r.year, r.month + 1, 1, 0, 0, 0⟩
  else ⟨r.year + 1, 1, 1, 0, 0, 0⟩

/-- The candidate reading: one second later, with carries (R53). -/
def Reading.next (r : Reading) : Reading :=
  if r.second < 59 then { r with second := r.second + 1 }
  else if r.minute < 59 then { r with second := 0, minute := r.minute + 1 }
  else if r.hour < 23 then { r with second := 0, minute := 0, hour := r.hour + 1 }
  else r.nextDay

/-- The first day of the month with the transition's weekday. -/
def firstOccurrence (t : Transition) (y : Nat) : Nat := 1 + (t.weekday + 7 - weekdayOf y t.month 1) % 7

/-- The day of the month of a transition's date in a year (R58). -/
def transitionDay (t : Transition) (y : Nat) : Nat :=
  if t.week < 5 then firstOccurrence t y + 7 * (t.week - 1)
  else firstOccurrence t y + 7 * ((lastDay y t.month - firstOccurrence t y) / 7)

/-- Whether a reading falls on a transition's date (R58). -/
def onTransitionDate (t : Transition) (r : Reading) : Bool :=
  r.month == t.month && r.day == transitionDay t r.year

/-- Whether a reading is exactly a transition's date at its hour (R59, R60). -/
def atTransition (t : Transition) (r : Reading) : Bool :=
  onTransitionDate t r && r.hour == t.hour && r.minute == 0 && r.second == 0

/-- Whether a reading lies in the skipped hour (R58). -/
def inSkippedHour (rule : DaylightRule) (r : Reading) : Bool :=
  rule.enabled && onTransitionDate rule.forward r && r.hour == rule.forward.hour

/-- Whether a reading lies in the repeated hour (R58). -/
def inRepeatedHour (rule : DaylightRule) (r : Reading) : Bool :=
  rule.enabled && onTransitionDate rule.back r && r.hour + 1 == rule.back.hour

/-- Whether the forward transition is applied at an update with this candidate (R59). -/
def forwardApplies (rule : DaylightRule) (valid : Bool) (candidate : Reading) : Bool :=
  rule.enabled && valid && atTransition rule.forward candidate

/-- Whether the back transition is applied at an update with this candidate (R60): never together with the forward
one. -/
def backApplies (rule : DaylightRule) (valid : Bool) (fold : Fold) (candidate : Reading) : Bool :=
  rule.enabled && valid && fold != .second && atTransition rule.back candidate &&
    !forwardApplies rule valid candidate

/-- The fold of the new reading (R61, R62). -/
def foldAfter (rule : DaylightRule) (valid : Bool) (before : Fold) (backApplied : Bool) (new : Reading) : Fold :=
  if !valid || !rule.enabled then .normal
  else if backApplied then .second
  else if inRepeatedHour rule new then (if before = .second then .second else .first)
  else .normal

/-- The fold that agrees with a rule newly taken (R69). -/
def foldUnder (rule : DaylightRule) (fold : Fold) (r : Reading) : Fold :=
  if fold = .normal then .normal else if inRepeatedHour rule r then fold else .normal

/-- What one update event makes of the reading, the fold and the clock-valid flag, and the transition it applied with
its candidate (R51 steps 1 and 2, R53, R54, R59 to R62). -/
structure UpdateResult where
  reading : Reading
  fold : Fold
  valid : Bool
  shift : Option (ShiftDirection × Reading)
  deriving DecidableEq, Repr

/-- Steps 1 and 2 of R51. -/
def updateReading (rule : DaylightRule) (valid : Bool) (fold : Fold) (r : Reading) : UpdateResult :=
  if r = lastReading then ⟨firstReading, .normal, false, none⟩
  else
    let c := r.next
    if forwardApplies rule valid c then
      let new := { c with hour := c.hour + 1 }
      ⟨new, foldAfter rule valid fold false new, valid, some (.forward, c)⟩
    else if backApplies rule valid fold c then
      let new := { c with hour := c.hour - 1 }
      ⟨new, foldAfter rule valid fold true new, valid, some (.back, c)⟩
    else ⟨c, foldAfter rule valid fold false c, valid, none⟩

/-- Whether a reading's day agrees with a day field (R5). -/
def DayField.agrees (f : DayField) (r : Reading) : Bool :=
  match f with
  | .any => true
  | .last => r.day == lastDay r.year r.month
  | .day n => r.day == n

/-- Whether a field that takes a value or ANY agrees with a value (R5). -/
def anyOr (f : Option Nat) (n : Nat) : Bool :=
  match f with
  | none => true
  | some v => v == n

/-- Whether a reading satisfies a pattern (R5). -/
def Pattern.satisfiedBy (p : Pattern) (r : Reading) : Bool :=
  anyOr p.second r.second && anyOr p.minute r.minute && anyOr p.hour r.hour &&
    p.weekdays.getLsbD (r.weekday - 1) && p.day.agrees r && anyOr p.month r.month

/-- Whether a day field and a month can never agree (R6). -/
def impossibleDay (d : DayField) (month : Option Nat) : Bool :=
  match d, month with
  | .day n, some m => (m == 2 && 29 < n) || ((m == 4 || m == 6 || m == 9 || m == 11) && n == 31)
  | _, _ => false

end Sys2Proof.Machine
end

