-- ==== Sys2Proof/Machine/Check.lean ====
section
/-! DEFINITION. The check of section 10.1, and numbers as bytes with the high byte first (0.9, Byte order). -/

namespace Sys2Proof.Machine

/-- One bit through the cyclic code with generator 1021H (10.1). -/
def crcBit (c : Word16) : Word16 :=
  if c.msb then (c <<< 1) ^^^ 0x1021#16 else c <<< 1

/-- One byte through the code, most significant bit first (10.1). -/
def crcByte (c : Word16) (b : Byte) : Word16 :=
  let c := c ^^^ (b.setWidth 16 <<< 8)
  crcBit (crcBit (crcBit (crcBit (crcBit (crcBit (crcBit (crcBit c)))))))

/-- The 16-bit check over some bytes, starting from FFFFH (10.1). -/
def crc16 (bs : List Byte) : Word16 := bs.foldl crcByte 0xFFFF#16

/-- A number as one byte. -/
def byte1 (n : Nat) : Byte := BitVec.ofNat 8 n

/-- A number as two bytes, high byte first. -/
def byte2 (n : Nat) : List Byte := [byte1 (n / 256), byte1 n]

/-- A number as three bytes, high byte first. -/
def byte3 (n : Nat) : List Byte := [byte1 (n / 65536), byte1 (n / 256), byte1 n]

/-- A number as four bytes, high byte first. -/
def byte4 (n : Nat) : List Byte := [byte1 (n / 16777216), byte1 (n / 65536), byte1 (n / 256), byte1 n]

/-- A flag or a yes/no field as its code (Table 10-4). -/
def flagBit (b : Bool) : Nat := if b then 1 else 0

/-- The number that some bytes stand for, high byte first. -/
def natOfBytes (bs : List Byte) : Nat := bs.foldl (fun n b => n * 256 + b.toNat) 0

end Sys2Proof.Machine
end

