-- ==== Sys2Proof/Machine/Flags.lean ====
section
/-! DEFINITION. The codes and flag bytes of chapter 10: value codes (Tables 10-3, 10-4), carried records (Tables 10-5
to 10-8), notice bodies (Table 10-10), telegrams (Table 10-11), frames (Table 10-1); and the checks of stored
records. -/

namespace Sys2Proof.Machine

/-! ### Value codes (Table 10-4) -/

/-- Entry state code. -/
def EntryState.code : EntryState → Nat
  | .empty => 0
  | .draft => 1
  | .armed => 2
  | .retired => 3
  | .quarantined => 4

/-- Outcome code. -/
def JobOutcome.code : JobOutcome → Nat
  | .delivered => 1
  | .broadcastSent => 2
  | .rejected => 3
  | .failed => 4
  | .busyLimit => 5
  | .expired => 6
  | .dropped => 7
  | .fault => 8
  | .superseded => 9
  | .purged => 10
  | .abandoned => 11

/-- DROPPED reason code; absent is 0 none. -/
def dropReasonCode : Option DropReason → Nat
  | none => 0
  | some .closed => 1
  | some .full => 2
  | some .displaced => 3

/-- Job cause code. -/
def JobCause.code : JobCause → Nat
  | .calendar => 0
  | .interval => 1
  | .manual => 2

/-- Offer disposition code. -/
def Disposition.code : Disposition → Nat
  | .queued _ => 0
  | .coalesced _ => 1
  | .dropped => 2
  | .closed => 3

/-- The tag meaning "no job" (R91). -/
def noTag : Word16 := 0xFFFF#16

/-- The tag a disposition carries, or FFFFH (R83, R87). -/
def Disposition.tag : Disposition → Word16
  | .queued t => t
  | .coalesced t => t
  | .dropped => noTag
  | .closed => noTag

/-- Health code. -/
def Health.code : Health → Nat
  | .closed => 0
  | .up => 1
  | .suspect => 2
  | .down => 3

/-- Transmitter state code, with bit 7 for a probe. -/
def txStateCode (t : TxState) (probe : Bool) : Nat :=
  (match t with
   | .idle => 0
   | .fetch => 1
   | .send => 2
   | .await => 3
   | .backoff => 4) + (if probe then 128 else 0)

/-- Fold code. -/
def Fold.code : Fold → Nat
  | .normal => 0
  | .first => 1
  | .second => 2

/-- Link speed code. -/
def LinkSpeed.code : LinkSpeed → Nat
  | .b19200 => 0
  | .b57600 => 1
  | .b115200 => 2
  | .b230400 => 3

/-- The link speed that the straps select (Table 7-2). -/
def LinkSpeed.ofStraps (ls1 ls0 : Bool) : LinkSpeed :=
  match ls1, ls0 with
  | false, false => .b19200
  | false, true => .b57600
  | true, false => .b115200
  | true, true => .b230400

/-- Start-up cause code. -/
def StartCause.code : StartCause → Nat
  | .cold => 0
  | .powerOn => 1
  | .pin => 2
  | .request => 3

/-- Fault path code. -/
def FaultPath.code : FaultPath → Nat
  | .scan => 0
  | .fetch => 1
  | .hostRead => 2
  | .compaction => 3
  | .startUp => 4

/-- Record code: 0 HEADER, 1 BODY (10.5, Table 10-10). -/
def FaultRecord.code : FaultRecord → Nat
  | .header => 0
  | .body => 1

/-- SEGMENT-STATE cause code. -/
def HealthCause.code : HealthCause → Nat
  | .silence => 0
  | .reply => 1
  | .probe => 2
  | .open => 3
  | .close => 4

/-- Report mode code (Table 10-6). -/
def ReportMode.code : ReportMode → Nat
  | .none => 0
  | .failures => 1
  | .all => 2

/-- Configuration record by number: segment 0 to 3, or 4 for daylight (Table 10-10). -/
def ConfigName.code : ConfigName → Nat
  | .segment i => i.val
  | .daylight => 4

/-! ### Carried records -/

/-- A reading in six bytes, with the clock-valid bit (Table 10-5). -/
def readingBytes (r : Reading) (fold : Fold) (validBit : Bool) : List Byte :=
  [byte1 (r.year - 2000), byte1 (r.month + 16 * fold.code + 64 * flagBit validBit),
   byte1 (r.day + 32 * r.weekday), byte1 r.hour, byte1 r.minute, byte1 r.second]

/-- Some bytes of zero: an absent field (R186). -/
def zeros (n : Nat) : List Byte := List.replicate n 0

/-- A due reading in six bytes, zero when absent (Table 10-7). -/
def dueBytes : Option DueReading → List Byte
  | none => zeros 6
  | some d => readingBytes d.reading d.fold false

/-- A field with ANY as FFH (Table 10-6). -/
def anyByte : Option Nat → Byte
  | none => 0xFF#8
  | some n => byte1 n

/-- The day field (Table 10-6). -/
def DayField.byte : DayField → Byte
  | .any => 0xFF#8
  | .last => 0x20#8
  | .day n => byte1 n

/-- A fire count with UNLIMITED as FFFFH (Table 10-6). -/
def fireBytes : Option Nat → List Byte
  | none => [0xFF#8, 0xFF#8]
  | some n => byte2 n

/-- The schedule fields, from the kind onward (Table 10-6, with remaining after the first offset, 10.3). -/
def scheduleBytes : Schedule → List Byte
  | .calendar p policy =>
    [0#8, anyByte p.second, anyByte p.minute, anyByte p.hour, p.weekdays.setWidth 8, p.day.byte, anyByte p.month,
     match policy with
     | .once => 0#8
     | .twice => 1#8]
  | .interval period first remaining => 1#8 :: (byte3 period ++ byte3 first ++ byte3 remaining)

/-- The fields of a definition from the kind to the coalesced count (10.3). -/
def definitionBytes (d : Definition) : List Byte :=
  scheduleBytes d.schedule ++ [byte1 d.segment, byte1 d.destination, byte1 d.urgency] ++ fireBytes d.fireCount ++
    fireBytes d.remainingFires ++ [byte1 (flagBit d.reload), byte1 d.report.code, byte1 d.coalesced]

/-- The state field's code. -/
def StoredState.code : StoredState → Byte
  | .named st => byte1 st.code
  | .illegal c => c

/-- Body reference, last outcome and last match behind their presence byte (10.3). -/
def historyBytes (h : Header) : List Byte :=
  let runSecondForm := match h.lastMatch with
    | some (.runSecond _) => true
    | _ => false
  byte1 (flagBit h.body.isSome + 2 * flagBit h.lastOutcome.isSome + 4 * flagBit h.lastMatch.isSome +
      8 * flagBit runSecondForm) ::
    ((match h.body with
      | none => zeros 3
      | some b => byte2 b.first ++ [byte1 b.length]) ++
     (match h.lastOutcome with
      | none => zeros 1
      | some o => [byte1 o.code]) ++
     (match h.lastMatch with
      | none => zeros 6
      | some (.reading r f) => readingBytes r f false
      | some (.runSecond n) => byte4 n.toNat ++ zeros 2))

/-- A header's contents in the order ENTRY-READ carries them, from the state on (10.3). -/
def headerBytes (h : Header) : List Byte :=
  h.state.code ::
    ((match h.defn with
      | none => []
      | some d => definitionBytes d) ++ historyBytes h)

/-- What ENTRY-READ returns of a header after its status (10.3): index and state alone for EMPTY and QUARANTINED,
otherwise the whole header. -/
def entryReadBytes (e : EntryIx) (h : Header) : List Byte := byte1 e.val :: headerBytes h

/-- A segment configuration record in ten bytes (Table 10-8). -/
def segConfigBytes (c : SegConfig) : List Byte :=
  [byte1 c.lineSpeed, byte1 c.window, byte1 c.retryLimit] ++ byte2 c.backoff ++ [byte1 c.busyLimit] ++
    byte2 c.ageLimit ++ [byte1 c.probeInterval, byte1 (flagBit c.openAtStart)]

/-- A transition in four bytes (10.3). -/
def transitionBytes (t : Transition) : List Byte := [byte1 t.month, byte1 t.week, byte1 t.weekday, byte1 t.hour]

/-- A daylight rule in nine bytes (10.3). -/
def daylightBytes (r : DaylightRule) : List Byte :=
  byte1 (flagBit r.enabled) :: (transitionBytes r.forward ++ transitionBytes r.back)

/-- Job byte 3: destination with the stale mark in bit 7 (Table 10-7). -/
def destinationByte (destination : Nat) (stale : Bool) : Byte := byte1 (destination + 128 * flagBit stale)

/-- A job in fifteen bytes (Table 10-7). -/
def jobBytes (j : Job) : List Byte :=
  byte2 j.tag.toNat ++
    [byte1 j.entry.val, destinationByte j.destination j.stale,
     byte1 (j.urgency + 4 * j.cause.code + 16 * flagBit j.inService + 32 * flagBit j.due.isSome)] ++
    dueBytes j.due ++ byte4 j.created.toNat

/-! ### Checks of stored records (R3, R33; notes/assumptions/9.md) -/

/-- The check of a header's contents. -/
def headerCheck (h : Header) : Word16 := crc16 (headerBytes h)

/-- The check of a segment configuration record. -/
def segConfigCheck (c : SegConfig) : Word16 := crc16 (segConfigBytes c)

/-- The check of the daylight rule record. -/
def daylightCheck (r : DaylightRule) : Word16 := crc16 (daylightBytes r)

/-- A header as written, with a fresh check (R3). -/
def freshHeader (h : Header) : StoredHeader := ⟨h, headerCheck h⟩

/-- A segment configuration record as written, with a fresh check (R49). -/
def freshSegConfig (c : SegConfig) : StoredSegConfig := ⟨c, segConfigCheck c⟩

/-- A daylight rule record as written, with a fresh check (R49). -/
def freshDaylight (r : DaylightRule) : StoredDaylight := ⟨r, daylightCheck r⟩

/-- A header that holds its state alone: EMPTY, or the QUARANTINED marker (R1, R34). -/
def bareHeader (st : EntryState) : Header := ⟨.named st, none, none, none, none⟩

/-- The default segment configuration record (Table 2-5). -/
def defaultSegConfig : SegConfig := ⟨1, 20, 3, 50, 10, 300, 10, false⟩

/-- The default daylight rule (R48): disabled, last Sunday of month 3 at hour 2, last Sunday of month 10 at hour 3. -/
def defaultDaylight : DaylightRule := ⟨false, ⟨3, 5, 7, 2⟩, ⟨10, 5, 7, 3⟩⟩

/-! ### Notices (Tables 8-2, 10-10) -/

/-- Notice codes, 0 to 8 (10.2). -/
def NoticeBody.code : NoticeBody → Nat
  | .started .. => 0
  | .dispatchReport .. => 1
  | .countExhausted .. => 2
  | .entryFault .. => 3
  | .configFault .. => 3
  | .compactionEnd .. => 4
  | .clockShift .. => 5
  | .segmentState .. => 6
  | .queueHigh .. => 7
  | .gap .. => 8

/-- A notice's contents after the stamp (Table 10-10). -/
def NoticeBody.bytes : NoticeBody → List Byte
  | .started cause entries records valid =>
    [byte1 cause.code] ++ byte2 entries ++ [byte1 records, byte1 (flagBit valid)]
  | .dispatchReport j =>
    byte2 j.tag.toNat ++
      [byte1 j.entry.val, byte1 j.segment.val, destinationByte j.destination j.stale,
       byte1 (4 * j.cause.code + 32 * flagBit j.due.isSome)] ++
      dueBytes j.due ++ byte4 j.created.toNat ++
      [byte1 j.outcome.code, byte1 (dropReasonCode j.reason), byte1 j.attempts, byte1 j.busy]
  | .countExhausted e fireCount d =>
    [byte1 e.val] ++ fireBytes fireCount ++ [byte1 d.code] ++ byte2 d.tag.toNat
  | .entryFault e record path => [0#8, byte1 e.val, byte1 record.code, byte1 path.code]
  | .configFault name path => [1#8, byte1 name.code, 0xFF#8, byte1 path.code]
  | .compactionEnd moved topRun => byte2 moved ++ byte2 topRun
  | .clockShift direction candidate hours =>
    [match direction with
     | .forward => 0#8
     | .back => 1#8] ++ readingBytes candidate .normal false ++ [byte1 hours]
  | .segmentState seg before after silence cause destination =>
    [byte1 seg.val, byte1 before.code, byte1 after.code, byte1 silence, byte1 cause.code, byte1 (destination.getD 0)]
  | .queueHigh seg count => [byte1 seg.val, byte1 count]
  | .gap count => byte2 count

/-- A stamp in ten bytes (10.6). -/
def Stamp.bytes (t : Stamp) : List Byte := readingBytes t.reading t.fold t.valid ++ byte4 t.runSecond.toNat

/-- A notice frame's body: serial, stamp, contents (10.6). -/
def Notice.frameBody (n : Notice) : List Byte := byte2 n.serial.toNat ++ n.stamp.bytes ++ n.body.bytes

/-! ### Frames and telegrams -/

/-- A host frame: A5H, LEN, SEQ, KIND, BODY, CHK (Table 10-1, R186). -/
def frameBytes (seq kind : Byte) (body : List Byte) : List Byte :=
  let checked := byte1 (body.length + 2) :: seq :: kind :: body
  0xA5#8 :: (checked ++ byte2 (crc16 checked).toNat)

/-- Whether a KIND names a request of Table 10-2. -/
def knownKind (kind : Byte) : Bool :=
  let k := kind.toNat
  (0x01 ≤ k && k ≤ 0x07) || (0x10 ≤ k && k ≤ 0x15) || (0x18 ≤ k && k ≤ 0x1A) || (0x20 ≤ k && k ≤ 0x23) ||
    (0x28 ≤ k && k ≤ 0x2D) || (0x30 ≤ k && k ≤ 0x32) || k == 0x38 || k == 0x39

/-- The KIND of a reply (R186). -/
def replyKind (kind : Byte) : Byte := if knownKind kind then kind + 0x80#8 else 0xBF#8

/-- The frame on TXD, byte for byte (R141, R146, R148, R186). -/
def TxFrame.bytes : TxFrame → List Byte
  | .reply r => frameBytes r.seq (replyKind r.kind) r.body
  | .notice n => frameBytes 0#8 (byte1 (0xC0 + n.body.code)) n.frameBody

/-- A telegram, byte for byte (Table 10-11). -/
def Telegram.bytes (t : Telegram) : List Byte :=
  let checked := byte1 t.destination ::
    byte1 (flagBit t.probe + 2 * flagBit t.seqBit + 4 * flagBit t.resync) :: byte1 t.body.length :: t.body
  0x96#8 :: (checked ++ byte2 (crc16 checked).toNat)

/-- A character on a serial line: a start bit, eight data bits, least significant bit first, a stop bit, and no parity
bit (R109, R135). -/
def characterBits (b : Byte) : List LineBit :=
  .start :: ((List.range 8).map (fun k => .data (b.getLsbD k)) ++ [.stop])

/-- Some characters on a serial line, one after another without pause (R109, R147). -/
def lineBits (bytes : List Byte) : List LineBit := bytes.flatMap characterBits

end Sys2Proof.Machine
end

