-- ==== Sys2Proof/Machine/Operands.lean ====
section
/-! DEFINITION. The bodies of the requests (10.4): their lengths (Table 10-2), layouts (Table 10-6, section 10.3), the
tests of their fields in order (R187, R144), and what each carries. -/

namespace Sys2Proof.Machine

/-- Why a request is refused at tests 1 to 3 (R144). -/
inductive ReqError where
  | unknownKind
  | badLength
  | badField (ordinal : Nat)
  deriving DecidableEq, Repr

/-- What ENTRY-DEFINE carries (R16). -/
structure DefineReq where
  index : EntryIx
  arm : Bool
  keepBody : Bool
  defn : Definition
  deriving DecidableEq, Repr

/-- What CLOCK-SET carries (R64): an optional fold. -/
structure ClockSetReq where
  reading : Reading
  fold : Option Fold
  deriving DecidableEq, Repr

/-- The ordinal of the first test that fails; a test is an ordinal with whether it holds (R144, R187). -/
def firstFault : List (Nat × Bool) → Option Nat
  | [] => none
  | (n, ok) :: rest => if ok then firstFault rest else some n

/-- The result of some field tests: the first failure, or what the body carries. -/
def tested {α : Type} (tests : List (Nat × Bool)) (a : α) : Except ReqError α :=
  match firstFault tests with
  | some n => .error (.badField n)
  | none => .ok a

/-- Byte `k` of a body. -/
def byteAt (body : List Byte) (k : Nat) : Nat := (body.getD k 0).toNat

/-- The number in the `n` bytes from byte `k`. -/
def natAt (body : List Byte) (k n : Nat) : Nat := natOfBytes ((body.drop k).take n)

/-- An entry index byte; it always lies in 0 to 255 (1.4). -/
def entryIx (n : Nat) : EntryIx := Fin.ofNat 256 n

/-- A value up to `max`, or FFH for ANY (Table 10-6). -/
def anyInRange (max n : Nat) : Bool := n ≤ max || n == 255

/-- A field with FFH for ANY. -/
def anyField (n : Nat) : Option Nat := if n = 255 then none else some n

/-- The day field (Table 10-6). -/
def dayField (n : Nat) : DayField := if n = 255 then .any else if n = 32 then .last else .day n

/-- The report mode's code (Table 10-6). -/
def reportMode (n : Nat) : ReportMode :=
  match n with
  | 0 => .none
  | 1 => .failures
  | _ => .all

/-- A fire count with FFFFH for UNLIMITED (Table 10-6). -/
def fireField (n : Nat) : Option Nat := if n = 0xFFFF then none else some n

/-- The tests of the target and delivery fields, which begin at byte `k` with ordinal `o` (R9, R10, R187). -/
def targetTests (body : List Byte) (k o : Nat) : List (Nat × Bool) :=
  [(o, decide (byteAt body k ≤ 3)), (o + 1, decide (1 ≤ byteAt body (k + 1) ∧ byteAt body (k + 1) ≤ 127)),
   (o + 2, decide (byteAt body (k + 2) ≤ 3)), (o + 3, decide (natAt body (k + 3) 2 ≠ 0)),
   (o + 4, decide (byteAt body (k + 5) ≤ 1)), (o + 5, decide (byteAt body (k + 6) ≤ 2))]

/-- A definition from its schedule and the target and delivery fields from byte `k`; the counts as ENTRY-DEFINE
sets them (R17). -/
def definitionOf (body : List Byte) (k : Nat) (schedule : Schedule) : Definition :=
  { schedule := schedule
    segment := byteAt body k
    destination := byteAt body (k + 1)
    urgency := byteAt body (k + 2)
    fireCount := fireField (natAt body (k + 3) 2)
    remainingFires := fireField (natAt body (k + 3) 2)
    reload := byteAt body (k + 5) == 1
    report := reportMode (byteAt body (k + 6))
    coalesced := 0 }

/-- The pattern of a CALENDAR body (Table 10-6). -/
def patternOf (body : List Byte) : Pattern :=
  { second := anyField (byteAt body 3)
    minute := anyField (byteAt body 4)
    hour := anyField (byteAt body 5)
    weekdays := BitVec.ofNat 7 (byteAt body 6)
    day := dayField (byteAt body 7)
    month := anyField (byteAt body 8) }

/-- The tests of a CALENDAR body (R4, R6, R7, R9, R10, R187). -/
def calendarTests (body : List Byte) : List (Nat × Bool) :=
  [(3, decide (byteAt body 1 ≤ 3)), (5, anyInRange 59 (byteAt body 3)), (6, anyInRange 59 (byteAt body 4)),
   (7, anyInRange 23 (byteAt body 5)), (8, decide (1 ≤ byteAt body 6 ∧ byteAt body 6 ≤ 127)),
   (9, decide (1 ≤ byteAt body 7 ∧ byteAt body 7 ≤ 32) || byteAt body 7 == 255),
   (10, decide (1 ≤ byteAt body 8) && anyInRange 12 (byteAt body 8) &&
      !impossibleDay (dayField (byteAt body 7)) (anyField (byteAt body 8))),
   (11, decide (byteAt body 9 ≤ 1))] ++ targetTests body 10 12

/-- The tests of an INTERVAL body (R8, R9, R10, R187). -/
def intervalTests (body : List Byte) : List (Nat × Bool) :=
  [(3, decide (byteAt body 1 ≤ 3)), (5, decide (1 ≤ natAt body 3 3 ∧ natAt body 3 3 ≤ 86400)),
   (6, decide (1 ≤ natAt body 6 3 ∧ natAt body 6 3 ≤ natAt body 3 3))] ++ targetTests body 9 7

/-- What an ENTRY-DEFINE body carries, with a schedule and target fields from byte `k`. -/
def defineReq (body : List Byte) (k : Nat) (schedule : Schedule) : DefineReq :=
  { index := entryIx (byteAt body 0)
    arm := byteAt body 1 % 2 == 1
    keepBody := byteAt body 1 / 2 % 2 == 1
    defn := definitionOf body k schedule }

/-- ENTRY-DEFINE's body (R16, R187): the length by the kind byte, then the fields in order. -/
def parseDefine (body : List Byte) : Except ReqError DefineReq :=
  if body.length < 4 then .error .badLength
  else match byteAt body 2 with
    | 0 =>
      if body.length = 17 then
        tested (calendarTests body)
          (defineReq body 10 (.calendar (patternOf body) (if byteAt body 9 = 1 then .twice else .once)))
      else .error .badLength
    | 1 =>
      if body.length = 16 then
        tested (intervalTests body) (defineReq body 9 (.interval (natAt body 3 3) (natAt body 6 3) (natAt body 6 3)))
      else .error .badLength
    | _ =>
      if body.length = 16 ∨ body.length = 17 then
        .error (.badField (if byteAt body 1 ≤ 3 then 4 else 3))
      else .error .badLength

/-- A body that is one entry index. -/
def parseIndex (body : List Byte) : Except ReqError EntryIx :=
  match body with
  | [b] => .ok (entryIx b.toNat)
  | _ => .error .badLength

/-- An empty body. -/
def parseNone (body : List Byte) : Except ReqError Unit := if body = [] then .ok () else .error .badLength

/-- A body that is one segment, 0 to 3. -/
def parseSegment (body : List Byte) : Except ReqError Seg :=
  match body with
  | [b] => tested [(1, decide (b.toNat ≤ 3))] (Fin.ofNat 4 b.toNat)
  | _ => .error .badLength

/-- QUEUE-PURGE's body: a segment, or FFH for ALL (R101). -/
def parsePurge (body : List Byte) : Except ReqError (List Seg) :=
  match body with
  | [b] =>
    tested [(1, decide (b.toNat ≤ 3) || b.toNat == 255)] (if b.toNat = 255 then Seg.all else [Fin.ofNat 4 b.toNat])
  | _ => .error .badLength

/-- BODY-LOAD's body: an index and 1 to 240 body bytes (R37). -/
def parseBodyLoad (body : List Byte) : Except ReqError (EntryIx × List Byte) :=
  match body with
  | [] => .error .badLength
  | b :: bytes =>
    if 1 ≤ bytes.length ∧ bytes.length ≤ 240 then .ok (entryIx b.toNat, bytes) else .error .badLength

/-- CLOCK-SET's body (R64, R187), with the daylight rule copy as it stands. Bits 7 and 6 of byte 1 and the weekday
bits are not looked at. -/
def parseClockSet (rule : DaylightRule) (body : List Byte) : Except ReqError ClockSetReq :=
  if body.length = 6 then
    let foldBits := byteAt body 1 / 16 % 4
    let r : Reading :=
      ⟨2000 + byteAt body 0, byteAt body 1 % 16, byteAt body 2 % 32, byteAt body 3, byteAt body 4, byteAt body 5⟩
    tested
      [(1, decide (byteAt body 0 ≤ 199)), (2, decide (1 ≤ r.month ∧ r.month ≤ 12)), (3, decide (foldBits ≤ 2)),
       (4, decide (1 ≤ r.day ∧ r.day ≤ lastDay r.year r.month)), (5, decide (r.hour ≤ 23)),
       (6, decide (r.minute ≤ 59)),
       (7, decide (r.second ≤ 59) && !inSkippedHour rule r && (foldBits == 0 || inRepeatedHour rule r))]
      ⟨r, match foldBits with
          | 0 => none
          | 1 => some .first
          | _ => some .second⟩
  else .error .badLength

/-- A transition in four bytes from byte `k`. -/
def transitionOf (body : List Byte) (k : Nat) : Transition :=
  ⟨byteAt body k, byteAt body (k + 1), byteAt body (k + 2), byteAt body (k + 3)⟩

/-- Month 1 to 12 (R48). -/
def Transition.monthOk (t : Transition) : Bool := decide (1 ≤ t.month ∧ t.month ≤ 12)

/-- Week 1 to 5 (R48). -/
def Transition.weekOk (t : Transition) : Bool := decide (1 ≤ t.week ∧ t.week ≤ 5)

/-- One of the seven weekdays (R48). -/
def Transition.weekdayOk (t : Transition) : Bool := decide (1 ≤ t.weekday ∧ t.weekday ≤ 7)

/-- Whether two transitions name the same month, week and weekday (R68). -/
def sameTransitionDate (a b : Transition) : Bool := a.month == b.month && a.week == b.week && a.weekday == b.weekday

/-- The tests of a daylight rule, with their ordinals (R48, R68, R187). -/
def daylightTests (r : DaylightRule) : List (Nat × Bool) :=
  [(2, r.forward.monthOk), (3, r.forward.weekOk), (4, r.forward.weekdayOk),
   (5, decide (1 ≤ r.forward.hour ∧ r.forward.hour ≤ 22)), (6, r.back.monthOk), (7, r.back.weekOk),
   (8, r.back.weekdayOk && !sameTransitionDate r.forward r.back),
   (9, decide (1 ≤ r.back.hour ∧ r.back.hour ≤ 23))]

/-- CLOCK-RULE's body (R68). -/
def parseClockRule (body : List Byte) : Except ReqError DaylightRule :=
  if body.length = 9 then
    let r : DaylightRule := ⟨byteAt body 0 == 1, transitionOf body 1, transitionOf body 5⟩
    tested ((1, decide (byteAt body 0 ≤ 1)) :: daylightTests r) r
  else .error .badLength

/-- The tests of the fields of a segment configuration record, with the ordinals of SEGMENT-CONFIG (Table 2-5, R128).
Open at start is a yes/no field and is tested where it is carried. -/
def segConfigTests (c : SegConfig) : List (Nat × Bool) :=
  [(2, decide (c.lineSpeed ≤ 3)), (3, decide (5 ≤ c.window ∧ c.window ≤ 200)), (4, decide (c.retryLimit ≤ 7)),
   (5, decide (10 ≤ c.backoff ∧ c.backoff ≤ 1000)), (6, decide (c.busyLimit ≤ 15)),
   (7, decide (c.ageLimit ≤ 3600)), (8, decide (1 ≤ c.probeInterval ∧ c.probeInterval ≤ 60))]

/-- SEGMENT-CONFIG's body (R128, Table 10-8). -/
def parseSegConfig (body : List Byte) : Except ReqError (Seg × SegConfig) :=
  if body.length = 11 then
    let c : SegConfig :=
      { lineSpeed := byteAt body 1
        window := byteAt body 2
        retryLimit := byteAt body 3
        backoff := natAt body 4 2
        busyLimit := byteAt body 6
        ageLimit := natAt body 7 2
        probeInterval := byteAt body 9
        openAtStart := byteAt body 10 == 1 }
    tested ((1, decide (byteAt body 0 ≤ 3)) :: (segConfigTests c ++ [(9, decide (byteAt body 10 ≤ 1))]))
      (Fin.ofNat 4 (byteAt body 0), c)
  else .error .badLength

/-- LINK-ECHO's body: 0 to 251 bytes (R151). -/
def parseEcho (body : List Byte) : Except ReqError (List Byte) :=
  if body.length ≤ 251 then .ok body else .error .badLength

/-- PART-STATUS's body: the clear-discards flag (R152). -/
def parseFlag (body : List Byte) : Except ReqError Bool :=
  match body with
  | [b] => tested [(1, decide (b.toNat ≤ 1))] (b.toNat == 1)
  | _ => .error .badLength

/-- NOTICE-ACK's body: a serial, which must be that of an in-flight notice (R162, R187). -/
def parseAck (inFlight : List Word16) (body : List Byte) : Except ReqError Word16 :=
  if body.length = 2 then
    let serial := BitVec.ofNat 16 (natAt body 0 2)
    tested [(1, inFlight.contains serial)] serial
  else .error .badLength

/-- NOTICE-MASK's body: a set without bits 0, 8 and 9 to 15 (R167, R187). -/
def parseMask (body : List Byte) : Except ReqError Word16 :=
  if body.length = 2 then
    let set := BitVec.ofNat 16 (natAt body 0 2)
    tested [(1, set &&& 0xFF01#16 == 0#16)] set
  else .error .badLength

/-- Whether what a parser answers is a request that passed tests 1 to 3. -/
def passed {α : Type} : Except ReqError α → Bool
  | .ok _ => true
  | .error _ => false

/-- Whether a request uses the Program Store (Table 2-2) and has passed tests 1 to 3, so that the Command Interpreter
presents a store operation for it (R143, R144). -/
def storeReady (kind : Byte) (body : List Byte) : Bool :=
  match kind.toNat with
  | 0x01 => passed (parseDefine body)
  | 0x02 => passed (parseIndex body)
  | 0x03 => passed (parseIndex body)
  | 0x04 => passed (parseIndex body)
  | 0x05 => passed (parseIndex body)
  | 0x06 => passed (parseNone body)
  | 0x07 => passed (parseIndex body)
  | 0x10 => passed (parseBodyLoad body)
  | 0x11 => passed (parseIndex body)
  | 0x12 => passed (parseIndex body)
  | 0x13 => passed (parseNone body)
  | 0x14 => passed (parseNone body)
  | 0x15 => passed (parseNone body)
  | 0x1A => passed (parseClockRule body)
  | 0x21 => passed (parsePurge body)
  | 0x28 => passed (parseSegConfig body)
  | 0x29 => passed (parseSegment body)
  | 0x2A => passed (parseSegment body)
  | _ => false

/-- The body of a refusal at tests 1 to 3 (R146, 10.5). -/
def ReqError.bytes : ReqError → List Byte
  | .unknownKind => [0x02#8]
  | .badLength => [0x03#8]
  | .badField n => [0x04#8, byte1 n]

/-- DONE with its results (R146). -/
def doneBytes (results : List Byte) : List Byte := 0x00#8 :: results

/-- BUSY (R142). -/
def busyBytes : List Byte := [0x01#8]

/-- WRONG-STATE with the entry state or health code found (R146, 10.5). -/
def wrongStateBytes (code : Nat) : List Byte := [0x05#8, byte1 code]

/-- CONFLICT. -/
def conflictBytes : List Byte := [0x06#8]

/-- NO-SPACE with the granules needed and the largest usable run (R37, 10.5). -/
def noSpaceBytes (needed largest : Nat) : List Byte := 0x07#8 :: byte1 needed :: byte2 largest

/-- DATA-FAULT with the entry and the record (R146, 10.5). -/
def dataFaultBytes (e : EntryIx) (record : FaultRecord) : List Byte := [0x08#8, byte1 e.val, byte1 record.code]

/-- ABORTED (R183). -/
def abortedBytes : List Byte := [0x09#8]

end Sys2Proof.Machine
end

