-- ==== Sys2Proof/Config.lean ====
section
/-! DEFINITION. The capacities of the TD4 (Table 0-6), and the free values of its model.

The free values are what the backup domain holds after VBAK has fallen below retention level (R171: it "has lost its
contents"). The spec gives no value for them, and neither does the model: each is an opaque constant applied to a
counter that State holds, so that nothing can be proved about one (notes/assumptions/12.md). -/

namespace Sys2Proof.Config

/-- Jobs a dispatch queue holds, counting the job in service (R89). -/
def queueCapacity : Nat := 16

/-- The count at which QUEUE-HIGH is posted (R95). -/
def highMark : Nat := 12

/-- The count at or below which the high-water flag is armed again (R95). -/
def rearmMark : Nat := 8

/-- Requests taken and not yet replied (R140). -/
def requestCapacity : Nat := 4

/-- Cached replies (R145). -/
def cacheCapacity : Nat := 4

/-- Immediate answers in the reply list (R141). -/
def immediateCapacity : Nat := 4

/-- Notices in the notice queue (R155). -/
def noticeCapacity : Nat := 32

/-- Notices in flight (R155). -/
def inFlightCapacity : Nat := 8

/-- The resend count at which an expiry reports the host absent (R163). -/
def resendLimit : Nat := 5

/-- Where the discard count and the gap count stay (R137, R158). -/
def countCeiling : Nat := 65535

/-- Where the coalesced count stays (R84). -/
def coalescedCeiling : Nat := 255

/-- Granules of the body heap (R30). -/
def granules : Nat := 2048

/-- Bytes of a granule (R29). -/
def granuleBytes : Nat := 16

/-- Silent jobs at which a segment becomes SUSPECT (R123). -/
def suspectMark : Nat := 3

/-- Silent jobs at which a segment becomes DOWN (R123). -/
def downMark : Nat := 6

/-- FREE VALUE: entry header `e` after the `n`th loss of the backup domain. -/
opaque lostHeader : Nat → EntryIx → Machine.StoredHeader

/-- FREE VALUE: heap byte `a` after the `n`th loss of the backup domain. -/
opaque lostHeapByte : Nat → Nat → Byte

/-- FREE VALUE: segment configuration record `i` after the `n`th loss of the backup domain. -/
opaque lostSegment : Nat → Seg → Machine.StoredSegConfig

/-- FREE VALUE: the daylight rule record after the `n`th loss of the backup domain. -/
opaque lostDaylight : Nat → Machine.StoredDaylight

/-- FREE VALUE: the daylight rule copy after the `n`th loss of the backup domain. -/
opaque lostRule : Nat → Machine.DaylightRule

/-- FREE VALUE: the reading after the `n`th loss of the backup domain. -/
opaque lostReading : Nat → Machine.Reading

/-- FREE VALUE: the fold after the `n`th loss of the backup domain. -/
opaque lostFold : Nat → Machine.Fold

/-- FREE VALUE: the clock-valid flag after the `n`th loss of the backup domain. -/
opaque lostValid : Nat → Bool

/-- FREE VALUE: the prescaler after the `n`th loss of the backup domain. -/
opaque lostPrescaler : Nat → BitVec 15

end Sys2Proof.Config
end

