-- ==== Sys2Proof/Machine/State.lean ====
section
/-! DEFINITION. The state of the TD4, block by block (Table 0-1), its value after reset, and the reasons a command can
stop. INVENTORY.md lists every field with the rule that names it. -/

namespace Sys2Proof.Machine

/-- The reasons a command can stop the machine with a fault: none. The spec handles every fault it describes inside
the command that finds it (R34, R49), so no constructor is needed; safe. -/
inductive Fault where
  deriving DecidableEq, Repr

/-- The reasons a command can be refused. -/
inductive Refusal where
  /-- raised by an arm of exec whose command has no meaning yet; safe (the machine stops) -/
  | notModelled (mnemonic : String)
  deriving DecidableEq, Repr

/-- The Host Link Unit (Table 7-1). The request in hand of the Command Interpreter is the first request whose reply is
not built (R143). -/
structure HostLink where
  speed : LinkSpeed
  rx : Receiver
  requests : List Request
  replies : List Reply
  cache : List CacheEntry
  discards : Nat
  hostAbsent : Bool
  tx : Option TxFrame
  deriving DecidableEq, Repr, Inhabited

/-- The Program Store, on VBAK (Table 2-1). The heap is a list of (address, byte) pairs, addresses rising and no byte
00H listed: an unlisted byte reads 00H. -/
structure ProgramStore where
  headers : Vector StoredHeader 256
  heap : List Host.Cell
  segRecords : PerSegment StoredSegConfig
  daylightRecord : StoredDaylight
  deriving DecidableEq, Repr

/-- The Store Controller's volatile state: allocation map (R30; `none` is FREE), entry state list (R2), compactor
(R41) and arbiter order, highest first (R27). -/
structure StoreControl where
  map : Vector (Option EntryIx) 2048
  states : Vector EntryState 256
  compacting : Bool
  frontier : Nat
  moved : Nat
  order : List Requester
  deriving DecidableEq, Repr

/-- The Calendar Unit (Table 3-1). -/
structure Calendar where
  prescaler : BitVec 15
  reading : Reading
  fold : Fold
  valid : Bool
  rule : DaylightRule
  runSecond : RunSecond
  deriving DecidableEq, Repr, Inhabited

/-- A scan pass (Table 4-1): the pass reading, the cursor, and whether the pass's expiry sweep is still to be made
(R99). -/
structure Pass where
  stamp : Stamp
  cursor : EntryIx
  sweep : Bool
  deriving DecidableEq, Repr, Inhabited

/-- The Dispatch Queue Manager (5.1). A queue is in the order of R92, the job in service first. `ended` holds the
pending outcome records of each port's fetch line, in the order made (R104). -/
structure DispatchUnit where
  queues : PerSegment (List Job)
  nextTag : Word16
  hold : Bool
  segHold : PerSegment Bool
  highArmed : PerSegment Bool
  ended : PerSegment (List JobEnd)
  deriving DecidableEq, Repr, Inhabited

/-- A segment port (Table 6-1), with the operation presented on its fetch line (R104, R112), its driver enable and its
2 ms gap (R109), and the candidate reply it is taking in (R188). `seqTable` holds destinations 1 to 126 in order. -/
structure Port where
  health : Health
  silence : Nat
  tx : TxState
  probe : Bool
  buffer : Option Telegram
  seqTable : Vector SeqState 126
  cfg : SegConfig
  cfgPending : Bool
  probeTarget : Option Nat
  probeTimer : Bool
  fetchOp : FetchOp
  de : Bool
  gap : Bool
  cand : List Byte
  deriving DecidableEq, Repr

/-- The Notice Unit (Table 8-1). Bit n of the mask stands for notice code n. -/
structure NoticeUnit where
  queue : List QueuedNotice
  nextSerial : Word16
  timer : Bool
  resendCount : Nat
  gapCount : Nat
  mask : Word16
  hostAbsent : Bool
  deriving DecidableEq, Repr, Inhabited

/-- The Supply Monitor (Table 9-1), the supplies and the pins it watches. -/
structure Supply where
  phase : Phase
  backupLost : Bool
  cause : StartCause
  faults : List FaultItem
  entriesQuarantined : Nat
  recordsReplaced : Nat
  claims : List BodyRef
  startDone : Nat
  powerLost : Bool
  vbakLow : Bool
  nrst : Bool
  ls1 : Bool
  ls0 : Bool
  deriving DecidableEq, Repr, Inhabited

/-- The state of the part, with the queue of commands that wait for it. -/
structure State where
  pending : List Instr
  free : Nat
  link : HostLink
  store : ProgramStore
  ctl : StoreControl
  cal : Calendar
  matcher : Option Pass
  dispatch : DispatchUnit
  ports : PerSegment Port
  notices : NoticeUnit
  supply : Supply
  deriving DecidableEq, Repr

/-! ### Start-up values of the blocks -/

/-- The arbiter's initial order (R27). -/
def initialOrder : List Requester :=
  [.commandInterpreter, .matcher, .fetch 0, .fetch 1, .fetch 2, .fetch 3, .compactor]

/-- The Host Link Unit at start-up (Table 7-1, R153). -/
def HostLink.start (speed : LinkSpeed) : HostLink := ⟨speed, .hunt, [], [], [], 0, false, none⟩

/-- The Program Store as a cold initialisation writes it, over a heap (R173). -/
def ProgramStore.cold (heap : List Host.Cell) : ProgramStore :=
  ⟨Vector.replicate 256 (freshHeader (bareHeader .empty)), heap, .same (freshSegConfig defaultSegConfig),
   freshDaylight defaultDaylight⟩

/-- The Store Controller with nothing allocated and every entry EMPTY (R27, R31, R41). -/
def StoreControl.start : StoreControl :=
  ⟨Vector.replicate 2048 none, Vector.replicate 256 .empty, false, 0, 0, initialOrder⟩

/-- The Calendar Unit as a cold initialisation writes it (R70). -/
def Calendar.cold : Calendar := ⟨0, firstReading, .normal, false, defaultDaylight, 0⟩

/-- The Dispatch Queue Manager at start-up (R107). -/
def DispatchUnit.start : DispatchUnit := ⟨.same [], 0, false, .same false, .same true, .same []⟩

/-- A segment port at start-up with a configuration record (Table 6-1, R108). -/
def Port.start (c : SegConfig) : Port :=
  { health := if c.openAtStart then .up else .closed
    silence := 0
    tx := .idle
    probe := false
    buffer := none
    seqTable := Vector.replicate 126 .unknown
    cfg := c
    cfgPending := false
    probeTarget := none
    probeTimer := false
    fetchOp := .none
    de := false
    gap := false
    cand := [] }

/-- The Notice Unit at start-up (R168). -/
def NoticeUnit.start : NoticeUnit := ⟨[], 0, false, 0, 0, 0, false⟩

/-- The STARTED notice of a cold start in which nothing was found faulty (R180). -/
def startedNotice : Notice := ⟨0, ⟨firstReading, .normal, false, 0⟩, .started .cold 0 0 false⟩

/-- The part right after reset: in service, a cold start just ended, the STARTED notice on its way (R173, R179 to
R181). The straps are low and low and the heap's bytes read 00H, which the spec leaves open
(notes/assumptions/1.md, notes/assumptions/10.md). -/
def State.reset : State :=
  { pending := []
    free := 0
    link := { HostLink.start .b19200 with tx := some (.notice startedNotice) }
    store := ProgramStore.cold []
    ctl := StoreControl.start
    cal := Calendar.cold
    matcher := none
    dispatch := DispatchUnit.start
    ports := .same (Port.start defaultSegConfig)
    notices := { NoticeUnit.start with queue := [⟨startedNotice, true, false⟩], nextSerial := 1 }
    supply := ⟨.inService, false, .cold, [], 0, 0, [], 0, false, false, true, false, false⟩ }

end Sys2Proof.Machine
end

