-- ==== Sys2Proof/Machine/Ops.lean ====
section
/-! DEFINITION. The operations that the commands share: the heap's bytes, headers and the allocation map, notices, the
transmitter, the arbiter, the dispatch queues, recording, quarantine, withdrawal, offers, the ends of jobs, and the
Command Interpreter's replies. -/

namespace Sys2Proof.Machine

/-! ### The heap's bytes (R29, R30) -/

/-- The heap's bytes in canonical form. -/
abbrev Memory := List Host.Cell

/-- The byte at an address; an unlisted byte reads 00H (notes/assumptions/10.md). -/
def Memory.read : Memory → Nat → Byte
  | [], _ => 0
  | (k, b) :: m, a => if k = a then b else Memory.read m a

/-- Write one byte, keeping the addresses rising and listing no byte 00H. -/
def Memory.write : Memory → Nat → Byte → Memory
  | [], a, b => if b = 0 then [] else [(a, b)]
  | (k, c) :: m, a, b =>
    if a < k then (if b = 0 then (k, c) :: m else (a, b) :: (k, c) :: m)
    else if a = k then (if b = 0 then m else (a, b) :: m)
    else (k, c) :: Memory.write m a b

/-- Write some bytes from an address on. -/
def Memory.writeBytes (m : Memory) (a : Nat) : List Byte → Memory
  | [] => m
  | b :: bs => Memory.writeBytes (m.write a b) (a + 1) bs

/-- Read `n` bytes from an address on. -/
def Memory.readBytes (m : Memory) (a : Nat) : Nat → List Byte
  | 0 => []
  | n + 1 => m.read a :: Memory.readBytes m (a + 1) n

/-- The canonical form: addresses strictly rising, all inside the heap, and no byte 00H listed. -/
def Memory.wf (m : Memory) : Bool :=
  decide (m.Pairwise (fun x y => x.1 < y.1)) && m.all (fun c => c.2 != 0 && decide (c.1 < 32768))

/-- The granules of a body record (R29). -/
def granulesFor (length : Nat) : Nat := (length + 4 + 15) / 16

/-- A body record: owner, length, body bytes, check (2.3, R29; notes/assumptions/9.md). -/
def bodyRecord (owner : EntryIx) (body : List Byte) : List Byte :=
  let checked := byte1 owner.val :: byte1 body.length :: body
  checked ++ byte2 (crc16 checked).toNat

/-- Whether a reference's run lies in the heap (R176). -/
def BodyRef.inHeap (r : BodyRef) : Bool :=
  decide (1 ≤ r.length ∧ r.length ≤ 240 ∧ r.first + granulesFor r.length ≤ Config.granules)

/-- The body bytes of the record at a reference. -/
def recordBody (m : Memory) (r : BodyRef) : List Byte := m.readBytes (16 * r.first + 2) r.length

/-- Whether the record at a reference is sound for entry `e`: owner, length and check agree (R29). A reference that
leaves the heap names no sound record. -/
def recordSound (m : Memory) (e : EntryIx) (r : BodyRef) : Bool :=
  r.inHeap && m.readBytes (16 * r.first) (r.length + 4) == bodyRecord e (recordBody m r)

/-! ### Blocks of the state -/

/-- The port of a segment. -/
def State.port (s : State) (i : Seg) : Port := s.ports.get i

/-- The queue of a segment. -/
def State.queue (s : State) (i : Seg) : List Job := s.dispatch.queues.get i

/-- Change one port. -/
def onPort (i : Seg) (f : Port → Port) (s : State) : State := { s with ports := s.ports.set i (f (s.ports.get i)) }

/-- Replace one queue. -/
def setQueue (i : Seg) (q : List Job) (s : State) : State :=
  { s with dispatch := { s.dispatch with queues := s.dispatch.queues.set i q } }

/-- Replace the pending outcome records of one fetch line. -/
def setEnded (i : Seg) (l : List JobEnd) (s : State) : State :=
  { s with dispatch := { s.dispatch with ended := s.dispatch.ended.set i l } }

/-- The Calendar Unit's snapshot (R52, R156). -/
def stampNow (s : State) : Stamp := ⟨s.cal.reading, s.cal.fold, s.cal.valid, s.cal.runSecond⟩

/-- Whether the part is in service (Table 9-1). -/
def State.inService (s : State) : Bool := s.supply.phase == .inService

/-! ### Notices (08) -/

/-- A count advanced by one, which stays at 65 535 (R137, R158). -/
def countUp (n : Nat) : Nat := min Config.countCeiling (n + 1)

/-- A notice made: next serial, stamp, end of the queue, unsent (R156, R158). -/
def makeNotice (b : NoticeBody) (s : State) : State :=
  { s with notices := { s.notices with
      queue := s.notices.queue ++ [⟨⟨s.notices.nextSerial, stampNow s, b⟩, false, false⟩]
      nextSerial := s.notices.nextSerial + 1 } }

/-- Post a notice (R158): suppressed by the mask, counted as lost when the queue is full, or made. -/
def post (b : NoticeBody) (s : State) : State :=
  if s.notices.mask.getLsbD b.code then s
  else if Config.noticeCapacity ≤ s.notices.queue.length then
    { s with notices := { s.notices with gapCount := countUp s.notices.gapCount } }
  else makeNotice b s

/-- The notices in flight (R155). -/
def NoticeUnit.inFlight (n : NoticeUnit) : List QueuedNotice := n.queue.filter (·.inFlight)

/-- Every in-flight notice marked for resending (R163, R165). -/
def NoticeUnit.markAll (n : NoticeUnit) : NoticeUnit :=
  { n with queue := n.queue.map (fun q => if q.inFlight then { q with resend := true } else q) }

/-- The notice offered to the transmitter (R160): the oldest marked one, otherwise the oldest unsent one while fewer
than 8 are in flight; none while the host is absent. -/
def NoticeUnit.offer (n : NoticeUnit) : Option Notice :=
  if n.hostAbsent then none
  else match n.queue.find? (fun q => q.inFlight && q.resend) with
    | some q => some q.notice
    | none =>
      if n.inFlight.length < Config.inFlightCapacity then (n.queue.find? (fun q => !q.inFlight)).map (·.notice)
      else none

/-- The transmitter has begun the frame of a notice: it is in flight, without a resend mark (R160). -/
def NoticeUnit.begun (n : NoticeUnit) (serial : Word16) : NoticeUnit :=
  { n with queue := n.queue.map (fun q =>
      if q.notice.serial = serial then { q with inFlight := true, resend := false } else q) }

/-! ### The Command Interpreter and the transmitter (07) -/

/-- The request in hand: the first whose reply is not built (R143). -/
def inHand (s : State) : Option Request := s.link.requests.find? (fun r => !r.built)

/-- Whether the request in hand is one that the Interpreter carries out at the moment it begins it: it uses no store,
or is refused at tests 1 to 3 (R143, R144). -/
def immediateInHand (s : State) : Bool :=
  match inHand s with
  | none => false
  | some r => !storeReady r.kind r.body

/-- The transmitter, when idle, begins its next frame (R147): the first reply, otherwise the notice offered.
DESIGN CHOICE, unsafe: every reply leaves the reply list as its transmission begins, as R147's bullet says; R147's last
sentence and Table 7-5 have an immediate answer leave it at its end (notes/assumptions/30.md). A notice waits while a
request is being carried out whose reply becomes ready in the same moment (notes/assumptions/4.md). No notice is offered
outside service (R154, R172). -/
def kickTx (s : State) : State :=
  match s.link.tx with
  | some _ => s
  | none =>
    if s.supply.phase ≠ .inService ∧ s.supply.phase ≠ .resetting then s
    else match s.link.replies with
      | r :: rs => { s with link := { s.link with tx := some (.reply r), replies := rs } }
      | [] =>
        if s.inService && !immediateInHand s then
          match s.notices.offer with
          | some n =>
            { s with link := { s.link with tx := some (.notice n) }, notices := s.notices.begun n.serial }
          | none => s
        else s

/-- The first request whose reply is not built is marked built. -/
def markBuilt : List Request → List Request
  | [] => []
  | r :: rs => if r.built then r :: markBuilt rs else { r with built := true } :: rs

/-- The reply to the request in hand is built and placed at the end of the reply list (R143). -/
def replyInHand (body : List Byte) (s : State) : State :=
  match inHand s with
  | none => s
  | some r =>
    { s with link := { s.link with
        requests := markBuilt s.link.requests
        replies := s.link.replies ++ [⟨r.seq, r.kind, body, false⟩] } }

/-- The request in hand is finished with a reply, and the transmitter may begin it (R143, R147). -/
def finish (body : List Byte) (s : State) : State := kickTx (replyInHand body s)

/-! ### The arbiter (R27) -/

/-- Whether a requester has a store operation pending. -/
def presents (s : State) (r : Requester) : Bool :=
  match r with
  | .commandInterpreter =>
    match inHand s with
    | none => false
    | some q => storeReady q.kind q.body
  | .matcher => s.matcher.isSome
  | .fetch i => (s.port i).fetchOp != .none
  | .compactor => s.ctl.compacting

/-- Whether the arbiter grants this requester's operation next: the part is in service, and of the requesters with an
operation pending it stands highest in the order (R27). -/
def granted (s : State) (r : Requester) : Bool :=
  s.inService && s.ctl.order.find? (presents s) == some r

/-- The granted requester moves to the lowest place (R27). -/
def grant (r : Requester) (s : State) : State :=
  { s with ctl := { s.ctl with order := s.ctl.order.filter (· != r) ++ [r] } }

/-! ### Entry headers and the entry state list (R1 to R3) -/

/-- An entry's state in the entry state list (R2). -/
def stateOf (s : State) (e : EntryIx) : EntryState := s.ctl.states.get e

/-- Whether an entry state is one that holds a definition (Table 1-2). -/
def EntryState.defined : EntryState → Bool
  | .empty => false
  | .draft => true
  | .armed => true
  | .retired => true
  | .quarantined => false

/-- Read an entry's header and test it (R3): its contents when the check agrees, with the definition it holds. A
header without a definition is not sound for an entry in a defined state (notes/assumptions/18.md). -/
def readHeader (s : State) (e : EntryIx) : Option (Header × Definition) :=
  let sh := s.store.headers.get e
  if sh.check = headerCheck sh.header then
    match sh.header.defn with
    | some d => some (sh.header, d)
    | none => none
  else none

/-- The state that a header's state field names; a value that is none of the five names no state of the list. -/
def StoredState.entryState : StoredState → EntryState
  | .named st => st
  | .illegal _ => .quarantined

/-- Put a header in the table with a fresh check (R3). -/
def putHeader (e : EntryIx) (h : Header) (p : ProgramStore) : ProgramStore :=
  { p with headers := p.headers.set e.val (freshHeader h) e.isLt }

/-- Write an entry's header; the entry state list takes its state in the same operation (R2, R3). -/
def writeHeader (e : EntryIx) (h : Header) (s : State) : State :=
  { s with
    store := putHeader e h s.store
    ctl := { s.ctl with states := s.ctl.states.set e.val h.state.entryState e.isLt } }

/-! ### The allocation map (R30 to R32) -/

/-- A vector changed through its list by a function that keeps the length. -/
def overList {α : Type} {n : Nat} (f : List α → List α) (h : ∀ l, (f l).length = l.length) (v : Vector α n) :
    Vector α n :=
  ⟨⟨f v.toList⟩, by simpa using h v.toList⟩

/-- The map's elements with those of entry `e` made FREE. -/
def freeOwned (e : EntryIx) (l : List (Option EntryIx)) : List (Option EntryIx) :=
  l.map (fun x => if x = some e then none else x)

/-- The map's elements with `n` from `start` on given to entry `e`. -/
def giveRun (e : EntryIx) : Nat → Nat → List (Option EntryIx) → List (Option EntryIx)
  | _, _, [] => []
  | 0, 0, l => l
  | 0, n + 1, _ :: l => some e :: giveRun e 0 n l
  | k + 1, n, x :: l => x :: giveRun e k n l

theorem freeOwned_length (e : EntryIx) (l : List (Option EntryIx)) : (freeOwned e l).length = l.length := by
  simp [freeOwned]

theorem giveRun_length (e : EntryIx) (k n : Nat) (l : List (Option EntryIx)) :
    (giveRun e k n l).length = l.length := by
  induction l generalizing k n with
  | nil => cases k <;> cases n <;> rfl
  | cons x l ih =>
    cases k with
    | zero => cases n <;> simp [giveRun, ih]
    | succ k => simp [giveRun, ih]

/-- The elements of entry `e` made FREE (R30). -/
def freeInMap (e : EntryIx) (m : Vector (Option EntryIx) 2048) : Vector (Option EntryIx) 2048 :=
  overList (freeOwned e) (freeOwned_length e) m

/-- A run given to entry `e` (R30). -/
def giveInMap (e : EntryIx) (start n : Nat) (m : Vector (Option EntryIx) 2048) : Vector (Option EntryIx) 2048 :=
  overList (giveRun e start n) (giveRun_length e start n) m

/-- The number of granules that the map shows as owned by an entry. -/
def ownedCount (m : Vector (Option EntryIx) 2048) (e : EntryIx) : Nat := m.toList.countP (· == some e)

/-- The number of FREE granules. -/
def freeCount (m : Vector (Option EntryIx) 2048) : Nat := m.toList.countP (· == none)

/-- First fit: the start of the lowest run of at least `n` FREE elements. `pos` is the number of the first element of
the list, `start` and `len` the FREE run that ends just before it. -/
def firstFit (n pos start len : Nat) : List (Option EntryIx) → Option Nat
  | [] => none
  | none :: l =>
    let start' := if len = 0 then pos else start
    if n ≤ len + 1 then some start' else firstFit n (pos + 1) start' (len + 1) l
  | some _ :: l => firstFit n (pos + 1) (pos + 1) 0 l

/-- The size of the largest run of FREE elements; `cur` is the FREE run that ends just before the list. -/
def largestRun (cur best : Nat) : List (Option EntryIx) → Nat
  | [] => max cur best
  | none :: l => largestRun (cur + 1) best l
  | some _ :: l => largestRun 0 (max cur best) l

/-- The start of the top run: one above the highest allocated granule, 0 in an empty heap (R32). -/
def topStart (pos best : Nat) : List (Option EntryIx) → Nat
  | [] => best
  | none :: l => topStart (pos + 1) best l
  | some _ :: l => topStart (pos + 1) (pos + 1) l

/-- The size of the top run (R32). -/
def topRun (m : Vector (Option EntryIx) 2048) : Nat := 2048 - topStart 0 0 m.toList

/-- Where a new record of `n` granules is placed: first fit, or in the top run while the compactor runs (R32). -/
def allocate (ctl : StoreControl) (n : Nat) : Option Nat :=
  if ctl.compacting then (if n ≤ topRun ctl.map then some (topStart 0 0 ctl.map.toList) else none)
  else firstFit n 0 0 0 ctl.map.toList

/-- The largest run that an allocation could use (R37). -/
def largestUsable (ctl : StoreControl) : Nat :=
  if ctl.compacting then topRun ctl.map else largestRun 0 0 ctl.map.toList

/-- The lowest allocated granule at or above `frontier`, with its owner (R42). -/
def lowestFrom (frontier pos : Nat) : List (Option EntryIx) → Option (Nat × EntryIx)
  | [] => none
  | x :: l =>
    match x with
    | none => lowestFrom frontier (pos + 1) l
    | some e => if frontier ≤ pos then some (pos, e) else lowestFrom frontier (pos + 1) l

/-- Whether one record lies across the frontier: the granules on both sides of it have one owner. -/
def acrossFrontier (ctl : StoreControl) : Bool :=
  match ctl.frontier with
  | 0 => false
  | f + 1 =>
    match ctl.map.toList[f]?, ctl.map.toList[f + 1]? with
    | some (some a), some (some b) => a == b
    | _, _ => false

/-- The allocated record that starts lowest at or above the frontier (R42). The lowest allocated granule there starts a
record, unless a record lies across the frontier; no record then starts above that one (notes/assumptions/21.md). -/
def nextRecord (ctl : StoreControl) : Option (Nat × EntryIx) :=
  if acrossFrontier ctl then none else lowestFrom ctl.frontier 0 ctl.map.toList

/-- Every granule of an entry becomes FREE (R30). -/
def freeGranules (e : EntryIx) (s : State) : State :=
  { s with ctl := { s.ctl with map := freeInMap e s.ctl.map } }

/-! ### Job ends and their recording (R103 to R106) -/

/-- Whether an outcome counts as a failure (Table 5-2). -/
def JobOutcome.isFailure : JobOutcome → Bool
  | .delivered => false
  | .broadcastSent => false
  | .rejected => true
  | .failed => true
  | .busyLimit => true
  | .expired => true
  | .dropped => true
  | .fault => true
  | .superseded => false
  | .purged => false
  | .abandoned => false

/-- Whether a report mode calls for a DISPATCH-REPORT (R106). -/
def ReportMode.wants (m : ReportMode) (o : JobOutcome) : Bool :=
  match m with
  | .none => false
  | .failures => o.isFailure
  | .all => true

/-- The end of a job with an outcome (R104, R106). -/
def Job.end (j : Job) (i : Seg) (o : JobOutcome) (reason : Option DropReason) : JobEnd :=
  { tag := j.tag
    entry := j.entry
    segment := i
    destination := j.destination
    cause := j.cause
    due := j.due
    created := j.created
    outcome := o
    reason := reason
    stale := j.stale
    attempts := if j.inService then j.attempts else 0
    busy := if j.inService then j.busy else 0 }

/-- Post the DISPATCH-REPORT that a report mode calls for (R106). -/
def reportEnd (m : ReportMode) (j : JobEnd) (s : State) : State :=
  if m.wants j.outcome then post (.dispatchReport j) s else s

/-! ### Removal from the queues, and take-in (R92, R95, R97, R98) -/

/-- A queue after a removal; its high-water flag is armed again when the count falls to 8 or fewer (R95). -/
def removeTo (i : Seg) (q : List Job) (s : State) : State :=
  { s with dispatch := { s.dispatch with
      queues := s.dispatch.queues.set i q
      highArmed :=
        if q.length < (s.queue i).length ∧ q.length ≤ Config.rearmMark then s.dispatch.highArmed.set i true
        else s.dispatch.highArmed } }

/-- A job's age at a run-second, modulo 2 to the 32nd (R98). -/
def Job.age (j : Job) (now : RunSecond) : Nat := (now - j.created).toNat

/-- Whether a job's age exceeds a limit; 0 is no limit (R98). -/
def Job.tooOld (j : Job) (now : RunSecond) (limit : Nat) : Bool := limit != 0 && decide (limit < j.age now)

/-- The waiting jobs less the heads that are too old, and those heads in order (R98). -/
def splitOld (now : RunSecond) (limit : Nat) : List Job → List Job × List Job
  | [] => ([], [])
  | j :: js =>
    if j.tooOld now limit then ((j :: (splitOld now limit js).1), (splitOld now limit js).2) else ([], j :: js)

/-- Whether a segment's port and flags allow take-in (R97). A port works on one job at a time (6.1), so a queue that
holds a job in service takes in no other (R89). -/
def mayTakeIn (s : State) (i : Seg) : Bool :=
  (s.port i).tx == .idle && ((s.port i).health == .up || (s.port i).health == .suspect) &&
    !s.dispatch.segHold.get i && !s.dispatch.hold && !(s.queue i).any (·.inService)

/-- The head waiting job as it goes into service (R97). -/
def Job.taken (j : Job) : Job := { j with inService := true, attempts := 0, busy := 0 }

/-- The port presents an operation for recording alone when a record is pending and none is presented (R104). A record that
the line's operation in progress has still to record counts as pending (notes/assumptions/25.md). -/
def presentRecording (i : Seg) (s : State) : State :=
  if s.dispatch.ended.get i ≠ [] ∧ (s.port i).fetchOp = .none then onPort i (fun p => { p with fetchOp := .record }) s
  else s

/-- Take the head waiting job into service: it moves to the first place, and the port begins FETCH (R97, R112). -/
def takeHead (i : Seg) (j : Job) (rest : List Job) (s : State) : State :=
  onPort i (fun p => { p with tx := .fetch, fetchOp := .fetch })
    (setQueue i (j.taken :: ((s.queue i).filter (·.inService) ++ rest)) s)

/-- The jobs that expire at a take-in consideration leave the queue and become pending records of the port's fetch
line (R98). -/
def expireHeads (i : Seg) (s : State) : State :=
  let waiting := (s.queue i).filter (fun j => !j.inService)
  let old := (splitOld s.cal.runSecond (s.port i).cfg.ageLimit waiting).1
  let rest := (splitOld s.cal.runSecond (s.port i).cfg.ageLimit waiting).2
  setEnded i (s.dispatch.ended.get i ++ old.map (fun j => j.end i .expired none))
    (removeTo i ((s.queue i).filter (·.inService) ++ rest) s)

/-- Consider take-in for a segment (R97, R98, R104). A CLOSED segment's queue is empty; nothing is considered there
(notes/assumptions/14.md, notes/assumptions/15.md). -/
def considerTakeIn (i : Seg) (s : State) : State :=
  if (s.port i).health = .closed then s
  else
    let s1 := expireHeads i s
    match (s1.queue i).filter (fun j => !j.inService) with
    | [] => presentRecording i s1
    | j :: rest => if mayTakeIn s1 i then takeHead i j rest s1 else presentRecording i s1

/-- Consider take-in for some segments in order. -/
def considerAll (l : List Seg) (s : State) : State := l.foldl (fun s i => considerTakeIn i s) s

/-- The waiting jobs of a segment that a test selects. -/
def selected (sel : Seg → Job → Bool) (s : State) (i : Seg) : List Job :=
  (s.queue i).filter (fun j => !j.inService && sel i j)

/-- The ends of the selected waiting jobs, queue 0 to 3 and in each the order of R92 (R105). -/
def endsOf (sel : Seg → Job → Bool) (o : JobOutcome) (s : State) : List JobEnd :=
  Seg.all.flatMap (fun i => (selected sel s i).map (fun j => j.end i o none))

/-- The segments that lose a job. -/
def losing (sel : Seg → Job → Bool) (s : State) : List Seg := Seg.all.filter (fun i => !(selected sel s i).isEmpty)

/-- The selected waiting jobs of one segment removed. -/
def removeOn (sel : Seg → Job → Bool) (i : Seg) (s : State) : State :=
  removeTo i ((s.queue i).filter (fun j => j.inService || !sel i j)) s

/-- The selected waiting jobs of every queue removed. -/
def removeSelected (sel : Seg → Job → Bool) (s : State) : State :=
  removeOn sel 3 (removeOn sel 2 (removeOn sel 1 (removeOn sel 0 s)))

/-- Set the stale mark of every job, and of every pending record, of the entries that a test names (R96). -/
def markStale (owns : EntryIx → Bool) (s : State) : State :=
  { s with dispatch := { s.dispatch with
      queues := s.dispatch.queues.map (List.map (fun j => if owns j.entry then { j with stale := true } else j))
      ended := s.dispatch.ended.map (List.map (fun j => if owns j.entry then { j with stale := true } else j)) } }

/-- The stale mark set on an end. -/
def JobEnd.marked (j : JobEnd) : JobEnd := { j with stale := true }

/-- Record an end whose entry holds no report mode: reported as for FAILURES (R106). -/
def recordBare (s : State) (j : JobEnd) : State := reportEnd .failures j s

/-! ### Quarantine, recording and withdrawal (R34, R96, R104 to R106) -/

/-- The quarantine procedure (R34): marker, granules, jobs, notice. The withdrawn jobs end FAULT; their entry is
QUARANTINED at their recording, so no header is read. -/
def quarantine (e : EntryIx) (record : FaultRecord) (path : FaultPath) (s : State) : State :=
  let s1 := freeGranules e (writeHeader e (bareHeader .quarantined) s)
  let sel : Seg → Job → Bool := fun _ j => j.entry == e
  let s2 := markStale (· == e) (removeSelected sel s1)
  let s3 := ((endsOf sel .fault s1).map JobEnd.marked).foldl recordBare s2
  post (.entryFault e record path) (considerAll (losing sel s1) s3)

/-- Record one job end (R104 to R106): read the header where the entry is defined, write the last outcome unless the
end is stale, and post the report that the report mode calls for. A fault found by the read quarantines the entry. -/
def recordEnd (path : FaultPath) (s : State) (j : JobEnd) : State :=
  if (stateOf s j.entry).defined then
    match readHeader s j.entry with
    | none => recordBare (quarantine j.entry .header path s) j
    | some (h, d) =>
      reportEnd d.report j
        (if j.stale then s else writeHeader j.entry { h with lastOutcome := some j.outcome } s)
  else recordBare s j

/-- Record some ends in order. -/
def recordAll (path : FaultPath) (l : List JobEnd) (s : State) : State := l.foldl (recordEnd path) s

/-- Withdraw the waiting jobs of the entries that a test names as SUPERSEDED, mark their jobs in service and pending
records stale, record the withdrawn, and consider take-in where a job was lost (R13, R96). -/
def withdraw (owns : EntryIx → Bool) (s : State) : State :=
  let sel : Seg → Job → Bool := fun _ j => owns j.entry
  let s1 := markStale owns (removeSelected sel s)
  considerAll (losing sel s) (recordAll .hostRead ((endsOf sel .superseded s).map JobEnd.marked) s1)

/-- Record the first `n` pending outcome records of a fetch line, in the order made (R104). Each is taken off the line
before its own recording: where that recording finds a fault, the quarantine marks the records still on the line stale,
and not the one that it is recording, whose report carries the mark as it was (notes/assumptions/22.md). -/
def recordPending (path : FaultPath) (i : Seg) : Nat → State → State
  | 0, s => s
  | n + 1, s =>
    match s.dispatch.ended.get i with
    | [] => s
    | j :: rest => recordPending path i n (recordEnd path (setEnded i rest s) j)

/-! ### Offers (R81, R91 to R95) -/

/-- The first value from `t` on that is neither FFFFH nor held, trying at most `fuel` values (R91). -/
def freeTag (held : List Word16) : Nat → Word16 → Word16
  | 0, t => t
  | fuel + 1, t => if t = noTag ∨ held.contains t then freeTag held fuel (t + 1) else t

/-- The tags of the jobs present in the four queues. -/
def heldTags (s : State) : List Word16 := Seg.all.flatMap (fun i => (s.queue i).map (·.tag))

/-- The value after a tag, FFFEH followed by 0000H (R91). -/
def tagAfter (t : Word16) : Word16 := if t = 0xFFFE#16 then 0 else t + 1

/-- A new job inserted after every waiting job as urgent as it or more, before every less urgent one (R92). -/
def insertJob (j : Job) : List Job → List Job
  | [] => [j]
  | k :: q => if k.inService || decide (k.urgency ≤ j.urgency) then k :: insertJob j q else j :: k :: q

/-- The job that an offer makes (R90, R93). -/
def Offer.job (o : Offer) (tag : Word16) : Job :=
  { tag := tag
    entry := o.entry
    destination := o.destination
    urgency := o.urgency
    cause := o.cause
    due := o.due
    created := o.created
    stale := false
    inService := false
    attempts := 0
    busy := 0 }

/-- The end of an offer ended at once (R81, R103). -/
def Offer.end (o : Offer) (i : Seg) (reason : DropReason) : JobEnd :=
  (o.job noTag).end i .dropped (some reason)

/-- The high-water flag of a queue SPENT (R95). -/
def spendHigh (i : Seg) (s : State) : State :=
  { s with dispatch := { s.dispatch with highArmed := s.dispatch.highArmed.set i false } }

/-- QUEUE-HIGH when the count has risen to 12 with the flag ARMED, which is then SPENT (R95). -/
def testHigh (i : Seg) (s : State) : State :=
  if (s.queue i).length = Config.highMark ∧ s.dispatch.highArmed.get i = true then
    post (.queueHigh i Config.highMark) (spendHigh i s)
  else s

/-- The tag the next job takes (R91). -/
def nextFreeTag (s : State) : Word16 := freeTag (heldTags s) 66 s.dispatch.nextTag

/-- The queues with the job that an offer makes at its place, and the tag allocator after it (R91, R92). -/
def insertOffer (i : Seg) (o : Offer) (s : State) : State :=
  { s with dispatch := { s.dispatch with
      queues := s.dispatch.queues.set i (insertJob (o.job (nextFreeTag s)) (s.queue i))
      nextTag := tagAfter (nextFreeTag s) } }

/-- The job made and inserted, the high-water mark tested, take-in considered (R93). -/
def makeJob (i : Seg) (o : Offer) (s : State) : State := considerTakeIn i (testHigh i (insertOffer i o s))

/-- The Dispatch Queue Manager meets an offer (R81, R93, R94): CLOSED, COALESCED, DROPPED or QUEUED, in that order of
tests. `m` is the report mode of the header just read; `path` the path of the offering operation. A displacement considers
take-in once, after the newcomer is inserted, and not at the victim's end (notes/assumptions/24.md). -/
def meetOffer (path : FaultPath) (i : Seg) (o : Offer) (m : ReportMode) (s : State) : Disposition × State :=
  if (s.port i).health = .closed then (.closed, reportEnd m (o.end i .closed) s)
  else match (s.queue i).find? (fun j => !j.inService && j.entry == o.entry) with
    | some j => (.coalesced j.tag, s)
    | none =>
      if (s.queue i).length < Config.queueCapacity then (.queued (nextFreeTag s), makeJob i o s)
      else match (s.queue i).getLast? with
        | some victim =>
          if !victim.inService && decide (o.urgency < victim.urgency) then
            let s1 := recordEnd path (removeTo i (s.queue i).dropLast s) (victim.end i .dropped (some .displaced))
            (.queued (nextFreeTag s1), makeJob i o s1)
          else (.dropped, reportEnd m (o.end i .full) s)
        | none => (.dropped, reportEnd m (o.end i .full) s)

/-- Whether an offer ended at once, so that DROPPED is recorded in the header (R81). -/
def Disposition.endedAtOnce : Disposition → Bool
  | .queued _ => false
  | .coalesced _ => false
  | .dropped => true
  | .closed => true

/-- The dispatch queue that a definition names (R9). -/
def Definition.seg (d : Definition) : Seg := Fin.ofNat 4 d.segment

/-! ### Segment ports (06) -/

/-- The sequence state of a destination 1 to 126 (R122). -/
def Port.seqOf (p : Port) (destination : Nat) : SeqState :=
  if h : destination - 1 < 126 then p.seqTable.get ⟨destination - 1, h⟩ else .unknown

/-- Set the sequence state of a destination; a broadcast changes none (R120, R122). -/
def Port.setSeq (p : Port) (destination : Nat) (st : SeqState) : Port :=
  if h : 1 ≤ destination ∧ destination ≤ 126 then
    { p with seqTable := p.seqTable.set (destination - 1) st (by omega) }
  else p

/-- The DATA telegram of a job (R110, R113, R120, R122). -/
def dataTelegram (p : Port) (destination : Nat) (body : List Byte) : Telegram :=
  if destination = 127 then ⟨destination, false, false, false, body⟩
  else match p.seqOf destination with
    | .zero => ⟨destination, false, false, false, body⟩
    | .one => ⟨destination, false, true, false, body⟩
    | .unknown => ⟨destination, false, false, true, body⟩

/-- A probe to a destination (R110, R125). -/
def probeTelegram (destination : Nat) : Telegram := ⟨destination, true, false, false, []⟩

/-- Enter SEND: the driver is enabled at once unless the 2 ms gap still runs (R109, R115). -/
def Port.enterSend (p : Port) : Port := { p with tx := .send, de := !p.gap, cand := [] }

/-- What a port puts on SPnTX (R109): its telegram's characters while it is in SEND with SPnDE high, and the idle line
level at all other times. -/
def Port.lineOutput (p : Port) : LineOutput :=
  if p.tx = .send ∧ p.de = true then
    match p.buffer with
    | none => .idle
    | some t => .sends p.cfg.lineSpeed (lineBits t.bytes)
  else .idle

/-- What the Host Link Unit puts on TXD (R135, R147): the characters of the frame in transmission at the link speed, and the
idle line level when there is none. -/
def HostLink.lineOutput (l : HostLink) : LineOutput :=
  match l.tx with
  | none => .idle
  | some f => .sends l.speed.code (lineBits f.bytes)

/-- The job in service of a segment, if any. -/
def jobInService (s : State) (i : Seg) : Option Job := (s.queue i).find? (·.inService)

/-- Change the job in service of a segment. -/
def onJob (i : Seg) (f : Job → Job) (s : State) : State :=
  setQueue i ((s.queue i).map (fun j => if j.inService then f j else j)) s

/-- A change of health, with its SEGMENT-STATE notice (R124). -/
def changeHealth (i : Seg) (h : Health) (cause : HealthCause) (destination : Option Nat) (s : State) : State :=
  let before := (s.port i).health
  if before = h then s
  else
    let s1 := onPort i (fun p => { p with health := h }) s
    post (.segmentState i before h (s1.port i).silence cause destination) s1

/-- A valid device reply: silence count 0, and a SUSPECT or DOWN segment becomes UP (R123, R124). -/
def segmentAnswered (i : Seg) (cause : HealthCause) (destination : Nat) (s : State) : State :=
  let s1 := onPort i (fun p => { p with silence := 0 }) s
  if (s1.port i).health = .suspect ∨ (s1.port i).health = .down then
    changeHealth i .up cause (some destination) s1
  else s1

/-- A job's FAILED end: the silence count advances, toward SUSPECT at 3 and DOWN at 6; at DOWN the probe timer starts
(R119, R123, R125). -/
def segmentSilent (i : Seg) (destination : Nat) (s : State) : State :=
  let s1 := onPort i (fun p => { (p.setSeq destination .unknown) with
    probeTarget := some destination, silence := p.silence + 1 }) s
  if (s1.port i).silence = Config.suspectMark then changeHealth i .suspect .silence (some destination) s1
  else if (s1.port i).silence = Config.downMark then
    onPort i (fun p => { p with probeTimer := true }) (changeHealth i .down .silence (some destination) s1)
  else s1

/-- The port's transmitter IDLE with its buffer empty. -/
def Port.toIdle (p : Port) : Port := { p with tx := .idle, probe := false, buffer := none, de := false, cand := [] }

/-- A port whose work is cut: transmitter IDLE, its timers stopped, the operation presented on its fetch line
withdrawn. The end of a cut transmission begins a 2 ms gap (R130, R134, R182). -/
def Port.cut (p : Port) : Port :=
  { p.toIdle with probeTimer := false, fetchOp := .none, gap := p.gap || (p.tx == .send && p.de) }

/-- Steps 3 and 4 of R121: the port goes IDLE, and the job in service is removed, kept as a pending record, and
take-in is considered. A change of health at the same event is no consideration of its own (notes/assumptions/28.md). -/
def endJob (i : Seg) (o : JobOutcome) (s : State) : State :=
  match jobInService s i with
  | none => onPort i Port.toIdle s
  | some j =>
    let s1 := removeTo i ((s.queue i).filter (fun j => !j.inService)) (onPort i Port.toIdle s)
    considerTakeIn i (setEnded i (s1.dispatch.ended.get i ++ [j.end i o none]) s1)

/-- A segment's configuration record written with a fresh check (R49). -/
def putSegRecord (i : Seg) (c : SegConfig) (s : State) : State :=
  { s with store := { s.store with segRecords := s.store.segRecords.set i (freshSegConfig c) } }

/-- Read and test a segment's configuration record; a faulty one is replaced by its defaults, with a STORE-FAULT
notice. The port's copy takes what the record then holds, and nothing is pending (R49, R113, R127, R129). -/
def loadConfig (i : Seg) (path : FaultPath) (s : State) : State :=
  let r := s.store.segRecords.get i
  if r.check = segConfigCheck r.config then
    onPort i (fun p => { p with cfg := r.config, cfgPending := false }) s
  else
    onPort i (fun p => { p with cfg := defaultSegConfig, cfgPending := false })
      (post (.configFault (.segment i) path)
        (putSegRecord i defaultSegConfig s))

/-! ### Carrying out a request (R143, R144) -/

/-- The Command Interpreter carries out the request in hand when its KIND is `kind`: tests 1 to 3, then the operation,
then the reply. A request that uses the store waits for its grant. When the request in hand is another, or the part is
not in service, or the arbiter grants another requester first, nothing happens (notes/assumptions/3.md,
notes/assumptions/5.md). An idle transmitter begins its next frame when the reply stands in the list: the reply goes
before a notice that the request's own operation has posted (notes/assumptions/23.md). -/
def serve {α : Type} (kind : Byte) (usesStore : Bool) (parse : List Byte → Except ReqError α)
    (op : α → State → State × List Byte) (s : State) : State :=
  match inHand s with
  | none => s
  | some r =>
    if s.inService && r.kind == kind then
      match parse r.body with
      | .error e => finish e.bytes s
      | .ok a =>
        if usesStore then
          if granted s .commandInterpreter then
            finish (op a (grant .commandInterpreter s)).2 (op a (grant .commandInterpreter s)).1
          else s
        else finish (op a s).2 (op a s).1
    else s

/-- A request's header read that found a fault: quarantine on path HOST-READ, and the reply DATA-FAULT (R3, R35). -/
def dataFault (e : EntryIx) (record : FaultRecord) (s : State) : State × List Byte :=
  (quarantine e record .hostRead s, dataFaultBytes e record)

/-! ### Start-up: cold initialisation and integrity pass (R170 to R177) -/

/-- The record operations of a start-up sequence, in order (R172 to R176). The cold initialisation's order before the
latch is the model's choice (notes/assumptions/27.md). -/
def startUnits (cause : StartCause) : List StartUnit :=
  let entries := (List.range 256).map entryIx
  (if cause = .cold then
     entries.map .coldHeader ++ Seg.all.map .coldSegment ++ [.coldDaylight, .coldCalendar, .coldLatch]
   else []) ++
    Seg.all.map .testSegment ++ [.testDaylight] ++ entries.map .testEntry

/-- A configuration record replaced by its defaults in the integrity pass (R174). -/
def replaceConfig (name : ConfigName) (s : State) : State :=
  { s with
    store := match name with
      | .segment i => { s.store with segRecords := s.store.segRecords.set i (freshSegConfig defaultSegConfig) }
      | .daylight => { s.store with daylightRecord := freshDaylight defaultDaylight }
    supply := { s.supply with
      faults := s.supply.faults ++ [.config name]
      recordsReplaced := s.supply.recordsReplaced + 1 } }

/-- The quarantine procedure in the form it takes at start-up (R177). -/
def startQuarantine (e : EntryIx) (record : FaultRecord) (s : State) : State :=
  { s with
    store := putHeader e (bareHeader .quarantined) s.store
    supply := { s.supply with
      faults := s.supply.faults ++ [.entry e record]
      entriesQuarantined := s.supply.entriesQuarantined + 1 } }

/-- A value or ANY within a range (R4). -/
def optIn (lo hi : Nat) (o : Option Nat) : Bool :=
  match o with
  | none => true
  | some n => decide (lo ≤ n ∧ n ≤ hi)

/-- The ranges of a pattern (R4) and its satisfiability (R6). -/
def Pattern.ok (p : Pattern) : Bool :=
  optIn 0 59 p.second && optIn 0 59 p.minute && optIn 0 23 p.hour && p.weekdays != 0 &&
    (match p.day with
     | .day n => decide (1 ≤ n ∧ n ≤ 31)
     | _ => true) && optIn 1 12 p.month && !impossibleDay p.day p.month

/-- The ranges of the schedule fields (Table 1-1, R4, R6, R8, R175). -/
def Schedule.ok : Schedule → Bool
  | .calendar p _ => p.ok
  | .interval period first remaining =>
    decide (1 ≤ period ∧ period ≤ 86400 ∧ 1 ≤ first ∧ first ≤ period ∧ 1 ≤ remaining ∧ remaining ≤ period)

/-- The fire-count fields agree and lie in range; an ARMED entry has a fire left (R10, R175). -/
def fireFieldsOk (armed : Bool) (count remaining : Option Nat) : Bool :=
  match count, remaining with
  | none, none => true
  | some n, some k => decide (1 ≤ n ∧ n ≤ 65534 ∧ k ≤ 65534) && (!armed || decide (1 ≤ k))
  | _, _ => false

/-- The ranges of a definition's fields (R4 to R12, R175). -/
def Definition.ok (armed : Bool) (d : Definition) : Bool :=
  d.schedule.ok && decide (d.segment ≤ 3 ∧ 1 ≤ d.destination ∧ d.destination ≤ 127 ∧ d.urgency ≤ 3) &&
    fireFieldsOk armed d.fireCount d.remainingFires && decide (d.coalesced ≤ 255)

/-- A last match that is absent, a run-second, or a valid reading (R12). That the integrity pass tests it is the model's
reading of R175 (notes/assumptions/26.md). -/
def lastMatchOk : Option LastMatch → Bool
  | some (.reading r _) => r.inRange
  | _ => true

/-- Whether a stored header that is not EMPTY passes the header tests of the integrity pass (R175). -/
def StoredHeader.passes (sh : StoredHeader) : Bool :=
  sh.check == headerCheck sh.header &&
    match sh.header.state with
    | .illegal _ => false
    | .named .empty => true
    | .named .quarantined => sh.header == bareHeader .quarantined
    | .named st =>
      match sh.header.defn with
      | none => false
      | some d => d.ok (st == .armed) && lastMatchOk sh.header.lastMatch

/-- Whether a run has a granule in common with one claimed before (R176). -/
def BodyRef.overlaps (a b : BodyRef) : Bool :=
  decide (a.first < b.first + granulesFor b.length ∧ b.first < a.first + granulesFor a.length)

/-- The integrity pass examines one entry (R175 to R177). -/
def testEntry (e : EntryIx) (s : State) : State :=
  let sh := s.store.headers.get e
  if sh.header.state = .named .empty then s
  else if sh.passes then
    match sh.header.body with
    | none => s
    | some r =>
      if r.inHeap && !s.supply.claims.any r.overlaps && recordSound s.store.heap e r then
        { s with supply := { s.supply with claims := s.supply.claims ++ [r] } }
      else startQuarantine e .body s
  else startQuarantine e .header s

/-- One record operation of a start-up sequence (R173 to R177). -/
def runStartUnit (s : State) : StartUnit → State
  | .coldHeader e => { s with store := putHeader e (bareHeader .empty) s.store }
  | .coldSegment i =>
    { s with store := { s.store with segRecords := s.store.segRecords.set i (freshSegConfig defaultSegConfig) } }
  | .coldDaylight => { s with store := { s.store with daylightRecord := freshDaylight defaultDaylight } }
  | .coldCalendar => { s with cal := { Calendar.cold with runSecond := s.cal.runSecond } }
  | .coldLatch => { s with supply := { s.supply with backupLost := false } }
  | .testSegment i =>
    let r := s.store.segRecords.get i
    if r.check = segConfigCheck r.config ∧ firstFault (segConfigTests r.config) = none then s
    else replaceConfig (.segment i) s
  | .testDaylight =>
    let r := s.store.daylightRecord
    if r.check = daylightCheck r.rule ∧ firstFault (daylightTests r.rule) = none then s else replaceConfig .daylight s
  | .testEntry e => testEntry e s

/-- Make the next `n` record operations of the start-up in progress. -/
def runStart (n : Nat) (s : State) : State :=
  let units := ((startUnits s.supply.cause).drop s.supply.startDone).take n
  let s1 := units.foldl runStartUnit s
  { s1 with supply := { s1.supply with startDone := s.supply.startDone + units.length } }

/-- The cause of a start-up that begins now (R170). -/
def startCauseOf (s : State) : StartCause :=
  if s.supply.backupLost then .cold
  else if s.supply.phase = .resetting then .request
  else if s.supply.powerLost then .powerOn
  else .pin

/-- A start-up begins (R170, R172): the cause is set, the straps are sampled, and the sequence makes as many of its
record operations as fall before the next event. -/
def beginStart (start : StartInput) (s : State) : State :=
  runStart start.work
    { s with supply := { s.supply with
        phase := .starting
        cause := startCauseOf s
        faults := []
        entriesQuarantined := 0
        recordsReplaced := 0
        claims := []
        startDone := 0
        powerLost := false
        vbakLow := false
        ls1 := start.ls1
        ls0 := start.ls0 } }

/-- The entry state list built from the headers (R2, R178). -/
def statesOf (p : ProgramStore) : Vector EntryState 256 :=
  ⟨⟨p.headers.toList.map (fun sh => sh.header.state.entryState)⟩, by simp⟩

/-- One entry's run given to it in the map being built (R31). -/
def claimRun (p : ProgramStore) (m : Vector (Option EntryIx) 2048) (e : EntryIx) : Vector (Option EntryIx) 2048 :=
  let h := (p.headers.get e).header
  match h.body with
  | none => m
  | some r => if h.state.entryState.defined then giveInMap e r.first (granulesFor r.length) m else m

/-- The allocation map built from the headers (R31, R178). -/
def mapOf (p : ProgramStore) : Vector (Option EntryIx) 2048 :=
  ((List.range 256).map entryIx).foldl (claimRun p) (Vector.replicate 2048 none)

/-- The volatile state of every block at its start-up values, with nothing of the store known (R169;
notes/assumptions/11.md). -/
def loseVolatile (s : State) : State :=
  { s with
    link := HostLink.start s.link.speed
    ctl := StoreControl.start
    cal := { s.cal with runSecond := 0 }
    matcher := none
    dispatch := DispatchUnit.start
    ports := .same (Port.start defaultSegConfig)
    notices := NoticeUnit.start
    supply := { s.supply with faults := [], entriesQuarantined := 0, recordsReplaced := 0, claims := [], startDone := 0 } }

/-- The volatile initialisation (Table 9-3, R179), with the entry state list and the allocation map that the pass's
end builds (R178). -/
def volatileInit (s : State) : State :=
  { s with
    link := HostLink.start (LinkSpeed.ofStraps s.supply.ls1 s.supply.ls0)
    ctl := { StoreControl.start with map := mapOf s.store, states := statesOf s.store }
    cal := { s.cal with
      rule := s.store.daylightRecord.rule
      fold := foldUnder s.store.daylightRecord.rule s.cal.fold s.cal.reading
      runSecond := 0 }
    matcher := none
    dispatch := DispatchUnit.start
    ports := s.store.segRecords.map (fun r => Port.start r.config)
    notices := NoticeUnit.start }

/-- The deferred STORE-FAULT notice of a fault item (R180). -/
def postFaultItem (s : State) : FaultItem → State
  | .config name => post (.configFault name .startUp) s
  | .entry e record => post (.entryFault e record .startUp) s

/-- The STARTED notice and the deferred notices, then service begins (R180, R181). -/
def beginService (s : State) : State :=
  let s1 := post (.started s.supply.cause s.supply.entriesQuarantined s.supply.recordsReplaced s.cal.valid) s
  let s2 := s.supply.faults.foldl postFaultItem s1
  kickTx { s2 with supply := { s2.supply with
    phase := .inService, faults := [], entriesQuarantined := 0, recordsReplaced := 0, claims := [], startDone := 0 } }

end Sys2Proof.Machine
end

