-- ==== Sys2Proof/Machine/ClockRequests.lean ====
section
/-! DEFINITION. The clock requests (3.5, 3.6): CLOCK-SET, CLOCK-READ, CLOCK-RULE. -/

namespace Sys2Proof.Machine

/-- The fold that CLOCK-SET sets (R65). -/
def ClockSetReq.newFold (rule : DaylightRule) (q : ClockSetReq) : Fold :=
  match q.fold with
  | some f => f
  | none => if inRepeatedHour rule q.reading then .first else .normal

/-- CLOCK-SET's act (R65, R66): reading, fold and clock-valid flag, and the prescaler restarted. -/
def clockSetOp (q : ClockSetReq) (s : State) : State × List Byte :=
  ({ s with cal := { s.cal with
      prescaler := 0
      reading := q.reading
      fold := q.newFold s.cal.rule
      valid := true } },
   doneBytes (readingBytes q.reading (q.newFold s.cal.rule) true))

/-- CLOCK_SET (R65) -/
def execClockSet (s : State) : Host.Outcome State Fault Refusal :=
  .next (serve 0x18#8 false (parseClockSet s.cal.rule) clockSetOp s)

/-- CLOCK-READ's act (R67, Table 10-9). -/
def clockReadOp (_ : Unit) (s : State) : State × List Byte :=
  (s, doneBytes (readingBytes s.cal.reading s.cal.fold s.cal.valid ++ [byte1 (flagBit s.cal.rule.enabled)] ++
    byte4 s.cal.runSecond.toNat))

/-- CLOCK_READ (R67) -/
def execClockRead (s : State) : Host.Outcome State Fault Refusal := .next (serve 0x19#8 false parseNone clockReadOp s)

/-- CLOCK-RULE's operation (R68, R69): the record, the copy, and the fold made to agree. -/
def clockRuleOp (rule : DaylightRule) (s : State) : State × List Byte :=
  ({ s with
      store := { s.store with daylightRecord := freshDaylight rule }
      cal := { s.cal with rule := rule, fold := foldUnder rule s.cal.fold s.cal.reading } },
   doneBytes [])

/-- CLOCK_RULE (R69) -/
def execClockRule (s : State) : Host.Outcome State Fault Refusal := .next (serve 0x1A#8 true parseClockRule clockRuleOp s)

end Sys2Proof.Machine
end

