-- ==== Sys2Proof/Machine/DispatchRequests.lean ====
section
/-! DEFINITION. The requests of the Dispatch Queue Manager (5.4, 5.5): QUEUE-READ, QUEUE-PURGE, DISPATCH-HOLD,
DISPATCH-RELEASE. -/

namespace Sys2Proof.Machine

/-- The attempt and busy counts of the job in service, 0 when there is none (Table 10-9). -/
def serviceCounts (s : State) (i : Seg) : List Byte :=
  match jobInService s i with
  | none => [0#8, 0#8]
  | some j => [byte1 j.attempts, byte1 j.busy]

/-- The results of QUEUE-READ (R102, Table 10-9). -/
def queueReadBytes (s : State) (i : Seg) : List Byte :=
  [byte1 i.val, byte1 (s.queue i).length,
   byte1 (flagBit (s.dispatch.highArmed.get i) + 2 * flagBit (s.dispatch.segHold.get i) +
     4 * flagBit s.dispatch.hold)] ++
    serviceCounts s i ++ (s.queue i).flatMap jobBytes

/-- QUEUE-READ's act (R102). -/
def queueReadOp (i : Seg) (s : State) : State × List Byte := (s, doneBytes (queueReadBytes s i))

/-- QUEUE_READ (R102) -/
def execQueueRead (s : State) : Host.Outcome State Fault Refusal :=
  .next (serve 0x20#8 false parseSegment queueReadOp s)

/-- QUEUE-PURGE's operation (R101): the waiting jobs of the queues named end PURGED. -/
def purgeOp (named : List Seg) (s : State) : State × List Byte :=
  let sel : Seg → Job → Bool := fun i _ => named.contains i
  let ends := endsOf sel .purged s
  (considerAll named (recordAll .hostRead ends (removeSelected sel s)), doneBytes [byte1 ends.length])

/-- QUEUE_PURGE (R101) -/
def execQueuePurge (s : State) : Host.Outcome State Fault Refusal := .next (serve 0x21#8 true parsePurge purgeOp s)

/-- DISPATCH-HOLD's act (R100). -/
def dispatchHoldOp (_ : Unit) (s : State) : State × List Byte :=
  ({ s with dispatch := { s.dispatch with hold := true } }, doneBytes [byte1 (flagBit s.dispatch.hold)])

/-- DISPATCH_HOLD (R100) -/
def execDispatchHold (s : State) : Host.Outcome State Fault Refusal :=
  .next (serve 0x22#8 false parseNone dispatchHoldOp s)

/-- DISPATCH-RELEASE's act (R100): take-in is considered for every segment when the flag was set. -/
def dispatchReleaseOp (_ : Unit) (s : State) : State × List Byte :=
  (if s.dispatch.hold then considerAll Seg.all { s with dispatch := { s.dispatch with hold := false } } else s,
   doneBytes [byte1 (flagBit s.dispatch.hold)])

/-- DISPATCH_RELEASE (R100) -/
def execDispatchRelease (s : State) : Host.Outcome State Fault Refusal :=
  .next (serve 0x23#8 false parseNone dispatchReleaseOp s)

end Sys2Proof.Machine
end

