-- ==== Sys2Proof/Machine/EntryRequests.lean ====
section
/-! DEFINITION. The entry requests (1.4) and the manual fire (4.4): ENTRY-DEFINE, ENTRY-ARM, ENTRY-DISARM,
ENTRY-DELETE, ENTRY-READ, ENTRY-MAP, ENTRY-FIRE. -/

namespace Sys2Proof.Machine

/-! ### ENTRY-DEFINE (R16 to R18) -/

/-- The body disposition's code (Table 10-4): KEPT when the reference is kept, FREED when a granule was freed. -/
def bodyDispositionCode (kept : Option BodyRef) (owned : Nat) : Nat :=
  if kept.isSome then 1 else if owned ≠ 0 then 2 else 0

/-- The header that ENTRY-DEFINE writes (R17). -/
def DefineReq.header (q : DefineReq) (kept : Option BodyRef) : Header :=
  { state := .named (if q.arm then .armed else .draft)
    defn := some q.defn
    body := kept
    lastOutcome := none
    lastMatch := none }

/-- Write the new definition, with the body kept or freed, and withdraw the entry's jobs (R13, R17, R18). -/
def storeDefinition (q : DefineReq) (kept : Option BodyRef) (s : State) : State × List Byte :=
  let s1 := writeHeader q.index (q.header kept) s
  let s2 := if kept.isSome then s1 else freeGranules q.index s1
  (withdraw (· == q.index) s2,
   doneBytes [byte1 (if q.arm then EntryState.armed else EntryState.draft).code,
     byte1 (bodyDispositionCode kept (ownedCount s.ctl.map q.index))])

/-- ENTRY-DEFINE's operation (R17, R18). -/
def defineOp (q : DefineReq) (s : State) : State × List Byte :=
  if q.keepBody && (stateOf s q.index).defined then
    match readHeader s q.index with
    | none => dataFault q.index .header s
    | some (h, d) => storeDefinition q (if d.segment = q.defn.segment then h.body else none) s
  else storeDefinition q none s

/-- ENTRY_DEFINE (R17) -/
def execEntryDefine (s : State) : Host.Outcome State Fault Refusal := .next (serve 0x01#8 true parseDefine defineOp s)

/-! ### ENTRY-ARM, ENTRY-DISARM, ENTRY-DELETE (R19 to R21) -/

/-- The schedule as ENTRY-ARM leaves it: remaining set to the first offset (R8, R19). -/
def Schedule.rearmed : Schedule → Schedule
  | .calendar p policy => .calendar p policy
  | .interval period first _ => .interval period first first

/-- The definition as ENTRY-ARM leaves it (R19). -/
def Definition.rearmed (d : Definition) : Definition :=
  { d with schedule := d.schedule.rearmed, remainingFires := d.fireCount, coalesced := 0 }

/-- ENTRY-ARM's operation (R19). -/
def armOp (e : EntryIx) (s : State) : State × List Byte :=
  if (stateOf s e).defined then
    match readHeader s e with
    | none => dataFault e .header s
    | some (h, d) =>
      (writeHeader e { h with state := .named .armed, defn := some d.rearmed } s,
       doneBytes (byte1 EntryState.armed.code :: fireBytes d.fireCount))
  else (s, wrongStateBytes (stateOf s e).code)

/-- ENTRY_ARM (R19) -/
def execEntryArm (s : State) : Host.Outcome State Fault Refusal := .next (serve 0x02#8 true parseIndex armOp s)

/-- ENTRY-DISARM's operation (R20). -/
def disarmOp (e : EntryIx) (s : State) : State × List Byte :=
  match stateOf s e with
  | .empty => (s, wrongStateBytes EntryState.empty.code)
  | .armed =>
    match readHeader s e with
    | none => dataFault e .header s
    | some (h, _) => (writeHeader e { h with state := .named .draft } s, doneBytes [byte1 EntryState.draft.code])
  | .draft => (s, doneBytes [byte1 EntryState.draft.code])
  | .retired => (s, doneBytes [byte1 EntryState.retired.code])
  | .quarantined => (s, doneBytes [byte1 EntryState.quarantined.code])

/-- ENTRY_DISARM (R20) -/
def execEntryDisarm (s : State) : Host.Outcome State Fault Refusal := .next (serve 0x03#8 true parseIndex disarmOp s)

/-- ENTRY-DELETE's operation (R21): the header is not read. -/
def deleteOp (e : EntryIx) (s : State) : State × List Byte :=
  if stateOf s e = .empty then (s, doneBytes [0#8])
  else
    (withdraw (· == e) (freeGranules e (writeHeader e (bareHeader .empty) s)),
     doneBytes [byte1 (ownedCount s.ctl.map e)])

/-- ENTRY_DELETE (R21) -/
def execEntryDelete (s : State) : Host.Outcome State Fault Refusal := .next (serve 0x04#8 true parseIndex deleteOp s)

/-! ### ENTRY-READ, ENTRY-MAP (R22, R23) -/

/-- ENTRY-READ's operation (R22). -/
def readOp (e : EntryIx) (s : State) : State × List Byte :=
  if (stateOf s e).defined then
    match readHeader s e with
    | none => dataFault e .header s
    | some (h, _) => (s, doneBytes (entryReadBytes e h))
  else (s, doneBytes [byte1 e.val, byte1 (stateOf s e).code])

/-- ENTRY_READ (R22) -/
def execEntryRead (s : State) : Host.Outcome State Fault Refusal := .next (serve 0x05#8 true parseIndex readOp s)

/-- The 128 bytes of the entry map (R23, Table 10-9). -/
def mapBytes (states : Vector EntryState 256) : List Byte :=
  (List.range 128).map (fun k =>
    byte1 (16 * (states.get (entryIx (2 * k))).code + (states.get (entryIx (2 * k + 1))).code))

/-- ENTRY-MAP's operation (R23). -/
def mapOp (_ : Unit) (s : State) : State × List Byte := (s, doneBytes (mapBytes s.ctl.states))

/-- ENTRY_MAP (R23) -/
def execEntryMap (s : State) : Host.Outcome State Fault Refusal := .next (serve 0x06#8 true parseNone mapOp s)

/-! ### ENTRY-FIRE (R86, R87) -/

/-- The offer of a manual fire (R87). -/
def manualOffer (e : EntryIx) (d : Definition) (now : RunSecond) : Offer :=
  { entry := e
    destination := d.destination
    urgency := d.urgency
    cause := .manual
    due := none
    created := now }

/-- The header that a manual fire writes (R87). -/
def firedHeader (h : Header) (now : RunSecond) (d : Disposition) : Header :=
  { h with
    lastMatch := some (.runSecond now)
    lastOutcome := if d.endedAtOnce then some .dropped else h.lastOutcome }

/-- ENTRY-FIRE's operation (R86, R87). -/
def fireOp (e : EntryIx) (s : State) : State × List Byte :=
  if (stateOf s e).defined then
    match readHeader s e with
    | none => dataFault e .header s
    | some (h, d) =>
      let met := meetOffer .hostRead d.seg (manualOffer e d s.cal.runSecond) d.report s
      (writeHeader e (firedHeader h s.cal.runSecond met.1) met.2,
       doneBytes (byte1 met.1.code :: byte2 met.1.tag.toNat))
  else (s, wrongStateBytes (stateOf s e).code)

/-- ENTRY_FIRE (R87) -/
def execEntryFire (s : State) : Host.Outcome State Fault Refusal := .next (serve 0x07#8 true parseIndex fireOp s)

end Sys2Proof.Machine
end

