-- ==== Sys2Proof/Machine/LinkEvents.lean ====
section
/-! DEFINITION. The events of the host link (7.2, 7.3, 7.5) and of the Notice Unit's timer and frames (8.4, 8.5):
FRAME_ARRIVAL, FRAME_DISCARD, INTER_CHARACTER_TIMER_EXPIRY, REPLY_TRANSMIT_END, NOTICE_FRAME_END,
RESEND_TIMER_EXPIRY. -/

namespace Sys2Proof.Machine

/-! ### Reception (R136 to R142, R150, R165) -/

/-- Set the receiver. -/
def setRx (r : Receiver) (s : State) : State := { s with link := { s.link with rx := r } }

/-- One more discard (R137). -/
def countDiscard (s : State) : State := { s with link := { s.link with discards := countUp s.link.discards } }

/-- The frame in hand is discarded (R137). -/
def discardFrame (s : State) : State := countDiscard (setRx .hunt s)

/-- The host is present (R149, R150, R165): the flag and its copy are cleared, the resend count is 0, and when the
flag was set every in-flight notice is marked. -/
def hostPresent (s : State) : State :=
  { s with
    link := { s.link with hostAbsent := false }
    notices :=
      if s.link.hostAbsent then { s.notices.markAll with resendCount := 0, hostAbsent := false }
      else { s.notices with resendCount := 0 } }

/-- An immediate answer is placed in the reply list, or, when 4 are in it, the frame is counted as a discard
(R141, R142). DESIGN CHOICE, unsafe: one in transmission has left the list and does not count
(notes/assumptions/30.md). -/
def answerAtOnce (r : Reply) (s : State) : State :=
  if Config.immediateCapacity ≤ s.link.replies.countP (·.immediate) then countDiscard s
  else { s with link := { s.link with replies := s.link.replies ++ [r] } }

/-- The tests of R139 on a well-formed frame: a queued duplicate, a cached duplicate, a full queue, or a request. -/
def meetFrame (seq kind : Byte) (body : List Byte) (s : State) : State :=
  if s.link.requests.any (fun r => r.seq == seq) then s
  else match s.link.cache.find? (fun c => c.seq == seq && c.kind == kind) with
    | some c => answerAtOnce ⟨c.seq, c.kind, c.body, true⟩ s
    | none =>
      if Config.requestCapacity ≤ s.link.requests.length then answerAtOnce ⟨seq, kind, busyBytes, true⟩ s
      else { s with link := { s.link with requests := s.link.requests ++ [⟨seq, kind, body, false⟩] } }

/-- The arrival of a well-formed frame, whose kept bytes are SEQ, KIND and BODY (R139). -/
def frameArrives (kept : List Byte) (s : State) : State :=
  match kept with
  | seq :: kind :: body => kickTx (meetFrame seq kind body (hostPresent (setRx .hunt s)))
  | _ => setRx .hunt s

/-- The receiver takes one character (Table 7-3, R136, R137). -/
def receive (s : State) (c : RxChar) : State :=
  match s.link.rx with
  | .hunt => if c.stopOk && c.data == 0xA5#8 then setRx .length s else s
  | .length =>
    if c.stopOk && decide (2 ≤ c.data.toNat ∧ c.data.toNat ≤ 254) then setRx (.collect c.data []) s
    else discardFrame s
  | .collect len kept =>
    if c.stopOk then
      if kept.length + 1 < len.toNat then setRx (.collect len (kept ++ [c.data])) s
      else setRx (.check len (kept ++ [c.data]) none) s
    else discardFrame s
  | .check len kept none => if c.stopOk then setRx (.check len kept (some c.data)) s else discardFrame s
  | .check len kept (some high) =>
    if c.stopOk && byte2 (crc16 (len :: kept)).toNat == [high, c.data] then frameArrives kept s
    else discardFrame s

/-- The receiver takes some characters, while the part is in service (R136, R153, R154). -/
def receiveAll (chars : List RxChar) (s : State) : State := if s.inService then chars.foldl receive s else s

/-- FRAME_ARRIVAL (R139): the characters that end with the last CHK character of a frame -/
def execFrameArrival (chars : List RxChar) (s : State) : Host.Outcome State Fault Refusal := .next (receiveAll chars s)

/-- FRAME_DISCARD (R137): the characters that end with the one at which a frame is discarded -/
def execFrameDiscard (chars : List RxChar) (s : State) : Host.Outcome State Fault Refusal := .next (receiveAll chars s)

/-- INTER_CHARACTER_TIMER_EXPIRY (R138): the timer runs in LENGTH, COLLECT and CHECK. -/
def execInterCharacterTimerExpiry (s : State) : Host.Outcome State Fault Refusal :=
  .next (if s.inService && s.link.rx != .hunt then discardFrame s else s)

/-! ### Transmission (R140, R145, R147, R161) -/

/-- The cache with the reply of a finished request (R145): it replaces the entry of the same SEQ, or the oldest of
four. -/
def cacheReply (r : Reply) (cache : List CacheEntry) : List CacheEntry :=
  let others := cache.filter (fun c => c.seq != r.seq)
  (if others.length < Config.cacheCapacity then others else others.drop 1) ++ [⟨r.seq, r.kind, r.body⟩]

/-- The transmitter idle. -/
def idleTx (s : State) : State := { s with link := { s.link with tx := none } }

/-- A reply has been sent: its request leaves the queue and the reply enters the cache; an immediate answer
changes neither, and has left the reply list as it began (R140, R147, notes/assumptions/30.md). -/
def replySent (r : Reply) (s : State) : State :=
  if r.immediate then idleTx s
  else
    { s with link := { s.link with
        tx := none
        requests := s.link.requests.filter (fun q => q.seq != r.seq)
        cache := cacheReply r s.link.cache } }

/-- REPLY_TRANSMIT_END (R140). In RESETTING the end of the last reply begins the start-up (R183). -/
def execReplyTransmitEnd (start : StartInput) (s : State) : Host.Outcome State Fault Refusal :=
  .next (match s.link.tx with
    | some (.reply r) =>
      let s1 := replySent r s
      if s.supply.phase = .resetting ∧ s.link.replies = [] then beginStart start s1 else kickTx s1
    | _ => s)

/-- The oldest notice in flight has the given serial. -/
def oldestInFlight (n : NoticeUnit) (serial : Word16) : Bool :=
  match n.inFlight with
  | [] => false
  | q :: _ => q.notice.serial == serial

/-- The Notice Unit is told of the end of a notice's frame (R161): the timer starts when the notice is the oldest in
flight, the timer is stopped and the host is not absent. -/
def noticeSent (n : Notice) (s : State) : State :=
  if oldestInFlight s.notices n.serial && !s.notices.timer && !s.notices.hostAbsent then
    { s with notices := { s.notices with timer := true } }
  else s

/-- NOTICE_FRAME_END (R161) -/
def execNoticeFrameEnd (s : State) : Host.Outcome State Fault Refusal :=
  .next (match s.link.tx with
    | some (.notice n) => kickTx (noticeSent n (idleTx s))
    | _ => s)

/-- The resend timer has expired (R163): the in-flight notices are marked and the count rises, or at 5 the host is
absent. -/
def timerExpired (s : State) : State :=
  if s.notices.resendCount < Config.resendLimit then
    { s with notices := { s.notices.markAll with timer := false, resendCount := s.notices.resendCount + 1 } }
  else
    { s with
      link := { s.link with hostAbsent := true }
      notices := { s.notices with timer := false, hostAbsent := true } }

/-- RESEND_TIMER_EXPIRY (R163) -/
def execResendTimerExpiry (s : State) : Host.Outcome State Fault Refusal :=
  .next (if s.notices.timer then kickTx (timerExpired s) else s)

end Sys2Proof.Machine
end

