-- ==== Sys2Proof/Machine/LinkRequests.lean ====
section
/-! DEFINITION. The requests of the link and the part (7.6, 9.5), and the request of an unknown kind: LINK-ECHO,
PART-STATUS, PART-RESET. -/

namespace Sys2Proof.Machine

/-- LINK-ECHO's act (R151). -/
def linkEchoOp (body : List Byte) (s : State) : State × List Byte := (s, doneBytes body)

/-- LINK_ECHO (R151) -/
def execLinkEcho (s : State) : Host.Outcome State Fault Refusal := .next (serve 0x30#8 false parseEcho linkEchoOp s)

/-- The results of PART-STATUS (R152, Table 10-9). -/
def partStatusBytes (s : State) : List Byte :=
  byte2 0x0D04 ++ [0x01#8] ++ byte2 0x0100 ++ byte2 Config.granules ++
    [byte1 Config.granuleBytes, byte1 4, byte1 Config.queueCapacity, byte1 Config.requestCapacity,
     byte1 Config.cacheCapacity, byte1 Config.noticeCapacity, byte1 Config.inFlightCapacity,
     byte1 s.link.speed.code] ++
    byte2 s.link.discards ++
    [byte1 s.link.requests.length, byte1 s.notices.queue.length, byte1 s.notices.inFlight.length,
     byte1 (flagBit s.link.hostAbsent + 2 * flagBit s.ctl.compacting), byte1 s.supply.cause.code]

/-- PART-STATUS's act (R152). -/
def partStatusOp (clear : Bool) (s : State) : State × List Byte :=
  (if clear then { s with link := { s.link with discards := 0 } } else s, doneBytes (partStatusBytes s))

/-- PART_STATUS (R152) -/
def execPartStatus (s : State) : Host.Outcome State Fault Refusal := .next (serve 0x31#8 false parseFlag partStatusOp s)

/-- The requests that stand behind the one in hand (R183). -/
def behindInHand (l : List Request) : List Request := (l.filter (fun r => !r.built)).drop 1

/-- The replies that a PART-RESET makes (R183): ABORTED for each request behind it, then its own DONE. -/
def resetReplies (r : Request) (behind : List Request) : List Reply :=
  behind.map (fun q => ⟨q.seq, q.kind, abortedBytes, false⟩) ++
    [⟨r.seq, r.kind, doneBytes [byte1 behind.length], false⟩]

/-- The part leaves service (R154, R182, R183): grants, passes, compaction and ports stop, reception stops, and the
replies are placed in the list. -/
def beginReset (r : Request) (s : State) : State :=
  { s with
    link := { s.link with
      rx := .hunt
      requests := s.link.requests.map (fun q => { q with built := true })
      replies := s.link.replies ++ resetReplies r (behindInHand s.link.requests) }
    ctl := { s.ctl with compacting := false }
    matcher := none
    ports := s.ports.map Port.cut
    supply := { s.supply with phase := .resetting } }

/-- PART_RESET (R182) -/
def execPartReset (s : State) : Host.Outcome State Fault Refusal :=
  .next (match inHand s with
    | none => s
    | some r => if s.inService && r.kind == 0x32#8 then kickTx (beginReset r s) else s)

/-- UNKNOWN_KIND_REQUEST (R144) -/
def execUnknownKindRequest (s : State) : Host.Outcome State Fault Refusal :=
  .next (match inHand s with
    | none => s
    | some r => if s.inService && !knownKind r.kind then finish ReqError.unknownKind.bytes s else s)

end Sys2Proof.Machine
end

