-- ==== Sys2Proof/Machine/NoticeRequests.lean ====
section
/-! DEFINITION. The requests of the Notice Unit (8.4, 8.6): NOTICE-ACK, NOTICE-MASK. -/

namespace Sys2Proof.Machine

/-- The queue less the notice of a serial and every notice older than it (R162). -/
def dropThrough (serial : Word16) : List QueuedNotice → List QueuedNotice
  | [] => []
  | q :: rest => if q.notice.serial = serial then rest else dropThrough serial rest

/-- The GAP notice made when a place has come free with the gap count above 0 (R159). -/
def makeGap (s : State) : State :=
  if s.notices.gapCount = 0 then s
  else
    let s1 := makeNotice (.gap s.notices.gapCount) s
    { s1 with notices := { s1.notices with gapCount := 0 } }

/-- NOTICE-ACK's act (R162). The timer stays stopped while the host is absent (R164). -/
def noticeAckOp (serial : Word16) (s : State) : State × List Byte :=
  let rest := dropThrough serial s.notices.queue
  let s1 := makeGap { s with notices := { s.notices with
    queue := rest, resendCount := 0, timer := !s.notices.hostAbsent && rest.any (·.inFlight) } }
  (s1, doneBytes [byte1 (s.notices.queue.length - rest.length), byte1 s1.notices.queue.length])

/-- The serials in flight (R162). -/
def inFlightSerials (s : State) : List Word16 := s.notices.inFlight.map (·.notice.serial)

/-- NOTICE_ACK (R162) -/
def execNoticeAck (s : State) : Host.Outcome State Fault Refusal :=
  .next (serve 0x38#8 false (parseAck (inFlightSerials s)) noticeAckOp s)

/-- NOTICE-MASK's act (R167). -/
def noticeMaskOp (mask : Word16) (s : State) : State × List Byte :=
  ({ s with notices := { s.notices with mask := mask } }, doneBytes (byte2 s.notices.mask.toNat))

/-- NOTICE_MASK (R167) -/
def execNoticeMask (s : State) : Host.Outcome State Fault Refusal := .next (serve 0x39#8 false parseMask noticeMaskOp s)

end Sys2Proof.Machine
end

