-- ==== Sys2Proof/Machine/PortEvents.lean ====
section
/-! DEFINITION. The events of the segment ports (06) and of their fetch lines (5.6): FETCH, RECORDING_OPERATION,
SEND_START_AFTER_GAP, TELEGRAM_SEND_END, DEVICE_REPLY, RESPONSE_WINDOW_EXPIRY, BACKOFF_EXPIRY, PROBE_TIMER_EXPIRY. -/

namespace Sys2Proof.Machine

/-! ### FETCH and RECORDING_OPERATION (R104, R113, R114) -/

/-- The operation presented on a fetch line is granted (R27). -/
def takeFetchLine (i : Seg) (s : State) : State := onPort i (fun p => { p with fetchOp := .none }) (grant (.fetch i) s)

/-- The pending records that the line holds as its operation begins are recorded (R104, R113 step 1). -/
def recordLine (i : Seg) (s : State) : State := recordPending .fetch i (s.dispatch.ended.get i).length s

/-- The fetch is complete: the telegram stands in the buffer and the transmitter enters SEND, a new attempt
(R113 step 6, R115). -/
def sendFetched (i : Seg) (j : Job) (body : List Byte) (s : State) : State :=
  onPort i (fun p => Port.enterSend { p with buffer := some (dataTelegram p j.destination body), probe := false })
    (onJob i (fun k => { k with attempts := k.attempts + 1 }) s)

/-- Steps 3 to 6 of R113 for the job in service. -/
def fetchJob (i : Seg) (j : Job) (s : State) : State :=
  if j.stale then endJob i .superseded s
  else match readHeader s j.entry with
    | none => endJob i .fault (quarantine j.entry .header .fetch s)
    | some (h, _) =>
      match h.body with
      | none => sendFetched i j [] s
      | some r =>
        if recordSound s.store.heap j.entry r then sendFetched i j (recordBody s.store.heap r) s
        else endJob i .fault (quarantine j.entry .body .fetch s)

/-- The fetch of one port (R113). -/
def fetchOnLine (i : Seg) (s : State) : State :=
  let s1 := recordLine i (takeFetchLine i s)
  let s2 := if (s1.port i).cfgPending then loadConfig i .fetch s1 else s1
  match jobInService s2 i with
  | none => s2
  | some j => fetchJob i j s2

/-- FETCH (R113) -/
def execFetch (i : Seg) (s : State) : Host.Outcome State Fault Refusal :=
  .next (if (s.port i).fetchOp == .fetch && granted s (.fetch i) then kickTx (fetchOnLine i s) else s)

/-- RECORDING_OPERATION (R104) -/
def execRecordingOperation (i : Seg) (s : State) : Host.Outcome State Fault Refusal :=
  .next (if (s.port i).fetchOp == .record && granted s (.fetch i) then kickTx (recordLine i (takeFetchLine i s))
    else s)

/-! ### SEND_START_AFTER_GAP and TELEGRAM_SEND_END (R109, R115, R120, R125) -/

/-- The 2 ms gap has passed: a port that waits in SEND begins to transmit (R109). -/
def Port.gapPassed (p : Port) : Port := { p with gap := false, de := p.de || p.tx == .send }

/-- SEND_START_AFTER_GAP (R109) -/
def execSendStartAfterGap (i : Seg) (s : State) : Host.Outcome State Fault Refusal :=
  .next (if (s.port i).gap then onPort i Port.gapPassed s else s)

/-- The line released at the end of a transmission, which begins a 2 ms gap (R109, R115). -/
def Port.released (p : Port) : Port := { p with de := false, gap := true }

/-- AWAIT: the response window opens (R115, R116). -/
def Port.awaiting (p : Port) : Port := { p with tx := .await, cand := [] }

/-- The end of the telegram on the line (R115, R120, R125). -/
def telegramEnds (i : Seg) (s : State) : State :=
  let s1 := onPort i Port.released s
  if (s.port i).probe then onPort i Port.awaiting s1
  else match jobInService s1 i with
    | none => onPort i Port.toIdle s1
    | some j => if j.destination = 127 then endJob i .broadcastSent s1 else onPort i Port.awaiting s1

/-- TELEGRAM_SEND_END (R115). A port that holds the line released until the gap has passed sends nothing that could end
(R109). -/
def execTelegramSendEnd (i : Seg) (s : State) : Host.Outcome State Fault Refusal :=
  .next (if (s.port i).tx == .send && (s.port i).de then kickTx (telegramEnds i s) else s)

/-! ### DEVICE_REPLY (R111, R117, R118, R126, R188) -/

/-- The kinds of a device reply (Table 10-12). -/
inductive DeviceReplyKind where
  | ack
  | busy
  | reject
  deriving DecidableEq, Repr

/-- The reply kind that a reply byte carries, when it passes the tests of R188. -/
def deviceReplyKind (b : Byte) : Option DeviceReplyKind :=
  if b &&& 0xEC#8 = 0#8 then
    match (b &&& 0x03#8).toNat with
    | 1 => some .ack
    | 2 => some .busy
    | 3 => some .reject
    | _ => none
  else none

/-- A complete candidate judged (R111, R188): its kind when it is a valid reply to the telegram just sent. -/
def judgeCandidate (sent : Telegram) (source reply high low : Byte) : Option DeviceReplyKind :=
  if byte2 (crc16 [source, reply]).toNat = [high, low] ∧ source.toNat = sent.destination then
    match deviceReplyKind reply with
    | none => none
    | some .busy => some .busy
    | some .ack => if reply.getLsbD 4 = sent.seqBit then some .ack else none
    | some .reject => if reply.getLsbD 4 = sent.seqBit then some .reject else none
  else none

/-- A valid ACK or REJECT in a job's window (R117). -/
def jobAnswered (i : Seg) (o : JobOutcome) (sent : Telegram) (s : State) : State :=
  endJob i o (segmentAnswered i .reply sent.destination
    (onPort i (fun p => p.setSeq sent.destination (if sent.seqBit then .zero else .one)) s))

/-- The busy count of the job in service. -/
def busyCount (s : State) (i : Seg) : Nat :=
  match jobInService s i with
  | none => 0
  | some j => j.busy

/-- BACKOFF (R118). -/
def Port.backingOff (p : Port) : Port := { p with tx := .backoff, cand := [] }

/-- A valid BUSY in a job's window (R118). Take-in is considered where the BUSY makes the segment UP (R97). -/
def jobBusy (i : Seg) (sent : Telegram) (s : State) : State :=
  let s1 := segmentAnswered i .reply sent.destination (onJob i (fun j => { j with busy := j.busy + 1 }) s)
  if busyCount s1 i ≤ (s1.port i).cfg.busyLimit then
    let s2 := onPort i Port.backingOff s1
    if (s.port i).health = .up then s2 else considerTakeIn i s2
  else endJob i .busyLimit s1

/-- A valid reply to a probe (R126). -/
def probeAnswered (i : Seg) (sent : Telegram) (s : State) : State :=
  considerTakeIn i (onPort i Port.toIdle (segmentAnswered i .probe sent.destination s))

/-- A valid reply ends the window (R116). -/
def windowAnswered (i : Seg) (kind : DeviceReplyKind) (sent : Telegram) (s : State) : State :=
  if (s.port i).probe then probeAnswered i sent s
  else match kind with
    | .ack => jobAnswered i .delivered sent s
    | .reject => jobAnswered i .rejected sent s
    | .busy => jobBusy i sent s

/-- Set the candidate. -/
def setCand (i : Seg) (l : List Byte) (s : State) : State := onPort i (fun p => { p with cand := l }) s

/-- The fifth character of a candidate: it is judged, and a valid reply ends the window (R188). -/
def candidateEnds (i : Seg) (cand : List Byte) (s : State) : State :=
  let s1 := setCand i [] s
  match cand, (s.port i).buffer with
  | [_, source, reply, high, low], some sent =>
    match judgeCandidate sent source reply high low with
    | none => s1
    | some kind => windowAnswered i kind sent s1
  | _, _ => s1

/-- A port takes one character, in AWAIT only (R109, R188). -/
def hear (i : Seg) (s : State) (c : RxChar) : State :=
  if (s.port i).tx = .await then
    match (s.port i).cand with
    | [] => if c.stopOk && c.data == 0x69#8 then setCand i [c.data] s else s
    | b :: l =>
      if c.stopOk then
        if l.length < 3 then setCand i (b :: l ++ [c.data]) s else candidateEnds i (b :: l ++ [c.data]) s
      else setCand i [] s
  else s

/-- DEVICE_REPLY (R111): characters on the port's line -/
def execDeviceReply (i : Seg) (chars : List RxChar) (s : State) : Host.Outcome State Fault Refusal :=
  .next (kickTx (chars.foldl (hear i) s))

/-! ### RESPONSE_WINDOW_EXPIRY, BACKOFF_EXPIRY, PROBE_TIMER_EXPIRY (R118, R119, R125, R126) -/

/-- The effective retry limit (R119). -/
def effectiveLimit (p : Port) : Nat := if p.health = .up then p.cfg.retryLimit else 0

/-- A silent window judged (R119). -/
def windowSilent (i : Seg) (s : State) : State :=
  match jobInService s i with
  | none => onPort i Port.toIdle s
  | some j =>
    if j.attempts ≤ effectiveLimit (s.port i) then
      onPort i Port.enterSend (onJob i (fun k => { k with attempts := k.attempts + 1 }) s)
    else endJob i .failed (segmentSilent i j.destination s)

/-- An unanswered probe (R126): the probe timer restarts, and take-in is considered (R97). -/
def probeSilent (i : Seg) (s : State) : State :=
  considerTakeIn i (onPort i (fun p => { p.toIdle with probeTimer := true }) s)

/-- RESPONSE_WINDOW_EXPIRY (R119). The window is longer than the 2 ms gap, which has passed. -/
def execResponseWindowExpiry (i : Seg) (s : State) : Host.Outcome State Fault Refusal :=
  .next (if (s.port i).tx == .await then
      let s1 := onPort i (fun p => { p with gap := false }) s
      kickTx (if (s.port i).probe then probeSilent i s1 else windowSilent i s1)
    else s)

/-- BACKOFF_EXPIRY (R118). The back-off is longer than the 2 ms gap, which has passed. -/
def execBackoffExpiry (i : Seg) (s : State) : Host.Outcome State Fault Refusal :=
  .next (if (s.port i).tx == .backoff then onPort i (fun p => Port.enterSend { p with gap := false }) s else s)

/-- The port sends a probe (R110, R125). -/
def Port.probing (p : Port) (target : Nat) : Port :=
  Port.enterSend { p with gap := false, probeTimer := false, probe := true, buffer := some (probeTelegram target) }

/-- PROBE_TIMER_EXPIRY (R125). The probe interval is longer than the 2 ms gap, which has passed. -/
def execProbeTimerExpiry (i : Seg) (s : State) : Host.Outcome State Fault Refusal :=
  .next (match (s.port i).probeTarget with
    | none => s
    | some target =>
      if (s.port i).probeTimer && (s.port i).health == .down && (s.port i).tx == .idle then
        onPort i (fun p => p.probing target) s
      else s)

end Sys2Proof.Machine
end

