-- ==== Sys2Proof/Machine/ScheduleEvents.lean ====
section
/-! DEFINITION. The events of the calendar, the schedule and the compactor: UPDATE_EVENT (3.1), EXPIRY_SWEEP (5.4),
SCAN_STEP (4.1 to 4.3), COMPACTION_STEP (2.6). -/

namespace Sys2Proof.Machine

/-! ### UPDATE_EVENT (R51, R57, R63, R72) -/

/-- Steps 1 and 2 of R51: the reading, the fold and the clock-valid flag. -/
def advanceCalendar (s : State) : State :=
  let u := updateReading s.cal.rule s.cal.valid s.cal.fold s.cal.reading
  { s with cal := { s.cal with prescaler := 0, reading := u.reading, fold := u.fold, valid := u.valid } }

/-- The transition that the next update applies, with its candidate (R59, R60). -/
def shiftNow (s : State) : Option (ShiftDirection × Reading) :=
  (updateReading s.cal.rule s.cal.valid s.cal.fold s.cal.reading).shift

/-- The CLOCK-SHIFT notice of a transition applied in service (R63). -/
def postShift (shift : Option (ShiftDirection × Reading)) (s : State) : State :=
  match shift with
  | none => s
  | some (direction, candidate) => post (.clockShift direction candidate 1) s

/-- A scan pass starts (R72), with its sweep still to be made (R99). -/
def startPass (s : State) : State := { s with matcher := some ⟨stampNow s, 0, true⟩ }

/-- Step 3 of R51: the run-second, the notice, the pass. -/
def countSecond (shift : Option (ShiftDirection × Reading)) (s : State) : State :=
  startPass (postShift shift { s with cal := { s.cal with runSecond := s.cal.runSecond + 1 } })

/-- UPDATE_EVENT (R51). No update event falls while VBAK is below retention level with main supply absent (R50). -/
def execUpdateEvent (s : State) : Host.Outcome State Fault Refusal :=
  .next (if s.supply.phase == .unpowered && s.supply.vbakLow then s
    else if s.inService then kickTx (countSecond (shiftNow s) (advanceCalendar s))
    else advanceCalendar s)

/-! ### EXPIRY_SWEEP (R99) -/

/-- The sweep's test of a waiting job against its own segment's age limit, at the run-second of the update event. -/
def sweepTest (p : Pass) (s : State) : Seg → Job → Bool :=
  fun i j => j.tooOld p.stamp.runSecond (s.port i).cfg.ageLimit

/-- The expiry sweep of a pass (R99). -/
def sweepQueues (p : Pass) (s : State) : State :=
  let sel := sweepTest p s
  considerAll (losing sel s) (recordAll .scan (endsOf sel .expired s) (removeSelected sel s))

/-- EXPIRY_SWEEP (R99) -/
def execExpirySweep (s : State) : Host.Outcome State Fault Refusal :=
  .next (match s.matcher with
    | none => s
    | some p =>
      if p.sweep && granted s .matcher then
        kickTx { sweepQueues p (grant .matcher s) with matcher := some { p with sweep := false } }
      else s)

/-! ### SCAN_STEP (R73, R77 to R85) -/

/-- The match of a CALENDAR entry (R77). -/
def calendarMatches (stamp : Stamp) (pattern : Pattern) (policy : FoldPolicy) : Bool :=
  stamp.valid && pattern.satisfiedBy stamp.reading && (stamp.fold != .second || policy == .twice)

/-- The offer of a match (R80). -/
def matchOffer (e : EntryIx) (d : Definition) (stamp : Stamp) : Offer :=
  { entry := e
    destination := d.destination
    urgency := d.urgency
    cause := match d.schedule with
      | .calendar _ _ => .calendar
      | .interval _ _ _ => .interval
    due := match d.schedule with
      | .calendar _ _ => some ⟨stamp.reading, stamp.fold⟩
      | .interval _ _ _ => none
    created := stamp.runSecond }

/-- The last match that a match writes (R84). -/
def lastMatchOf (d : Definition) (stamp : Stamp) : LastMatch :=
  match d.schedule with
  | .calendar _ _ => .reading stamp.reading stamp.fold
  | .interval _ _ _ => .runSecond stamp.runSecond

/-- Whether a disposition is COALESCED. -/
def Disposition.isCoalesced : Disposition → Bool
  | .queued _ => false
  | .coalesced _ => true
  | .dropped => false
  | .closed => false

/-- Remaining fires after a match, before any reload (R82). -/
def firesLeft (remaining : Option Nat) (met : Disposition) : Option Nat :=
  if met.isCoalesced then remaining else remaining.map (· - 1)

/-- Whether a match has spent the last fire (R82). -/
def spentLast (d : Definition) (met : Disposition) : Bool := !met.isCoalesced && firesLeft d.remainingFires met == some 0

/-- Whether the entry retires in this step (R83). -/
def retires (d : Definition) (met : Disposition) : Bool := spentLast d met && !d.reload

/-- The definition after a match: remaining fires (R82) and coalesced count (R84). -/
def Definition.matched (d : Definition) (met : Disposition) : Definition :=
  { d with
    remainingFires := if spentLast d met && d.reload then d.fireCount else firesLeft d.remainingFires met
    coalesced := if met.isCoalesced then min Config.coalescedCeiling (d.coalesced + 1) else d.coalesced }

/-- The header that a match writes (Table 4-3). -/
def matchedHeader (h : Header) (d : Definition) (stamp : Stamp) (met : Disposition) : Header :=
  { h with
    state := if retires d met then .named .retired else h.state
    defn := some (d.matched met)
    lastOutcome := if met.endedAtOnce then some .dropped else h.lastOutcome
    lastMatch := some (lastMatchOf d stamp) }

/-- A match: the offer, the header, and COUNT-EXHAUSTED when the entry retires (R80 to R85). `d` is the definition with
an INTERVAL entry's remaining already reloaded. -/
def makeMatch (stamp : Stamp) (e : EntryIx) (h : Header) (d : Definition) (s : State) : State :=
  let met := meetOffer .scan d.seg (matchOffer e d stamp) d.report s
  let s1 := writeHeader e (matchedHeader h d stamp met.1) met.2
  if retires d met.1 then post (.countExhausted e d.fireCount met.1) s1 else s1

/-- The step on an ARMED entry with a sound header (R77, R78). -/
def scanArmed (stamp : Stamp) (e : EntryIx) (h : Header) (d : Definition) (s : State) : State :=
  match d.schedule with
  | .calendar pattern policy => if calendarMatches stamp pattern policy then makeMatch stamp e h d s else s
  | .interval period first remaining =>
    if 2 ≤ remaining then
      writeHeader e { h with defn := some { d with schedule := .interval period first (remaining - 1) } } s
    else makeMatch stamp e h { d with schedule := .interval period first period } s

/-- The scan step on one entry (Table 4-2, R79). -/
def scanEntry (stamp : Stamp) (e : EntryIx) (s : State) : State :=
  if (stateOf s e).defined then
    match readHeader s e with
    | none => quarantine e .header .scan s
    | some (h, d) => if stateOf s e = .armed then scanArmed stamp e h d s else s
  else s

/-- The pass after a step: the next entry, or the pass ends after entry 255 (R72, R73). -/
def Pass.advanced (p : Pass) : Option Pass := if p.cursor = 255 then none else some { p with cursor := p.cursor + 1 }

/-- SCAN_STEP (R73) -/
def execScanStep (s : State) : Host.Outcome State Fault Refusal :=
  .next (match s.matcher with
    | none => s
    | some p =>
      if !p.sweep && granted s .matcher then
        kickTx { scanEntry p.stamp p.cursor (grant .matcher s) with matcher := p.advanced }
      else s)

/-! ### COMPACTION_STEP (R42, R43) -/

/-- Move the record of entry `e` from its reference down to the frontier (R42). -/
def moveRecord (e : EntryIx) (h : Header) (r : BodyRef) (s : State) : State :=
  let n := granulesFor r.length
  let bytes := Memory.readBytes s.store.heap (16 * r.first) (r.length + 4)
  let s1 := { s with store := { s.store with heap := Memory.writeBytes s.store.heap (16 * s.ctl.frontier) bytes } }
  let s2 := writeHeader e { h with body := some { r with first := s.ctl.frontier } } s1
  { s2 with ctl := { s2.ctl with
      map := giveInMap e s.ctl.frontier n (freeInMap e s2.ctl.map)
      frontier := s.ctl.frontier + n
      moved := s.ctl.moved + 1 } }

/-- The step on a record that starts above the frontier: move it, or quarantine its owner (R42). An owner in the map
without a body reference is treated as a fault of its header, and a reference to another place than the map's as a
fault of its body (notes/assumptions/18.md). -/
def compactRecord (start : Nat) (e : EntryIx) (s : State) : State :=
  match readHeader s e with
  | none => quarantine e .header .compaction s
  | some (h, _) =>
    match h.body with
    | none => quarantine e .header .compaction s
    | some r => if r.first = start ∧ recordSound s.store.heap e r = true then moveRecord e h r s
      else quarantine e .body .compaction s

/-- One compaction step (R42, R43). -/
def compactStep (s : State) : State :=
  match nextRecord s.ctl with
  | none =>
    post (.compactionEnd s.ctl.moved (topRun s.ctl.map)) { s with ctl := { s.ctl with compacting := false } }
  | some (start, e) =>
    if start = s.ctl.frontier then
      { s with ctl := { s.ctl with frontier := s.ctl.frontier + ownedCount s.ctl.map e } }
    else compactRecord start e s

/-- COMPACTION_STEP (R42) -/
def execCompactionStep (s : State) : Host.Outcome State Fault Refusal :=
  .next (if s.ctl.compacting && granted s .compactor then kickTx (compactStep (grant .compactor s)) else s)

end Sys2Proof.Machine
end

