-- ==== Sys2Proof/Machine/SegmentRequests.lean ====
section
/-! DEFINITION. The segment requests (6.6, 6.7): SEGMENT-CONFIG, SEGMENT-OPEN, SEGMENT-CLOSE, SEGMENT-HOLD,
SEGMENT-RELEASE, SEGMENT-STATUS. -/

namespace Sys2Proof.Machine

/-! ### SEGMENT-CONFIG, SEGMENT-OPEN (R128, R129) -/

/-- SEGMENT-CONFIG's operation (R128): the record is written without being read. -/
def segmentConfigOp (q : Seg × SegConfig) (s : State) : State × List Byte :=
  let s1 := putSegRecord q.1 q.2 s
  (if (s.port q.1).health = .closed then s1 else onPort q.1 (fun p => { p with cfgPending := true }) s1,
   doneBytes [byte1 (s.port q.1).health.code])

/-- SEGMENT_CONFIG (R128) -/
def execSegmentConfig (s : State) : Host.Outcome State Fault Refusal :=
  .next (serve 0x28#8 true parseSegConfig segmentConfigOp s)

/-- A port as SEGMENT-OPEN resets it, its configuration copy loaded before (R129). -/
def Port.reopened (p : Port) : Port :=
  { p.toIdle with silence := 0, seqTable := Vector.replicate 126 .unknown, probeTarget := none }

/-- SEGMENT-OPEN's operation (R129). -/
def segmentOpenOp (i : Seg) (s : State) : State × List Byte :=
  if (s.port i).health = .closed then
    let s1 := onPort i Port.reopened (loadConfig i .hostRead s)
    let s2 := considerTakeIn i (changeHealth i .up .open none s1)
    (s2, doneBytes [byte1 (s1.port i).cfg.lineSpeed])
  else (s, wrongStateBytes (s.port i).health.code)

/-- SEGMENT_OPEN (R129) -/
def execSegmentOpen (s : State) : Host.Outcome State Fault Refusal :=
  .next (serve 0x29#8 true parseSegment segmentOpenOp s)

/-! ### SEGMENT-CLOSE (R130) -/

/-- Step 3 of R130: the job in service ends ABANDONED, its destination's sequence state UNKNOWN. -/
def abandonService (i : Seg) (s : State) : State :=
  match jobInService s i with
  | none => s
  | some j =>
    let s1 := removeTo i ((s.queue i).filter (fun j => !j.inService))
      (onPort i (fun p => p.setSeq j.destination .unknown) s)
    recordEnd .hostRead s1 (j.end i .abandoned none)

/-- Step 4 of R130: every waiting job ends PURGED. -/
def purgeWaiting (i : Seg) (s : State) : State :=
  recordAll .hostRead ((s.queue i).map (fun j => j.end i .purged none)) (removeTo i [] s)

/-- SEGMENT-CLOSE's steps on an open segment (R130). The health is CLOSED from the beginning of the operation, so that
no recording's take-in reaches this segment; the notice of step 5 comes last (notes/assumptions/15.md). -/
def closeSegment (i : Seg) (s : State) : State :=
  let s1 := onPort i (fun p => { p.cut with health := .closed }) s
  let s2 := recordPending .hostRead i (s1.dispatch.ended.get i).length s1
  let s3 := purgeWaiting i (abandonService i s2)
  post (.segmentState i (s.port i).health .closed (s3.port i).silence .close none) s3

/-- SEGMENT-CLOSE's operation (R130). -/
def segmentCloseOp (i : Seg) (s : State) : State × List Byte :=
  if (s.port i).health = .closed then (s, doneBytes [0#8])
  else (closeSegment i s, doneBytes [byte1 (s.queue i).length])

/-- SEGMENT_CLOSE (R130) -/
def execSegmentClose (s : State) : Host.Outcome State Fault Refusal :=
  .next (serve 0x2A#8 true parseSegment segmentCloseOp s)

/-! ### SEGMENT-HOLD, SEGMENT-RELEASE, SEGMENT-STATUS (R132, R133) -/

/-- A segment's hold flag replaced. -/
def setSegHold (i : Seg) (b : Bool) (s : State) : State :=
  { s with dispatch := { s.dispatch with segHold := s.dispatch.segHold.set i b } }

/-- SEGMENT-HOLD's act (R132). -/
def segmentHoldOp (i : Seg) (s : State) : State × List Byte :=
  (setSegHold i true s, doneBytes [byte1 (flagBit (s.dispatch.segHold.get i))])

/-- SEGMENT_HOLD (R132) -/
def execSegmentHold (s : State) : Host.Outcome State Fault Refusal :=
  .next (serve 0x2B#8 false parseSegment segmentHoldOp s)

/-- SEGMENT-RELEASE's act (R132): take-in is considered when the flag was set. -/
def segmentReleaseOp (i : Seg) (s : State) : State × List Byte :=
  (if s.dispatch.segHold.get i then considerTakeIn i (setSegHold i false s) else s,
   doneBytes [byte1 (flagBit (s.dispatch.segHold.get i))])

/-- SEGMENT_RELEASE (R132) -/
def execSegmentRelease (s : State) : Host.Outcome State Fault Refusal :=
  .next (serve 0x2C#8 false parseSegment segmentReleaseOp s)

/-- The tag, attempt count and busy count of the job in service, FFFFH and zeros when there is none (R133). -/
def serviceBytes (s : State) (i : Seg) : List Byte :=
  match jobInService s i with
  | none => byte2 noTag.toNat ++ [0#8, 0#8]
  | some j => byte2 j.tag.toNat ++ [byte1 j.attempts, byte1 j.busy]

/-- The results of SEGMENT-STATUS (R133, Table 10-9). -/
def segmentStatusBytes (s : State) (i : Seg) : List Byte :=
  let p := s.port i
  [byte1 p.health.code, byte1 p.silence, byte1 (txStateCode p.tx p.probe)] ++ serviceBytes s i ++
    [byte1 (flagBit (s.dispatch.segHold.get i) + 2 * flagBit s.dispatch.hold + 4 * flagBit p.cfgPending),
     byte1 (s.queue i).length, byte1 (p.probeTarget.getD 0)] ++ segConfigBytes p.cfg

/-- SEGMENT-STATUS's act (R133). -/
def segmentStatusOp (i : Seg) (s : State) : State × List Byte := (s, doneBytes (segmentStatusBytes s i))

/-- SEGMENT_STATUS (R133) -/
def execSegmentStatus (s : State) : Host.Outcome State Fault Refusal :=
  .next (serve 0x2D#8 false parseSegment segmentStatusOp s)

end Sys2Proof.Machine
end

