-- ==== Sys2Proof/Machine/StoreRequests.lean ====
section
/-! DEFINITION. The body requests (2.5) and the requests of the whole store (2.6, 2.7): BODY-LOAD, BODY-READ,
BODY-DROP, STORE-COMPACT, STORE-STATUS, STORE-ERASE. -/

namespace Sys2Proof.Machine

/-! ### BODY-LOAD (R37, R38) -/

/-- The store after a new body record: its bytes, the header's reference, and the map (R38 steps 1 to 4). -/
def placeBody (e : EntryIx) (h : Header) (start : Nat) (body : List Byte) (s : State) : State :=
  let s1 := { s with store := { s.store with
    heap := Memory.writeBytes s.store.heap (16 * start) (bodyRecord e body) } }
  let s2 := freeGranules e (writeHeader e { h with body := some ⟨start, body.length⟩ } s1)
  { s2 with ctl := { s2.ctl with map := giveInMap e start (granulesFor body.length) s2.ctl.map } }

/-- BODY-LOAD's operation (R37, R38). The header is read before a run is looked for, so a faulty header answers DATA-FAULT
where no run qualifies either (notes/assumptions/29.md). -/
def loadOp (q : EntryIx × List Byte) (s : State) : State × List Byte :=
  if (stateOf s q.1).defined then
    match readHeader s q.1 with
    | none => dataFault q.1 .header s
    | some (h, _) =>
      match allocate s.ctl (granulesFor q.2.length) with
      | none => (s, noSpaceBytes (granulesFor q.2.length) (largestUsable s.ctl))
      | some start =>
        (withdraw (· == q.1) (placeBody q.1 h start q.2 s),
         doneBytes (byte2 start ++ [byte1 (granulesFor q.2.length), byte1 (flagBit h.body.isSome)]))
  else (s, wrongStateBytes (stateOf s q.1).code)

/-- BODY_LOAD (R38) -/
def execBodyLoad (s : State) : Host.Outcome State Fault Refusal := .next (serve 0x10#8 true parseBodyLoad loadOp s)

/-! ### BODY-READ, BODY-DROP (R39, R40) -/

/-- The results of a BODY-READ that finds no body: length 0 and a zero first granule (Table 10-9). -/
def noBodyBytes : List Byte := doneBytes [0#8, 0#8, 0#8]

/-- BODY-READ's operation (R39). -/
def bodyReadOp (e : EntryIx) (s : State) : State × List Byte :=
  match stateOf s e with
  | .empty => (s, wrongStateBytes EntryState.empty.code)
  | .quarantined => (s, noBodyBytes)
  | _ =>
    match readHeader s e with
    | none => dataFault e .header s
    | some (h, _) =>
      match h.body with
      | none => (s, noBodyBytes)
      | some r =>
        if recordSound s.store.heap e r then
          (s, doneBytes (byte1 r.length :: (byte2 r.first ++ recordBody s.store.heap r)))
        else dataFault e .body s

/-- BODY_READ (R39) -/
def execBodyRead (s : State) : Host.Outcome State Fault Refusal := .next (serve 0x11#8 true parseIndex bodyReadOp s)

/-- BODY-DROP's operation (R40): the body record is not read. -/
def dropOp (e : EntryIx) (s : State) : State × List Byte :=
  match stateOf s e with
  | .empty => (s, wrongStateBytes EntryState.empty.code)
  | .quarantined => (s, doneBytes [0#8])
  | _ =>
    match readHeader s e with
    | none => dataFault e .header s
    | some (h, _) =>
      if h.body.isSome then
        (withdraw (· == e) (freeGranules e (writeHeader e { h with body := none } s)),
         doneBytes [byte1 (ownedCount s.ctl.map e)])
      else (s, doneBytes [0#8])

/-- BODY_DROP (R40) -/
def execBodyDrop (s : State) : Host.Outcome State Fault Refusal := .next (serve 0x12#8 true parseIndex dropOp s)

/-! ### STORE-COMPACT, STORE-STATUS, STORE-ERASE (R41, R45, R46) -/

/-- The number of entries that hold a body reference, as the map shows them (R30, R41). -/
def recordsAllocated (m : Vector (Option EntryIx) 2048) : Nat :=
  ((List.range 256).map entryIx).countP (fun e => ownedCount m e != 0)

/-- STORE-COMPACT's operation (R41). -/
def compactOp (_ : Unit) (s : State) : State × List Byte :=
  if s.ctl.compacting then (s, conflictBytes)
  else
    ({ s with ctl := { s.ctl with compacting := true, frontier := 0, moved := 0 } },
     doneBytes (byte2 (recordsAllocated s.ctl.map)))

/-- STORE_COMPACT (R41) -/
def execStoreCompact (s : State) : Host.Outcome State Fault Refusal := .next (serve 0x13#8 true parseNone compactOp s)

/-- The number of entries in a state (R45). -/
def entriesIn (states : Vector EntryState 256) (st : EntryState) : Nat := states.toList.countP (· == st)

/-- The results of STORE-STATUS (R45, Table 10-9). -/
def storeStatusBytes (ctl : StoreControl) : List Byte :=
  byte2 (freeCount ctl.map) ++ byte2 (largestRun 0 0 ctl.map.toList) ++ byte2 (topRun ctl.map) ++
    byte2 (entriesIn ctl.states .empty) ++ byte2 (entriesIn ctl.states .draft) ++
    byte2 (entriesIn ctl.states .armed) ++ byte2 (entriesIn ctl.states .retired) ++
    byte2 (entriesIn ctl.states .quarantined) ++ [byte1 (flagBit ctl.compacting)]

/-- STORE-STATUS's operation (R45). -/
def storeStatusOp (_ : Unit) (s : State) : State × List Byte := (s, doneBytes (storeStatusBytes s.ctl))

/-- STORE_STATUS (R45) -/
def execStoreStatus (s : State) : Host.Outcome State Fault Refusal :=
  .next (serve 0x14#8 true parseNone storeStatusOp s)

/-- The store with every header EMPTY and every granule FREE, the configuration area kept (R46). -/
def eraseStore (s : State) : State :=
  { s with
    store := { s.store with headers := Vector.replicate 256 (freshHeader (bareHeader .empty)) }
    ctl := { s.ctl with map := Vector.replicate 2048 none, states := Vector.replicate 256 .empty } }

/-- STORE-ERASE's operation (R46). -/
def eraseOp (_ : Unit) (s : State) : State × List Byte :=
  if s.ctl.compacting then (s, conflictBytes)
  else
    (withdraw (fun _ => true) (eraseStore s),
     doneBytes (byte2 (256 - entriesIn s.ctl.states .empty)))

/-- STORE_ERASE (R46) -/
def execStoreErase (s : State) : Host.Outcome State Fault Refusal := .next (serve 0x15#8 true parseNone eraseOp s)

end Sys2Proof.Machine
end

