-- ==== Sys2Proof/Machine/SupplyEvents.lean ====
section
/-! DEFINITION. The events of the supplies, of NRST and of the start-up (09): MAIN_SUPPLY_FAIL, MAIN_SUPPLY_RETURN,
NRST_ASSERT, NRST_RELEASE, BACKUP_LOST, START_UP_SEQUENCE_END. -/

namespace Sys2Proof.Machine

/-- MAIN_SUPPLY_FAIL (R169). Every row is indivisible, so no store operation is in progress (R28). -/
def execMainSupplyFail (s : State) : Host.Outcome State Fault Refusal :=
  .next (if s.supply.phase = .unpowered then s
    else
      let s1 := loseVolatile s
      { s1 with supply := { s1.supply with phase := .unpowered, powerLost := true } })

/-- Main supply is good again: a start-up begins with NRST high, and the part is HELD with NRST low (Table 9-2). -/
def powerReturns (start : StartInput) (s : State) : State :=
  if s.supply.nrst then beginStart start s
  else { s with supply := { s.supply with phase := .held, vbakLow := false } }

/-- MAIN_SUPPLY_RETURN (R170) -/
def execMainSupplyReturn (start : StartInput) (s : State) : Host.Outcome State Fault Refusal :=
  .next (if s.supply.phase = .unpowered then powerReturns start s else s)

/-- NRST_ASSERT (R169). With main supply absent only the pin's level changes. -/
def execNrstAssert (s : State) : Host.Outcome State Fault Refusal :=
  .next (if s.supply.phase = .unpowered ∨ s.supply.phase = .held then
      { s with supply := { s.supply with nrst := false } }
    else
      let s1 := loseVolatile s
      { s1 with supply := { s1.supply with phase := .held, nrst := false } })

/-- NRST_RELEASE (R170). With main supply absent only the pin's level changes. -/
def execNrstRelease (start : StartInput) (s : State) : Host.Outcome State Fault Refusal :=
  .next (
    let s1 := { s with supply := { s.supply with nrst := true } }
    if s.supply.phase = .held then beginStart start s1 else s1)

/-- The heap after the `n`th loss of the backup domain, in canonical form: each byte is a free value. -/
def lostHeap (n : Nat) : Memory :=
  (List.range 32768).filterMap (fun a => if Config.lostHeapByte n a = 0 then none else some (a, Config.lostHeapByte n a))

/-- The Program Store after the `n`th loss of the backup domain: free values (notes/assumptions/12.md). -/
def lostStore (n : Nat) : ProgramStore :=
  { headers := Vector.ofFn (Config.lostHeader n)
    heap := lostHeap n
    segRecords := ⟨Config.lostSegment n 0, Config.lostSegment n 1, Config.lostSegment n 2, Config.lostSegment n 3⟩
    daylightRecord := Config.lostDaylight n }

/-- The Calendar Unit after the `n`th loss of the backup domain: free values, and the run-second lost with main
supply (notes/assumptions/12.md). -/
def lostCalendar (n : Nat) (c : Calendar) : Calendar :=
  { prescaler := Config.lostPrescaler n
    reading := Config.lostReading n
    fold := Config.lostFold n
    valid := Config.lostValid n
    rule := Config.lostRule n
    runSecond := c.runSecond }

/-- BACKUP_LOST (R171): the latch is set, and the backup domain's contents are lost. -/
def execBackupLost (s : State) : Host.Outcome State Fault Refusal :=
  .next (if s.supply.phase = .unpowered then
      { s with
        free := s.free + 1
        store := lostStore s.free
        cal := lostCalendar s.free s.cal
        supply := { s.supply with backupLost := true, vbakLow := true } }
    else s)

/-- START_UP_SEQUENCE_END (R172): what is left of the cold initialisation and the integrity pass, the volatile
initialisation (R179), the notices (R180) and the start of service (R181). -/
def execStartUpSequenceEnd (s : State) : Host.Outcome State Fault Refusal :=
  .next (if s.supply.phase = .starting then
      beginService (volatileInit (runStart (startUnits s.supply.cause).length s))
    else s)

end Sys2Proof.Machine
end

