-- ==== Sys2Proof/Machine/Dispatch.lean ====
section
/-! DEFINITION. One arm per command: its meaning. -/

namespace Sys2Proof.Machine

def exec (i : Instr) (s : State) : Host.Outcome State Fault Refusal :=
  match i with
  | .entryDefine => Sys2Proof.Machine.execEntryDefine s
  | .entryArm => Sys2Proof.Machine.execEntryArm s
  | .entryDisarm => Sys2Proof.Machine.execEntryDisarm s
  | .entryDelete => Sys2Proof.Machine.execEntryDelete s
  | .entryRead => Sys2Proof.Machine.execEntryRead s
  | .entryMap => Sys2Proof.Machine.execEntryMap s
  | .entryFire => Sys2Proof.Machine.execEntryFire s
  | .bodyLoad => Sys2Proof.Machine.execBodyLoad s
  | .bodyRead => Sys2Proof.Machine.execBodyRead s
  | .bodyDrop => Sys2Proof.Machine.execBodyDrop s
  | .storeCompact => Sys2Proof.Machine.execStoreCompact s
  | .storeStatus => Sys2Proof.Machine.execStoreStatus s
  | .storeErase => Sys2Proof.Machine.execStoreErase s
  | .clockSet => Sys2Proof.Machine.execClockSet s
  | .clockRead => Sys2Proof.Machine.execClockRead s
  | .clockRule => Sys2Proof.Machine.execClockRule s
  | .queueRead => Sys2Proof.Machine.execQueueRead s
  | .queuePurge => Sys2Proof.Machine.execQueuePurge s
  | .dispatchHold => Sys2Proof.Machine.execDispatchHold s
  | .dispatchRelease => Sys2Proof.Machine.execDispatchRelease s
  | .segmentConfig => Sys2Proof.Machine.execSegmentConfig s
  | .segmentOpen => Sys2Proof.Machine.execSegmentOpen s
  | .segmentClose => Sys2Proof.Machine.execSegmentClose s
  | .segmentHold => Sys2Proof.Machine.execSegmentHold s
  | .segmentRelease => Sys2Proof.Machine.execSegmentRelease s
  | .segmentStatus => Sys2Proof.Machine.execSegmentStatus s
  | .linkEcho => Sys2Proof.Machine.execLinkEcho s
  | .partStatus => Sys2Proof.Machine.execPartStatus s
  | .partReset => Sys2Proof.Machine.execPartReset s
  | .noticeAck => Sys2Proof.Machine.execNoticeAck s
  | .noticeMask => Sys2Proof.Machine.execNoticeMask s
  | .unknownKindRequest => Sys2Proof.Machine.execUnknownKindRequest s
  | .frameArrival chars => Sys2Proof.Machine.execFrameArrival chars s
  | .frameDiscard chars => Sys2Proof.Machine.execFrameDiscard chars s
  | .interCharacterTimerExpiry => Sys2Proof.Machine.execInterCharacterTimerExpiry s
  | .replyTransmitEnd start => Sys2Proof.Machine.execReplyTransmitEnd start s
  | .noticeFrameEnd => Sys2Proof.Machine.execNoticeFrameEnd s
  | .resendTimerExpiry => Sys2Proof.Machine.execResendTimerExpiry s
  | .updateEvent => Sys2Proof.Machine.execUpdateEvent s
  | .expirySweep => Sys2Proof.Machine.execExpirySweep s
  | .scanStep => Sys2Proof.Machine.execScanStep s
  | .compactionStep => Sys2Proof.Machine.execCompactionStep s
  | .fetch port => Sys2Proof.Machine.execFetch port s
  | .recordingOperation port => Sys2Proof.Machine.execRecordingOperation port s
  | .sendStartAfterGap port => Sys2Proof.Machine.execSendStartAfterGap port s
  | .telegramSendEnd port => Sys2Proof.Machine.execTelegramSendEnd port s
  | .deviceReply port chars => Sys2Proof.Machine.execDeviceReply port chars s
  | .responseWindowExpiry port => Sys2Proof.Machine.execResponseWindowExpiry port s
  | .backoffExpiry port => Sys2Proof.Machine.execBackoffExpiry port s
  | .probeTimerExpiry port => Sys2Proof.Machine.execProbeTimerExpiry port s
  | .mainSupplyFail => Sys2Proof.Machine.execMainSupplyFail s
  | .mainSupplyReturn start => Sys2Proof.Machine.execMainSupplyReturn start s
  | .nrstAssert => Sys2Proof.Machine.execNrstAssert s
  | .nrstRelease start => Sys2Proof.Machine.execNrstRelease start s
  | .backupLost => Sys2Proof.Machine.execBackupLost s
  | .startUpSequenceEnd => Sys2Proof.Machine.execStartUpSequenceEnd s

end Sys2Proof.Machine
end

