-- ==== Sys2Proof/Safety.lean ====
section
/-! DEFINITION. What the claims about the TD4 are stated in: the reply to a request as it stands on the link, and the
invariants of the link, the notices, the queues, the heap, the arbiter, the entry state list and the allocation
map. -/

namespace Sys2Proof.Machine

/-- The reply to the request in hand, placed at the end of the reply list, or on TXD when nothing else is (R143,
R147). `body` begins with the status. That an idle transmitter begins the reply, and not a notice that the same operation
has posted, is the model's choice (notes/assumptions/23.md), and so is that a reply on TXD is no longer in the reply list
(notes/assumptions/30.md). -/
def HostLink.answered (l : HostLink) (r : Request) (body : List Byte) : HostLink :=
  let replies := l.replies ++ [⟨r.seq, r.kind, body, false⟩]
  match l.tx, replies with
  | none, x :: rest => { l with requests := markBuilt l.requests, tx := some (.reply x), replies := rest }
  | _, _ => { l with requests := markBuilt l.requests, replies := replies }

/-- The part is in service and the Command Interpreter has a request of this KIND in hand (R143). -/
structure Serving (s : State) (r : Request) (kind : Byte) : Prop where
  inService : s.supply.phase = .inService
  inHand : inHand s = some r
  kind : r.kind = kind

/-- The same for a request that uses the store, with its one operation granted (R27, R143). -/
structure ServingStore (s : State) (r : Request) (kind : Byte) : Prop extends Serving s r kind where
  granted : granted s .commandInterpreter = true

/-- Why tests 1 to 3 refuse a request, if they do (R144). -/
def requestError (s : State) (r : Request) : Option ReqError :=
  let err {α : Type} (x : Except ReqError α) : Option ReqError :=
    match x with
    | .ok _ => none
    | .error e => some e
  match r.kind.toNat with
  | 0x01 => err (parseDefine r.body)
  | 0x02 | 0x03 | 0x04 | 0x05 | 0x07 | 0x11 | 0x12 => err (parseIndex r.body)
  | 0x06 | 0x13 | 0x14 | 0x15 | 0x19 | 0x22 | 0x23 => err (parseNone r.body)
  | 0x10 => err (parseBodyLoad r.body)
  | 0x18 => err (parseClockSet s.cal.rule r.body)
  | 0x1A => err (parseClockRule r.body)
  | 0x20 | 0x29 | 0x2A | 0x2B | 0x2C | 0x2D => err (parseSegment r.body)
  | 0x21 => err (parsePurge r.body)
  | 0x28 => err (parseSegConfig r.body)
  | 0x30 => err (parseEcho r.body)
  | 0x31 => err (parseFlag r.body)
  | 0x32 => none
  | 0x38 => err (parseAck (inFlightSerials s) r.body)
  | 0x39 => err (parseMask r.body)
  | _ => some .unknownKind

/-- The command that carries out a request of a KIND (Table 10-2). -/
def requestCommand (kind : Byte) : Instr :=
  match kind.toNat with
  | 0x01 => .entryDefine
  | 0x02 => .entryArm
  | 0x03 => .entryDisarm
  | 0x04 => .entryDelete
  | 0x05 => .entryRead
  | 0x06 => .entryMap
  | 0x07 => .entryFire
  | 0x10 => .bodyLoad
  | 0x11 => .bodyRead
  | 0x12 => .bodyDrop
  | 0x13 => .storeCompact
  | 0x14 => .storeStatus
  | 0x15 => .storeErase
  | 0x18 => .clockSet
  | 0x19 => .clockRead
  | 0x1A => .clockRule
  | 0x20 => .queueRead
  | 0x21 => .queuePurge
  | 0x22 => .dispatchHold
  | 0x23 => .dispatchRelease
  | 0x28 => .segmentConfig
  | 0x29 => .segmentOpen
  | 0x2A => .segmentClose
  | 0x2B => .segmentHold
  | 0x2C => .segmentRelease
  | 0x2D => .segmentStatus
  | 0x30 => .linkEcho
  | 0x31 => .partStatus
  | 0x32 => .partReset
  | 0x38 => .noticeAck
  | 0x39 => .noticeMask
  | _ => .unknownKindRequest

/-- Entry `e` is DRAFT, ARMED or RETIRED, and the read of its header passes with these contents (R3). -/
structure Holds (s : State) (e : EntryIx) (h : Header) (d : Definition) : Prop where
  defined : (stateOf s e).defined = true
  sound : readHeader s e = some (h, d)

/-- Notices may have been posted and offered; nothing else of the Notice Unit has changed but the serial and the gap count
that posts take (R158, R160). -/
structure NoticesGrow (n m : NoticeUnit) : Prop where
  queue : ∃ l, m.queue.map (·.notice) = n.queue.map (·.notice) ++ l
  timer : m.timer = n.timer
  resendCount : m.resendCount = n.resendCount
  mask : m.mask = n.mask
  hostAbsent : m.hostAbsent = n.hostAbsent

/-- The arbiter's order after a grant (R27). -/
def OrderAfter (s t : State) (q : Requester) : Prop := t.ctl.order = s.ctl.order.filter (· != q) ++ [q]

/-- What a command that changes entry `e` leaves alone: every other entry, the configuration area, the compactor, and
the blocks outside the store and the dispatch. -/
structure EntryFrame (s t : State) (e : EntryIx) : Prop where
  headers : ∀ k, k ≠ e → t.store.headers.get k = s.store.headers.get k
  states : ∀ k, k ≠ e → stateOf t k = stateOf s k
  segRecords : t.store.segRecords = s.store.segRecords
  daylightRecord : t.store.daylightRecord = s.store.daylightRecord
  compacting : t.ctl.compacting = s.ctl.compacting
  frontier : t.ctl.frontier = s.ctl.frontier
  moved : t.ctl.moved = s.ctl.moved
  cal : t.cal = s.cal
  supply : t.supply = s.supply
  free : t.free = s.free
  pending : t.pending = s.pending
  ports : ∀ i, t.port i = { s.port i with tx := (t.port i).tx, fetchOp := (t.port i).fetchOp }
  notices : NoticesGrow s.notices t.notices

/-- The end of a waiting job of segment `i`: what is recorded of it, and what a DISPATCH-REPORT carries (R104, R106). Its
attempt and busy counts are 0. -/
def waitingEnd (o : JobOutcome) (stale : Bool) (i : Seg) (j : Job) : JobEnd :=
  { tag := j.tag, entry := j.entry, segment := i, destination := j.destination, cause := j.cause, due := j.due,
    created := j.created, outcome := o, reason := none, stale := stale, attempts := 0, busy := 0 }

/-- The stale ends of the waiting jobs of entry `e`, queue 0 to 3 and in each the order of the queue (R96, R105). -/
def withdrawnEnds (e : EntryIx) (o : JobOutcome) (s : State) : List JobEnd :=
  Seg.all.flatMap (fun i =>
    ((s.queue i).filter (fun j => !j.inService && j.entry == e)).map (waitingEnd o true i))

/-- The notices after a DISPATCH-REPORT has been posted for each of some ends, in order (R106). -/
def reported (l : List JobEnd) (s : State) : NoticeUnit :=
  (l.foldl (fun u j => post (.dispatchReport j) u) s).notices

/-- The waiting jobs that a test selects removed, each queue's high-water flag armed again where it loses a job and falls
to 8 or fewer (R95). -/
def withoutWaiting (sel : Seg → Job → Bool) (s : State) : State :=
  let kept (i : Seg) := (s.queue i).filter (fun j => j.inService || !sel i j)
  let armed (i : Seg) :=
    s.dispatch.highArmed.get i || decide ((kept i).length < (s.queue i).length ∧ (kept i).length ≤ 8)
  { s with dispatch := { s.dispatch with
      queues := ⟨kept 0, kept 1, kept 2, kept 3⟩
      highArmed := ⟨armed 0, armed 1, armed 2, armed 3⟩ } }

/-- The ends of the waiting jobs that a test selects, none of them stale, queue 0 to 3 and in each the order of the queue
(R105). -/
def waitingEnds (sel : Seg → Job → Bool) (o : JobOutcome) (s : State) : List JobEnd :=
  Seg.all.flatMap (fun i =>
    ((s.queue i).filter (fun j => !j.inService && sel i j)).map (fun j => waitingEnd o j.stale i j))

/-- The job that an offer makes on segment `i`, at its place in the queue (R92, R93), with the tag allocator after it (R91),
the high-water flag spent and QUEUE-HIGH posted at 12 (R95), before take-in is considered. -/
def withNewJob (i : Seg) (o : Offer) (s : State) : State :=
  let high := (s.queue i).length = 11 ∧ s.dispatch.highArmed.get i = true
  { s with
    dispatch := { s.dispatch with
      queues := s.dispatch.queues.set i (insertJob
        { tag := nextFreeTag s, entry := o.entry, destination := o.destination, urgency := o.urgency, cause := o.cause,
          due := o.due, created := o.created, stale := false, inService := false, attempts := 0, busy := 0 }
        (s.queue i))
      nextTag := if nextFreeTag s = 0xFFFE#16 then 0 else nextFreeTag s + 1
      highArmed := if high then s.dispatch.highArmed.set i false else s.dispatch.highArmed }
    notices := if high then (post (.queueHigh i 12) s).notices else s.notices }

/-- The last job of a full queue displaced: it leaves, and its end DROPPED with reason DISPLACED is recorded (R94). Take-in is not
considered between its end and the new job (notes/assumptions/24.md). -/
def withoutVictim (path : FaultPath) (i : Seg) (victim : Job) (s : State) : State :=
  recordEnd path
    { s with dispatch := { s.dispatch with queues := s.dispatch.queues.set i (s.queue i).dropLast } }
    { waitingEnd .dropped victim.stale i victim with reason := some .displaced }

/-- What is recorded of an offer that ends at once: DROPPED with its reason, under the tag FFFFH (R81, R106). -/
def offerEnd (i : Seg) (o : Offer) (reason : DropReason) : JobEnd :=
  { tag := 0xFFFF#16, entry := o.entry, segment := i, destination := o.destination, cause := o.cause, due := o.due,
    created := o.created, outcome := .dropped, reason := some reason, stale := false, attempts := 0, busy := 0 }

/-- The jobs of entry `e` removed where they wait, and marked stale where they stay (R96). -/
def withoutJobs (e : EntryIx) (s : State) : State :=
  { s with dispatch := { s.dispatch with
      queues := s.dispatch.queues.map (fun q => (q.filter (fun j => j.inService || j.entry != e)).map
        (fun j => if j.entry = e then { j with stale := true } else j))
      ended := s.dispatch.ended.map (List.map (fun j => if j.entry = e then { j with stale := true } else j)) } }

/-- The withdraw and stale marking of entry `e` (R13, R95, R96): only its job in service is left, stale, its pending
records are stale, and take-in is considered where a waiting job was removed. -/
structure JobsWithdrawn (s t : State) (e : EntryIx) : Prop where
  jobs : ∀ i, ∀ j ∈ t.queue i, j.entry = e → j.inService = true ∧ j.stale = true
  records : ∀ i, ∀ j ∈ t.dispatch.ended.get i, j.entry = e → j.stale = true
  segments : ∀ i,
    let u := if ∃ j ∈ s.queue i, j.entry = e ∧ j.inService = false then considerTakeIn i (withoutJobs e s)
      else withoutJobs e s
    t.queue i = u.queue i ∧ t.dispatch.ended.get i = u.dispatch.ended.get i ∧ t.port i = u.port i
  highWater : ∀ i, t.dispatch.highArmed.get i =
    (s.dispatch.highArmed.get i || decide ((t.queue i).length < (s.queue i).length ∧ (t.queue i).length ≤ 8))
  nextTag : t.dispatch.nextTag = s.dispatch.nextTag
  hold : t.dispatch.hold = s.dispatch.hold
  segHold : t.dispatch.segHold = s.dispatch.segHold

/-- The granules of entry `e` made FREE in the map (R30). -/
def GranulesFreed (s t : State) (e : EntryIx) : Prop :=
  ∀ g : Fin 2048, t.ctl.map.get g = if s.ctl.map.get g = some e then none else s.ctl.map.get g

/-- Between `s` and `t` notices may have been posted, and the last post was of this body (R158). -/
def LastPosted (s t : State) (b : NoticeBody) : Prop :=
  ∃ m : State, m.cal = t.cal ∧ NoticesGrow s.notices m.notices ∧ t.notices = (post b m).notices

/-- The end of the job in service of segment `i`, kept as a pending record, before take-in is considered
(R95, R104, R121). -/
structure JobEnded (s m : State) (i : Seg) (e : JobEnd) : Prop where
  queue : m.queue i = (s.queue i).filter (fun j => !j.inService)
  ended : m.dispatch.ended.get i = s.dispatch.ended.get i ++ [e]
  highWater : m.dispatch.highArmed.get i =
    (s.dispatch.highArmed.get i || decide (((s.queue i).filter (fun j => !j.inService)).length ≤ 8))
  others : ∀ k, k ≠ i → m.port k = s.port k ∧ m.queue k = s.queue k ∧
    m.dispatch.ended.get k = s.dispatch.ended.get k ∧ m.dispatch.highArmed.get k = s.dispatch.highArmed.get k
  nextTag : m.dispatch.nextTag = s.dispatch.nextTag
  hold : m.dispatch.hold = s.dispatch.hold
  segHold : m.dispatch.segHold = s.dispatch.segHold
  link : m.link = s.link
  cal : m.cal = s.cal
  matcher : m.matcher = s.matcher
  supply : m.supply = s.supply
  free : m.free = s.free
  pending : m.pending = s.pending

/-- The quarantine procedure on entry `e` (R34). Its waiting jobs end FAULT, each with its report, and the STORE-FAULT notice
comes last (notes/assumptions/16.md). -/
structure Quarantined (s t : State) (e : EntryIx) (record : FaultRecord) (path : FaultPath) : Prop where
  header : t.store.headers.get e = freshHeader (bareHeader .quarantined)
  state : stateOf t e = .quarantined
  granules : GranulesFreed s t e
  heap : t.store.heap = s.store.heap
  jobs : JobsWithdrawn s t e
  notices : t.notices =
    (post (.entryFault e record path) { s with notices := reported (withdrawnEnds e .fault s) s }).notices
  frame : EntryFrame s t e

/-- A value or ANY within a range (R4). -/
def AnyOrIn (lo hi : Nat) (o : Option Nat) : Prop := ∀ n, o = some n → lo ≤ n ∧ n ≤ hi

/-- A pattern with every field in its range that some reading can satisfy (R4, R6). -/
structure PatternInRange (p : Pattern) : Prop where
  second : AnyOrIn 0 59 p.second
  minute : AnyOrIn 0 59 p.minute
  hour : AnyOrIn 0 23 p.hour
  weekdays : p.weekdays ≠ 0#7
  day : ∀ n, p.day = .day n → 1 ≤ n ∧ n ≤ 31
  month : AnyOrIn 1 12 p.month
  february : p.month = some 2 → p.day ≠ .day 30 ∧ p.day ≠ .day 31
  short : p.month ∈ [some 4, some 6, some 9, some 11] → p.day ≠ .day 31

/-- The fields of a definition in their ranges (Table 1-1, R4 to R12, R175). -/
structure DefinitionInRange (armed : Prop) (d : Definition) : Prop where
  pattern : ∀ p policy, d.schedule = .calendar p policy → PatternInRange p
  interval : ∀ period first remaining, d.schedule = .interval period first remaining →
    1 ≤ period ∧ period ≤ 86400 ∧ 1 ≤ first ∧ first ≤ period ∧ 1 ≤ remaining ∧ remaining ≤ period
  segment : d.segment ≤ 3
  destination : 1 ≤ d.destination ∧ d.destination ≤ 127
  urgency : d.urgency ≤ 3
  counts : (d.fireCount = none ∧ d.remainingFires = none) ∨
    ∃ n k, d.fireCount = some n ∧ d.remainingFires = some k ∧ 1 ≤ n ∧ n ≤ 65534 ∧ k ≤ 65534 ∧ (armed → 1 ≤ k)
  coalesced : d.coalesced ≤ 255

/-- The header tests of the integrity pass on a header that is not EMPTY (R175). The test of the last match is the model's
reading (notes/assumptions/26.md). -/
def HeaderPasses (sh : StoredHeader) : Prop :=
  sh.check = headerCheck sh.header ∧
    ((sh.header.state = .named .quarantined ∧ sh.header.defn = none ∧ sh.header.body = none ∧
        sh.header.lastOutcome = none ∧ sh.header.lastMatch = none) ∨
      ∃ d, (sh.header.state = .named .draft ∨ sh.header.state = .named .armed ∨ sh.header.state = .named .retired) ∧
        sh.header.defn = some d ∧ DefinitionInRange (sh.header.state = .named .armed) d ∧
        ∀ r f, sh.header.lastMatch = some (.reading r f) → r.inRange = true)

/-- Two runs of granules have one in common (R176). -/
def RunsMeet (a b : BodyRef) : Prop :=
  ∃ g, (a.first ≤ g ∧ g < a.first + granulesFor a.length) ∧ b.first ≤ g ∧ g < b.first + granulesFor b.length

/-- The record operations of a start-up sequence, in order (R172 to R176): the cold initialisation where the cause is COLD,
its order before the latch the model's choice (notes/assumptions/27.md), and the integrity pass. -/
def startSequence (cause : StartCause) : List StartUnit :=
  (if cause = .cold then
     (List.range 256).map (fun n => .coldHeader (Fin.ofNat 256 n)) ++ [.coldSegment 0, .coldSegment 1, .coldSegment 2,
       .coldSegment 3, .coldDaylight, .coldCalendar, .coldLatch]
   else []) ++
    [.testSegment 0, .testSegment 1, .testSegment 2, .testSegment 3, .testDaylight] ++
      (List.range 256).map (fun n => .testEntry (Fin.ofNat 256 n))

/-- The notice of a start-up fault item (R180). -/
def faultNotice : FaultItem → NoticeBody
  | .config name => .configFault name .startUp
  | .entry e record => .entryFault e record .startUp

/-- What the integrity pass leaves of the body references (R176, R178): only a defined entry holds one, each run lies in the
heap, and no two meet. -/
structure ReferencesSound (p : ProgramStore) : Prop where
  owners : ∀ e r, (p.headers.get e).header.body = some r →
    (p.headers.get e).header.state ∈ [.named .draft, .named .armed, .named .retired]
  inHeap : ∀ e r, (p.headers.get e).header.body = some r →
    1 ≤ r.length ∧ r.length ≤ 240 ∧ r.first + granulesFor r.length ≤ 2048
  apart : ∀ e k r q, e ≠ k → (p.headers.get e).header.body = some r → (p.headers.get k).header.body = some q →
    ¬ RunsMeet r q

/-- The replies that are on TXD or wait in the reply list, in the order in which they are sent. The model's reply list does
not hold the one on TXD (notes/assumptions/30.md). -/
def HostLink.repliesOut (l : HostLink) : List Reply :=
  (match l.tx with
   | some (.reply r) => [r]
   | _ => []) ++ l.replies

/-- The SEQs of the replies to taken requests that are on TXD or wait in the reply list. -/
def HostLink.waitingSeqs (l : HostLink) : List Byte := (l.repliesOut.filter (fun r => !r.immediate)).map (·.seq)

/-- The bounds of the Host Link Unit (R137, R140, R141, R145): at most 4 requests of distinct SEQ, one reply waiting
for each request whose reply is built, at most 4 cached replies of distinct SEQ, at most 4 immediate answers in the reply list, among which the
model does not count one on TXD (notes/assumptions/30.md). -/
structure LinkBounds (l : HostLink) : Prop where
  requests : l.requests.length ≤ 4
  distinct : (l.requests.map (·.seq)).Nodup
  oneReply : l.waitingSeqs.Perm ((l.requests.filter (·.built)).map (·.seq))
  cache : l.cache.length ≤ 4
  cacheDistinct : (l.cache.map (·.seq)).Nodup
  immediate : l.replies.countP (·.immediate) ≤ 4
  discards : l.discards ≤ 65535

/-- The Notice Unit's window (R155, R158, R161, R163): at most 32 notices of consecutive serials that end just before
the next serial, at most 8 in flight and those the oldest, marks on notices in flight only, counts in range, a full
queue while notices are lost, and no timer while the host is absent. -/
structure NoticeWindow (n : NoticeUnit) : Prop where
  capacity : n.queue.length ≤ 32
  serials : ∀ k (h : k < n.queue.length),
    n.queue[k].notice.serial = n.nextSerial - BitVec.ofNat 16 (n.queue.length - k)
  inFlight : n.inFlight.length ≤ 8
  older : n.queue.Pairwise (fun a b => b.inFlight = true → a.inFlight = true)
  marks : ∀ q ∈ n.queue, q.resend = true → q.inFlight = true
  resends : n.resendCount ≤ 5
  lost : n.gapCount ≤ 65535
  full : n.gapCount ≠ 0 → n.queue.length = 32
  timer : n.hostAbsent = true → n.timer = false

/-- The Notice Unit's window, with its copy of the host-absent flag equal to the flag (R149, Table 8-1). -/
def NoticesSound (s : State) : Prop := NoticeWindow s.notices ∧ s.notices.hostAbsent = s.link.hostAbsent

/-- The waiting jobs of a queue. -/
def waiting (q : List Job) : List Job := q.filter (fun j => !j.inService)

/-- One dispatch queue in order (R89, R90, R92, R93): at most 16 jobs, at most the first in service, the waiting jobs
by urgency, of distinct entries, neither stale nor counted. -/
structure QueueOrder (q : List Job) : Prop where
  capacity : q.length ≤ 16
  service : ∀ j ∈ q.tail, j.inService = false
  urgency : (waiting q).Pairwise (fun a b => a.urgency ≤ b.urgency)
  entries : ((waiting q).map (·.entry)).Nodup
  fresh : ∀ j ∈ waiting q, j.stale = false ∧ j.attempts = 0 ∧ j.busy = 0

/-- The four dispatch queues: each in order, and the tags of all their jobs distinct and none FFFFH (R89 to R93). -/
structure QueuesSound (s : State) : Prop where
  order : ∀ i, QueueOrder (s.queue i)
  tags : (heldTags s).Nodup
  noTag : noTag ∉ heldTags s

/-- The heap's bytes in canonical form, all of them inside the heap (R29, R30). -/
def HeapCanonical (s : State) : Prop := Memory.wf s.store.heap = true

/-- The arbiter's order holds each of the seven requesters once (R27). -/
def ArbiterSound (s : State) : Prop := s.ctl.order.Perm initialOrder

/-- Whether the volatile state stands: the part is in service or resetting (Table 9-1). -/
def Supply.running (p : Supply) : Prop := p.phase = .inService ∨ p.phase = .resetting

/-- The entry state list agrees with the headers (R2). -/
def ListAgrees (s : State) : Prop := ∀ e, stateOf s e = (s.store.headers.get e).header.state.entryState

/-- The granules that the map shows as an entry's are exactly the run of its body reference, which lies in the heap
(R30). -/
def MapAgrees (s : State) : Prop :=
  ∀ e : EntryIx,
    (∀ r, (s.store.headers.get e).header.body = some r → r.inHeap = true) ∧
      ∀ g : Fin 2048, s.ctl.map.get g = some e ↔
        ∃ r, (s.store.headers.get e).header.body = some r ∧ r.first ≤ g.val ∧ g.val < r.first + granulesFor r.length

end Sys2Proof.Machine
end

