-- ==== Sys2Proof/Certificates/Slice0/Obligations.lean ====
section
/-! DEFINITION. The statements about the TD4. A statement's hypotheses name a state and operands alone; its conclusion
says that the command answers a next state, and what that state holds. "s.link.answered r body" is the link with the
reply to the request in hand, and nothing else of it changed. -/

open Sys2Proof Sys2Proof.Machine

/-! ### The machine -/

/-- A step is the command at the front of the queue on the state with the queue's rest. -/
def Obligations.StepRunsFrontCommand : Prop :=
  ∀ (c : Instr) (rest : List Instr) (s : State), step { s with pending := c :: rest } = exec c { s with pending := rest }

/-- Every step answers a next state, and a step on an empty queue answers the same state (the model's choice,
notes/assumptions/2.md). -/
def Obligations.StepAnswersNext : Prop :=
  (∀ s : State, ∃ t, step s = .next t) ∧ ∀ s : State, s.pending = [] → step s = .next s

/-- The state after reset: a cold start has ended and service has begun (notes/assumptions/1.md). -/
def Obligations.ResetIsColdStart : Prop :=
  let s := State.reset
  s.supply.phase = .inService ∧ s.supply.cause = .cold ∧ s.supply.backupLost = false ∧
    (∀ e, s.store.headers.get e = freshHeader (bareHeader .empty) ∧ stateOf s e = .empty) ∧
    (∀ g, s.ctl.map.get g = none) ∧ s.ctl.compacting = false ∧ s.ctl.order = initialOrder ∧
    (∀ i, s.store.segRecords.get i = freshSegConfig defaultSegConfig) ∧
    s.store.daylightRecord = freshDaylight defaultDaylight ∧
    s.cal.reading = ⟨2000, 1, 1, 0, 0, 0⟩ ∧ s.cal.fold = .normal ∧ s.cal.valid = false ∧
    s.cal.rule = defaultDaylight ∧ s.cal.runSecond = 0 ∧ s.matcher = none ∧
    (∀ i, s.queue i = [] ∧ s.dispatch.ended.get i = [] ∧ s.dispatch.segHold.get i = false ∧
      s.dispatch.highArmed.get i = true) ∧
    s.dispatch.hold = false ∧ s.dispatch.nextTag = 0 ∧
    (∀ i, s.port i = Port.start defaultSegConfig ∧ (s.port i).health = .closed) ∧
    s.link.rx = .hunt ∧ s.link.requests = [] ∧ s.link.replies = [] ∧ s.link.cache = [] ∧ s.link.discards = 0 ∧
    s.link.hostAbsent = false ∧ s.notices.queue.map (·.notice) = [startedNotice] ∧ s.notices.mask = 0 ∧
    s.notices.gapCount = 0 ∧ s.pending = []

/-- The invariants hold in the state after reset. What the link's bound on immediate answers counts is the model's choice
(notes/assumptions/30.md). -/
def Obligations.InvariantsHoldAtReset : Prop :=
  HeapCanonical State.reset ∧ LinkBounds State.reset.link ∧ NoticesSound State.reset ∧ QueuesSound State.reset ∧
    ArbiterSound State.reset ∧ ListAgrees State.reset ∧ MapAgrees State.reset

/-! ### Invariants that every step keeps -/

/-- The heap keeps its canonical form, every byte inside the heap (the model's form, notes/assumptions/10.md). -/
def Obligations.StepKeepsHeapCanonical : Prop :=
  ∀ s t : State, HeapCanonical s → step s = .next t → HeapCanonical t

/-- The Host Link Unit keeps its bounds: requests, replies and cache (R137, R140, R141, R145). That the immediate answer
on TXD is not one of the 4 in the reply list is the model's choice (notes/assumptions/30.md). -/
def Obligations.StepKeepsLinkBounds : Prop :=
  ∀ s t : State, LinkBounds s.link → step s = .next t → LinkBounds t.link

/-- The Notice Unit keeps its window, and its copy of the host-absent flag agrees (R149, R155, R158, R163). -/
def Obligations.StepKeepsNotices : Prop :=
  ∀ s t : State, NoticesSound s → step s = .next t → NoticesSound t

/-- The dispatch queues keep their bounds, order and distinct tags (R89 to R92). -/
def Obligations.StepKeepsQueues : Prop :=
  ∀ s t : State, QueuesSound s → step s = .next t → QueuesSound t

/-- The arbiter's order keeps each of the seven requesters once (R27). -/
def Obligations.StepKeepsArbiter : Prop :=
  ∀ s t : State, ArbiterSound s → step s = .next t → ArbiterSound t

/-- While the volatile state stands, the entry state list agrees with the headers, through every start-up (R2). -/
def Obligations.StepKeepsStateList : Prop :=
  ∀ s t : State, (s.supply.running → ListAgrees s) → step s = .next t → t.supply.running → ListAgrees t

/-- While the volatile state stands, the map shows as an entry's exactly the run of its body reference (R30). -/
def Obligations.StepKeepsMap : Prop :=
  ∀ s t : State, s.supply.running → MapAgrees s → step s = .next t → t.supply.running → MapAgrees t

/-! ### Requests and the arbiter -/

/-- A request that tests 1 to 3 refuse is answered with the refusal, and acts on no block (R144). -/
def Obligations.RefusedRequestActsOnLinkOnly : Prop :=
  ∀ (s : State) (r : Request) (e : ReqError), s.supply.phase = .inService → inHand s = some r →
    requestError s r = some e →
    exec (requestCommand r.kind) s = .next { s with link := s.link.answered r e.bytes }

/-- The arbiter grants the pending requester that stands highest, and the granted moves to the lowest place; a request
whose operation is not granted waits unchanged (R27, R143; the last clause by notes/assumptions/5.md). A requester is
pending: the Command Interpreter with a request in hand, the first without a reply, that uses the store (Table 2-2) and
passes tests 1 to 3; the Matcher in a pass; a fetch line with an operation presented; the compactor while it runs. -/
def Obligations.ArbiterGrantsHighestPending : Prop :=
  (∀ (s : State) (r : Request), inHand s = some r ↔
    ∃ a b, s.link.requests = a ++ r :: b ∧ r.built = false ∧ ∀ x ∈ a, x.built = true) ∧
  (∀ (s : State) (r : Request), storeReady r.kind r.body = true ↔
    r.kind.toNat ∈ [0x01, 0x02, 0x03, 0x04, 0x05, 0x06, 0x07, 0x10, 0x11, 0x12, 0x13, 0x14, 0x15, 0x1A, 0x21, 0x28,
      0x29, 0x2A] ∧ requestError s r = none) ∧
  (∀ s : State,
    (presents s .commandInterpreter = true ↔ ∃ r, inHand s = some r ∧ storeReady r.kind r.body = true) ∧
    (presents s .matcher = true ↔ s.matcher ≠ none) ∧
    (∀ i, presents s (.fetch i) = true ↔ (s.port i).fetchOp ≠ .none) ∧
    (presents s .compactor = true ↔ s.ctl.compacting = true)) ∧
  (∀ (s : State) (q : Requester), granted s q = true ↔
    s.supply.phase = .inService ∧ presents s q = true ∧
      ∃ a b, s.ctl.order = a ++ q :: b ∧ ∀ x ∈ a, presents s x = false) ∧
    (∀ (s : State) (q : Requester), OrderAfter s (grant q s) q) ∧
    ∀ (s : State) (r : Request), s.supply.phase = .inService → inHand s = some r →
      storeReady r.kind r.body = true → granted s .commandInterpreter = false →
      exec (requestCommand r.kind) s = .next s

/-! ### Entry requests -/

/-- ENTRY-DEFINE without a body to keep, and with keep-body set of a defined entry with a sound header: a new header,
the body kept where the segment is the same and freed otherwise, the waiting jobs ended SUPERSEDED and reported by the new
report mode (R17, R18, R96, R106). That an idle transmitter begins the reply before those reports is the model's choice
(notes/assumptions/23.md). -/
def Obligations.DefineWritesEntry : Prop :=
  ∀ (s : State) (r : Request) (q : DefineReq), ServingStore s r 0x01#8 → parseDefine r.body = .ok q →
    q.defn.remainingFires = q.defn.fireCount ∧ q.defn.coalesced = 0 ∧
      (∀ p f k, q.defn.schedule = .interval p f k → k = f) ∧
      ∀ kept : Option BodyRef,
        ((kept = none ∧ (q.keepBody = false ∨ (stateOf s q.index).defined = false)) ∨
          ∃ h d, q.keepBody = true ∧ Holds s q.index h d ∧
            kept = if d.segment = q.defn.segment then h.body else none) →
        ∃ t, exec .entryDefine s = .next t ∧
          t.link = s.link.answered r [0x00#8, if q.arm then 0x02#8 else 0x01#8,
            if kept.isSome then 0x01#8 else if ownedCount s.ctl.map q.index = 0 then 0x00#8 else 0x02#8] ∧
          t.store.headers.get q.index =
            freshHeader ⟨.named (if q.arm then .armed else .draft), some q.defn, kept, none, none⟩ ∧
          stateOf t q.index = (if q.arm then .armed else .draft) ∧
          (if kept.isSome then t.ctl.map = s.ctl.map else GranulesFreed s t q.index) ∧
          t.store.heap = s.store.heap ∧ t.matcher = s.matcher ∧ JobsWithdrawn s t q.index ∧
          t.notices = (if q.defn.report = .all then reported (withdrawnEnds q.index .superseded s) s else s.notices) ∧
          EntryFrame s t q.index ∧ OrderAfter s t .commandInterpreter

/-- ENTRY-ARM of a defined entry: ARMED with its counts reloaded, every other field and block kept (R19). -/
def Obligations.ArmReloadsCounts : Prop :=
  ∀ (s : State) (r : Request) (e : EntryIx) (h : Header) (d : Definition), ServingStore s r 0x02#8 →
    r.body = [byte1 e.val] → Holds s e h d →
    exec .entryArm s = .next
      { writeHeader e { h with state := .named .armed, defn := some d.rearmed } (grant .commandInterpreter s) with
        link := s.link.answered r (0x00#8 :: 0x02#8 :: fireBytes d.fireCount) } ∧
      d.rearmed = { d with
        schedule := d.rearmed.schedule
        remainingFires := d.fireCount
        coalesced := 0 } ∧
      (∀ p f k, d.schedule = .interval p f k → d.rearmed.schedule = .interval p f f) ∧
      ∀ p f, d.schedule = .calendar p f → d.rearmed.schedule = .calendar p f

/-- ENTRY-DISARM: an ARMED entry becomes DRAFT with its counts kept; elsewhere it changes nothing and answers the state
found (R20). -/
def Obligations.DisarmMakesDraft : Prop :=
  ∀ (s : State) (r : Request) (e : EntryIx), ServingStore s r 0x03#8 → r.body = [byte1 e.val] →
    (∀ h d, stateOf s e = .armed → readHeader s e = some (h, d) →
      exec .entryDisarm s = .next
        { writeHeader e { h with state := .named .draft } (grant .commandInterpreter s) with
          link := s.link.answered r [0x00#8, 0x01#8] }) ∧
    ((stateOf s e = .draft ∨ stateOf s e = .retired ∨ stateOf s e = .quarantined) →
      exec .entryDisarm s = .next
        { grant .commandInterpreter s with link := s.link.answered r [0x00#8, byte1 (stateOf s e).code] })

/-- ENTRY-DELETE: a new EMPTY header, granules freed and jobs withdrawn, without the header being read; no change on an
EMPTY entry (R21). The jobs withdrawn end SUPERSEDED, which is no failure, so none is reported (R96, R106). -/
def Obligations.DeleteEmptiesEntry : Prop :=
  ∀ (s : State) (r : Request) (e : EntryIx), ServingStore s r 0x04#8 → r.body = [byte1 e.val] →
    (stateOf s e = .empty →
      exec .entryDelete s = .next
        { grant .commandInterpreter s with link := s.link.answered r [0x00#8, 0x00#8] }) ∧
    (stateOf s e ≠ .empty →
      ∃ t, exec .entryDelete s = .next t ∧
        t.link = s.link.answered r [0x00#8, byte1 (ownedCount s.ctl.map e)] ∧
        t.store.headers.get e = freshHeader (bareHeader .empty) ∧ stateOf t e = .empty ∧ GranulesFreed s t e ∧
        t.store.heap = s.store.heap ∧ t.matcher = s.matcher ∧ JobsWithdrawn s t e ∧ t.notices = s.notices ∧
        EntryFrame s t e ∧ OrderAfter s t .commandInterpreter)

/-- ENTRY-READ, ENTRY-MAP and STORE-STATUS answer from the store as it stands at the grant, and change nothing else
(R22, R23, R45). The header of a definition as ENTRY-READ carries it (section 10.3, Table 10-6). -/
def Obligations.StoreSnapshots : Prop :=
  (∀ (s : State) (r : Request) (e : EntryIx), ServingStore s r 0x05#8 → r.body = [byte1 e.val] →
    (∀ h d, Holds s e h d →
      exec .entryRead s = .next { grant .commandInterpreter s with
        link := s.link.answered r (0x00#8 :: byte1 e.val :: headerBytes h) }) ∧
    ((stateOf s e).defined = false →
      exec .entryRead s = .next { grant .commandInterpreter s with
        link := s.link.answered r [0x00#8, byte1 e.val, byte1 (stateOf s e).code] })) ∧
  (∀ (s : State) (r : Request), ServingStore s r 0x06#8 → r.body = [] →
    exec .entryMap s = .next { grant .commandInterpreter s with
      link := s.link.answered r (0x00#8 :: (List.range 128).map (fun k =>
        byte1 (16 * (stateOf s (entryIx (2 * k))).code + (stateOf s (entryIx (2 * k + 1))).code))) }) ∧
  (∀ (s : State) (r : Request), ServingStore s r 0x14#8 → r.body = [] →
    exec .storeStatus s = .next { grant .commandInterpreter s with
      link := s.link.answered r (0x00#8 ::
        (byte2 (freeCount s.ctl.map) ++ byte2 (largestRun 0 0 s.ctl.map.toList) ++ byte2 (topRun s.ctl.map) ++
          byte2 (entriesIn s.ctl.states .empty) ++ byte2 (entriesIn s.ctl.states .draft) ++
          byte2 (entriesIn s.ctl.states .armed) ++ byte2 (entriesIn s.ctl.states .retired) ++
          byte2 (entriesIn s.ctl.states .quarantined) ++ [byte1 (flagBit s.ctl.compacting)])) }) ∧
  ∀ (h : Header) (d : Definition) (st : EntryState), h.state = .named st → h.defn = some d →
    let any (o : Option Nat) : Byte := (o.map byte1).getD 0xFF#8
    let fires (o : Option Nat) : List Byte := (o.map byte2).getD [0xFF#8, 0xFF#8]
    let yes (p : Bool) : Nat := if p then 1 else 0
    headerBytes h = byte1 st.code ::
      ((match d.schedule with
        | .calendar p policy =>
          [0x00#8, any p.second, any p.minute, any p.hour, p.weekdays.setWidth 8,
            match p.day with
            | .any => 0xFF#8
            | .last => 0x20#8
            | .day n => byte1 n,
            any p.month, if policy = .twice then 0x01#8 else 0x00#8]
        | .interval period first remaining => 0x01#8 :: (byte3 period ++ byte3 first ++ byte3 remaining)) ++
      [byte1 d.segment, byte1 d.destination, byte1 d.urgency] ++ fires d.fireCount ++ fires d.remainingFires ++
      [byte1 (yes d.reload), if d.report = .none then 0x00#8 else if d.report = .failures then 0x01#8 else 0x02#8,
        byte1 d.coalesced,
        byte1 (yes h.body.isSome + 2 * yes h.lastOutcome.isSome + 4 * yes h.lastMatch.isSome +
          8 * yes (h.lastMatch.any (fun m => match m with
            | .runSecond _ => true
            | .reading _ _ => false)))] ++
      (match h.body with
        | some b => byte2 b.first ++ [byte1 b.length]
        | none => [0x00#8, 0x00#8, 0x00#8]) ++
      [byte1 ((h.lastOutcome.map JobOutcome.code).getD 0)] ++
      match h.lastMatch with
        | some (.reading r f) => readingBytes r f false
        | some (.runSecond n) => byte4 n.toNat ++ [0x00#8, 0x00#8]
        | none => [0x00#8, 0x00#8, 0x00#8, 0x00#8, 0x00#8, 0x00#8])

/-- A request whose read of the entry's header finds a fault runs the quarantine procedure on path HOST-READ, is not
carried out, and answers DATA-FAULT (R3, R18, R34, R35, R37). The STORE-FAULT notice comes last
(notes/assumptions/16.md). That an idle transmitter begins the reply before the notices of the quarantine is the model's
choice (notes/assumptions/23.md), and so is that BODY-LOAD answers DATA-FAULT where no run qualifies either
(notes/assumptions/29.md). -/
def Obligations.HeaderFaultQuarantines : Prop :=
  ∀ (s : State) (r : Request) (e : EntryIx) (c : Instr),
    (((c, r.kind) ∈ [(.entryArm, 0x02#8), (.entryDisarm, 0x03#8), (.entryRead, 0x05#8), (.entryFire, 0x07#8),
        (.bodyRead, 0x11#8), (.bodyDrop, 0x12#8)] ∧ r.body = [byte1 e.val] ∧
        (c = .entryDisarm → stateOf s e = .armed)) ∨
      (c = .bodyLoad ∧ r.kind = 0x10#8 ∧
        ∃ bytes, r.body = byte1 e.val :: bytes ∧ 1 ≤ bytes.length ∧ bytes.length ≤ 240) ∨
      (c = .entryDefine ∧ r.kind = 0x01#8 ∧ ∃ q, parseDefine r.body = .ok q ∧ q.index = e ∧ q.keepBody = true)) →
    ServingStore s r r.kind → (stateOf s e).defined = true → readHeader s e = none →
    ∃ t, exec c s = .next t ∧ t.link = s.link.answered r [0x08#8, byte1 e.val, 0x00#8] ∧
      Quarantined s t e .header .hostRead ∧ t.matcher = s.matcher ∧ OrderAfter s t .commandInterpreter

/-- A request refused at its state, or for want of space, changes nothing but the link and the arbiter's order
(R19, R20, R37, R39, R40, R41, R46, R86). -/
def Obligations.StoreRefusalsChangeNothing : Prop :=
  (∀ (s : State) (r : Request) (e : EntryIx) (c : Instr), (c, r.kind) ∈ [(.entryArm, 0x02#8), (.entryFire, 0x07#8)] →
    ServingStore s r r.kind → r.body = [byte1 e.val] → (stateOf s e).defined = false →
    exec c s = .next { grant .commandInterpreter s with
      link := s.link.answered r [0x05#8, byte1 (stateOf s e).code] }) ∧
  (∀ (s : State) (r : Request) (e : EntryIx) (c : Instr),
    (c, r.kind) ∈ [(.entryDisarm, 0x03#8), (.bodyRead, 0x11#8), (.bodyDrop, 0x12#8)] →
    ServingStore s r r.kind → r.body = [byte1 e.val] → stateOf s e = .empty →
    exec c s = .next { grant .commandInterpreter s with link := s.link.answered r [0x05#8, 0x00#8] }) ∧
  (∀ (s : State) (r : Request) (e : EntryIx) (bytes : List Byte), ServingStore s r 0x10#8 →
    r.body = byte1 e.val :: bytes → 1 ≤ bytes.length → bytes.length ≤ 240 →
    ((stateOf s e).defined = false →
      exec .bodyLoad s = .next { grant .commandInterpreter s with
        link := s.link.answered r [0x05#8, byte1 (stateOf s e).code] }) ∧
    (∀ h d, Holds s e h d → allocate s.ctl (granulesFor bytes.length) = none →
      exec .bodyLoad s = .next { grant .commandInterpreter s with
        link := s.link.answered r (0x07#8 :: byte1 (granulesFor bytes.length) ::
          byte2 (if s.ctl.compacting then topRun s.ctl.map else largestRun 0 0 s.ctl.map.toList)) })) ∧
  (∀ (s : State) (r : Request) (c : Instr), (c, r.kind) ∈ [(.storeCompact, 0x13#8), (.storeErase, 0x15#8)] →
    ServingStore s r r.kind → r.body = [] → s.ctl.compacting = true →
    exec c s = .next { grant .commandInterpreter s with link := s.link.answered r [0x06#8] })

/-- ENTRY-FIRE whose offer makes no job: CLOSED on a closed segment, COALESCED with a waiting job of the entry, DROPPED
at a full queue of jobs no less urgent. The fire writes last match, and DROPPED but for COALESCED, and changes no queue
(R81, R87, R94). That an idle transmitter begins the reply before the report is the model's choice
(notes/assumptions/23.md). -/
def Obligations.FireWithoutJob : Prop :=
  ∀ (s : State) (r : Request) (e : EntryIx) (h : Header) (d : Definition), ServingStore s r 0x07#8 →
    r.body = [byte1 e.val] → Holds s e h d →
    let unchanged (t : State) := t.dispatch = s.dispatch ∧ t.ports = s.ports ∧ t.ctl.map = s.ctl.map ∧
      t.store.heap = s.store.heap ∧ t.matcher = s.matcher ∧ EntryFrame s t e ∧ OrderAfter s t .commandInterpreter
    (∀ (reason : DropReason) (code : Byte), (reason = .closed ∧ code = 0x03#8 ∧ (s.port d.seg).health = .closed) ∨
        (reason = .full ∧ code = 0x02#8 ∧ (s.port d.seg).health ≠ .closed ∧ 16 ≤ (s.queue d.seg).length ∧
          (∀ j ∈ s.queue d.seg, j.entry = e → j.inService = true) ∧
          ∀ j, (s.queue d.seg).getLast? = some j → j.inService = true ∨ j.urgency ≤ d.urgency) →
      ∃ t, exec .entryFire s = .next t ∧ t.link = s.link.answered r [0x00#8, code, 0xFF#8, 0xFF#8] ∧
        t.store.headers.get e = freshHeader { h with
          lastMatch := some (.runSecond s.cal.runSecond), lastOutcome := some .dropped } ∧
        t.notices = (if d.report = .none then s.notices else (post (.dispatchReport
          { tag := 0xFFFF#16, entry := e, segment := d.seg, destination := d.destination, cause := .manual,
            due := none, created := s.cal.runSecond, outcome := .dropped, reason := some reason, stale := false,
            attempts := 0, busy := 0 }) s).notices) ∧
        unchanged t) ∧
    (∀ j, (s.port d.seg).health ≠ .closed →
      (s.queue d.seg).find? (fun j => !j.inService && j.entry == e) = some j →
      ∃ t, exec .entryFire s = .next t ∧ t.link = s.link.answered r (0x00#8 :: 0x01#8 :: byte2 j.tag.toNat) ∧
        t.store.headers.get e = freshHeader { h with lastMatch := some (.runSecond s.cal.runSecond) } ∧
        t.notices = s.notices ∧ unchanged t)

/-- ENTRY-FIRE on an open segment with no waiting job of the entry makes one job, and spends no fire. With room, the job
takes its place under a free tag; QUEUE-HIGH is posted at 12, and take-in is considered (R87, R92, R93, R95). At a full
queue whose last job is less urgent, that job is displaced: it leaves, its end DROPPED with reason DISPLACED is recorded,
and the new job is made in the state that the recording leaves (R94; the recording itself is RecordingWritesOutcome). That
take-in is considered once, after the new job is made, and that an idle transmitter begins the reply before the notices of
the offer, are the model's choices (notes/assumptions/24.md, notes/assumptions/23.md). -/
def Obligations.FireQueuesJob : Prop :=
  (∀ (s : State) (r : Request) (e : EntryIx) (h : Header) (d : Definition) (victim : Job), ServingStore s r 0x07#8 →
    r.body = [byte1 e.val] → Holds s e h d → (s.port d.seg).health ≠ .closed →
    (∀ j ∈ s.queue d.seg, j.entry = e → j.inService = true) → (s.queue d.seg).length = 16 →
    (s.queue d.seg).getLast? = some victim → victim.inService = false → d.urgency < victim.urgency →
    let u := withoutVictim .hostRead d.seg victim s
    let made := withNewJob d.seg
      { entry := e, destination := d.destination, urgency := d.urgency, cause := .manual, due := none,
        created := s.cal.runSecond } u
    ∃ t, exec .entryFire s = .next t ∧
      t.link = s.link.answered r (0x00#8 :: 0x00#8 :: byte2 (nextFreeTag u).toNat) ∧
      t.store.headers.get e = freshHeader { h with lastMatch := some (.runSecond s.cal.runSecond) } ∧
      (∀ k, k ≠ e → t.store.headers.get k = u.store.headers.get k ∧ stateOf t k = stateOf u k) ∧
      t.dispatch = (considerTakeIn d.seg made).dispatch ∧ t.ports = (considerTakeIn d.seg made).ports ∧
      t.notices = made.notices ∧ t.ctl.map = u.ctl.map ∧ t.store.heap = s.store.heap ∧
      t.store.segRecords = s.store.segRecords ∧ t.store.daylightRecord = s.store.daylightRecord ∧
      t.ctl.compacting = s.ctl.compacting ∧ t.ctl.frontier = s.ctl.frontier ∧ t.ctl.moved = s.ctl.moved ∧
      t.matcher = s.matcher ∧ t.cal = s.cal ∧ t.supply = s.supply ∧ t.free = s.free ∧ t.pending = s.pending ∧
      OrderAfter s t .commandInterpreter) ∧
  ∀ (s : State) (r : Request) (e : EntryIx) (h : Header) (d : Definition), ServingStore s r 0x07#8 →
    r.body = [byte1 e.val] → Holds s e h d → (s.port d.seg).health ≠ .closed →
    (∀ j ∈ s.queue d.seg, j.entry = e → j.inService = true) → (s.queue d.seg).length < 16 →
    let high := (s.queue d.seg).length = 11 ∧ s.dispatch.highArmed.get d.seg = true
    let job : Job :=
      { tag := nextFreeTag s, entry := e, destination := d.destination, urgency := d.urgency, cause := .manual,
        due := none, created := s.cal.runSecond, stale := false, inService := false, attempts := 0, busy := 0 }
    let made : State := { s with dispatch := { s.dispatch with
      queues := s.dispatch.queues.set d.seg (insertJob job (s.queue d.seg))
      nextTag := if nextFreeTag s = 0xFFFE#16 then 0 else nextFreeTag s + 1
      highArmed := if high then s.dispatch.highArmed.set d.seg false else s.dispatch.highArmed } }
    ∃ t, exec .entryFire s = .next t ∧
      t.link = s.link.answered r (0x00#8 :: 0x00#8 :: byte2 (nextFreeTag s).toNat) ∧
      t.store.headers.get e = freshHeader { h with lastMatch := some (.runSecond s.cal.runSecond) } ∧
      t.dispatch = (considerTakeIn d.seg made).dispatch ∧ t.ports = (considerTakeIn d.seg made).ports ∧
      t.notices = (if high then (post (.queueHigh d.seg 12) s).notices else s.notices) ∧
      t.ctl.map = s.ctl.map ∧ t.store.heap = s.store.heap ∧ t.matcher = s.matcher ∧ EntryFrame s t e ∧
      OrderAfter s t .commandInterpreter

/-- What an offer meets, in the order of the tests (R81, R94): CLOSED, COALESCED with the waiting job of the entry,
QUEUED with the next free tag, QUEUED in the place of a less urgent last job, DROPPED; and the state it leaves: an offer
ended at once is reported as the report mode calls for, a coalesced one changes nothing, a displaced job leaves and its end
is recorded before the new job is made, and after a new job take-in is considered. A new job's place in its queue (R92),
and its tag: the first value from the allocator's on that is neither FFFFH nor held (R91). That take-in is not considered
between a displaced job's end and the new job is the model's choice (notes/assumptions/24.md). -/
def Obligations.OfferDispositions : Prop :=
  (∀ (s : State) (path : FaultPath) (i : Seg) (o : Offer) (m : ReportMode),
    let met := meetOffer path i o m s
    let joined := (s.queue i).find? (fun j => !j.inService && j.entry == o.entry)
    let dropped (reason : DropReason) :=
      if m = .none then s else post (.dispatchReport (offerEnd i o reason)) s
    ((s.port i).health = .closed → met = (.closed, dropped .closed)) ∧
      ((s.port i).health ≠ .closed → ∀ j, joined = some j → met = (.coalesced j.tag, s)) ∧
      ((s.port i).health ≠ .closed → joined = none → (s.queue i).length < 16 →
        met = (.queued (nextFreeTag s), considerTakeIn i (withNewJob i o s))) ∧
      ((s.port i).health ≠ .closed → joined = none → 16 ≤ (s.queue i).length →
        ∀ j, (s.queue i).getLast? = some j →
          (j.inService = false → o.urgency < j.urgency →
            let u := withoutVictim path i j s
            met = (.queued (nextFreeTag u), considerTakeIn i (withNewJob i o u))) ∧
            (j.inService = true ∨ j.urgency ≤ o.urgency → met = (.dropped, dropped .full)))) ∧
  (∀ (j : Job) (q : List Job), QueueOrder q → j.inService = false →
    ∃ a b, q = a ++ b ∧ insertJob j q = a ++ j :: b ∧ (∀ k ∈ a, k.inService = true ∨ k.urgency ≤ j.urgency) ∧
      ∀ k ∈ b, k.inService = false ∧ j.urgency < k.urgency) ∧
  ∀ s : State, QueuesSound s → nextFreeTag s ≠ 0xFFFF#16 ∧ nextFreeTag s ∉ heldTags s ∧
    ∃ n < 66, nextFreeTag s = s.dispatch.nextTag + BitVec.ofNat 16 n ∧
      ∀ k < n, s.dispatch.nextTag + BitVec.ofNat 16 k = 0xFFFF#16 ∨
        s.dispatch.nextTag + BitVec.ofNat 16 k ∈ heldTags s

/-! ### The store and the heap -/

/-- BODY-LOAD that finds space: the record is written into the run found and reads back sound, every other byte is
unchanged, the header refers to it, the map gives it the run and frees the old one, and the waiting jobs end SUPERSEDED,
reported by the entry's report mode (R32, R38, R96, R106). That an idle transmitter begins the reply before those reports is
the model's choice (notes/assumptions/23.md). -/
def Obligations.BodyLoadPlacesRecord : Prop :=
  ∀ (s : State) (r : Request) (e : EntryIx) (bytes : List Byte) (h : Header) (d : Definition) (start : Nat),
    ServingStore s r 0x10#8 → HeapCanonical s → r.body = byte1 e.val :: bytes → 1 ≤ bytes.length →
    bytes.length ≤ 240 → Holds s e h d → allocate s.ctl (granulesFor bytes.length) = some start →
    ∃ t, exec .bodyLoad s = .next t ∧
      t.link = s.link.answered r (0x00#8 :: (byte2 start ++
        [byte1 (granulesFor bytes.length), if h.body.isSome then 0x01#8 else 0x00#8])) ∧
      t.store.headers.get e = freshHeader { h with body := some ⟨start, bytes.length⟩ } ∧
      stateOf t e = h.state.entryState ∧
      recordSound t.store.heap e ⟨start, bytes.length⟩ = true ∧ recordBody t.store.heap ⟨start, bytes.length⟩ = bytes ∧
      (∀ a, a < 16 * start ∨ 16 * start + bytes.length + 4 ≤ a →
        Memory.read t.store.heap a = Memory.read s.store.heap a) ∧
      (∀ g : Fin 2048, t.ctl.map.get g =
        if start ≤ g.val ∧ g.val < start + granulesFor bytes.length then some e
        else if s.ctl.map.get g = some e then none else s.ctl.map.get g) ∧
      t.matcher = s.matcher ∧ JobsWithdrawn s t e ∧
      (h.state.entryState = stateOf s e →
        t.notices = if d.report = .all then reported (withdrawnEnds e .superseded s) s else s.notices) ∧
      EntryFrame s t e ∧ OrderAfter s t .commandInterpreter

/-- Allocation is first fit from granule 0 upward, or, while the compactor runs, the lowest granules of the top run; it
fails when no run qualifies (R32). The sizes that NO-SPACE and STORE-STATUS report: the largest run of FREE granules, and
the top run, which begins one above the highest allocated granule (R32, R37, R45). -/
def Obligations.AllocationIsFirstFit : Prop :=
  (∀ m : Vector (Option EntryIx) 2048,
    let run (k n : Nat) := k + n ≤ 2048 ∧ ∀ g : Fin 2048, k ≤ g.val → g.val < k + n → m.get g = none
    (∃ k, run k (largestRun 0 0 m.toList)) ∧ (∀ k n, run k n → n ≤ largestRun 0 0 m.toList) ∧
    ∀ top, top ≤ 2048 → (∀ g : Fin 2048, top ≤ g.val → m.get g = none) →
      (top = 0 ∨ ∃ g : Fin 2048, g.val + 1 = top ∧ m.get g ≠ none) → topRun m = 2048 - top) ∧
  ∀ (c : StoreControl) (n : Nat), 1 ≤ n →
    let free (k : Nat) := k + n ≤ 2048 ∧ ∀ g : Fin 2048, k ≤ g.val → g.val < k + n → c.map.get g = none
    (c.compacting = false →
      (∀ k, allocate c n = some k → free k ∧ ∀ k' < k, ¬ free k') ∧
      (allocate c n = none → ∀ k, ¬ free k)) ∧
    (c.compacting = true →
      ∀ top, top ≤ 2048 → (∀ g : Fin 2048, top ≤ g.val → c.map.get g = none) →
        (top = 0 ∨ ∃ g : Fin 2048, g.val + 1 = top ∧ c.map.get g ≠ none) →
        allocate c n = if n ≤ 2048 - top then some top else none)

/-- BODY-READ: the body of a sound record, or its absence; a record that is not sound quarantines the entry, naming
BODY, with the STORE-FAULT notice last (R39; notes/assumptions/16.md). BODY-DROP: the reference is made absent, the granules
freed and the waiting jobs ended SUPERSEDED, the record not read; no change without a reference (R40, R96). That an idle
transmitter begins the reply before the notices of the operation is the model's choice (notes/assumptions/23.md). -/
def Obligations.BodyReadAndDrop : Prop :=
  (∀ (s : State) (r : Request) (e : EntryIx), ServingStore s r 0x11#8 → r.body = [byte1 e.val] →
    (∀ h d b, Holds s e h d → h.body = some b → recordSound s.store.heap e b = true →
      exec .bodyRead s = .next { grant .commandInterpreter s with
        link := s.link.answered r (0x00#8 :: byte1 b.length :: (byte2 b.first ++ recordBody s.store.heap b)) }) ∧
    ((stateOf s e = .quarantined ∨ ∃ h d, Holds s e h d ∧ h.body = none) →
      exec .bodyRead s = .next { grant .commandInterpreter s with
        link := s.link.answered r [0x00#8, 0x00#8, 0x00#8, 0x00#8] }) ∧
    (∀ h d b, Holds s e h d → h.body = some b → recordSound s.store.heap e b = false →
      ∃ t, exec .bodyRead s = .next t ∧ t.link = s.link.answered r [0x08#8, byte1 e.val, 0x01#8] ∧
        Quarantined s t e .body .hostRead ∧ t.matcher = s.matcher ∧ OrderAfter s t .commandInterpreter)) ∧
  ∀ (s : State) (r : Request) (e : EntryIx), ServingStore s r 0x12#8 → r.body = [byte1 e.val] →
    (∀ h d, Holds s e h d → h.body.isSome = true →
      ∃ t, exec .bodyDrop s = .next t ∧
        t.link = s.link.answered r [0x00#8, byte1 (ownedCount s.ctl.map e)] ∧
        t.store.headers.get e = freshHeader { h with body := none } ∧ stateOf t e = h.state.entryState ∧
        GranulesFreed s t e ∧ t.store.heap = s.store.heap ∧ t.matcher = s.matcher ∧ JobsWithdrawn s t e ∧
        (h.state.entryState = stateOf s e →
          t.notices = if d.report = .all then reported (withdrawnEnds e .superseded s) s else s.notices) ∧
        EntryFrame s t e ∧ OrderAfter s t .commandInterpreter) ∧
    ((stateOf s e = .quarantined ∨ ∃ h d, Holds s e h d ∧ h.body = none) →
      exec .bodyDrop s = .next { grant .commandInterpreter s with link := s.link.answered r [0x00#8, 0x00#8] })

/-- STORE-COMPACT sets the compactor running from granule 0 and answers the number of records (R41); a step at a record
that starts at the frontier passes it (R42); a step that finds no record that starts at or above the frontier, though one
may lie across it, ends compaction, with the moved count and the top run in a notice (R42, R43). That it ends where a record
lies across the frontier is the model's (notes/assumptions/21.md). A granule starts a record unless the one below it has the
same owner. -/
def Obligations.CompactionStartsAndEnds : Prop :=
  (∀ (s : State) (r : Request), ServingStore s r 0x13#8 → r.body = [] → s.ctl.compacting = false → MapAgrees s →
    exec .storeCompact s = .next { grant .commandInterpreter s with
      ctl := { (grant .commandInterpreter s).ctl with compacting := true, frontier := 0, moved := 0 }
      link := s.link.answered r (0x00#8 :: byte2
        (((List.range 256).map entryIx).countP (fun e => (s.store.headers.get e).header.body.isSome))) }) ∧
  (∀ (s : State) (g : Fin 2048) (e : EntryIx), granted s .compactor = true → g.val = s.ctl.frontier →
    s.ctl.map.get g = some e → (∀ k : Fin 2048, k.val + 1 = g.val → s.ctl.map.get k ≠ some e) →
    exec .compactionStep s = .next (kickTx { s with
      ctl := { (grant .compactor s).ctl with frontier := s.ctl.frontier + ownedCount s.ctl.map e } })) ∧
  (∀ s : State, granted s .compactor = true →
    (∀ g : Fin 2048, s.ctl.frontier ≤ g.val →
      s.ctl.map.get g = none ∨ ∃ k : Fin 2048, k.val + 1 = g.val ∧ s.ctl.map.get k = s.ctl.map.get g) →
    exec .compactionStep s = .next (kickTx (post (.compactionEnd s.ctl.moved (topRun s.ctl.map)) { s with
      ctl := { (grant .compactor s).ctl with compacting := false } }))) ∧
  topRun (Vector.replicate 2048 none) = 2048

/-- A compaction step at a record above the frontier: moved, the same body stands at the frontier, every byte outside the
new run unchanged, the header refers to the new place, the map shows the new run, no job is touched; where the header or
the record fails its test, the owner is quarantined and the frontier stays (R42); the STORE-FAULT notice comes last
(notes/assumptions/16.md). -/
def Obligations.CompactionMovesRecord : Prop :=
  ∀ (s : State) (e : EntryIx) (g : Fin 2048), granted s .compactor = true → s.ctl.map.get g = some e →
    s.ctl.frontier < g.val → (∀ k : Fin 2048, s.ctl.frontier ≤ k.val → k.val < g.val → s.ctl.map.get k = none) →
    (∀ h d b, HeapCanonical s → readHeader s e = some (h, d) → h.body = some b → b.first = g.val →
      recordSound s.store.heap e b = true →
      ∃ m, exec .compactionStep s = .next (kickTx m) ∧
        m.store.headers.get e = freshHeader { h with body := some ⟨s.ctl.frontier, b.length⟩ } ∧
        stateOf m e = h.state.entryState ∧
        recordSound m.store.heap e ⟨s.ctl.frontier, b.length⟩ = true ∧
        recordBody m.store.heap ⟨s.ctl.frontier, b.length⟩ = recordBody s.store.heap b ∧
        (∀ a, a < 16 * s.ctl.frontier ∨ 16 * s.ctl.frontier + b.length + 4 ≤ a →
          Memory.read m.store.heap a = Memory.read s.store.heap a) ∧
        (∀ k : Fin 2048, m.ctl.map.get k =
          if s.ctl.frontier ≤ k.val ∧ k.val < s.ctl.frontier + granulesFor b.length then some e
          else if s.ctl.map.get k = some e then none else s.ctl.map.get k) ∧
        m.ctl.frontier = s.ctl.frontier + granulesFor b.length ∧ m.ctl.moved = s.ctl.moved + 1 ∧
        m.ctl.compacting = s.ctl.compacting ∧ OrderAfter s m .compactor ∧
        (∀ k, k ≠ e → m.store.headers.get k = s.store.headers.get k ∧ stateOf m k = stateOf s k) ∧
        m.store.segRecords = s.store.segRecords ∧ m.store.daylightRecord = s.store.daylightRecord ∧
        m = { s with store := m.store, ctl := m.ctl }) ∧
    (∀ record : FaultRecord,
      ((record = .header ∧ readHeader s e = none) ∨
        (record = .body ∧ ∃ h d b, readHeader s e = some (h, d) ∧ h.body = some b ∧
          recordSound s.store.heap e b = false)) →
      ∃ m, exec .compactionStep s = .next (kickTx m) ∧ Quarantined s m e record .compaction ∧ m.link = s.link ∧
        m.matcher = s.matcher ∧ OrderAfter s m .compactor)

/-- STORE-ERASE: every header EMPTY, every granule FREE, every waiting job withdrawn and every job in service stale, the
configuration area, the heap's bytes and the calendar kept (R46). The jobs withdrawn end SUPERSEDED, which is no failure, so
none is reported (R106). Where a queue lost a job its high-water flag is armed again at 8 or fewer (R95), and take-in is
considered, which presents a pending record (R96, R104; of an operation in progress, notes/assumptions/25.md). -/
def Obligations.EraseEmptiesStore : Prop :=
  ∀ (s : State) (r : Request), ServingStore s r 0x15#8 → r.body = [] → s.ctl.compacting = false →
    ∃ t, exec .storeErase s = .next t ∧
      t.link = s.link.answered r (0x00#8 :: byte2 (256 - entriesIn s.ctl.states .empty)) ∧
      (∀ e, t.store.headers.get e = freshHeader (bareHeader .empty) ∧ stateOf t e = .empty) ∧
      (∀ g : Fin 2048, t.ctl.map.get g = none) ∧
      (∀ i, t.queue i = ((s.queue i).filter (·.inService)).map (fun j => { j with stale := true })) ∧
      (∀ i, t.dispatch.highArmed.get i = (s.dispatch.highArmed.get i ||
        decide ((t.queue i).length < (s.queue i).length ∧ (t.queue i).length ≤ 8))) ∧
      (∀ i, t.dispatch.ended.get i = (s.dispatch.ended.get i).map (fun j => { j with stale := true })) ∧
      t.dispatch.nextTag = s.dispatch.nextTag ∧ t.dispatch.hold = s.dispatch.hold ∧
      t.dispatch.segHold = s.dispatch.segHold ∧ t.store.heap = s.store.heap ∧
      t.store.segRecords = s.store.segRecords ∧ t.store.daylightRecord = s.store.daylightRecord ∧
      t.ctl.compacting = false ∧ OrderAfter s t .commandInterpreter ∧ t.cal = s.cal ∧ t.matcher = s.matcher ∧
      t.supply = s.supply ∧
      (∀ i, t.port i = { s.port i with
        fetchOp :=
          if (t.queue i).length < (s.queue i).length ∧ (s.port i).health ≠ .closed ∧ s.dispatch.ended.get i ≠ [] ∧
            (s.port i).fetchOp = .none then .record else (s.port i).fetchOp }) ∧
      t.notices = s.notices ∧ t.ctl.frontier = s.ctl.frontier ∧ t.ctl.moved = s.ctl.moved ∧ t.free = s.free ∧
      t.pending = s.pending

/-! ### Configuration and the calendar -/

/-- CLOCK-SET, CLOCK-RULE and SEGMENT-CONFIG, whole: what each writes, and that nothing else changes
(R65, R68, R69, R128). -/
def Obligations.ConfigurationRequests : Prop :=
  (∀ (s : State) (r : Request) (q : ClockSetReq) (f : Fold), Serving s r 0x18#8 →
    parseClockSet s.cal.rule r.body = .ok q →
    f = q.fold.getD (if inRepeatedHour s.cal.rule q.reading then .first else .normal) →
    exec .clockSet s = .next { s with
      cal := { s.cal with prescaler := 0, reading := q.reading, fold := f, valid := true }
      link := s.link.answered r (0x00#8 :: readingBytes q.reading f true) }) ∧
  (∀ (s : State) (r : Request) (rule : DaylightRule), ServingStore s r 0x1A#8 → parseClockRule r.body = .ok rule →
    exec .clockRule s = .next { grant .commandInterpreter s with
      store := { s.store with daylightRecord := ⟨rule, daylightCheck rule⟩ }
      cal := { s.cal with
        rule := rule
        fold := if s.cal.fold ≠ .normal ∧ inRepeatedHour rule s.cal.reading = true then s.cal.fold else .normal }
      link := s.link.answered r [0x00#8] }) ∧
  (∀ (s : State) (r : Request) (i : Seg) (c : SegConfig), ServingStore s r 0x28#8 →
    parseSegConfig r.body = .ok (i, c) →
    exec .segmentConfig s = .next { grant .commandInterpreter s with
      store := { s.store with segRecords := s.store.segRecords.set i ⟨c, segConfigCheck c⟩ }
      ports := if (s.port i).health = .closed then s.ports else s.ports.set i { s.port i with cfgPending := true }
      link := s.link.answered r [0x00#8, byte1 (s.port i).health.code] })

/-- UPDATE_EVENT: in service the calendar advances, the run-second is counted, CLOCK-SHIFT is posted for a transition
and a pass starts; otherwise the calendar alone advances, or nothing where VBAK is lost (R50, R51, R57, R63, R72). The
prescaler and the absence of update events follow notes/assumptions/7.md and notes/assumptions/12.md. -/
def Obligations.UpdateEventAdvances : Prop :=
  ∀ s : State,
    let u := updateReading s.cal.rule s.cal.valid s.cal.fold s.cal.reading
    let cal : Calendar := { s.cal with prescaler := 0, reading := u.reading, fold := u.fold, valid := u.valid }
    let counted : State := { s with cal := { cal with runSecond := s.cal.runSecond + 1 } }
    let pass : Pass := ⟨⟨u.reading, u.fold, u.valid, s.cal.runSecond + 1⟩, 0, true⟩
    (s.supply.phase = .inService → u.shift = none →
      exec .updateEvent s = .next (kickTx { counted with matcher := some pass })) ∧
    (∀ direction candidate, s.supply.phase = .inService → u.shift = some (direction, candidate) →
      exec .updateEvent s = .next (kickTx { post (.clockShift direction candidate 1) counted with
        matcher := some pass })) ∧
    (s.supply.phase ≠ .inService → ¬ (s.supply.phase = .unpowered ∧ s.supply.vbakLow = true) →
      exec .updateEvent s = .next { s with cal := cal }) ∧
    (s.supply.phase = .unpowered → s.supply.vbakLow = true → exec .updateEvent s = .next s)

/-- The update event at the end of the range (R54). -/
def Obligations.EndOfRange : Prop :=
  ∀ s : State, s.cal.reading = ⟨2199, 12, 31, 23, 59, 59⟩ →
    (s.supply.phase = .inService ∨ s.supply.vbakLow = false) →
    ∃ t, exec .updateEvent s = .next t ∧ t.cal.reading = ⟨2000, 1, 1, 0, 0, 0⟩ ∧ t.cal.fold = .normal ∧
      t.cal.valid = false ∧ t.notices.queue.map (·.notice) = s.notices.queue.map (·.notice) ∧
      (s.supply.phase = .inService → ∃ p, t.matcher = some p ∧ p.stamp.reading = ⟨2000, 1, 1, 0, 0, 0⟩ ∧
        p.stamp.fold = .normal ∧ p.stamp.valid = false ∧ p.cursor = 0 ∧
        ∀ pattern policy, calendarMatches p.stamp pattern policy = false) ∧
      (s.supply.phase ≠ .inService → t.matcher = s.matcher)

/-- The daylight transitions of an update event, other than at the end of the range: forward and back with their
candidate, at most one of them, neither elsewhere; and the fold after it (R59 to R62). A transition's date: the week's
occurrence of its weekday in the month, the last one for week 5 (R58). -/
def Obligations.DaylightTransitions : Prop :=
  (∀ (rule : DaylightRule) (valid : Bool) (fold : Fold) (r : Reading), r ≠ ⟨2199, 12, 31, 23, 59, 59⟩ →
    let c := r.next
    let u := updateReading rule valid fold r
    let forward := atTransition rule.forward c = true
    let back := atTransition rule.back c = true ∧ fold ≠ .second ∧ ¬ forward
    u.valid = valid ∧
    (valid = false ∨ rule.enabled = false → u = ⟨c, .normal, valid, none⟩) ∧
    (valid = true → rule.enabled = true →
      (forward → u.reading = { c with hour := rule.forward.hour + 1 } ∧ u.shift = some (.forward, c)) ∧
      (back → u.reading = { c with hour := rule.back.hour - 1 } ∧ u.shift = some (.back, c) ∧ u.fold = .second) ∧
      (¬ forward → ¬ back → u.reading = c ∧ u.shift = none) ∧
      (¬ back → inRepeatedHour rule u.reading = true → fold = .second → u.fold = .second) ∧
      (¬ back → inRepeatedHour rule u.reading = true → fold ≠ .second → u.fold = .first) ∧
      (¬ back → inRepeatedHour rule u.reading = false → u.fold = .normal)) ∧
    (∀ (t : Transition) (x : Reading), atTransition t x = true ↔
      x.month = t.month ∧ x.day = transitionDay t x.year ∧ x.hour = t.hour ∧ x.minute = 0 ∧ x.second = 0) ∧
    ∀ x : Reading, inRepeatedHour rule x = true ↔
      rule.enabled = true ∧ x.month = rule.back.month ∧ x.day = transitionDay rule.back x.year ∧
        x.hour + 1 = rule.back.hour) ∧
  ∀ (t : Transition) (y : Nat), 1 ≤ t.month → t.month ≤ 12 → 1 ≤ t.weekday → t.weekday ≤ 7 → 1 ≤ t.week → t.week ≤ 5 →
    1 ≤ transitionDay t y ∧ transitionDay t y ≤ lastDay y t.month ∧
      weekdayOf y t.month (transitionDay t y) = t.weekday ∧
      (t.week ≤ 4 → 7 * (t.week - 1) < transitionDay t y ∧ transitionDay t y ≤ 7 * t.week) ∧
      (t.week = 5 → lastDay y t.month < transitionDay t y + 7)

/-- The calendar's arithmetic: the candidate is a valid reading exactly one second later, its weekday the next one after
midnight, 2000-01-01 a Saturday; an update event keeps the reading valid (R52, R53, R55). -/
def Obligations.CalendarAdvancesOneSecond : Prop :=
  let seconds (r : Reading) := daysFrom2000 r.year r.month r.day * 86400 + r.hour * 3600 + r.minute * 60 + r.second
  weekdayOf 2000 1 1 = 6 ∧
  (∀ r : Reading, r.inRange = true → r ≠ ⟨2199, 12, 31, 23, 59, 59⟩ →
    r.next.inRange = true ∧ seconds r.next = seconds r + 1 ∧
      r.next.weekday =
        if r.hour = 23 ∧ r.minute = 59 ∧ r.second = 59 then r.weekday % 7 + 1 else r.weekday) ∧
  ∀ s t : State, s.cal.reading.inRange = true → s.cal.rule.forward.hour ≤ 22 → s.cal.rule.back.hour ≤ 23 →
    exec .updateEvent s = .next t → t.cal.reading.inRange = true

/-- When a reading satisfies a pattern (R5). -/
def Obligations.PatternSatisfaction : Prop :=
  (∀ (p : Pattern) (r : Reading), p.satisfiedBy r = true ↔
    ((p.second = none ∨ p.second = some r.second) ∧ (p.minute = none ∨ p.minute = some r.minute) ∧
      (p.hour = none ∨ p.hour = some r.hour) ∧ (p.month = none ∨ p.month = some r.month) ∧
      p.weekdays.getLsbD (r.weekday - 1) = true ∧
      (p.day = .any ∨ p.day = .day r.day ∨ (p.day = .last ∧ r.day = lastDay r.year r.month)))) ∧
  ∀ y m : Nat, 1 ≤ m → m ≤ 12 →
    (m ∈ [1, 3, 5, 7, 8, 10, 12] → lastDay y m = 31) ∧ (m ∈ [4, 6, 9, 11] → lastDay y m = 30) ∧
      (m = 2 → ((y % 4 = 0 ∧ y % 100 ≠ 0) ∨ y % 400 = 0) → lastDay y m = 29) ∧
      (m = 2 → ¬ ((y % 4 = 0 ∧ y % 100 ≠ 0) ∨ y % 400 = 0) → lastDay y m = 28)

/-! ### The scan pass -/

/-- A scan step that makes no match: nothing is written on an EMPTY, QUARANTINED, DRAFT or RETIRED entry, or on an ARMED
CALENDAR entry that does not match; an ARMED INTERVAL entry with more than 1 remaining counts down (R73, R77, R78). A
fault in the header quarantines the entry on path SCAN, and the pass goes on (R79). The STORE-FAULT notice comes last
(notes/assumptions/16.md). -/
def Obligations.ScanStepWithoutMatch : Prop :=
  ∀ (s : State) (p : Pass), s.matcher = some p → p.sweep = false → granted s .matcher = true →
    let e := p.cursor
    let after := if p.cursor = 255 then none else some { p with cursor := p.cursor + 1 }
    (((stateOf s e).defined = false ∨
        (∃ h d, Holds s e h d ∧ (stateOf s e = .draft ∨ stateOf s e = .retired ∨
          ∃ pattern policy, stateOf s e = .armed ∧ d.schedule = .calendar pattern policy ∧
            ¬ (p.stamp.valid = true ∧ pattern.satisfiedBy p.stamp.reading = true ∧
              (p.stamp.fold = .second → policy = .twice))))) →
      exec .scanStep s = .next (kickTx { grant .matcher s with matcher := after })) ∧
    (∀ h d period first remaining, Holds s e h d → stateOf s e = .armed →
      d.schedule = .interval period first remaining → 2 ≤ remaining →
      exec .scanStep s = .next (kickTx
        { writeHeader e { h with defn := some { d with schedule := .interval period first (remaining - 1) } }
            (grant .matcher s) with
          matcher := after })) ∧
    ((stateOf s e).defined = true → readHeader s e = none →
      ∃ m, exec .scanStep s = .next (kickTx m) ∧ Quarantined s m e .header .scan ∧ m.matcher = after ∧
        m.link = s.link ∧ OrderAfter s m .matcher)

/-- The header that a match writes: remaining fires by the disposition, reload and retirement, coalesced count, last match
and last outcome (R82 to R84, Table 4-3). `d` is the definition read; the disposition is the Dispatch Queue Manager's
answer to the offer. Remaining fires are 1 or more in an ARMED entry (R10); a 0 would be met as a 1 is. -/
def Obligations.ScanMatchWritesHeader : Prop :=
  ∀ (s : State) (p : Pass) (h : Header) (d : Definition), s.matcher = some p → p.sweep = false →
    granted s .matcher = true → Holds s p.cursor h d → stateOf s p.cursor = .armed →
    ((∃ pattern policy, d.schedule = .calendar pattern policy ∧ p.stamp.valid = true ∧
        pattern.satisfiedBy p.stamp.reading = true ∧ (p.stamp.fold = .second → policy = .twice)) ∨
      ∃ period first, d.schedule = .interval period first 1) →
    let met := meetOffer .scan d.seg (matchOffer p.cursor d p.stamp) d.report (grant .matcher s)
    let joined := ∃ tag, met.1 = .coalesced tag
    let retires := ¬ joined ∧ (d.remainingFires = some 1 ∨ d.remainingFires = some 0) ∧ d.reload = false
    ∃ m d', exec .scanStep s = .next (kickTx m) ∧
      m.store.headers.get p.cursor = freshHeader
        { state := if retires then .named .retired else h.state
          defn := some d'
          body := h.body
          lastOutcome := if met.1 = .dropped ∨ met.1 = .closed then some .dropped else h.lastOutcome
          lastMatch := some (match d.schedule with
            | .calendar _ _ => .reading p.stamp.reading p.stamp.fold
            | .interval _ _ _ => .runSecond p.stamp.runSecond) } ∧
      stateOf m p.cursor = (if retires then .retired else h.state.entryState) ∧
      d' = { d with
        schedule := d'.schedule
        remainingFires := d'.remainingFires
        coalesced := d'.coalesced } ∧
      (∀ pattern policy, d.schedule = .calendar pattern policy → d'.schedule = d.schedule) ∧
      (∀ period first k, d.schedule = .interval period first k → d'.schedule = .interval period first period) ∧
      (joined → d'.remainingFires = d.remainingFires ∧ d'.coalesced = min 255 (d.coalesced + 1)) ∧
      (¬ joined → d'.coalesced = d.coalesced ∧
        (d.remainingFires = none → d'.remainingFires = none) ∧
        ∀ n, d.remainingFires = some n →
          d'.remainingFires = if n ≤ 1 ∧ d.reload = true then d.fireCount else some (n - 1)) ∧
      m.notices = (if retires then (post (.countExhausted p.cursor d.fireCount met.1) met.2).notices
        else met.2.notices) ∧
      m.matcher = (if p.cursor = 255 then none else some { p with cursor := p.cursor + 1 }) ∧
      m.dispatch = met.2.dispatch ∧ m.ports = met.2.ports ∧ m.ctl.map = met.2.ctl.map ∧
      m.ctl.compacting = s.ctl.compacting ∧ m.ctl.frontier = s.ctl.frontier ∧ m.ctl.moved = s.ctl.moved ∧
      m.free = s.free ∧ m.pending = s.pending ∧
      (∀ k, k ≠ p.cursor → m.store.headers.get k = met.2.store.headers.get k ∧ stateOf m k = stateOf met.2 k) ∧
      m.store.heap = s.store.heap ∧ m.store.segRecords = s.store.segRecords ∧
      m.store.daylightRecord = s.store.daylightRecord ∧ m.link = s.link ∧ m.cal = s.cal ∧ m.supply = s.supply ∧
      OrderAfter s m .matcher

/-- The expiry sweep (R99): every waiting job older than its segment's age limit at the update's run-second leaves, its end
EXPIRED is recorded in the order of the queues, and take-in is considered for each queue that lost a job. None so old is
left; unless a recording finds a faulty header, every other job stays, or goes into service; and the sweep is made once in a
pass. -/
def Obligations.SweepExpiresOldJobs : Prop :=
  ∀ (s : State) (p : Pass), s.matcher = some p → p.sweep = true → granted s .matcher = true →
    let old (i : Seg) (j : Job) : Bool := (s.port i).cfg.ageLimit != 0 &&
      decide ((s.port i).cfg.ageLimit < (p.stamp.runSecond - j.created).toNat)
    let losers := Seg.all.filter (fun i => (s.queue i).any (fun j => !j.inService && old i j))
    let recorded := (waitingEnds old .expired s).foldl (recordEnd .scan) (withoutWaiting old (grant .matcher s))
    ∃ m, exec .expirySweep s = .next (kickTx m) ∧
      m = { losers.foldl (fun u i => considerTakeIn i u) recorded with matcher := some { p with sweep := false } } ∧
      (∀ i, ∀ j ∈ m.queue i, j.inService = false → old i j = false) ∧
      ((∀ i, ∀ j ∈ s.queue i, j.inService = false → old i j = true → (stateOf s j.entry).defined = true →
          (readHeader s j.entry).isSome = true) →
        s.cal.runSecond = p.stamp.runSecond →
        ∀ i, ∀ j ∈ s.queue i, j.inService = true ∨ old i j = false →
          j ∈ m.queue i ∨ { j with inService := true, attempts := 0, busy := 0 } ∈ m.queue i) ∧
      m.store.heap = s.store.heap ∧ m.store.segRecords = s.store.segRecords ∧
      m.store.daylightRecord = s.store.daylightRecord ∧ m.dispatch.nextTag = s.dispatch.nextTag ∧
      m.dispatch.hold = s.dispatch.hold ∧ m.dispatch.segHold = s.dispatch.segHold ∧ m.link = s.link ∧
      m.cal = s.cal ∧ m.supply = s.supply ∧
      (∀ i, m.port i = { s.port i with tx := (m.port i).tx, fetchOp := (m.port i).fetchOp }) ∧
      NoticesGrow s.notices m.notices ∧ OrderAfter s m .matcher

/-! ### Snapshots, holds, purge, new jobs -/

/-- CLOCK-READ, QUEUE-READ, SEGMENT-STATUS, LINK-ECHO and PART-STATUS answer from the blocks as they stand, and change
nothing but the link (R67, R102, R133, R151, R152). The records that they carry: a job, a segment's configuration, the job in
service (Tables 10-4, 10-7 to 10-9). -/
def Obligations.ImmediateSnapshots : Prop :=
  (∀ (s : State) (r : Request), Serving s r 0x19#8 → r.body = [] →
    exec .clockRead s = .next { s with link := s.link.answered r (0x00#8 ::
      (readingBytes s.cal.reading s.cal.fold s.cal.valid ++ [byte1 (flagBit s.cal.rule.enabled)] ++
        byte4 s.cal.runSecond.toNat)) }) ∧
  (∀ (s : State) (r : Request) (i : Seg), Serving s r 0x20#8 → r.body = [byte1 i.val] →
    exec .queueRead s = .next { s with link := s.link.answered r (0x00#8 ::
      ([byte1 i.val, byte1 (s.queue i).length,
        byte1 (flagBit (s.dispatch.highArmed.get i) + 2 * flagBit (s.dispatch.segHold.get i) +
          4 * flagBit s.dispatch.hold)] ++ serviceCounts s i ++ (s.queue i).flatMap jobBytes)) }) ∧
  (∀ (s : State) (r : Request) (i : Seg), Serving s r 0x2D#8 → r.body = [byte1 i.val] →
    exec .segmentStatus s = .next { s with link := s.link.answered r (0x00#8 ::
      ([byte1 (s.port i).health.code, byte1 (s.port i).silence, byte1 (txStateCode (s.port i).tx (s.port i).probe)] ++
        serviceBytes s i ++
        [byte1 (flagBit (s.dispatch.segHold.get i) + 2 * flagBit s.dispatch.hold +
            4 * flagBit (s.port i).cfgPending),
         byte1 (s.queue i).length, byte1 ((s.port i).probeTarget.getD 0)] ++ segConfigBytes (s.port i).cfg)) }) ∧
  (∀ (s : State) (r : Request), Serving s r 0x30#8 → r.body.length ≤ 251 →
    exec .linkEcho s = .next { s with link := s.link.answered r (0x00#8 :: r.body) }) ∧
  (∀ (s : State) (r : Request) (clear : Bool), Serving s r 0x31#8 → r.body = [if clear then 0x01#8 else 0x00#8] →
    exec .partStatus s = .next { s with
      link := { s.link with discards := if clear then 0 else s.link.discards }.answered r
        (0x00#8 :: [0x0D#8, 0x04#8, 0x01#8, 0x01#8, 0x00#8, 0x08#8, 0x00#8, 0x10#8, 0x04#8, 0x10#8, 0x04#8, 0x04#8,
            0x20#8, 0x08#8, byte1 s.link.speed.code] ++ byte2 s.link.discards ++
          [byte1 s.link.requests.length, byte1 s.notices.queue.length,
           byte1 (s.notices.queue.filter (fun (q : QueuedNotice) => q.inFlight)).length,
           byte1 ((if s.link.hostAbsent then 1 else 0) + (if s.ctl.compacting then 2 else 0)),
           byte1 s.supply.cause.code]) }) ∧
  (∀ j : Job, jobBytes j = byte2 j.tag.toNat ++
    [byte1 j.entry.val, byte1 (j.destination + if j.stale then 128 else 0),
     byte1 (j.urgency + 4 * j.cause.code + (if j.inService then 16 else 0) + if j.due.isSome then 32 else 0)] ++
    (match j.due with
      | some d => readingBytes d.reading d.fold false
      | none => [0x00#8, 0x00#8, 0x00#8, 0x00#8, 0x00#8, 0x00#8]) ++ byte4 j.created.toNat) ∧
  (∀ c : SegConfig, segConfigBytes c = [byte1 c.lineSpeed, byte1 c.window, byte1 c.retryLimit] ++ byte2 c.backoff ++
    [byte1 c.busyLimit] ++ byte2 c.ageLimit ++ [byte1 c.probeInterval, if c.openAtStart then 0x01#8 else 0x00#8]) ∧
  (∀ (s : State) (i : Seg),
    (jobInService s i = none →
      serviceCounts s i = [0x00#8, 0x00#8] ∧ serviceBytes s i = [0xFF#8, 0xFF#8, 0x00#8, 0x00#8]) ∧
    ∀ j, jobInService s i = some j → serviceCounts s i = [byte1 j.attempts, byte1 j.busy] ∧
      serviceBytes s i = byte2 j.tag.toNat ++ [byte1 j.attempts, byte1 j.busy]) ∧
  ∀ probe : Bool, [TxState.idle, .fetch, .send, .await, .backoff].map (fun x => txStateCode x probe) =
    [0, 1, 2, 3, 4].map (fun n => n + if probe then 128 else 0)

/-- The hold flags: set, cleared, and the take-in that a release brings (R97, R100, R132). -/
def Obligations.HoldFlags : Prop :=
  (∀ (s : State) (r : Request), Serving s r 0x22#8 → r.body = [] →
    exec .dispatchHold s = .next { s with
      dispatch := { s.dispatch with hold := true }
      link := s.link.answered r [0x00#8, byte1 (flagBit s.dispatch.hold)] }) ∧
  (∀ (s : State) (r : Request), Serving s r 0x23#8 → r.body = [] →
    exec .dispatchRelease s = .next { (if s.dispatch.hold then
        considerAll Seg.all { s with dispatch := { s.dispatch with hold := false } } else s) with
      link := s.link.answered r [0x00#8, byte1 (flagBit s.dispatch.hold)] }) ∧
  (∀ (s : State) (r : Request) (i : Seg), Serving s r 0x2B#8 → r.body = [byte1 i.val] →
    exec .segmentHold s = .next { s with
      dispatch := { s.dispatch with segHold := s.dispatch.segHold.set i true }
      link := s.link.answered r [0x00#8, byte1 (flagBit (s.dispatch.segHold.get i))] }) ∧
  (∀ (s : State) (r : Request) (i : Seg), Serving s r 0x2C#8 → r.body = [byte1 i.val] →
    exec .segmentRelease s = .next { (if s.dispatch.segHold.get i then
        considerTakeIn i { s with dispatch := { s.dispatch with segHold := s.dispatch.segHold.set i false } }
        else s) with
      link := s.link.answered r [0x00#8, byte1 (flagBit (s.dispatch.segHold.get i))] })

/-- Take-in considered for an open segment (R97, R98, R104): the heads that are too old leave as pending records, and the
next waiting job goes into service where the port and the flags allow it; otherwise a record pending is presented. On a
closed segment nothing is considered (notes/assumptions/14.md). A record that an operation in progress has still to record
counts as pending (the model's choice, notes/assumptions/25.md). -/
def Obligations.TakeInConsidered : Prop :=
  (∀ (s : State) (i : Seg), (s.port i).health = .closed → considerTakeIn i s = s) ∧
  ∀ (s : State) (i : Seg), (s.port i).health ≠ .closed →
    let tooOld (j : Job) : Bool := (s.port i).cfg.ageLimit != 0 &&
      decide ((s.port i).cfg.ageLimit < (s.cal.runSecond - j.created).toNat)
    let heads := (s.queue i).filter (fun j => !j.inService)
    let rest := heads.dropWhile tooOld
    let serving := (s.queue i).filter (·.inService)
    let ended := s.dispatch.ended.get i ++ (heads.takeWhile tooOld).map (fun j => j.end i .expired none)
    let allowed := (s.port i).tx = .idle ∧ ((s.port i).health = .up ∨ (s.port i).health = .suspect) ∧
      s.dispatch.segHold.get i = false ∧ s.dispatch.hold = false ∧ serving = [] ∧ rest ≠ []
    let t := considerTakeIn i s
    t = { s with dispatch := t.dispatch, ports := t.ports } ∧
    t.dispatch.ended = s.dispatch.ended.set i ended ∧
    (allowed → ∀ j l, rest = j :: l →
      t.queue i = { j with inService := true, attempts := 0, busy := 0 } :: l ∧
        t.ports = s.ports.set i { s.port i with tx := .fetch, fetchOp := .fetch }) ∧
    (¬ allowed → t.queue i = serving ++ rest ∧
      t.ports = s.ports.set i { s.port i with
        fetchOp := if ended ≠ [] ∧ (s.port i).fetchOp = .none then .record else (s.port i).fetchOp }) ∧
    (∀ k, k ≠ i → t.queue k = s.queue k ∧ t.dispatch.highArmed.get k = s.dispatch.highArmed.get k) ∧
    t.dispatch.highArmed.get i = (s.dispatch.highArmed.get i ||
      decide (rest.length < heads.length ∧ serving.length + rest.length ≤ 8)) ∧
    t.dispatch.nextTag = s.dispatch.nextTag ∧ t.dispatch.hold = s.dispatch.hold ∧
    t.dispatch.segHold = s.dispatch.segHold

/-- QUEUE-PURGE (R101): every waiting job of the queues named leaves and ends PURGED, each end is recorded in the order of the
queues, and take-in is considered for each segment named. The reply counts them. Unless a recording finds a faulty header,
the jobs in service and the queues not named are as they were. That an idle transmitter begins the reply before the reports
is the model's choice (notes/assumptions/23.md). -/
def Obligations.PurgeEmptiesQueues : Prop :=
  ∀ (s : State) (r : Request) (named : List Seg), ServingStore s r 0x21#8 → parsePurge r.body = .ok named →
    let purged (i : Seg) (_ : Job) : Bool := named.contains i
    let recorded := (waitingEnds purged .purged s).foldl (recordEnd .hostRead)
      (withoutWaiting purged (grant .commandInterpreter s))
    ∃ t, exec .queuePurge s = .next t ∧
      t = { named.foldl (fun u i => considerTakeIn i u) recorded with
        link := s.link.answered r [0x00#8, byte1
          ((Seg.all.filter (fun i => named.contains i)).map (fun i => (waiting (s.queue i)).length)).sum] } ∧
      (∀ i ∈ named, ∀ j ∈ t.queue i, j.inService = true) ∧
      ((∀ i ∈ named, ∀ j ∈ s.queue i, j.inService = false → (stateOf s j.entry).defined = true →
          (readHeader s j.entry).isSome = true) →
        (∀ i ∈ named, t.queue i = (s.queue i).filter (·.inService)) ∧ ∀ i, i ∉ named → t.queue i = s.queue i) ∧
      t.dispatch.hold = s.dispatch.hold ∧ t.dispatch.segHold = s.dispatch.segHold ∧
      t.dispatch.nextTag = s.dispatch.nextTag ∧
      (∀ i, t.port i = { s.port i with tx := (t.port i).tx, fetchOp := (t.port i).fetchOp }) ∧
      t.store.heap = s.store.heap ∧ t.store.segRecords = s.store.segRecords ∧
      t.store.daylightRecord = s.store.daylightRecord ∧ t.cal = s.cal ∧ t.matcher = s.matcher ∧ t.supply = s.supply ∧
      NoticesGrow s.notices t.notices ∧ OrderAfter s t .commandInterpreter

/-! ### Segments -/

/-- SEGMENT-OPEN: a CLOSED segment takes its record, or the defaults of a faulty one, and becomes UP with its port reset,
and take-in is considered; any other is answered WRONG-STATE (R49, R129). That an idle transmitter begins the reply before
the notices of the operation is the model's choice (notes/assumptions/23.md). -/
def Obligations.SegmentOpenResetsPort : Prop :=
  ∀ (s : State) (r : Request) (i : Seg), ServingStore s r 0x29#8 → r.body = [byte1 i.val] →
    ((s.port i).health ≠ .closed →
      exec .segmentOpen s = .next { grant .commandInterpreter s with
        link := s.link.answered r [0x05#8, byte1 (s.port i).health.code] }) ∧
    ((s.port i).health = .closed →
      let stored := s.store.segRecords.get i
      let sound := stored.check = segConfigCheck stored.config
      let cfg := if sound then stored.config else defaultSegConfig
      let posted := if sound then s else post (.configFault (.segment i) .hostRead) s
      let opened : State := { grant .commandInterpreter s with
        store := { s.store with
          segRecords := if sound then s.store.segRecords
            else s.store.segRecords.set i (freshSegConfig defaultSegConfig) }
        ports := s.ports.set i { s.port i with
          health := .up
          silence := 0
          tx := .idle
          probe := false
          buffer := none
          seqTable := Vector.replicate 126 .unknown
          cfg := cfg
          cfgPending := false
          probeTarget := none
          de := false
          cand := [] }
        notices := (post (.segmentState i .closed .up 0 .open none) posted).notices }
      exec .segmentOpen s = .next { considerTakeIn i opened with
        link := s.link.answered r [0x00#8, byte1 cfg.lineSpeed] })

/-- SEGMENT-CLOSE: the port stops, every job of the queue ends, the destination of the job in service becomes UNKNOWN, and
the health becomes CLOSED; no change on a CLOSED segment (R130). The pending records are recorded first, then the end
ABANDONED of the job in service, then the ends PURGED of the waiting jobs, each on path HOST-READ. What a recording within
it does to the segment, and what the reply counts, follow notes/assumptions/15.md. That an idle transmitter begins the reply
before the notices of the operation is the model's choice (notes/assumptions/23.md). -/
def Obligations.SegmentCloseEndsJobs : Prop :=
  ∀ (s : State) (r : Request) (i : Seg), ServingStore s r 0x2A#8 → r.body = [byte1 i.val] →
    ((s.port i).health = .closed →
      exec .segmentClose s = .next { grant .commandInterpreter s with link := s.link.answered r [0x00#8, 0x00#8] }) ∧
    ((s.port i).health ≠ .closed →
      let record (u : State) (ends : List JobEnd) := ends.foldl (recordEnd .hostRead) u
      let pending := recordPending .hostRead i (s.dispatch.ended.get i).length { grant .commandInterpreter s with
        ports := s.ports.set i { s.port i with
          health := .closed, tx := .idle, probe := false, buffer := none, probeTimer := false, fetchOp := .none
          de := false, gap := (s.port i).gap || ((s.port i).tx == .send && (s.port i).de), cand := [] } }
      let abandoned := record
        { pending with dispatch := { pending.dispatch with
            queues := pending.dispatch.queues.set i (waiting (pending.queue i)) } }
        ((jobInService pending i).toList.map (fun j =>
          { waitingEnd .abandoned j.stale i j with attempts := j.attempts, busy := j.busy }))
      let purged := record
        { abandoned with dispatch := { abandoned.dispatch with queues := abandoned.dispatch.queues.set i [] } }
        ((abandoned.queue i).map (fun j => waitingEnd .purged j.stale i j))
      ∃ t, exec .segmentClose s = .next t ∧ t.link = s.link.answered r [0x00#8, byte1 (s.queue i).length] ∧
        t.store = purged.store ∧
        t.notices = (post (.segmentState i (s.port i).health .closed (s.port i).silence .close none) purged).notices ∧
        (∀ k, k ≠ i → t.queue k = purged.queue k ∧ t.dispatch.ended.get k = purged.dispatch.ended.get k ∧
          t.port k = purged.port k) ∧
        t.dispatch.highArmed.get i = (s.dispatch.highArmed.get i || (s.queue i).length != 0) ∧
        t.dispatch.nextTag = s.dispatch.nextTag ∧
        t.queue i = [] ∧ t.dispatch.ended.get i = [] ∧
        t.port i = { s.port i with
          health := .closed
          tx := .idle
          probe := false
          buffer := none
          seqTable := (t.port i).seqTable
          probeTimer := false
          fetchOp := .none
          de := false
          gap := (s.port i).gap || ((s.port i).tx == .send && (s.port i).de)
          cand := [] } ∧
        (∀ n : Fin 126, (t.port i).seqTable.get n =
          if ∃ j, jobInService s i = some j ∧ j.destination = n.val + 1 then .unknown
          else (s.port i).seqTable.get n) ∧
        t.dispatch.hold = s.dispatch.hold ∧ t.dispatch.segHold = s.dispatch.segHold ∧
        LastPosted s t (.segmentState i (s.port i).health .closed (s.port i).silence .close none) ∧
        NoticesGrow s.notices t.notices ∧
        (∀ k, k ≠ i → t.port k = { s.port k with tx := (t.port k).tx, fetchOp := (t.port k).fetchOp }) ∧
        t.store.heap = s.store.heap ∧ t.store.segRecords = s.store.segRecords ∧
        t.store.daylightRecord = s.store.daylightRecord ∧ t.cal = s.cal ∧ t.matcher = s.matcher ∧
        t.supply = s.supply ∧ OrderAfter s t .commandInterpreter)

/-- FETCH of a job that is not stale, with no pending record and no configuration pending: the telegram with the body of
the entry stands in the buffer, and the port enters SEND as a new attempt (R110, R113, R115, R120, R122). With a
configuration pending the copy is loaded first from the record, or from the defaults of a faulty one (R49, R113). -/
def Obligations.FetchSendsTelegram : Prop :=
  (∀ (s : State) (i : Seg) (j : Job) (h : Header) (d : Definition) (body : List Byte),
    (s.port i).fetchOp = .fetch → granted s (.fetch i) = true → s.dispatch.ended.get i = [] →
    (s.port i).cfgPending = false → jobInService s i = some j → j.stale = false →
    readHeader s j.entry = some (h, d) →
    ((h.body = none ∧ body = []) ∨
      ∃ b, h.body = some b ∧ recordSound s.store.heap j.entry b = true ∧ body = recordBody s.store.heap b) →
    exec (.fetch i) s = .next (kickTx { grant (.fetch i) s with
      ports := s.ports.set i { s.port i with
        fetchOp := .none
        tx := .send
        de := !(s.port i).gap
        cand := []
        probe := false
        buffer := some
          { destination := j.destination
            probe := false
            seqBit := j.destination != 127 && (s.port i).seqOf j.destination == .one
            resync := j.destination != 127 && (s.port i).seqOf j.destination == .unknown
            body := body } }
      dispatch := { s.dispatch with queues := s.dispatch.queues.set i ((s.queue i).map
        (fun k => if k.inService then { k with attempts := k.attempts + 1 } else k)) } })) ∧
  ∀ (s : State) (i : Seg), (s.port i).fetchOp = .fetch → granted s (.fetch i) = true →
    s.dispatch.ended.get i = [] → (s.port i).cfgPending = true →
    let stored := s.store.segRecords.get i
    (stored.check = segConfigCheck stored.config →
      exec (.fetch i) s = exec (.fetch i) { s with
        ports := s.ports.set i { s.port i with cfg := stored.config, cfgPending := false } }) ∧
    (stored.check ≠ segConfigCheck stored.config →
      exec (.fetch i) s = exec (.fetch i) { s with
        store := { s.store with segRecords := s.store.segRecords.set i (freshSegConfig defaultSegConfig) }
        ports := s.ports.set i { s.port i with cfg := defaultSegConfig, cfgPending := false }
        notices := (post (.configFault (.segment i) .fetch) s).notices })

/-- FETCH that ends its job without sending, with no pending record and no configuration pending: SUPERSEDED for a stale
job, and FAULT with the quarantine of its entry for a faulty header or body; the sequence table, the silence count and
the health are unchanged, and take-in is considered (R114, R121). The quarantine's STORE-FAULT notice comes last
(notes/assumptions/16.md). -/
def Obligations.FetchEndsJob : Prop :=
  ∀ (s : State) (i : Seg) (j : Job), (s.port i).fetchOp = .fetch → granted s (.fetch i) = true →
    s.dispatch.ended.get i = [] → (s.port i).cfgPending = false → jobInService s i = some j →
    let idle (p : Port) : Port := { p with tx := .idle, probe := false, buffer := none, de := false, cand := [] }
    (j.stale = true →
      ∃ m, exec (.fetch i) s = .next (kickTx (considerTakeIn i m)) ∧ JobEnded s m i (j.end i .superseded none) ∧
        m.port i = { idle (s.port i) with fetchOp := .none } ∧ m.store = s.store ∧
        m.ctl = (grant (.fetch i) s).ctl ∧ m.notices = s.notices) ∧
    (∀ record : FaultRecord, j.stale = false →
      ((record = .header ∧ readHeader s j.entry = none) ∨
        (record = .body ∧ ∃ h d b, readHeader s j.entry = some (h, d) ∧ h.body = some b ∧
          recordSound s.store.heap j.entry b = false)) →
      ∃ q m, exec (.fetch i) s = .next (kickTx (considerTakeIn i m)) ∧
        Quarantined { s with ports := s.ports.set i { s.port i with fetchOp := .none } } q j.entry record .fetch ∧
        q.link = s.link ∧ q.matcher = s.matcher ∧ OrderAfter s q (.fetch i) ∧
        JobEnded q m i ({ j with stale := true }.end i .fault none) ∧ m.port i = idle (q.port i) ∧
        m.store = q.store ∧ m.ctl = q.ctl ∧ m.notices = q.notices)

/-- The recording of a job end, in any operation: last outcome written unless the end is stale, and the report that the
report mode calls for posted; as for FAILURES where the entry holds no definition, and where the read of its header finds a
fault, which quarantines the entry first (R104 to R106). A line's pending records, by RECORDING_OPERATION or as the first
act of FETCH (R104, R113): each is taken off the line before its own recording, so that its report carries the stale mark
as it was (notes/assumptions/22.md). The model's are also that STORE-FAULT follows the reports of the jobs withdrawn
(notes/assumptions/16.md), and that RECORDING_OPERATION records no more than the records held at its start
(notes/assumptions/17.md). -/
def Obligations.RecordingWritesOutcome : Prop :=
  let failure (j : JobEnd) := j.outcome ∈ [.rejected, .failed, .busyLimit, .expired, .dropped, .fault]
  (∀ (path : FaultPath) (s : State) (j : JobEnd),
    (∀ h d, Holds s j.entry h d →
      let s' : State := if j.stale then s else writeHeader j.entry { h with lastOutcome := some j.outcome } s
      recordEnd path s j =
        if d.report = .all ∨ (d.report = .failures ∧ failure j) then post (.dispatchReport j) s' else s') ∧
    ((stateOf s j.entry).defined = false →
      recordEnd path s j = if failure j then post (.dispatchReport j) s else s) ∧
    ((stateOf s j.entry).defined = true → readHeader s j.entry = none →
      ∃ q, Quarantined s q j.entry .header path ∧ q.link = s.link ∧ q.matcher = s.matcher ∧ q.ctl.order = s.ctl.order ∧
        recordEnd path s j = if failure j then post (.dispatchReport j) q else q)) ∧
  (∀ (path : FaultPath) (i : Seg) (n : Nat) (s : State),
    recordPending path i 0 s = s ∧ (s.dispatch.ended.get i = [] → recordPending path i n s = s) ∧
      ∀ j rest, s.dispatch.ended.get i = j :: rest →
        recordPending path i (n + 1) s = recordPending path i n
          (recordEnd path { s with dispatch := { s.dispatch with ended := s.dispatch.ended.set i rest } } j)) ∧
  (∀ (s : State) (i : Seg), (s.port i).fetchOp = .record → granted s (.fetch i) = true →
    exec (.recordingOperation i) s = .next (kickTx (recordPending .fetch i (s.dispatch.ended.get i).length
      { grant (.fetch i) s with ports := s.ports.set i { s.port i with fetchOp := .none } }))) ∧
  ∀ (s : State) (i : Seg) (j : JobEnd) (rest : List JobEnd) (c : Instr) (op : FetchOp),
    (c, op) ∈ [(.fetch i, .fetch), (.recordingOperation i, .record)] → (s.port i).fetchOp = op →
    granted s (.fetch i) = true → s.dispatch.ended.get i = j :: rest →
    ((stateOf s j.entry).defined = true → (readHeader s j.entry).isSome = true) →
    exec c s = exec c (recordEnd .fetch
      { s with dispatch := { s.dispatch with ended := s.dispatch.ended.set i rest } } j)

/-- The line of a port: the end of the gap begins a waiting transmission; the end of a telegram releases the line and
opens the window, or ends a broadcast BROADCAST-SENT, after which take-in is considered; a telegram that waits for the gap
has not begun and does not end (R109, R115, R120). That the row changes nothing in such a port, or outside SEND, is the
model's (notes/assumptions/3.md, notes/assumptions/8.md). SPnTX: at the idle level but in SEND with the driver enabled, when the
telegram's characters stand on it, each a start bit, eight data bits from the least significant on, and a stop bit, at the
line speed of the configuration copy (R109, R110, Table 10-11). -/
def Obligations.TelegramOnLine : Prop :=
  (∀ (s : State) (i : Seg), (s.port i).gap = true →
    exec (.sendStartAfterGap i) s = .next { s with
      ports := s.ports.set i { s.port i with gap := false, de := (s.port i).de || (s.port i).tx == .send } }) ∧
  (∀ (s : State) (i : Seg), (s.port i).tx = .send → (s.port i).de = true →
    ((s.port i).probe = true ∨ ∃ j, jobInService s i = some j ∧ j.destination ≠ 127) →
    exec (.telegramSendEnd i) s = .next (kickTx { s with
      ports := s.ports.set i { s.port i with de := false, gap := true, tx := .await, cand := [] } })) ∧
  (∀ (s : State) (i : Seg) (j : Job), (s.port i).tx = .send → (s.port i).de = true → (s.port i).probe = false →
    jobInService s i = some j → j.destination = 127 →
    ∃ m, exec (.telegramSendEnd i) s = .next (kickTx (considerTakeIn i m)) ∧
      JobEnded s m i (j.end i .broadcastSent none) ∧
      m.port i = { s.port i with tx := .idle, buffer := none, de := false, gap := true, cand := [] } ∧
      m.store = s.store ∧ m.ctl = s.ctl ∧ m.notices = s.notices) ∧
  (∀ (s : State) (i : Seg), (s.port i).tx ≠ .send ∨ (s.port i).de = false →
    exec (.telegramSendEnd i) s = .next s ∧ (s.port i).lineOutput = .idle) ∧
  (∀ (p : Port) (t : Telegram), p.tx = .send → p.de = true → p.buffer = some t →
    let checked := byte1 t.destination ::
      byte1 ((if t.probe then 1 else 0) + (if t.seqBit then 2 else 0) + (if t.resync then 4 else 0)) ::
        byte1 t.body.length :: t.body
    p.lineOutput = .sends p.cfg.lineSpeed
      ((0x96#8 :: (checked ++ byte2 (crc16 checked).toNat)).flatMap characterBits)) ∧
  ∀ b : Byte, characterBits b = [.start, .data (b.getLsbD 0), .data (b.getLsbD 1), .data (b.getLsbD 2),
    .data (b.getLsbD 3), .data (b.getLsbD 4), .data (b.getLsbD 5), .data (b.getLsbD 6), .data (b.getLsbD 7), .stop]

/-- A device reply in a job's window, character by character: a valid ACK or REJECT ends the job, a valid BUSY backs off or
ends it BUSY-LIMIT, and a SUSPECT or DOWN segment becomes UP; outside a window nothing is heard. In a window, a job's or a
probe's, a candidate is ignored whose check, source, kind, unused bits or, for ACK and REJECT, echo does not agree, or that
is broken by a bad stop bit; what follows is heard as if it had not come (R109, R111, R117, R118, R122 to R124, R188). That
a change of health at the job's end is no consideration of take-in of its own is the model's (notes/assumptions/28.md). -/
def Obligations.DeviceReplyTaken : Prop :=
  (∀ (s : State) (i : Seg) (chars : List RxChar), (s.port i).tx ≠ .await →
    exec (.deviceReply i chars) s = .next (kickTx s)) ∧
  (∀ (s : State) (i : Seg) (sent : Telegram), (s.port i).tx = .await → (s.port i).cand = [] →
    (s.port i).buffer = some sent →
    let ignored (chars : List RxChar) := exec (.deviceReply i chars) s = .next (kickTx s) ∧
      ∀ later, exec (.deviceReply i (chars ++ later)) s = exec (.deviceReply i later) s
    (∀ source reply high low : Byte,
      (byte2 (crc16 [source, reply]).toNat ≠ [high, low] ∨ source.toNat ≠ sent.destination ∨
        reply &&& 0x03#8 = 0x00#8 ∨ reply &&& 0xEC#8 ≠ 0x00#8 ∨
        (reply &&& 0x03#8 ≠ 0x02#8 ∧ reply.getLsbD 4 ≠ sent.seqBit)) →
      ignored ([0x69#8, source, reply, high, low].map RxChar.good)) ∧
    (∀ c : RxChar, (c.data ≠ 0x69#8 ∨ c.stopOk = false) → ignored [c]) ∧
    ∀ (l : List Byte) (c : RxChar), l.length ≤ 3 → c.stopOk = false →
      ignored ((0x69#8 :: l).map RxChar.good ++ [c])) ∧
  ∀ (s : State) (i : Seg) (j : Job) (sent : Telegram) (b : Byte), (s.port i).tx = .await → (s.port i).cand = [] →
    (s.port i).probe = false → (s.port i).buffer = some sent → 1 ≤ sent.destination → sent.destination ≤ 126 →
    jobInService s i = some j →
    let chars := (0x69#8 :: byte1 sent.destination :: b ::
      byte2 (crc16 [byte1 sent.destination, b]).toNat).map RxChar.good
    let revived := (s.port i).health = .suspect ∨ (s.port i).health = .down
    let answered (p : Port) : Port := { p with silence := 0, health := if revived then .up else p.health }
    let told (m : State) := m.store = s.store ∧ m.ctl = s.ctl ∧ m.notices = if revived then
      (post (.segmentState i (s.port i).health .up 0 .reply (some sent.destination)) s).notices else s.notices
    let idle (p : Port) : Port := { p with tx := .idle, buffer := none, de := false, cand := [] }
    (∀ o, (o, b) ∈ [(JobOutcome.delivered, if sent.seqBit then 0x11#8 else 0x01#8),
        (JobOutcome.rejected, if sent.seqBit then 0x13#8 else 0x03#8)] →
      ∃ m, exec (.deviceReply i chars) s = .next (kickTx (considerTakeIn i m)) ∧ told m ∧
        JobEnded s m i (j.end i o none) ∧
        m.port i = { idle (answered (s.port i)) with seqTable := (m.port i).seqTable } ∧
        ∀ n : Fin 126, (m.port i).seqTable.get n =
          if sent.destination = n.val + 1 then (if sent.seqBit then .zero else .one)
          else (s.port i).seqTable.get n) ∧
    ((b = 0x02#8 ∨ b = 0x12#8) → j.busy + 1 ≤ (s.port i).cfg.busyLimit →
      ∃ m, exec (.deviceReply i chars) s =
          .next (kickTx (if (s.port i).health = .up then m else considerTakeIn i m)) ∧ told m ∧
        m = { s with ports := m.ports, dispatch := m.dispatch, notices := m.notices } ∧
        m.port i = { answered (s.port i) with tx := .backoff } ∧
        m.dispatch = { s.dispatch with queues := s.dispatch.queues.set i ((s.queue i).map
          (fun k => if k.inService then { k with busy := k.busy + 1 } else k)) } ∧
        ∀ k, k ≠ i → m.port k = s.port k) ∧
    ((b = 0x02#8 ∨ b = 0x12#8) → (s.port i).cfg.busyLimit < j.busy + 1 →
      ∃ m, exec (.deviceReply i chars) s = .next (kickTx (considerTakeIn i m)) ∧ told m ∧
        JobEnded s m i ({ j with busy := j.busy + 1 }.end i .busyLimit none) ∧
        m.port i = idle (answered (s.port i))) ∧
    (b = (if sent.seqBit then 0x01#8 else 0x11#8) → exec (.deviceReply i chars) s = .next (kickTx s))

/-- The end of a job's response window: another attempt within the effective retry limit, otherwise the job ends FAILED,
its destination UNKNOWN and the probe target, the silence count advanced, toward SUSPECT at 3 and DOWN at 6
(R119, R122 to R125). That the 2 ms gap has passed by then, and that a change of health at the job's end is no consideration
of take-in of its own, are the model's inferences (notes/assumptions/8.md, notes/assumptions/28.md). -/
def Obligations.WindowExpiryJudged : Prop :=
  ∀ (s : State) (i : Seg) (j : Job), (s.port i).tx = .await → (s.port i).probe = false →
    jobInService s i = some j →
    let limit := if (s.port i).health = .up then (s.port i).cfg.retryLimit else 0
    let after : Health := if (s.port i).silence + 1 = 3 then .suspect
      else if (s.port i).silence + 1 = 6 then .down else (s.port i).health
    (j.attempts ≤ limit →
      exec (.responseWindowExpiry i) s = .next (kickTx { s with
        ports := s.ports.set i { s.port i with tx := .send, gap := false, de := true, cand := [] }
        dispatch := { s.dispatch with queues := s.dispatch.queues.set i ((s.queue i).map
          (fun k => if k.inService then { k with attempts := k.attempts + 1 } else k)) } })) ∧
    (limit < j.attempts →
      ∃ m, exec (.responseWindowExpiry i) s = .next (kickTx (considerTakeIn i m)) ∧
        JobEnded s m i (j.end i .failed none) ∧
        m.port i = { s.port i with
          health := after
          silence := (s.port i).silence + 1
          tx := .idle
          buffer := none
          seqTable := (m.port i).seqTable
          probeTarget := some j.destination
          probeTimer := (s.port i).probeTimer || (s.port i).silence + 1 == 6
          de := false
          gap := false
          cand := [] } ∧
        (∀ n : Fin 126, (m.port i).seqTable.get n =
          if j.destination = n.val + 1 then .unknown else (s.port i).seqTable.get n) ∧
        m.store = s.store ∧ m.ctl = s.ctl ∧
        m.notices = if after = (s.port i).health then s.notices
          else (post (.segmentState i (s.port i).health after ((s.port i).silence + 1) .silence (some j.destination))
            s).notices)

/-- Back-off and probes: the end of a back-off sends the same telegram again, the probe timer sends a probe to the probe
target; a probe's valid reply of any kind makes the segment UP, its silent window restarts the timer, and in both cases
take-in is considered (R118, R125, R126). That the 2 ms gap has passed by then is the model's inference
(notes/assumptions/8.md). -/
def Obligations.PortTimers : Prop :=
  (∀ (s : State) (i : Seg), (s.port i).tx = .backoff →
    exec (.backoffExpiry i) s = .next { s with
      ports := s.ports.set i { s.port i with tx := .send, gap := false, de := true, cand := [] } }) ∧
  (∀ (s : State) (i : Seg) (target : Nat), (s.port i).probeTarget = some target → (s.port i).probeTimer = true →
    (s.port i).health = .down → (s.port i).tx = .idle →
    exec (.probeTimerExpiry i) s = .next { s with
      ports := s.ports.set i { s.port i with
        tx := .send, gap := false, de := true, cand := [], probeTimer := false, probe := true
        buffer := some ⟨target, true, false, false, []⟩ } }) ∧
  (∀ (s : State) (i : Seg) (sent : Telegram) (b : Byte), (s.port i).tx = .await → (s.port i).cand = [] →
    (s.port i).probe = true → (s.port i).health = .down → (s.port i).buffer = some sent → sent.probe = true →
    sent.seqBit = false → 1 ≤ sent.destination → sent.destination ≤ 126 →
    b ∈ [0x01#8, 0x02#8, 0x03#8, 0x12#8] →
    exec (.deviceReply i ((0x69#8 :: byte1 sent.destination :: b ::
        byte2 (crc16 [byte1 sent.destination, b]).toNat).map RxChar.good)) s =
      .next (kickTx (considerTakeIn i { s with
        ports := s.ports.set i { s.port i with
          health := .up, silence := 0, tx := .idle, probe := false, buffer := none, de := false, cand := [] }
        notices := (post (.segmentState i .down .up 0 .probe (some sent.destination)) s).notices }))) ∧
  (∀ (s : State) (i : Seg), (s.port i).tx = .await → (s.port i).probe = true →
    exec (.responseWindowExpiry i) s = .next (kickTx (considerTakeIn i { s with
      ports := s.ports.set i { s.port i with
        tx := .idle, probe := false, buffer := none, de := false, gap := false, cand := [], probeTimer := true } })))

/-! ### The host link -/

/-- The receiver. A well-formed frame, character by character: the host is present, and the first test that holds decides
the frame (R139 to R142, R150, R165). The discard of the frame in hand: a LEN out of range, a bad stop bit, a check that
does not agree, or the inter-character timer; one discard counted, and nothing else (R137, R138). Characters may come in
parts, with either command (notes/assumptions/6.md). That the immediate answer on TXD is not one of the 4 in the reply list
is the model's choice (notes/assumptions/30.md). That the timer's expiry out of service changes nothing is the model's
(notes/assumptions/3.md). -/
def Obligations.FrameReception : Prop :=
  (∀ (s : State) (seq kind : Byte) (body : List Byte), s.supply.phase = .inService → s.link.rx = .hunt →
    body.length ≤ 252 →
    let queued := s.link.requests.any (fun r => r.seq == seq)
    let cached := s.link.cache.find? (fun c => c.seq == seq && c.kind == kind)
    let present : State := { s with
      link := { s.link with hostAbsent := false }
      notices := { s.notices with
        queue := if s.link.hostAbsent then
          s.notices.queue.map (fun q => if q.inFlight then { q with resend := true } else q) else s.notices.queue
        resendCount := 0
        hostAbsent := if s.link.hostAbsent then false else s.notices.hostAbsent } }
    let placed (x : Reply) : State :=
      if s.link.replies.countP (·.immediate) < 4 then
        { present with link := { present.link with replies := s.link.replies ++ [x] } }
      else { present with link := { present.link with discards := min 65535 (s.link.discards + 1) } }
    let arrives := exec (.frameArrival ((frameBytes seq kind body).map RxChar.good)) s
    (queued = true → arrives = .next (kickTx present)) ∧
    (∀ c, queued = false → cached = some c → arrives = .next (kickTx (placed ⟨c.seq, c.kind, c.body, true⟩))) ∧
    (queued = false → cached = none → 4 ≤ s.link.requests.length →
      arrives = .next (kickTx (placed ⟨seq, kind, [0x01#8], true⟩))) ∧
    (queued = false → cached = none → s.link.requests.length < 4 →
      arrives = .next (kickTx { present with
        link := { present.link with requests := s.link.requests ++ [⟨seq, kind, body, false⟩] } }))) ∧
  (∀ s : State, s.supply.phase = .inService →
    let discarded : Host.Outcome State Fault Refusal :=
      .next { s with link := { s.link with rx := .hunt, discards := min 65535 (s.link.discards + 1) } }
    (∀ c : RxChar, s.link.rx = .length → (c.stopOk = false ∨ c.data.toNat < 2 ∨ 254 < c.data.toNat) →
      exec (.frameDiscard [c]) s = discarded) ∧
    (∀ c : RxChar, s.link.rx ≠ .hunt → c.stopOk = false → exec (.frameDiscard [c]) s = discarded) ∧
    (∀ (c : RxChar) (len high : Byte) (kept : List Byte), s.link.rx = .check len kept (some high) →
      byte2 (crc16 (len :: kept)).toNat ≠ [high, c.data] → exec (.frameDiscard [c]) s = discarded) ∧
    (s.link.rx ≠ .hunt → exec .interCharacterTimerExpiry s = discarded) ∧
    (∀ c : RxChar, s.link.rx = .hunt → (c.stopOk = false ∨ c.data ≠ 0xA5#8) →
      exec (.frameDiscard [c]) s = .next s)) ∧
  (∀ (s t : State) (a b : List RxChar), exec (.frameArrival a) s = .next t →
    exec (.frameDiscard a) s = .next t ∧ exec (.frameArrival (a ++ b)) s = exec (.frameArrival b) t) ∧
  ∀ (s : State) (chars : List RxChar), s.supply.phase ≠ .inService →
    exec (.frameArrival chars) s = .next s ∧ exec (.frameDiscard chars) s = .next s ∧
      exec .interCharacterTimerExpiry s = .next s

/-- The end of a transmission: a reply's request leaves the queue and the reply is cached, an immediate answer leaves
nothing, a notice's end may start the resend timer; then the idle transmitter chooses its next frame: the first reply,
else the oldest notice marked for resending, else the oldest unsent one while fewer than 8 are in flight (R140, R145, R147,
R160, R161). That a reply, an immediate answer too, leaves the reply list as its transmission begins, so that
nothing leaves it at the end, is the model's choice (notes/assumptions/30.md). That a notice waits while an immediate
request is in hand is the model's inference (notes/assumptions/4.md).
TXD: idle, or the characters of the frame in transmission at the link speed, which the straps select; a reply's frame and a
notice's, the contents of each kind of notice, the check, and the value codes (R135, R146, R186, Tables 7-2, 10-1, 10-4,
10-5 and 10-10). That the candidate of a CLOCK-SHIFT carries the fold NORMAL is the model's (notes/assumptions/19.md). -/
def Obligations.TransmissionEnds : Prop :=
  (∀ (s : State) (r : Reply) (start : StartInput), s.link.tx = some (.reply r) →
    (s.supply.phase ≠ .resetting ∨ s.link.replies ≠ []) → r.immediate = false →
    let others := s.link.cache.filter (fun c => c.seq != r.seq)
    exec (.replyTransmitEnd start) s = .next (kickTx { s with link := { s.link with
      tx := none
      requests := s.link.requests.filter (fun q => q.seq != r.seq)
      cache := (if others.length < 4 then others else others.drop 1) ++ [⟨r.seq, r.kind, r.body⟩] } })) ∧
  (∀ (s : State) (r : Reply) (start : StartInput), s.link.tx = some (.reply r) →
    (s.supply.phase ≠ .resetting ∨ s.link.replies ≠ []) → r.immediate = true →
    exec (.replyTransmitEnd start) s = .next (kickTx { s with link := { s.link with tx := none } })) ∧
  (∀ (s : State) (n : Notice), s.link.tx = some (.notice n) →
    exec .noticeFrameEnd s = .next (kickTx { s with
      link := { s.link with tx := none }
      notices := { s.notices with timer := s.notices.timer ||
        ((s.notices.inFlight.head?).map (·.notice.serial) == some n.serial && !s.notices.hostAbsent) } })) ∧
  (∀ s : State, (s.link.tx ≠ none ∨ (s.supply.phase ≠ .inService ∧ s.supply.phase ≠ .resetting) ∨
      (s.link.replies = [] ∧ (s.supply.phase = .resetting ∨ s.notices.hostAbsent = true ∨ immediateInHand s = true ∨
        ((∀ x ∈ s.notices.queue, x.inFlight = false ∨ x.resend = false) ∧
          (8 ≤ s.notices.inFlight.length ∨ ∀ x ∈ s.notices.queue, x.inFlight = true))))) →
    kickTx s = s) ∧
  (∀ (s : State) (r : Reply) (rest : List Reply), (s.supply.phase = .inService ∨ s.supply.phase = .resetting) →
    s.link.tx = none → s.link.replies = r :: rest →
    kickTx s = { s with link := { s.link with tx := some (.reply r), replies := rest } }) ∧
  (∀ (s : State) (a b : List QueuedNotice) (q : QueuedNotice), s.supply.phase = .inService → s.link.tx = none →
    s.link.replies = [] → immediateInHand s = false → s.notices.hostAbsent = false →
    s.notices.queue = a ++ q :: b →
    ((q.inFlight = true ∧ q.resend = true ∧ ∀ x ∈ a, x.inFlight = false ∨ x.resend = false) ∨
      (q.inFlight = false ∧ s.notices.inFlight.length < 8 ∧
        (∀ x ∈ s.notices.queue, x.inFlight = false ∨ x.resend = false) ∧ ∀ x ∈ a, x.inFlight = true)) →
    kickTx s = { s with
      link := { s.link with tx := some (.notice q.notice) }
      notices := { s.notices with queue := s.notices.queue.map (fun x =>
        if x.notice.serial = q.notice.serial then { x with inFlight := true, resend := false } else x) } }) ∧
  -- TXD
  (∀ l : HostLink,
    let frame (seq kind : Byte) (body : List Byte) : List Byte :=
      let checked := byte1 (body.length + 2) :: seq :: kind :: body
      0xA5#8 :: (checked ++ byte2 (crc16 checked).toNat)
    let sends (bytes : List Byte) : LineOutput := .sends l.speed.code (bytes.flatMap characterBits)
    (l.tx = none → l.lineOutput = .idle) ∧
    (∀ r : Reply, l.tx = some (.reply r) → l.lineOutput = sends (frame r.seq
      (if r.kind.toNat ∈ [0x01, 0x02, 0x03, 0x04, 0x05, 0x06, 0x07, 0x10, 0x11, 0x12, 0x13, 0x14, 0x15, 0x18, 0x19, 0x1A,
          0x20, 0x21, 0x22, 0x23, 0x28, 0x29, 0x2A, 0x2B, 0x2C, 0x2D, 0x30, 0x31, 0x32, 0x38, 0x39] then r.kind + 0x80#8
        else 0xBF#8) r.body)) ∧
    ∀ n : Notice, l.tx = some (.notice n) → l.lineOutput = sends (frame 0x00#8 (byte1 (0xC0 + n.body.code))
      (byte2 n.serial.toNat ++ readingBytes n.stamp.reading n.stamp.fold n.stamp.valid ++ byte4 n.stamp.runSecond.toNat ++
        n.body.bytes))) ∧
  (∀ b : NoticeBody,
    let yes (p : Bool) : Nat := if p then 1 else 0
    (b.code, b.bytes) = match b with
      | .started cause entries records valid =>
        (0, [byte1 cause.code] ++ byte2 entries ++ [byte1 records, byte1 (yes valid)])
      | .dispatchReport j => (1, byte2 j.tag.toNat ++
          [byte1 j.entry.val, byte1 j.segment.val, byte1 (j.destination + 128 * yes j.stale),
           byte1 (4 * j.cause.code + 32 * yes j.due.isSome)] ++
          (match j.due with
            | some d => readingBytes d.reading d.fold false
            | none => [0x00#8, 0x00#8, 0x00#8, 0x00#8, 0x00#8, 0x00#8]) ++ byte4 j.created.toNat ++
          [byte1 j.outcome.code, byte1 (dropReasonCode j.reason), byte1 j.attempts, byte1 j.busy])
      | .countExhausted e fires d => (2, [byte1 e.val] ++ (fires.map byte2).getD [0xFF#8, 0xFF#8] ++ [byte1 d.code] ++
          byte2 d.tag.toNat)
      | .entryFault e record path => (3, [0x00#8, byte1 e.val, if record = .body then 0x01#8 else 0x00#8, byte1 path.code])
      | .configFault name path => (3, [0x01#8, match name with
          | .segment i => byte1 i.val
          | .daylight => 0x04#8, 0xFF#8, byte1 path.code])
      | .compactionEnd moved top => (4, byte2 moved ++ byte2 top)
      | .clockShift direction candidate hours =>
        (5, [if direction = .back then 0x01#8 else 0x00#8] ++ readingBytes candidate .normal false ++ [byte1 hours])
      | .segmentState i before after silence cause destination =>
        (6, [byte1 i.val, byte1 before.code, byte1 after.code, byte1 silence, byte1 cause.code,
          byte1 (destination.getD 0)])
      | .queueHigh i count => (7, [byte1 i.val, byte1 count])
      | .gap count => (8, byte2 count)) ∧
  (∀ (r : Reading) (fold : Fold) (valid : Bool), readingBytes r fold valid =
    [byte1 (r.year - 2000), byte1 (r.month + 16 * fold.code + if valid then 64 else 0), byte1 (r.day + 32 * r.weekday),
     byte1 r.hour, byte1 r.minute, byte1 r.second]) ∧
  -- the check
  crc16 [] = 0xFFFF#16 ∧
  (∀ (l : List Byte) (b : Byte),
    let shift (c : Word16) : Word16 := if c.getLsbD 15 then (c <<< 1) ^^^ 0x1021#16 else c <<< 1
    crc16 (l ++ [b]) = (List.range 8).foldl (fun c _ => shift c) (crc16 l ^^^ (b.setWidth 16 <<< 8))) ∧
  -- value codes
  [EntryState.empty, .draft, .armed, .retired, .quarantined].map EntryState.code = [0, 1, 2, 3, 4] ∧
  [JobOutcome.delivered, .broadcastSent, .rejected, .failed, .busyLimit, .expired, .dropped, .fault, .superseded, .purged,
    .abandoned].map JobOutcome.code = [1, 2, 3, 4, 5, 6, 7, 8, 9, 10, 11] ∧
  [none, some DropReason.closed, some .full, some .displaced].map dropReasonCode = [0, 1, 2, 3] ∧
  [JobCause.calendar, .interval, .manual].map JobCause.code = [0, 1, 2] ∧
  (∀ tag : Word16, [Disposition.queued tag, .coalesced tag, .dropped, .closed].map (fun d => (d.code, d.tag)) =
    [(0, tag), (1, tag), (2, 0xFFFF#16), (3, 0xFFFF#16)]) ∧
  [Health.closed, .up, .suspect, .down].map Health.code = [0, 1, 2, 3] ∧
  [Fold.normal, .first, .second].map Fold.code = [0, 1, 2] ∧
  [StartCause.cold, .powerOn, .pin, .request].map StartCause.code = [0, 1, 2, 3] ∧
  [FaultPath.scan, .fetch, .hostRead, .compaction, .startUp].map FaultPath.code = [0, 1, 2, 3, 4] ∧
  [HealthCause.silence, .reply, .probe, .open, .close].map HealthCause.code = [0, 1, 2, 3, 4] ∧
  -- LS1, LS0, and the code of the speed that they select
  ∀ x ∈ [(false, false, LinkSpeed.b19200, 0), (false, true, .b57600, 1), (true, false, .b115200, 2),
    (true, true, .b230400, 3)], LinkSpeed.ofStraps x.1 x.2.1 = x.2.2.1 ∧ x.2.2.1.code = x.2.2.2

/-! ### Notices -/

/-- The posting of a notice (R158). -/
def Obligations.PostingOfNotices : Prop :=
  ∀ (b : NoticeBody) (s : State),
    (s.notices.mask.getLsbD b.code = true → post b s = s) ∧
    (s.notices.mask.getLsbD b.code = false → 32 ≤ s.notices.queue.length →
      post b s = { s with notices := { s.notices with gapCount := min 65535 (s.notices.gapCount + 1) } }) ∧
    (s.notices.mask.getLsbD b.code = false → s.notices.queue.length < 32 →
      post b s = { s with notices := { s.notices with
        queue := s.notices.queue ++ [⟨⟨s.notices.nextSerial,
          ⟨s.cal.reading, s.cal.fold, s.cal.valid, s.cal.runSecond⟩, b⟩, false, false⟩]
        nextSerial := s.notices.nextSerial + 1 } })

/-- The resend timer, NOTICE-ACK and NOTICE-MASK (R159, R162, R163, R167). That no timer runs while the host is absent, and so
none is restarted by a NOTICE-ACK then, is the model's inference (notes/assumptions/19.md). -/
def Obligations.NoticeWindowEvents : Prop :=
  (∀ s : State, s.notices.timer = true → s.notices.resendCount < 5 →
    exec .resendTimerExpiry s = .next (kickTx { s with notices := { s.notices with
      queue := s.notices.queue.map (fun q => if q.inFlight then { q with resend := true } else q)
      timer := false
      resendCount := s.notices.resendCount + 1 } })) ∧
  (∀ s : State, s.notices.timer = true → s.notices.resendCount = 5 →
    exec .resendTimerExpiry s = .next (kickTx { s with
      link := { s.link with hostAbsent := true }
      notices := { s.notices with timer := false, hostAbsent := true } })) ∧
  (∀ (s : State) (r : Request) (a b : List QueuedNotice) (q : QueuedNotice), Serving s r 0x38#8 →
    r.body = byte2 q.notice.serial.toNat → s.notices.queue = a ++ q :: b → q.inFlight = true →
    (∀ x ∈ a, x.notice.serial ≠ q.notice.serial) →
    let gap : List QueuedNotice := if s.notices.gapCount = 0 then []
      else [⟨⟨s.notices.nextSerial, ⟨s.cal.reading, s.cal.fold, s.cal.valid, s.cal.runSecond⟩,
        .gap s.notices.gapCount⟩, false, false⟩]
    exec .noticeAck s = .next { s with
      notices := { s.notices with
        queue := b ++ gap
        nextSerial := if s.notices.gapCount = 0 then s.notices.nextSerial else s.notices.nextSerial + 1
        resendCount := 0
        gapCount := 0
        timer := !s.notices.hostAbsent && b.any (·.inFlight) }
      link := s.link.answered r [0x00#8, byte1 (a.length + 1), byte1 (b ++ gap).length] }) ∧
  (∀ (s : State) (r : Request) (mask : Word16), Serving s r 0x39#8 → r.body = byte2 mask.toNat →
    mask &&& 0xFF01#16 = 0#16 →
    exec .noticeMask s = .next { s with
      notices := { s.notices with mask := mask }
      link := s.link.answered r (0x00#8 :: byte2 s.notices.mask.toNat) })

/-! ### The part: reset, stops and start-ups -/

/-- PART-RESET takes the part into RESETTING, answers the requests behind it ABORTED and itself DONE, in that order, and
stops reception, the grants, the pass, the compactor and the ports (R154, R182, R183). That every port stands IDLE with an
empty buffer then is the model's inference (notes/assumptions/19.md). -/
def Obligations.PartResetAnswersAll : Prop :=
  ∀ (s : State) (r : Request) (before behind : List Request), Serving s r 0x32#8 →
    s.link.requests = before ++ r :: behind → (∀ q ∈ before, q.built = true) → (∀ q ∈ r :: behind, q.built = false) →
    ∃ m, exec .partReset s = .next (kickTx m) ∧
      m = { s with
        link := { s.link with
          rx := .hunt
          requests := s.link.requests.map (fun q => { q with built := true })
          replies := s.link.replies ++ behind.map (fun q => ⟨q.seq, q.kind, [0x09#8], false⟩) ++
            [⟨r.seq, r.kind, [0x00#8, byte1 behind.length], false⟩] }
        ctl := { s.ctl with compacting := false }
        matcher := none
        ports := m.ports
        supply := { s.supply with phase := .resetting } } ∧
      (∀ i, m.port i = { s.port i with
        tx := .idle
        probe := false
        buffer := none
        probeTimer := false
        fetchOp := .none
        de := false
        gap := (s.port i).gap || ((s.port i).tx == .send && (s.port i).de)
        cand := [] }) ∧
      ∀ q, granted (kickTx m) q = false

/-- The stops, and the loss of the backup domain: the phase, what stands on VBAK kept, the lines released, the latch
(R169, R171). While main supply is good a low VBAK sets and loses nothing (R171). What a lost backup domain holds is left open (notes/assumptions/12.md). That the lost volatile state shows as
empty queues, no request, no pass and no notice is the model's choice (notes/assumptions/11.md), and so is that a row outside
its phase changes nothing but the pin's level (notes/assumptions/3.md). -/
def Obligations.StopsLoseVolatileState : Prop :=
  (∀ (s : State) (c : Instr) (phase : Phase),
    (c = .mainSupplyFail ∧ phase = .unpowered ∧ s.supply.phase ≠ .unpowered) ∨
      (c = .nrstAssert ∧ phase = .held ∧ s.supply.phase ≠ .unpowered ∧ s.supply.phase ≠ .held) →
    ∃ t, exec c s = .next t ∧ t.supply.phase = phase ∧ t.store = s.store ∧
      t.cal = { s.cal with runSecond := t.cal.runSecond } ∧ t.supply.backupLost = s.supply.backupLost ∧
      t.supply.nrst = (if c = .nrstAssert then false else s.supply.nrst) ∧
      t.supply.powerLost = (if c = .mainSupplyFail then true else s.supply.powerLost) ∧
      t.supply.ls1 = s.supply.ls1 ∧ t.supply.ls0 = s.supply.ls0 ∧ t.supply.vbakLow = s.supply.vbakLow ∧
      t.free = s.free ∧ t.pending = s.pending ∧
      (∀ i, (t.port i).de = false ∧ t.queue i = []) ∧ t.link.tx = none ∧ t.link.requests = [] ∧ t.matcher = none ∧
      t.notices.queue = [] ∧ ∀ q, granted t q = false) ∧
  (∀ s : State, (s.supply.phase = .unpowered ∨ s.supply.phase = .held) →
    exec .nrstAssert s = .next { s with supply := { s.supply with nrst := false } }) ∧
  (∀ (s : State) (start : StartInput), s.supply.phase ≠ .held →
    exec (.nrstRelease start) s = .next { s with supply := { s.supply with nrst := true } }) ∧
  (∀ s : State, s.supply.phase ≠ .unpowered → exec .backupLost s = .next s) ∧
  (∀ s : State, s.supply.phase = .unpowered → exec .mainSupplyFail s = .next s) ∧
  (∀ (s : State) (start : StartInput), s.supply.phase ≠ .unpowered → exec (.mainSupplyReturn start) s = .next s) ∧
  (∀ s : State, s.supply.phase ≠ .starting → exec .startUpSequenceEnd s = .next s) ∧
  (∀ s : State, s.supply.phase = .unpowered →
    ∃ t, exec .backupLost s = .next t ∧ t = { s with
      free := t.free
      store := t.store
      cal := { t.cal with runSecond := s.cal.runSecond }
      supply := { s.supply with backupLost := true, vbakLow := true } })

/-- A start-up begins at the return of main supply with NRST high, at the release of NRST, and at the end of the last
reply of a PART-RESET, which takes its request from the queue and is cached (R140, R145), with its cause and the straps
sampled; with NRST low the part is HELD (R170, R183). The first of its
record operations are made, as many as the command says fall before the next event (notes/assumptions/13.md); and what each
operation does: the cold initialisation (R173), and the tests of the integrity pass on a segment's configuration record, on
the daylight record and on an entry, with the fault item and the count that a failure leaves (R174 to R177). The order of the
cold initialisation before the latch, and the test of the last match, are the model's (notes/assumptions/27.md,
notes/assumptions/26.md). -/
def Obligations.StartUpBegins : Prop :=
  let segDefault : SegConfig :=
    { lineSpeed := 1, window := 20, retryLimit := 3, backoff := 50, busyLimit := 10, ageLimit := 300,
      probeInterval := 10, openAtStart := false }
  let ruleDefault : DaylightRule :=
    { enabled := false
      forward := { month := 3, week := 5, weekday := 7, hour := 2 }
      back := { month := 10, week := 5, weekday := 7, hour := 3 } }
  (∀ (s : State) (c : Instr) (start : StartInput),
    (c = .mainSupplyReturn start ∧ s.supply.phase = .unpowered ∧ s.supply.nrst = true) ∨
      (c = .nrstRelease start ∧ s.supply.phase = .held) ∨
      (c = .replyTransmitEnd start ∧ s.supply.phase = .resetting ∧ s.link.replies = [] ∧
        ∃ r, s.link.tx = some (.reply r)) →
    let cause : StartCause := if s.supply.backupLost then .cold else if s.supply.phase = .resetting then .request
      else if s.supply.powerLost then .powerOn else .pin
    let begun (link : HostLink) : State := { s with
      link := link
      supply := { s.supply with
        phase := .starting
        cause := cause
        faults := []
        entriesQuarantined := 0
        recordsReplaced := 0
        claims := []
        startDone := 0
        powerLost := false
        vbakLow := false
        nrst := s.supply.nrst || s.supply.phase == .held
        ls1 := start.ls1
        ls0 := start.ls0 } }
    let made := (startSequence cause).take start.work
    let sent (r : Reply) : HostLink :=
      if r.immediate then { s.link with tx := none }
      else
        let others := s.link.cache.filter (fun c => c.seq != r.seq)
        { s.link with
          tx := none
          requests := s.link.requests.filter (fun q => q.seq != r.seq)
          cache := (if others.length < 4 then others else others.drop 1) ++ [⟨r.seq, r.kind, r.body⟩] }
    ∃ t link, exec c s = .next t ∧ (s.supply.phase ≠ .resetting → link = s.link) ∧
      (s.supply.phase = .resetting → ∀ r, s.link.tx = some (.reply r) → link = sent r) ∧
      (let u := made.foldl runStartUnit (begun link);
        t = { u with supply := { u.supply with startDone := made.length } }) ∧
      t.supply.phase = .starting ∧ t.supply.cause = cause ∧ t.supply.ls1 = start.ls1 ∧ t.supply.ls0 = start.ls0 ∧
      t.supply.powerLost = false ∧ t.store.heap = s.store.heap ∧
      (start.work = 0 → t.store = s.store ∧ t.cal = s.cal ∧ t.supply.backupLost = s.supply.backupLost)) ∧
  (∀ (s : State) (start : StartInput), s.supply.phase = .unpowered → s.supply.nrst = false →
    exec (.mainSupplyReturn start) s = .next { s with supply := { s.supply with phase := .held, vbakLow := false } }) ∧
  (∀ s : State,
    (∀ e : EntryIx, runStartUnit s (.coldHeader e) = { s with store := { s.store with
      headers := s.store.headers.set e.val (freshHeader (bareHeader .empty)) e.isLt } }) ∧
    (∀ i : Seg, runStartUnit s (.coldSegment i) = { s with store := { s.store with
      segRecords := s.store.segRecords.set i ⟨segDefault, segConfigCheck segDefault⟩ } }) ∧
    runStartUnit s .coldDaylight = { s with store := { s.store with
      daylightRecord := ⟨ruleDefault, daylightCheck ruleDefault⟩ } } ∧
    runStartUnit s .coldCalendar = { s with cal :=
      { prescaler := 0, reading := ⟨2000, 1, 1, 0, 0, 0⟩, fold := .normal, valid := false, rule := ruleDefault,
        runSecond := s.cal.runSecond } } ∧
    runStartUnit s .coldLatch = { s with supply := { s.supply with backupLost := false } }) ∧
  (∀ (s : State) (i : Seg),
    let stored := s.store.segRecords.get i
    let c := stored.config
    let sound := stored.check = segConfigCheck c ∧ c.lineSpeed ≤ 3 ∧ (5 ≤ c.window ∧ c.window ≤ 200) ∧
      c.retryLimit ≤ 7 ∧ (10 ≤ c.backoff ∧ c.backoff ≤ 1000) ∧ c.busyLimit ≤ 15 ∧ c.ageLimit ≤ 3600 ∧
      1 ≤ c.probeInterval ∧ c.probeInterval ≤ 60
    (sound → runStartUnit s (.testSegment i) = s) ∧
      (¬ sound → runStartUnit s (.testSegment i) = { s with
        store := { s.store with
          segRecords := s.store.segRecords.set i ⟨segDefault, segConfigCheck segDefault⟩ }
        supply := { s.supply with
          faults := s.supply.faults ++ [.config (.segment i)]
          recordsReplaced := s.supply.recordsReplaced + 1 } })) ∧
  (∀ s : State,
    let stored := s.store.daylightRecord
    let a := stored.rule.forward
    let b := stored.rule.back
    let dated (x : Transition) := (1 ≤ x.month ∧ x.month ≤ 12) ∧ (1 ≤ x.week ∧ x.week ≤ 5) ∧
      1 ≤ x.weekday ∧ x.weekday ≤ 7
    let sound := stored.check = daylightCheck stored.rule ∧ dated a ∧ dated b ∧ (1 ≤ a.hour ∧ a.hour ≤ 22) ∧
      (1 ≤ b.hour ∧ b.hour ≤ 23) ∧ ¬ (a.month = b.month ∧ a.week = b.week ∧ a.weekday = b.weekday)
    (sound → runStartUnit s .testDaylight = s) ∧
      (¬ sound → runStartUnit s .testDaylight = { s with
        store := { s.store with daylightRecord := ⟨ruleDefault, daylightCheck ruleDefault⟩ }
        supply := { s.supply with
          faults := s.supply.faults ++ [.config .daylight]
          recordsReplaced := s.supply.recordsReplaced + 1 } })) ∧
  ∀ (s : State) (e : EntryIx),
    let stored := s.store.headers.get e
    let t := runStartUnit s (.testEntry e)
    let faulty (record : FaultRecord) : State := { s with
      store := { s.store with headers := s.store.headers.set e.val (freshHeader (bareHeader .quarantined)) e.isLt }
      supply := { s.supply with
        faults := s.supply.faults ++ [.entry e record]
        entriesQuarantined := s.supply.entriesQuarantined + 1 } }
    (stored.header.state = .named .empty → t = s) ∧
    (stored.header.state ≠ .named .empty → ¬ HeaderPasses stored → t = faulty .header) ∧
    (stored.header.state ≠ .named .empty → HeaderPasses stored → stored.header.body = none → t = s) ∧
    ∀ b, stored.header.state ≠ .named .empty → HeaderPasses stored → stored.header.body = some b →
      let sound := 1 ≤ b.length ∧ b.length ≤ 240 ∧ b.first + granulesFor b.length ≤ 2048 ∧
        (∀ c ∈ s.supply.claims, ¬ RunsMeet c b) ∧ recordSound s.store.heap e b = true
      (sound → t = { s with supply := { s.supply with claims := s.supply.claims ++ [b] } }) ∧
        (¬ sound → t = faulty .body)

/-- The end of the start-up sequence. The record operations that are left are made, all of them where none was made before
(notes/assumptions/13.md; their order, notes/assumptions/27.md). Service begins with every block at its start-up values: the entry state list and, where the pass
leaves sound references, as one that examined every entry does, the allocation map built from the headers; the compactor
stopped at frontier 0; the rule copy, and the fold made to agree with it; the ports opened by their records; STARTED as the
first notice, with its two counts, on TXD, and a STORE-FAULT notice for each fault item in order, lost beyond the 31st.
After a cold start every entry is EMPTY (R2, R31, R41, R70, R107, R108, R168, R173, R178 to R181). -/
def Obligations.ServiceBegins : Prop :=
  ∀ s : State, s.supply.phase = .starting →
    let done := ((startSequence s.supply.cause).drop s.supply.startDone).foldl runStartUnit s
    let rule := done.store.daylightRecord.rule
    let fold : Fold :=
      if done.cal.fold ≠ .normal ∧ inRepeatedHour rule done.cal.reading = true then done.cal.fold else .normal
    let stamp : Stamp := ⟨done.cal.reading, fold, done.cal.valid, 0⟩
    let bodies := .started s.supply.cause done.supply.entriesQuarantined done.supply.recordsReplaced done.cal.valid ::
      done.supply.faults.map faultNotice
    ∃ t, exec .startUpSequenceEnd s = .next t ∧ t.store = done.store ∧
      t.supply = { done.supply with
        phase := .inService, faults := [], entriesQuarantined := 0, recordsReplaced := 0, claims := [], startDone := 0 } ∧
      t.supply.phase = .inService ∧ t.supply.cause = s.supply.cause ∧
      t.link = { HostLink.start (LinkSpeed.ofStraps s.supply.ls1 s.supply.ls0) with
        tx := some (.notice ⟨0, stamp, .started s.supply.cause done.supply.entriesQuarantined
          done.supply.recordsReplaced done.cal.valid⟩) } ∧
      t.link.rx = .hunt ∧ t.link.requests = [] ∧ t.link.replies = [] ∧ t.link.cache = [] ∧ t.link.discards = 0 ∧
      t.link.hostAbsent = false ∧
      t.dispatch = DispatchUnit.start ∧ t.matcher = none ∧
      t.cal = { done.cal with rule := rule, fold := fold, runSecond := 0 } ∧
      t.ctl.order = initialOrder ∧ t.ctl.compacting = false ∧ t.ctl.frontier = 0 ∧ t.ctl.moved = 0 ∧
      ListAgrees t ∧ (∀ i, t.port i = Port.start (t.store.segRecords.get i).config) ∧
      t.store.heap = s.store.heap ∧
      t.notices =
        { queue := (bodies.take 32).zipIdx.map (fun x => ⟨⟨BitVec.ofNat 16 x.2, stamp, x.1⟩, x.2 == 0, false⟩)
          nextSerial := BitVec.ofNat 16 (min 32 bodies.length)
          timer := false
          resendCount := 0
          gapCount := min 65535 (bodies.length - 32)
          mask := 0
          hostAbsent := false } ∧
      (ReferencesSound done.store → MapAgrees t) ∧
      (s.supply.startDone = 0 →
        (∀ e, (s.store.headers.get e).header.state = .named .empty → (s.store.headers.get e).header.body = none) →
        ReferencesSound done.store) ∧
      (s.supply.cause = .cold → s.supply.startDone = 0 → t.supply.backupLost = false ∧
        (∀ e, t.store.headers.get e = freshHeader (bareHeader .empty)) ∧
        (∀ i, t.store.segRecords.get i = freshSegConfig defaultSegConfig) ∧
        t.store.daylightRecord = freshDaylight defaultDaylight ∧ (∀ g, t.ctl.map.get g = none) ∧
        t.cal.reading = ⟨2000, 1, 1, 0, 0, 0⟩ ∧ t.cal.fold = .normal ∧ t.cal.valid = false)

/-! ### What tests 1 to 3 refuse -/

/-- Tests 1 to 3 of a request: an unknown KIND, a length that Table 10-2 does not list, and the field tests of each kind in
the order of their ordinals, the first failure deciding (R144, R187; R4, R6 to R10, R16, R47, R48, R64, R68, R101, R128,
R152, R162, R167). A request whose field tests all hold is not refused. And what the
bodies carry that have fields of their own: ENTRY-DEFINE, CLOCK-SET, CLOCK-RULE, SEGMENT-CONFIG and QUEUE-PURGE
(Tables 10-5, 10-6, 10-8, section 10.4). -/
def Obligations.RequestTests : Prop :=
  ∀ (s : State) (r : Request),
    let kind := r.kind.toNat
    let len := r.body.length
    let b (k : Nat) := (r.body.getD k 0).toNat
    let w (k : Nat) := 256 * b k + b (k + 1)
    let t (k : Nat) := 256 * w k + b (k + 2)
    let refused (e : ReqError) := requestError s r = some e
    let decides (tests : List (Nat × Prop)) := ((∀ x ∈ tests, x.2) → requestError s r = none) ∧
      ∀ before n p after, tests = before ++ (n, p) :: after → (∀ x ∈ before, x.2) → ¬ p → refused (.badField n)
    let anyOr (max n : Nat) := n ≤ max ∨ n = 255
    let target (k o : Nat) : List (Nat × Prop) :=
      [(o, b k ≤ 3), (o + 1, 1 ≤ b (k + 1) ∧ b (k + 1) ≤ 127), (o + 2, b (k + 2) ≤ 3), (o + 3, w (k + 3) ≠ 0),
       (o + 4, b (k + 5) ≤ 1), (o + 5, b (k + 6) ≤ 2)]
    -- test 1
    (kind ∉ [0x01, 0x02, 0x03, 0x04, 0x05, 0x06, 0x07, 0x10, 0x11, 0x12, 0x13, 0x14, 0x15, 0x18, 0x19, 0x1A, 0x20, 0x21,
        0x22, 0x23, 0x28, 0x29, 0x2A, 0x2B, 0x2C, 0x2D, 0x30, 0x31, 0x32, 0x38, 0x39] → refused .unknownKind) ∧
    -- test 2
    (∀ (kinds : List Nat) (least most : Nat),
      (kinds, least, most) ∈ [([0x02, 0x03, 0x04, 0x05, 0x07, 0x11, 0x12, 0x20, 0x21, 0x29, 0x2A, 0x2B, 0x2C, 0x2D, 0x31],
          1, 1), ([0x06, 0x13, 0x14, 0x15, 0x19, 0x22, 0x23], 0, 0), ([0x10], 2, 241), ([0x18], 6, 6), ([0x1A], 9, 9),
        ([0x28], 11, 11), ([0x30], 0, 251), ([0x38, 0x39], 2, 2)] →
      kind ∈ kinds → len < least ∨ most < len → refused .badLength) ∧
    (kind = 0x01 → (len < 4 ∨ (b 2 = 0 ∧ len ≠ 17) ∨ (b 2 = 1 ∧ len ≠ 16) ∨ (len ≠ 16 ∧ len ≠ 17)) → refused .badLength) ∧
    -- test 3
    (kind ∈ [0x02, 0x03, 0x04, 0x05, 0x07, 0x11, 0x12] → len = 1 → requestError s r = none) ∧
    (kind ∈ [0x06, 0x13, 0x14, 0x15, 0x19, 0x22, 0x23] → len = 0 → requestError s r = none) ∧
    (kind = 0x10 → 2 ≤ len → len ≤ 241 → requestError s r = none) ∧
    (kind = 0x30 → len ≤ 251 → requestError s r = none) ∧
    (kind = 0x32 → requestError s r = none) ∧
    (kind ∈ [0x20, 0x29, 0x2A, 0x2B, 0x2C, 0x2D] → len = 1 → decides [(1, b 0 ≤ 3)]) ∧
    (kind = 0x21 → len = 1 → decides [(1, b 0 ≤ 3 ∨ b 0 = 255)]) ∧
    (kind = 0x31 → len = 1 → decides [(1, b 0 ≤ 1)]) ∧
    (kind = 0x38 → len = 2 → decides
      [(1, ∃ q ∈ s.notices.queue, q.inFlight = true ∧ q.notice.serial.toNat = w 0)]) ∧
    (kind = 0x39 → len = 2 → decides [(1, w 0 < 256 ∧ w 0 % 2 = 0)]) ∧
    (kind = 0x28 → len = 11 → decides
      [(1, b 0 ≤ 3), (2, b 1 ≤ 3), (3, 5 ≤ b 2 ∧ b 2 ≤ 200), (4, b 3 ≤ 7), (5, 10 ≤ w 4 ∧ w 4 ≤ 1000), (6, b 6 ≤ 15),
       (7, w 7 ≤ 3600), (8, 1 ≤ b 9 ∧ b 9 ≤ 60), (9, b 10 ≤ 1)]) ∧
    (kind = 0x1A → len = 9 → decides
      [(1, b 0 ≤ 1), (2, 1 ≤ b 1 ∧ b 1 ≤ 12), (3, 1 ≤ b 2 ∧ b 2 ≤ 5), (4, 1 ≤ b 3 ∧ b 3 ≤ 7), (5, 1 ≤ b 4 ∧ b 4 ≤ 22),
       (6, 1 ≤ b 5 ∧ b 5 ≤ 12), (7, 1 ≤ b 6 ∧ b 6 ≤ 5),
       (8, (1 ≤ b 7 ∧ b 7 ≤ 7) ∧ ¬ (b 1 = b 5 ∧ b 2 = b 6 ∧ b 3 = b 7)), (9, 1 ≤ b 8 ∧ b 8 ≤ 23)]) ∧
    (kind = 0x18 → len = 6 →
      let year := 2000 + b 0
      let month := b 1 % 16
      let fold := b 1 / 16 % 4
      let day := b 2 % 32
      let onDate (x : Transition) := s.cal.rule.enabled = true ∧ month = x.month ∧ day = transitionDay x year
      decides [(1, b 0 ≤ 199), (2, 1 ≤ month ∧ month ≤ 12), (3, fold ≤ 2), (4, 1 ≤ day ∧ day ≤ lastDay year month),
        (5, b 3 ≤ 23), (6, b 4 ≤ 59),
        (7, b 5 ≤ 59 ∧ ¬ (onDate s.cal.rule.forward ∧ b 3 = s.cal.rule.forward.hour) ∧
          (fold = 0 ∨ (onDate s.cal.rule.back ∧ b 3 + 1 = s.cal.rule.back.hour)))]) ∧
    (kind = 0x01 → b 2 = 0 → len = 17 → decides
      ([(3, b 1 ≤ 3), (5, anyOr 59 (b 3)), (6, anyOr 59 (b 4)), (7, anyOr 23 (b 5)), (8, 1 ≤ b 6 ∧ b 6 ≤ 127),
        (9, (1 ≤ b 7 ∧ b 7 ≤ 32) ∨ b 7 = 255),
        (10, ((1 ≤ b 8 ∧ b 8 ≤ 12) ∨ b 8 = 255) ∧ ¬ (b 8 = 2 ∧ (b 7 = 30 ∨ b 7 = 31)) ∧
          ¬ (b 8 ∈ [4, 6, 9, 11] ∧ b 7 = 31)), (11, b 9 ≤ 1)] ++ target 10 12)) ∧
    (kind = 0x01 → b 2 = 1 → len = 16 → decides
      ([(3, b 1 ≤ 3), (5, 1 ≤ t 3 ∧ t 3 ≤ 86400), (6, 1 ≤ t 6 ∧ t 6 ≤ t 3)] ++ target 9 7)) ∧
    (kind = 0x01 → 2 ≤ b 2 → len = 16 ∨ len = 17 → decides [(3, b 1 ≤ 3), (4, False)]) ∧
    -- what a body carries
    (∀ q, parseDefine r.body = .ok q →
      let any (n : Nat) : Option Nat := if n = 255 then none else some n
      let fires (n : Nat) : Option Nat := if n = 65535 then none else some n
      let carried (k : Nat) (schedule : Schedule) : DefineReq :=
        { index := Fin.ofNat 256 (b 0)
          arm := decide (b 1 % 2 = 1)
          keepBody := decide (b 1 / 2 % 2 = 1)
          defn :=
            { schedule := schedule
              segment := b k
              destination := b (k + 1)
              urgency := b (k + 2)
              fireCount := fires (w (k + 3))
              remainingFires := fires (w (k + 3))
              reload := decide (b (k + 5) = 1)
              report := if b (k + 6) = 0 then .none else if b (k + 6) = 1 then .failures else .all
              coalesced := 0 } }
      b 2 ≤ 1 ∧
      (b 2 = 0 → q = carried 10 (.calendar
        { second := any (b 3)
          minute := any (b 4)
          hour := any (b 5)
          weekdays := BitVec.ofNat 7 (b 6)
          day := if b 7 = 255 then .any else if b 7 = 32 then .last else .day (b 7)
          month := any (b 8) } (if b 9 = 1 then .twice else .once))) ∧
      (b 2 = 1 → q = carried 9 (.interval (t 3) (t 6) (t 6)))) ∧
    (∀ q, parseClockSet s.cal.rule r.body = .ok q →
      q.reading = ⟨2000 + b 0, b 1 % 16, b 2 % 32, b 3, b 4, b 5⟩ ∧
      q.fold = if b 1 / 16 % 4 = 0 then none else if b 1 / 16 % 4 = 1 then some .first else some .second) ∧
    (∀ rule, parseClockRule r.body = .ok rule →
      rule = ⟨decide (b 0 = 1), ⟨b 1, b 2, b 3, b 4⟩, ⟨b 5, b 6, b 7, b 8⟩⟩) ∧
    (∀ i c, parseSegConfig r.body = .ok (i, c) → i.val = b 0 ∧
      c = ⟨b 1, b 2, b 3, w 4, b 6, w 7, b 9, decide (b 10 = 1)⟩) ∧
    ∀ l, parsePurge r.body = .ok l → l = if b 0 = 255 then [0, 1, 2, 3] else [Fin.ofNat 4 (b 0)]
end

