-- ==== Sys2Proof/Laws/Memory.lean ====
section
/-! SUPPORT. The heap's bytes: what a read gives after a write, and that every write keeps the canonical form. -/

namespace Sys2Proof.Machine

/-- The canonical form as a proposition: rising addresses, no byte 00H, all inside the heap. -/
def Memory.Canonical (m : Memory) : Prop :=
  m.Pairwise (fun x y => x.1 < y.1) ∧ ∀ c ∈ m, c.2 ≠ 0 ∧ c.1 < 32768

theorem Memory.wf_iff (m : Memory) : Memory.wf m = true ↔ Memory.Canonical m := by
  simp [Memory.wf, Memory.Canonical]

/-- Every address that a write leaves listed was listed before or is the one written. -/
theorem Memory.mem_write {m : Memory} {a : Nat} {b : Byte} {c : Host.Cell} (h : c ∈ Memory.write m a b) :
    c ∈ m ∨ (c = (a, b) ∧ b ≠ 0) := by
  induction m with
  | nil =>
    simp only [Memory.write] at h
    split at h
    · simp at h
    · rename_i hb
      simp only [List.mem_singleton] at h
      exact Or.inr ⟨h, hb⟩
  | cons x m ih =>
    obtain ⟨k, v⟩ := x
    simp only [Memory.write] at h
    split at h
    · split at h
      · exact Or.inl h
      · rename_i hb
        rcases List.mem_cons.mp h with rfl | h
        · exact Or.inr ⟨rfl, hb⟩
        · exact Or.inl h
    · split at h
      · split at h
        · exact Or.inl (List.mem_cons_of_mem _ h)
        · rename_i hb
          rcases List.mem_cons.mp h with rfl | h
          · exact Or.inr ⟨rfl, hb⟩
          · exact Or.inl (List.mem_cons_of_mem _ h)
      · rcases List.mem_cons.mp h with rfl | h
        · exact Or.inl (List.mem_cons_self ..)
        · rcases ih h with h | h
          · exact Or.inl (List.mem_cons_of_mem _ h)
          · exact Or.inr h

/-- A write inside the heap keeps the canonical form. -/
theorem Memory.canonical_write {m : Memory} (hm : Memory.Canonical m) {a : Nat} (ha : a < 32768) (b : Byte) :
    Memory.Canonical (Memory.write m a b) := by
  refine ⟨?_, ?_⟩
  · have hp := hm.1
    clear hm
    induction m with
    | nil =>
      simp only [Memory.write]
      split <;> simp
    | cons x m ih =>
      obtain ⟨k, v⟩ := x
      rw [List.pairwise_cons] at hp
      simp only [Memory.write]
      split
      · rename_i hak
        split
        · exact List.pairwise_cons.mpr hp
        · refine List.pairwise_cons.mpr ⟨?_, List.pairwise_cons.mpr hp⟩
          intro y hy
          rcases List.mem_cons.mp hy with rfl | hy
          · exact hak
          · exact lt_trans hak (hp.1 y hy)
      · split
        · rename_i hak
          subst hak
          split
          · exact hp.2
          · exact List.pairwise_cons.mpr ⟨hp.1, hp.2⟩
        · rename_i h1 h2
          refine List.pairwise_cons.mpr ⟨?_, ih hp.2⟩
          intro y hy
          rcases Memory.mem_write hy with hy | ⟨rfl, _⟩
          · exact hp.1 y hy
          · show k < a
            omega
  · intro c hc
    rcases Memory.mem_write hc with hc | ⟨rfl, hb⟩
    · exact hm.2 c hc
    · exact ⟨hb, ha⟩

/-- Writing some bytes that end inside the heap keeps the canonical form. -/
theorem Memory.canonical_writeBytes {m : Memory} (hm : Memory.Canonical m) (bs : List Byte) {a : Nat}
    (ha : a + bs.length ≤ 32768) : Memory.Canonical (Memory.writeBytes m a bs) := by
  induction bs generalizing m a with
  | nil => exact hm
  | cons b bs ih =>
    simp only [List.length_cons] at ha
    exact ih (Memory.canonical_write hm (by omega) b) (by omega)

/-- An address below every listed one reads 00H. -/
theorem Memory.read_of_lt {m : Memory} {a : Nat} (h : ∀ c ∈ m, a < c.1) : Memory.read m a = 0 := by
  induction m with
  | nil => rfl
  | cons x m ih =>
    obtain ⟨k, v⟩ := x
    have hk : a < k := h (k, v) (List.mem_cons_self ..)
    simp only [Memory.read]
    rw [if_neg (by omega)]
    exact ih (fun c hc => h c (List.mem_cons_of_mem _ hc))

/-- What a read gives after a write. -/
theorem Memory.read_write {m : Memory} (hm : m.Pairwise (fun x y => x.1 < y.1)) (a k : Nat) (b : Byte) :
    Memory.read (Memory.write m a b) k = if k = a then b else Memory.read m k := by
  induction m with
  | nil =>
    simp only [Memory.write]
    split
    · rename_i hb
      subst hb
      simp [Memory.read]
    · simp [Memory.read, eq_comm]
  | cons x m ih =>
    obtain ⟨j, v⟩ := x
    rw [List.pairwise_cons] at hm
    have hlow : ∀ a, a ≤ j → Memory.read m a = 0 := fun a ha =>
      Memory.read_of_lt (fun c hc => lt_of_le_of_lt ha (hm.1 c hc))
    simp only [Memory.write]
    split
    · rename_i haj
      split
      · rename_i hb
        subst hb
        by_cases hk : k = a
        · subst hk
          have hkj : j ≠ k := by omega
          simp [Memory.read, hkj, hlow k (by omega)]
        · simp [hk]
      · by_cases hk : k = a
        · subst hk
          simp [Memory.read]
        · have hak : a ≠ k := fun h => hk h.symm
          simp [Memory.read, hk, hak]
    · split
      · rename_i haj
        subst haj
        split
        · rename_i hb
          subst hb
          by_cases hk : k = a
          · subst hk
            simp [hlow k (le_refl _)]
          · have hak : a ≠ k := fun h => hk h.symm
            simp [Memory.read, hk, hak]
        · by_cases hk : k = a
          · subst hk
            simp [Memory.read]
          · have hak : a ≠ k := fun h => hk h.symm
            simp [Memory.read, hk, hak]
      · simp only [Memory.read]
        rw [ih hm.2]
        by_cases hjk : j = k
        · subst hjk
          have : ¬ j = a := by omega
          simp [this]
        · simp [hjk]

/-- A write leaves every other byte as it was. -/
theorem Memory.read_write_ne {m : Memory} (hm : m.Pairwise (fun x y => x.1 < y.1)) {a k : Nat} (b : Byte)
    (h : k ≠ a) : Memory.read (Memory.write m a b) k = Memory.read m k := by
  rw [Memory.read_write hm, if_neg h]

/-- A write leaves the addresses rising. -/
theorem Memory.rising_write {m : Memory} (hm : m.Pairwise (fun x y => x.1 < y.1)) (a : Nat) (b : Byte) :
    (Memory.write m a b).Pairwise (fun x y => x.1 < y.1) := by
  induction m with
  | nil =>
    simp only [Memory.write]
    split <;> simp
  | cons x m ih =>
    obtain ⟨k, v⟩ := x
    rw [List.pairwise_cons] at hm
    simp only [Memory.write]
    split
    · rename_i hak
      split
      · exact List.pairwise_cons.mpr hm
      · refine List.pairwise_cons.mpr ⟨?_, List.pairwise_cons.mpr hm⟩
        intro y hy
        rcases List.mem_cons.mp hy with rfl | hy
        · exact hak
        · exact lt_trans hak (hm.1 y hy)
    · split
      · rename_i hak
        subst hak
        split
        · exact hm.2
        · exact List.pairwise_cons.mpr ⟨hm.1, hm.2⟩
      · refine List.pairwise_cons.mpr ⟨?_, ih hm.2⟩
        intro y hy
        rcases Memory.mem_write hy with hy | ⟨rfl, _⟩
        · exact hm.1 y hy
        · show k < a
          omega

/-- What a read gives after some bytes are written from an address on. -/
theorem Memory.read_writeBytes {m : Memory} (hm : m.Pairwise (fun x y => x.1 < y.1)) (bs : List Byte) (a k : Nat) :
    Memory.read (Memory.writeBytes m a bs) k =
      if a ≤ k ∧ k < a + bs.length then bs.getD (k - a) 0 else Memory.read m k := by
  induction bs generalizing m a with
  | nil =>
    have : ¬ (a ≤ k ∧ k < a + 0) := by omega
    simp only [Memory.writeBytes, List.length_nil, this, if_false]
  | cons b bs ih =>
    simp only [Memory.writeBytes, List.length_cons]
    rw [ih (Memory.rising_write hm a b), Memory.read_write hm]
    by_cases hka : k = a
    · subst hka
      have h1 : ¬ (k + 1 ≤ k ∧ k < k + 1 + bs.length) := by omega
      have h2 : k ≤ k ∧ k < k + (bs.length + 1) := by omega
      rw [if_neg h1, if_pos rfl, if_pos h2]
      simp
    · by_cases hin : a + 1 ≤ k ∧ k < a + 1 + bs.length
      · have h2 : a ≤ k ∧ k < a + (bs.length + 1) := by omega
        rw [if_pos hin, if_pos h2]
        obtain ⟨d, hd⟩ : ∃ d, k - a = d + 1 := ⟨k - a - 1, by omega⟩
        rw [hd, show k - (a + 1) = d by omega]
        simp
      · have h2 : ¬ (a ≤ k ∧ k < a + (bs.length + 1)) := by omega
        rw [if_neg hin, if_neg hka, if_neg h2]

/-- The bytes read from where some bytes were just written are those bytes. -/
theorem Memory.readBytes_writeBytes {m : Memory} (hm : m.Pairwise (fun x y => x.1 < y.1)) (bs : List Byte) (a : Nat) :
    Memory.readBytes (Memory.writeBytes m a bs) a bs.length = bs := by
  have key : ∀ (n d : Nat), d + n = bs.length →
      Memory.readBytes (Memory.writeBytes m a bs) (a + d) n = bs.drop d := by
    intro n
    induction n with
    | zero =>
      intro d hd
      simp only [Memory.readBytes]
      rw [List.drop_eq_nil_of_le (by omega)]
    | succ n ih =>
      intro d hd
      simp only [Memory.readBytes]
      rw [Memory.read_writeBytes hm, if_pos (by omega), show a + d - a = d by omega,
        show a + d + 1 = a + (d + 1) by omega, ih (d + 1) (by omega)]
      have hlt : d < bs.length := by omega
      rw [List.drop_eq_getElem_cons hlt]
      simp [hlt]
  simpa using key bs.length 0 (by omega)

/-- The empty heap is canonical, and reads 00H everywhere. -/
theorem Memory.canonical_nil : Memory.Canonical [] := ⟨List.Pairwise.nil, fun _ hc => absurd hc (List.not_mem_nil)⟩

/-- The length of a body record: four bytes beside the body (R29). -/
theorem bodyRecord_length (e : EntryIx) (body : List Byte) : (bodyRecord e body).length = body.length + 4 := by
  simp [bodyRecord, byte2]

theorem Memory.readBytes_length (m : Memory) (a n : Nat) : (Memory.readBytes m a n).length = n := by
  induction n generalizing a with
  | zero => rfl
  | succ n ih => simp [Memory.readBytes, ih]

/-- The bytes read within some bytes just written are a part of those bytes. -/
theorem Memory.readBytes_within {m : Memory} (hm : m.Pairwise (fun x y => x.1 < y.1)) (bs : List Byte) (a d n : Nat)
    (hd : d + n ≤ bs.length) : Memory.readBytes (Memory.writeBytes m a bs) (a + d) n = (bs.drop d).take n := by
  induction n generalizing d with
  | zero => simp [Memory.readBytes]
  | succ n ih =>
    have hlt : d < bs.length := by omega
    simp only [Memory.readBytes]
    rw [Memory.read_writeBytes hm, if_pos (by omega), show a + d - a = d by omega,
      show a + d + 1 = a + (d + 1) by omega, ih (d + 1) (by omega), List.drop_eq_getElem_cons hlt, List.take_succ_cons]
    simp [hlt]

/-- A body record just written holds its body (R29). -/
theorem recordBody_written {m : Memory} (hm : m.Pairwise (fun x y => x.1 < y.1)) (e : EntryIx) (body : List Byte)
    (start : Nat) :
    recordBody (Memory.writeBytes m (16 * start) (bodyRecord e body)) ⟨start, body.length⟩ = body := by
  unfold recordBody
  dsimp only
  rw [Memory.readBytes_within hm _ _ _ _ (by rw [bodyRecord_length]; omega)]
  simp [bodyRecord]

/-- A body record just written in a run of the heap is sound (R29). -/
theorem recordSound_written {m : Memory} (hm : m.Pairwise (fun x y => x.1 < y.1)) (e : EntryIx) (body : List Byte)
    (start : Nat) (h1 : 1 ≤ body.length) (h2 : body.length ≤ 240) (h3 : start + granulesFor body.length ≤ 2048) :
    recordSound (Memory.writeBytes m (16 * start) (bodyRecord e body)) e ⟨start, body.length⟩ = true := by
  have h := Memory.readBytes_writeBytes hm (bodyRecord e body) (16 * start)
  rw [bodyRecord_length] at h
  unfold recordSound
  rw [recordBody_written hm, h]
  simp [BodyRef.inHeap, h1, h2, h3, Config.granules]

end Sys2Proof.Machine
end

