-- ==== Sys2Proof/Laws/Allocation.lean ====
section
/-! SUPPORT. The allocation map: one spec lemma for each operation over it; the heap and the entry state list
that a loss of the backup domain and a start-up leave. -/

namespace Sys2Proof.Machine

theorem getElem_giveRun (e : EntryIx) (start n : Nat) (l : List (Option EntryIx)) (g : Nat) (hg : g < l.length) :
    (giveRun e start n l)[g]'(by rw [giveRun_length]; exact hg) =
      if start ≤ g ∧ g < start + n then some e else l[g] := by
  induction l generalizing start n g with
  | nil => simp at hg
  | cons x l ih =>
    cases start with
    | zero =>
      cases n with
      | zero => simp [giveRun]
      | succ n =>
        cases g with
        | zero => simp [giveRun]
        | succ g => simp [giveRun, ih 0 n g (by simpa using hg)]
    | succ k =>
      cases g with
      | zero => simp [giveRun]
      | succ g =>
        simp only [giveRun, List.getElem_cons_succ, ih k n g (by simpa using hg)]
        congr 1
        simp only [eq_iff_iff]
        omega

/-- A granule of the map after a run is given to an entry. -/
theorem get_giveInMap (e : EntryIx) (start n : Nat) (m : Vector (Option EntryIx) 2048) (g : Fin 2048) :
    (giveInMap e start n m).get g = if start ≤ g.val ∧ g.val < start + n then some e else m.get g := by
  have := getElem_giveRun e start n m.toList g.val (by simp)
  simpa [giveInMap, overList, Vector.get_eq_getElem] using this

/-- A granule of the map after an entry's granules are made FREE. -/
theorem get_freeInMap (e : EntryIx) (m : Vector (Option EntryIx) 2048) (g : Fin 2048) :
    (freeInMap e m).get g = if m.get g = some e then none else m.get g := by
  simp [freeInMap, overList, freeOwned, Vector.get_eq_getElem]

/-- First fit answers the start of a run of FREE elements (R32). -/
theorem firstFit_run {n pos start len r : Nat} {l : List (Option EntryIx)} (hs : start + len = pos ∨ len = 0)
    (h : firstFit n pos start len l = some r) :
    (0 < n → r + n ≤ pos + l.length) ∧ ∀ k (hk : k < l.length), r ≤ pos + k → pos + k < r + n → l[k] = none := by
  induction l generalizing pos start len with
  | nil => simp [firstFit] at h
  | cons x l ih =>
    cases x with
    | none =>
      simp only [firstFit] at h
      split at h
      · simp only [Option.some.injEq] at h
        simp only [List.length_cons]
        refine ⟨fun hn => by split at h <;> omega, ?_⟩
        intro k hk h1 h2
        have hk0 : k = 0 := by split at h <;> omega
        subst hk0
        rfl
      · have := ih (pos := pos + 1) (by split <;> omega) h
        refine ⟨fun hn => by simp only [List.length_cons]; have := this.1 hn; omega, ?_⟩
        intro k hk h1 h2
        cases k with
        | zero => rfl
        | succ k => exact this.2 k (by simpa using hk) (by omega) (by omega)
    | some e =>
      simp only [firstFit] at h
      have hge : ∀ (l : List (Option EntryIx)) (pos start len : Nat), (len = 0 ∨ start + len = pos) →
          firstFit n pos start len l = some r → (if len = 0 then pos else start) ≤ r := by
        intro l
        induction l with
        | nil => intro _ _ _ _ h; simp [firstFit] at h
        | cons y l ihl =>
          intro pos start len hl h
          cases y with
          | none =>
            simp only [firstFit] at h
            split at h
            · simp only [Option.some.injEq] at h
              omega
            · have h3 := ihl _ _ _ (by split <;> omega) h
              simpa using h3
          | some e' =>
            simp only [firstFit] at h
            have h3 := ihl _ _ _ (by simp) h
            simp only [if_true] at h3
            split <;> omega
      have h3 := ih (pos := pos + 1) (by omega) h
      have h4 := hge _ _ _ _ (by simp) h
      simp only [if_true] at h4
      refine ⟨fun hn => by simp only [List.length_cons]; have := h3.1 hn; omega, ?_⟩
      intro k hk h1 h2
      cases k with
      | zero => omega
      | succ k => exact h3.2 k (by simpa using hk) (by omega) (by omega)

/-- From the start of the top run on every element is FREE (R32). -/
theorem topStart_run {l : List (Option EntryIx)} {pos best : Nat} (h : best ≤ pos) :
    best ≤ topStart pos best l ∧ topStart pos best l ≤ pos + l.length ∧
      ∀ k (hk : k < l.length), topStart pos best l ≤ pos + k → l[k] = none := by
  induction l generalizing pos best with
  | nil => simpa [topStart] using h
  | cons x l ih =>
    cases x with
    | none =>
      simp only [topStart, List.length_cons]
      obtain ⟨h1, h2, h3⟩ := ih (pos := pos + 1) (best := best) (by omega)
      refine ⟨h1, by omega, ?_⟩
      intro k hk h4
      cases k with
      | zero => rfl
      | succ k => exact h3 k (by omega) (by omega)
    | some e =>
      simp only [topStart, List.length_cons]
      obtain ⟨h1, h2, h3⟩ := ih (pos := pos + 1) (best := pos + 1) (by omega)
      refine ⟨by omega, by omega, ?_⟩
      intro k hk h4
      cases k with
      | zero => omega
      | succ k => exact h3 k (by omega) (by omega)

/-- A run that the Store Controller allocates lies in the heap and is FREE (R32). -/
theorem allocate_run {c : StoreControl} {n r : Nat} (hn : 0 < n) (h : allocate c n = some r) :
    r + n ≤ 2048 ∧ ∀ g : Fin 2048, r ≤ g.val → g.val < r + n → c.map.get g = none := by
  unfold allocate at h
  split at h
  · split at h
    · rename_i ht
      simp only [Option.some.injEq] at h
      obtain ⟨_, h1, h2⟩ := topStart_run (l := c.map.toList) (pos := 0) (best := 0) (by omega)
      simp only [Vector.length_toList] at h1
      unfold topRun at ht
      refine ⟨by omega, ?_⟩
      intro g hg1 _
      have := h2 g.val (by simp) (by omega)
      simpa [Vector.get_eq_getElem] using this
    · cases h
  · obtain ⟨h1, h2⟩ := firstFit_run (by omega) h
    simp only [Vector.length_toList] at h1
    refine ⟨by have := h1 hn; omega, ?_⟩
    intro g hg1 hg2
    have := h2 g.val (by simp) (by omega) (by omega)
    simpa [Vector.get_eq_getElem] using this

/-- The lowest allocated granule at or above a frontier: it is allocated, and every granule between is FREE (R42). -/
theorem lowestFrom_run {f pos g : Nat} {e : EntryIx} {l : List (Option EntryIx)} (h : lowestFrom f pos l = some (g, e)) :
    f ≤ g ∧ pos ≤ g ∧ (∃ hg : g - pos < l.length, l[g - pos] = some e) ∧
      ∀ k (hk : k < l.length), f ≤ pos + k → pos + k < g → l[k] = none := by
  induction l generalizing pos with
  | nil => simp [lowestFrom] at h
  | cons x l ih =>
    have step : lowestFrom f (pos + 1) l = some (g, e) → (f ≤ pos → x = none) →
        f ≤ g ∧ pos ≤ g ∧ (∃ hg : g - pos < (x :: l).length, (x :: l)[g - pos] = some e) ∧
          ∀ k (hk : k < (x :: l).length), f ≤ pos + k → pos + k < g → (x :: l)[k] = none := by
      intro h hx
      obtain ⟨h1, h2, ⟨h3, h4⟩, h5⟩ := ih h
      have he : g - pos = (g - (pos + 1)) + 1 := by omega
      refine ⟨h1, by omega, ⟨by simp only [List.length_cons]; omega, ?_⟩, ?_⟩
      · simp only [he, List.getElem_cons_succ]
        exact h4
      · intro k hk h6 h7
        cases k with
        | zero => exact hx (by omega)
        | succ k => exact h5 k (by simpa using hk) (by omega) (by omega)
    cases x with
    | none => exact step (by simpa [lowestFrom] using h) (fun _ => rfl)
    | some e' =>
      simp only [lowestFrom] at h
      split at h
      · simp only [Option.some.injEq, Prod.mk.injEq] at h
        obtain ⟨rfl, rfl⟩ := h
        refine ⟨by omega, by omega, ⟨by simp, by simp⟩, ?_⟩
        intro k hk h6 h7
        omega
      · exact step h (fun hf => by omega)

/-- The record found for a compaction step is the lowest allocated granule, and no record lies across the frontier (R42). -/
theorem nextRecord_some {c : StoreControl} {x : Nat × EntryIx} (h : nextRecord c = some x) :
    lowestFrom c.frontier 0 c.map.toList = some x ∧ acrossFrontier c = false := by
  unfold nextRecord at h
  split at h
  · cases h
  · rename_i hn
    exact ⟨h, by simpa using hn⟩

/-- The heap that a loss of the backup domain leaves is in canonical form. -/
theorem lostHeap_wf (n : Nat) : Memory.wf (lostHeap n) = true := by
  rw [Memory.wf_iff]
  unfold lostHeap
  constructor
  · rw [List.pairwise_filterMap]
    refine List.Pairwise.imp ?_ (List.pairwise_lt_range)
    intro a b hab x hx y hy
    split at hx
    · cases hx
    · split at hy
      · cases hy
      · cases hx
        cases hy
        exact hab
  · intro c hc
    simp only [List.mem_filterMap, List.mem_range] at hc
    obtain ⟨a, ha, h⟩ := hc
    split at h
    · cases h
    · rename_i hne
      cases h
      exact ⟨hne, ha⟩

/-- The entry state list is built from the headers (R178). -/
theorem get_statesOf (p : ProgramStore) (e : EntryIx) :
    (statesOf p).get e = (p.headers.get e).header.state.entryState := by
  simp [statesOf, Vector.get]
  rfl

end Sys2Proof.Machine
end

