-- ==== Sys2Proof/Laws/CalendarDays.lean ====
section
/-! SUPPORT. One day of the calendar (R52 to R55). -/

namespace Sys2Proof.Machine

/-- The next day is in range, one day later. -/
theorem nextDay_spec (r : Reading) (h : r.inRange = true) (hl : ¬ (r.year = 2199 ∧ r.month = 12 ∧ r.day = 31)) :
    r.nextDay.inRange = true ∧ daysFrom2000 r.nextDay.year r.nextDay.month r.nextDay.day = daysFrom2000 r.year
        r.month r.day + 1 := by
  simp only [Reading.inRange, decide_eq_true_eq] at h
  obtain ⟨h1, h2, h3, h4, h5, h6, h7, h8, h9⟩ := h
  have hld : 28 ≤ lastDay r.year r.month := by unfold lastDay; split <;> (try split) <;> omega
  unfold Reading.nextDay
  split
  · rename_i hc
    refine ⟨?_, ?_⟩
    · simp only [Reading.inRange, decide_eq_true_eq]; omega
    · simp only [daysFrom2000]; omega
  · rename_i hc
    have hd : r.day = lastDay r.year r.month := by omega
    split
    · rename_i hm
      have hld2 : 28 ≤ lastDay r.year (r.month+1) := by unfold lastDay; split <;> (try split) <;> omega
      refine ⟨?_, ?_⟩
      · simp only [Reading.inRange, decide_eq_true_eq]; omega
      · simp only [daysFrom2000]
        obtain ⟨m, hm⟩ : ∃ m, r.month = m + 1 := ⟨r.month - 1, by omega⟩
        rw [hm] at hd ⊢
        simp only [Nat.add_sub_cancel, daysInMonths]; omega
    · rename_i hm
      have hm : r.month = 12 := by omega
      have hd31 : r.day = 31 := by rw [hd, hm]; rfl
      have hld2 : 28 ≤ lastDay (r.year+1) 1 := by unfold lastDay; split <;> (try split) <;> omega
      have hm12 : ∀ y, daysInMonths y 11 + 31 = if leapYear y then 366 else 365 := by
        intro y
        unfold daysInMonths daysInMonths daysInMonths daysInMonths daysInMonths daysInMonths daysInMonths daysInMonths daysInMonths daysInMonths daysInMonths daysInMonths
        simp [lastDay]
        split <;> omega
      refine ⟨?_, ?_⟩
      · simp only [Reading.inRange, decide_eq_true_eq]; omega
      · obtain ⟨y, hy⟩ : ∃ y, r.year = 2000 + y := ⟨r.year - 2000, by omega⟩
        have e2 : r.year - 2000 = y := by rw [hy, Nat.add_sub_cancel_left]
        have e1 : r.year + 1 - 2000 = y + 1 := by rw [hy, Nat.add_assoc, Nat.add_sub_cancel_left]
        unfold daysFrom2000
        rw [hm, hd31]
        dsimp only
        rw [e1, e2, daysInYears, ← hy, ← hm12 r.year]; clear h1 h2 hy e1 e2
        have : daysInMonths (r.year + 1) (1 - 1) = 0 := rfl
        rw [this, show 12 - 1 = 11 from rfl]
        generalize daysInMonths r.year 11 = z
        generalize daysInYears y = w
        clear hm12
        omega

/-- Another hour of the day keeps a reading in range. -/
theorem inRange_withHour (r : Reading) (k : Nat) (h : r.inRange = true) (hk : k ≤ 23) : ({ r with hour := k } : Reading).inRange = true := by
  simp only [Reading.inRange, decide_eq_true_eq] at h ⊢
  omega

theorem lastDay_bounds (y m : Nat) : 28 ≤ lastDay y m ∧ lastDay y m ≤ 31 := by
  unfold lastDay
  split <;> (try split) <;> omega

/-- A transition's date (R58): the occurrence of its weekday in the month that its week names, the last one for week 5. -/
theorem transitionDay_spec (t : Transition) (y : Nat) (hd : 1 ≤ t.weekday) (hd' : t.weekday ≤ 7) (hw : 1 ≤ t.week)
    (hw' : t.week ≤ 5) :
    1 ≤ transitionDay t y ∧ transitionDay t y ≤ lastDay y t.month ∧
      weekdayOf y t.month (transitionDay t y) = t.weekday ∧
      (t.week ≤ 4 → 7 * (t.week - 1) < transitionDay t y ∧ transitionDay t y ≤ 7 * t.week) ∧
      (t.week = 5 → lastDay y t.month < transitionDay t y + 7) := by
  have hl := lastDay_bounds y t.month
  unfold transitionDay firstOccurrence weekdayOf daysFrom2000
  generalize daysInYears (y - 2000) + daysInMonths y (t.month - 1) = n
  generalize lastDay y t.month = l at *
  generalize t.weekday = w at *
  generalize t.week = k at *
  split <;> refine ⟨?_, ?_, ?_, ?_, ?_⟩ <;> omega

end Sys2Proof.Machine
end

