-- ==== Sys2Proof/Laws/State.lean ====
section
/-! SUPPORT. One lemma per field per update of the state, each true by rfl, and the lemmas of the per-segment values. -/

namespace Sys2Proof

@[simp] theorem PerSegment.get_set_same {α : Type} (p : PerSegment α) (i : Seg) (a : α) : (p.set i a).get i = a := by
  match i with
  | 0 => rfl
  | 1 => rfl
  | 2 => rfl
  | 3 => rfl

theorem PerSegment.get_set_ne {α : Type} (p : PerSegment α) (i j : Seg) (a : α) (h : j ≠ i) :
    (p.set i a).get j = p.get j := by
  match i, j with
  | 0, 0 => exact absurd rfl h
  | 0, 1 => rfl
  | 0, 2 => rfl
  | 0, 3 => rfl
  | 1, 0 => rfl
  | 1, 1 => exact absurd rfl h
  | 1, 2 => rfl
  | 1, 3 => rfl
  | 2, 0 => rfl
  | 2, 1 => rfl
  | 2, 2 => exact absurd rfl h
  | 2, 3 => rfl
  | 3, 0 => rfl
  | 3, 1 => rfl
  | 3, 2 => rfl
  | 3, 3 => exact absurd rfl h

theorem PerSegment.get_set {α : Type} (p : PerSegment α) (i j : Seg) (a : α) :
    (p.set i a).get j = if j = i then a else p.get j := by
  by_cases h : j = i
  · subst h
    simp
  · rw [if_neg h, PerSegment.get_set_ne p i j a h]

@[simp] theorem PerSegment.get_map {α β : Type} (f : α → β) (p : PerSegment α) (i : Seg) :
    (p.map f).get i = f (p.get i) := by
  match i with
  | 0 => rfl
  | 1 => rfl
  | 2 => rfl
  | 3 => rfl

@[simp] theorem PerSegment.get_same {α : Type} (a : α) (i : Seg) : (PerSegment.same a).get i = a := by
  match i with
  | 0 => rfl
  | 1 => rfl
  | 2 => rfl
  | 3 => rfl

namespace Machine

/-! ### onPort -/

@[simp] theorem onPort_pending (i : Seg) (f : Port → Port) (s : State) : (onPort i f s).pending = s.pending := rfl

@[simp] theorem onPort_free (i : Seg) (f : Port → Port) (s : State) : (onPort i f s).free = s.free := rfl

@[simp] theorem onPort_link (i : Seg) (f : Port → Port) (s : State) : (onPort i f s).link = s.link := rfl

@[simp] theorem onPort_store (i : Seg) (f : Port → Port) (s : State) : (onPort i f s).store = s.store := rfl

@[simp] theorem onPort_ctl (i : Seg) (f : Port → Port) (s : State) : (onPort i f s).ctl = s.ctl := rfl

@[simp] theorem onPort_cal (i : Seg) (f : Port → Port) (s : State) : (onPort i f s).cal = s.cal := rfl

@[simp] theorem onPort_matcher (i : Seg) (f : Port → Port) (s : State) : (onPort i f s).matcher = s.matcher := rfl

@[simp] theorem onPort_dispatch (i : Seg) (f : Port → Port) (s : State) : (onPort i f s).dispatch = s.dispatch := rfl

@[simp] theorem onPort_notices (i : Seg) (f : Port → Port) (s : State) : (onPort i f s).notices = s.notices := rfl

@[simp] theorem onPort_supply (i : Seg) (f : Port → Port) (s : State) : (onPort i f s).supply = s.supply := rfl

/-! ### setQueue -/

@[simp] theorem setQueue_pending (i : Seg) (q : List Job) (s : State) : (setQueue i q s).pending = s.pending := rfl

@[simp] theorem setQueue_free (i : Seg) (q : List Job) (s : State) : (setQueue i q s).free = s.free := rfl

@[simp] theorem setQueue_link (i : Seg) (q : List Job) (s : State) : (setQueue i q s).link = s.link := rfl

@[simp] theorem setQueue_store (i : Seg) (q : List Job) (s : State) : (setQueue i q s).store = s.store := rfl

@[simp] theorem setQueue_ctl (i : Seg) (q : List Job) (s : State) : (setQueue i q s).ctl = s.ctl := rfl

@[simp] theorem setQueue_cal (i : Seg) (q : List Job) (s : State) : (setQueue i q s).cal = s.cal := rfl

@[simp] theorem setQueue_matcher (i : Seg) (q : List Job) (s : State) : (setQueue i q s).matcher = s.matcher := rfl

@[simp] theorem setQueue_dispatch_nextTag (i : Seg) (q : List Job) (s : State) :
    (setQueue i q s).dispatch.nextTag = s.dispatch.nextTag := rfl

@[simp] theorem setQueue_dispatch_hold (i : Seg) (q : List Job) (s : State) :
    (setQueue i q s).dispatch.hold = s.dispatch.hold := rfl

@[simp] theorem setQueue_dispatch_segHold (i : Seg) (q : List Job) (s : State) :
    (setQueue i q s).dispatch.segHold = s.dispatch.segHold := rfl

@[simp] theorem setQueue_dispatch_highArmed (i : Seg) (q : List Job) (s : State) :
    (setQueue i q s).dispatch.highArmed = s.dispatch.highArmed := rfl

@[simp] theorem setQueue_dispatch_ended (i : Seg) (q : List Job) (s : State) :
    (setQueue i q s).dispatch.ended = s.dispatch.ended := rfl

@[simp] theorem setQueue_ports (i : Seg) (q : List Job) (s : State) : (setQueue i q s).ports = s.ports := rfl

@[simp] theorem setQueue_notices (i : Seg) (q : List Job) (s : State) : (setQueue i q s).notices = s.notices := rfl

@[simp] theorem setQueue_supply (i : Seg) (q : List Job) (s : State) : (setQueue i q s).supply = s.supply := rfl

/-! ### setEnded -/

@[simp] theorem setEnded_pending (i : Seg) (l : List JobEnd) (s : State) : (setEnded i l s).pending = s.pending := rfl

@[simp] theorem setEnded_free (i : Seg) (l : List JobEnd) (s : State) : (setEnded i l s).free = s.free := rfl

@[simp] theorem setEnded_link (i : Seg) (l : List JobEnd) (s : State) : (setEnded i l s).link = s.link := rfl

@[simp] theorem setEnded_store (i : Seg) (l : List JobEnd) (s : State) : (setEnded i l s).store = s.store := rfl

@[simp] theorem setEnded_ctl (i : Seg) (l : List JobEnd) (s : State) : (setEnded i l s).ctl = s.ctl := rfl

@[simp] theorem setEnded_cal (i : Seg) (l : List JobEnd) (s : State) : (setEnded i l s).cal = s.cal := rfl

@[simp] theorem setEnded_matcher (i : Seg) (l : List JobEnd) (s : State) : (setEnded i l s).matcher = s.matcher := rfl

@[simp] theorem setEnded_dispatch_queues (i : Seg) (l : List JobEnd) (s : State) :
    (setEnded i l s).dispatch.queues = s.dispatch.queues := rfl

@[simp] theorem setEnded_dispatch_nextTag (i : Seg) (l : List JobEnd) (s : State) :
    (setEnded i l s).dispatch.nextTag = s.dispatch.nextTag := rfl

@[simp] theorem setEnded_dispatch_hold (i : Seg) (l : List JobEnd) (s : State) :
    (setEnded i l s).dispatch.hold = s.dispatch.hold := rfl

@[simp] theorem setEnded_dispatch_segHold (i : Seg) (l : List JobEnd) (s : State) :
    (setEnded i l s).dispatch.segHold = s.dispatch.segHold := rfl

@[simp] theorem setEnded_dispatch_highArmed (i : Seg) (l : List JobEnd) (s : State) :
    (setEnded i l s).dispatch.highArmed = s.dispatch.highArmed := rfl

@[simp] theorem setEnded_ports (i : Seg) (l : List JobEnd) (s : State) : (setEnded i l s).ports = s.ports := rfl

@[simp] theorem setEnded_notices (i : Seg) (l : List JobEnd) (s : State) : (setEnded i l s).notices = s.notices := rfl

@[simp] theorem setEnded_supply (i : Seg) (l : List JobEnd) (s : State) : (setEnded i l s).supply = s.supply := rfl

/-! ### makeNotice -/

@[simp] theorem makeNotice_pending (b : NoticeBody) (s : State) : (makeNotice b s).pending = s.pending := rfl

@[simp] theorem makeNotice_free (b : NoticeBody) (s : State) : (makeNotice b s).free = s.free := rfl

@[simp] theorem makeNotice_link (b : NoticeBody) (s : State) : (makeNotice b s).link = s.link := rfl

@[simp] theorem makeNotice_store (b : NoticeBody) (s : State) : (makeNotice b s).store = s.store := rfl

@[simp] theorem makeNotice_ctl (b : NoticeBody) (s : State) : (makeNotice b s).ctl = s.ctl := rfl

@[simp] theorem makeNotice_cal (b : NoticeBody) (s : State) : (makeNotice b s).cal = s.cal := rfl

@[simp] theorem makeNotice_matcher (b : NoticeBody) (s : State) : (makeNotice b s).matcher = s.matcher := rfl

@[simp] theorem makeNotice_dispatch (b : NoticeBody) (s : State) : (makeNotice b s).dispatch = s.dispatch := rfl

@[simp] theorem makeNotice_ports (b : NoticeBody) (s : State) : (makeNotice b s).ports = s.ports := rfl

@[simp] theorem makeNotice_notices_timer (b : NoticeBody) (s : State) :
    (makeNotice b s).notices.timer = s.notices.timer := rfl

@[simp] theorem makeNotice_notices_resendCount (b : NoticeBody) (s : State) :
    (makeNotice b s).notices.resendCount = s.notices.resendCount := rfl

@[simp] theorem makeNotice_notices_gapCount (b : NoticeBody) (s : State) :
    (makeNotice b s).notices.gapCount = s.notices.gapCount := rfl

@[simp] theorem makeNotice_notices_mask (b : NoticeBody) (s : State) :
    (makeNotice b s).notices.mask = s.notices.mask := rfl

@[simp] theorem makeNotice_notices_hostAbsent (b : NoticeBody) (s : State) :
    (makeNotice b s).notices.hostAbsent = s.notices.hostAbsent := rfl

@[simp] theorem makeNotice_supply (b : NoticeBody) (s : State) : (makeNotice b s).supply = s.supply := rfl

/-! ### grant -/

@[simp] theorem grant_pending (r : Requester) (s : State) : (grant r s).pending = s.pending := rfl

@[simp] theorem grant_free (r : Requester) (s : State) : (grant r s).free = s.free := rfl

@[simp] theorem grant_link (r : Requester) (s : State) : (grant r s).link = s.link := rfl

@[simp] theorem grant_store (r : Requester) (s : State) : (grant r s).store = s.store := rfl

@[simp] theorem grant_ctl_map (r : Requester) (s : State) :
    (grant r s).ctl.map = s.ctl.map := rfl

@[simp] theorem grant_ctl_states (r : Requester) (s : State) :
    (grant r s).ctl.states = s.ctl.states := rfl

@[simp] theorem grant_ctl_compacting (r : Requester) (s : State) :
    (grant r s).ctl.compacting = s.ctl.compacting := rfl

@[simp] theorem grant_ctl_frontier (r : Requester) (s : State) :
    (grant r s).ctl.frontier = s.ctl.frontier := rfl

@[simp] theorem grant_ctl_moved (r : Requester) (s : State) :
    (grant r s).ctl.moved = s.ctl.moved := rfl

@[simp] theorem grant_cal (r : Requester) (s : State) : (grant r s).cal = s.cal := rfl

@[simp] theorem grant_matcher (r : Requester) (s : State) : (grant r s).matcher = s.matcher := rfl

@[simp] theorem grant_dispatch (r : Requester) (s : State) : (grant r s).dispatch = s.dispatch := rfl

@[simp] theorem grant_ports (r : Requester) (s : State) : (grant r s).ports = s.ports := rfl

@[simp] theorem grant_notices (r : Requester) (s : State) : (grant r s).notices = s.notices := rfl

@[simp] theorem grant_supply (r : Requester) (s : State) : (grant r s).supply = s.supply := rfl

/-! ### writeHeader -/

@[simp] theorem writeHeader_pending (e : EntryIx) (h : Header) (s : State) : (writeHeader e h s).pending = s.pending := rfl

@[simp] theorem writeHeader_free (e : EntryIx) (h : Header) (s : State) : (writeHeader e h s).free = s.free := rfl

@[simp] theorem writeHeader_link (e : EntryIx) (h : Header) (s : State) : (writeHeader e h s).link = s.link := rfl

@[simp] theorem writeHeader_store_heap (e : EntryIx) (h : Header) (s : State) :
    (writeHeader e h s).store.heap = s.store.heap := rfl

@[simp] theorem writeHeader_store_segRecords (e : EntryIx) (h : Header) (s : State) :
    (writeHeader e h s).store.segRecords = s.store.segRecords := rfl

@[simp] theorem writeHeader_store_daylightRecord (e : EntryIx) (h : Header) (s : State) :
    (writeHeader e h s).store.daylightRecord = s.store.daylightRecord := rfl

@[simp] theorem writeHeader_ctl_map (e : EntryIx) (h : Header) (s : State) :
    (writeHeader e h s).ctl.map = s.ctl.map := rfl

@[simp] theorem writeHeader_ctl_compacting (e : EntryIx) (h : Header) (s : State) :
    (writeHeader e h s).ctl.compacting = s.ctl.compacting := rfl

@[simp] theorem writeHeader_ctl_frontier (e : EntryIx) (h : Header) (s : State) :
    (writeHeader e h s).ctl.frontier = s.ctl.frontier := rfl

@[simp] theorem writeHeader_ctl_moved (e : EntryIx) (h : Header) (s : State) :
    (writeHeader e h s).ctl.moved = s.ctl.moved := rfl

@[simp] theorem writeHeader_ctl_order (e : EntryIx) (h : Header) (s : State) :
    (writeHeader e h s).ctl.order = s.ctl.order := rfl

@[simp] theorem writeHeader_cal (e : EntryIx) (h : Header) (s : State) : (writeHeader e h s).cal = s.cal := rfl

@[simp] theorem writeHeader_matcher (e : EntryIx) (h : Header) (s : State) : (writeHeader e h s).matcher = s.matcher := rfl

@[simp] theorem writeHeader_dispatch (e : EntryIx) (h : Header) (s : State) : (writeHeader e h s).dispatch = s.dispatch := rfl

@[simp] theorem writeHeader_ports (e : EntryIx) (h : Header) (s : State) : (writeHeader e h s).ports = s.ports := rfl

@[simp] theorem writeHeader_notices (e : EntryIx) (h : Header) (s : State) : (writeHeader e h s).notices = s.notices := rfl

@[simp] theorem writeHeader_supply (e : EntryIx) (h : Header) (s : State) : (writeHeader e h s).supply = s.supply := rfl

/-! ### freeGranules -/

@[simp] theorem freeGranules_pending (e : EntryIx) (s : State) : (freeGranules e s).pending = s.pending := rfl

@[simp] theorem freeGranules_free (e : EntryIx) (s : State) : (freeGranules e s).free = s.free := rfl

@[simp] theorem freeGranules_link (e : EntryIx) (s : State) : (freeGranules e s).link = s.link := rfl

@[simp] theorem freeGranules_store (e : EntryIx) (s : State) : (freeGranules e s).store = s.store := rfl

@[simp] theorem freeGranules_ctl_states (e : EntryIx) (s : State) :
    (freeGranules e s).ctl.states = s.ctl.states := rfl

@[simp] theorem freeGranules_ctl_compacting (e : EntryIx) (s : State) :
    (freeGranules e s).ctl.compacting = s.ctl.compacting := rfl

@[simp] theorem freeGranules_ctl_frontier (e : EntryIx) (s : State) :
    (freeGranules e s).ctl.frontier = s.ctl.frontier := rfl

@[simp] theorem freeGranules_ctl_moved (e : EntryIx) (s : State) :
    (freeGranules e s).ctl.moved = s.ctl.moved := rfl

@[simp] theorem freeGranules_ctl_order (e : EntryIx) (s : State) :
    (freeGranules e s).ctl.order = s.ctl.order := rfl

@[simp] theorem freeGranules_cal (e : EntryIx) (s : State) : (freeGranules e s).cal = s.cal := rfl

@[simp] theorem freeGranules_matcher (e : EntryIx) (s : State) : (freeGranules e s).matcher = s.matcher := rfl

@[simp] theorem freeGranules_dispatch (e : EntryIx) (s : State) : (freeGranules e s).dispatch = s.dispatch := rfl

@[simp] theorem freeGranules_ports (e : EntryIx) (s : State) : (freeGranules e s).ports = s.ports := rfl

@[simp] theorem freeGranules_notices (e : EntryIx) (s : State) : (freeGranules e s).notices = s.notices := rfl

@[simp] theorem freeGranules_supply (e : EntryIx) (s : State) : (freeGranules e s).supply = s.supply := rfl

/-! ### removeTo -/

@[simp] theorem removeTo_pending (i : Seg) (q : List Job) (s : State) : (removeTo i q s).pending = s.pending := rfl

@[simp] theorem removeTo_free (i : Seg) (q : List Job) (s : State) : (removeTo i q s).free = s.free := rfl

@[simp] theorem removeTo_link (i : Seg) (q : List Job) (s : State) : (removeTo i q s).link = s.link := rfl

@[simp] theorem removeTo_store (i : Seg) (q : List Job) (s : State) : (removeTo i q s).store = s.store := rfl

@[simp] theorem removeTo_ctl (i : Seg) (q : List Job) (s : State) : (removeTo i q s).ctl = s.ctl := rfl

@[simp] theorem removeTo_cal (i : Seg) (q : List Job) (s : State) : (removeTo i q s).cal = s.cal := rfl

@[simp] theorem removeTo_matcher (i : Seg) (q : List Job) (s : State) : (removeTo i q s).matcher = s.matcher := rfl

@[simp] theorem removeTo_dispatch_nextTag (i : Seg) (q : List Job) (s : State) :
    (removeTo i q s).dispatch.nextTag = s.dispatch.nextTag := rfl

@[simp] theorem removeTo_dispatch_hold (i : Seg) (q : List Job) (s : State) :
    (removeTo i q s).dispatch.hold = s.dispatch.hold := rfl

@[simp] theorem removeTo_dispatch_segHold (i : Seg) (q : List Job) (s : State) :
    (removeTo i q s).dispatch.segHold = s.dispatch.segHold := rfl

@[simp] theorem removeTo_dispatch_ended (i : Seg) (q : List Job) (s : State) :
    (removeTo i q s).dispatch.ended = s.dispatch.ended := rfl

@[simp] theorem removeTo_ports (i : Seg) (q : List Job) (s : State) : (removeTo i q s).ports = s.ports := rfl

@[simp] theorem removeTo_notices (i : Seg) (q : List Job) (s : State) : (removeTo i q s).notices = s.notices := rfl

@[simp] theorem removeTo_supply (i : Seg) (q : List Job) (s : State) : (removeTo i q s).supply = s.supply := rfl

/-! ### markStale -/

@[simp] theorem markStale_pending (owns : EntryIx → Bool) (s : State) : (markStale owns s).pending = s.pending := rfl

@[simp] theorem markStale_free (owns : EntryIx → Bool) (s : State) : (markStale owns s).free = s.free := rfl

@[simp] theorem markStale_link (owns : EntryIx → Bool) (s : State) : (markStale owns s).link = s.link := rfl

@[simp] theorem markStale_store (owns : EntryIx → Bool) (s : State) : (markStale owns s).store = s.store := rfl

@[simp] theorem markStale_ctl (owns : EntryIx → Bool) (s : State) : (markStale owns s).ctl = s.ctl := rfl

@[simp] theorem markStale_cal (owns : EntryIx → Bool) (s : State) : (markStale owns s).cal = s.cal := rfl

@[simp] theorem markStale_matcher (owns : EntryIx → Bool) (s : State) : (markStale owns s).matcher = s.matcher := rfl

@[simp] theorem markStale_dispatch_nextTag (owns : EntryIx → Bool) (s : State) :
    (markStale owns s).dispatch.nextTag = s.dispatch.nextTag := rfl

@[simp] theorem markStale_dispatch_hold (owns : EntryIx → Bool) (s : State) :
    (markStale owns s).dispatch.hold = s.dispatch.hold := rfl

@[simp] theorem markStale_dispatch_segHold (owns : EntryIx → Bool) (s : State) :
    (markStale owns s).dispatch.segHold = s.dispatch.segHold := rfl

@[simp] theorem markStale_dispatch_highArmed (owns : EntryIx → Bool) (s : State) :
    (markStale owns s).dispatch.highArmed = s.dispatch.highArmed := rfl

@[simp] theorem markStale_ports (owns : EntryIx → Bool) (s : State) : (markStale owns s).ports = s.ports := rfl

@[simp] theorem markStale_notices (owns : EntryIx → Bool) (s : State) : (markStale owns s).notices = s.notices := rfl

@[simp] theorem markStale_supply (owns : EntryIx → Bool) (s : State) : (markStale owns s).supply = s.supply := rfl

/-! ### spendHigh -/

@[simp] theorem spendHigh_pending (i : Seg) (s : State) : (spendHigh i s).pending = s.pending := rfl

@[simp] theorem spendHigh_free (i : Seg) (s : State) : (spendHigh i s).free = s.free := rfl

@[simp] theorem spendHigh_link (i : Seg) (s : State) : (spendHigh i s).link = s.link := rfl

@[simp] theorem spendHigh_store (i : Seg) (s : State) : (spendHigh i s).store = s.store := rfl

@[simp] theorem spendHigh_ctl (i : Seg) (s : State) : (spendHigh i s).ctl = s.ctl := rfl

@[simp] theorem spendHigh_cal (i : Seg) (s : State) : (spendHigh i s).cal = s.cal := rfl

@[simp] theorem spendHigh_matcher (i : Seg) (s : State) : (spendHigh i s).matcher = s.matcher := rfl

@[simp] theorem spendHigh_dispatch_queues (i : Seg) (s : State) :
    (spendHigh i s).dispatch.queues = s.dispatch.queues := rfl

@[simp] theorem spendHigh_dispatch_nextTag (i : Seg) (s : State) :
    (spendHigh i s).dispatch.nextTag = s.dispatch.nextTag := rfl

@[simp] theorem spendHigh_dispatch_hold (i : Seg) (s : State) :
    (spendHigh i s).dispatch.hold = s.dispatch.hold := rfl

@[simp] theorem spendHigh_dispatch_segHold (i : Seg) (s : State) :
    (spendHigh i s).dispatch.segHold = s.dispatch.segHold := rfl

@[simp] theorem spendHigh_dispatch_ended (i : Seg) (s : State) :
    (spendHigh i s).dispatch.ended = s.dispatch.ended := rfl

@[simp] theorem spendHigh_ports (i : Seg) (s : State) : (spendHigh i s).ports = s.ports := rfl

@[simp] theorem spendHigh_notices (i : Seg) (s : State) : (spendHigh i s).notices = s.notices := rfl

@[simp] theorem spendHigh_supply (i : Seg) (s : State) : (spendHigh i s).supply = s.supply := rfl

/-! ### insertOffer -/

@[simp] theorem insertOffer_pending (i : Seg) (o : Offer) (s : State) : (insertOffer i o s).pending = s.pending := rfl

@[simp] theorem insertOffer_free (i : Seg) (o : Offer) (s : State) : (insertOffer i o s).free = s.free := rfl

@[simp] theorem insertOffer_link (i : Seg) (o : Offer) (s : State) : (insertOffer i o s).link = s.link := rfl

@[simp] theorem insertOffer_store (i : Seg) (o : Offer) (s : State) : (insertOffer i o s).store = s.store := rfl

@[simp] theorem insertOffer_ctl (i : Seg) (o : Offer) (s : State) : (insertOffer i o s).ctl = s.ctl := rfl

@[simp] theorem insertOffer_cal (i : Seg) (o : Offer) (s : State) : (insertOffer i o s).cal = s.cal := rfl

@[simp] theorem insertOffer_matcher (i : Seg) (o : Offer) (s : State) : (insertOffer i o s).matcher = s.matcher := rfl

@[simp] theorem insertOffer_dispatch_hold (i : Seg) (o : Offer) (s : State) :
    (insertOffer i o s).dispatch.hold = s.dispatch.hold := rfl

@[simp] theorem insertOffer_dispatch_segHold (i : Seg) (o : Offer) (s : State) :
    (insertOffer i o s).dispatch.segHold = s.dispatch.segHold := rfl

@[simp] theorem insertOffer_dispatch_highArmed (i : Seg) (o : Offer) (s : State) :
    (insertOffer i o s).dispatch.highArmed = s.dispatch.highArmed := rfl

@[simp] theorem insertOffer_dispatch_ended (i : Seg) (o : Offer) (s : State) :
    (insertOffer i o s).dispatch.ended = s.dispatch.ended := rfl

@[simp] theorem insertOffer_ports (i : Seg) (o : Offer) (s : State) : (insertOffer i o s).ports = s.ports := rfl

@[simp] theorem insertOffer_notices (i : Seg) (o : Offer) (s : State) : (insertOffer i o s).notices = s.notices := rfl

@[simp] theorem insertOffer_supply (i : Seg) (o : Offer) (s : State) : (insertOffer i o s).supply = s.supply := rfl

/-! ### takeHead -/

@[simp] theorem takeHead_pending (i : Seg) (j : Job) (rest : List Job) (s : State) : (takeHead i j rest s).pending = s.pending := rfl

@[simp] theorem takeHead_free (i : Seg) (j : Job) (rest : List Job) (s : State) : (takeHead i j rest s).free = s.free := rfl

@[simp] theorem takeHead_link (i : Seg) (j : Job) (rest : List Job) (s : State) : (takeHead i j rest s).link = s.link := rfl

@[simp] theorem takeHead_store (i : Seg) (j : Job) (rest : List Job) (s : State) : (takeHead i j rest s).store = s.store := rfl

@[simp] theorem takeHead_ctl (i : Seg) (j : Job) (rest : List Job) (s : State) : (takeHead i j rest s).ctl = s.ctl := rfl

@[simp] theorem takeHead_cal (i : Seg) (j : Job) (rest : List Job) (s : State) : (takeHead i j rest s).cal = s.cal := rfl

@[simp] theorem takeHead_matcher (i : Seg) (j : Job) (rest : List Job) (s : State) : (takeHead i j rest s).matcher = s.matcher := rfl

@[simp] theorem takeHead_dispatch_nextTag (i : Seg) (j : Job) (rest : List Job) (s : State) :
    (takeHead i j rest s).dispatch.nextTag = s.dispatch.nextTag := rfl

@[simp] theorem takeHead_dispatch_hold (i : Seg) (j : Job) (rest : List Job) (s : State) :
    (takeHead i j rest s).dispatch.hold = s.dispatch.hold := rfl

@[simp] theorem takeHead_dispatch_segHold (i : Seg) (j : Job) (rest : List Job) (s : State) :
    (takeHead i j rest s).dispatch.segHold = s.dispatch.segHold := rfl

@[simp] theorem takeHead_dispatch_highArmed (i : Seg) (j : Job) (rest : List Job) (s : State) :
    (takeHead i j rest s).dispatch.highArmed = s.dispatch.highArmed := rfl

@[simp] theorem takeHead_dispatch_ended (i : Seg) (j : Job) (rest : List Job) (s : State) :
    (takeHead i j rest s).dispatch.ended = s.dispatch.ended := rfl

@[simp] theorem takeHead_notices (i : Seg) (j : Job) (rest : List Job) (s : State) : (takeHead i j rest s).notices = s.notices := rfl

@[simp] theorem takeHead_supply (i : Seg) (j : Job) (rest : List Job) (s : State) : (takeHead i j rest s).supply = s.supply := rfl

/-! ### putSegRecord -/

@[simp] theorem putSegRecord_pending (i : Seg) (c : SegConfig) (s : State) : (putSegRecord i c s).pending = s.pending := rfl

@[simp] theorem putSegRecord_free (i : Seg) (c : SegConfig) (s : State) : (putSegRecord i c s).free = s.free := rfl

@[simp] theorem putSegRecord_link (i : Seg) (c : SegConfig) (s : State) : (putSegRecord i c s).link = s.link := rfl

@[simp] theorem putSegRecord_store_headers (i : Seg) (c : SegConfig) (s : State) :
    (putSegRecord i c s).store.headers = s.store.headers := rfl

@[simp] theorem putSegRecord_store_heap (i : Seg) (c : SegConfig) (s : State) :
    (putSegRecord i c s).store.heap = s.store.heap := rfl

@[simp] theorem putSegRecord_store_daylightRecord (i : Seg) (c : SegConfig) (s : State) :
    (putSegRecord i c s).store.daylightRecord = s.store.daylightRecord := rfl

@[simp] theorem putSegRecord_ctl (i : Seg) (c : SegConfig) (s : State) : (putSegRecord i c s).ctl = s.ctl := rfl

@[simp] theorem putSegRecord_cal (i : Seg) (c : SegConfig) (s : State) : (putSegRecord i c s).cal = s.cal := rfl

@[simp] theorem putSegRecord_matcher (i : Seg) (c : SegConfig) (s : State) : (putSegRecord i c s).matcher = s.matcher := rfl

@[simp] theorem putSegRecord_dispatch (i : Seg) (c : SegConfig) (s : State) : (putSegRecord i c s).dispatch = s.dispatch := rfl

@[simp] theorem putSegRecord_ports (i : Seg) (c : SegConfig) (s : State) : (putSegRecord i c s).ports = s.ports := rfl

@[simp] theorem putSegRecord_notices (i : Seg) (c : SegConfig) (s : State) : (putSegRecord i c s).notices = s.notices := rfl

@[simp] theorem putSegRecord_supply (i : Seg) (c : SegConfig) (s : State) : (putSegRecord i c s).supply = s.supply := rfl

/-! ### onJob -/

@[simp] theorem onJob_pending (i : Seg) (f : Job → Job) (s : State) : (onJob i f s).pending = s.pending := rfl

@[simp] theorem onJob_free (i : Seg) (f : Job → Job) (s : State) : (onJob i f s).free = s.free := rfl

@[simp] theorem onJob_link (i : Seg) (f : Job → Job) (s : State) : (onJob i f s).link = s.link := rfl

@[simp] theorem onJob_store (i : Seg) (f : Job → Job) (s : State) : (onJob i f s).store = s.store := rfl

@[simp] theorem onJob_ctl (i : Seg) (f : Job → Job) (s : State) : (onJob i f s).ctl = s.ctl := rfl

@[simp] theorem onJob_cal (i : Seg) (f : Job → Job) (s : State) : (onJob i f s).cal = s.cal := rfl

@[simp] theorem onJob_matcher (i : Seg) (f : Job → Job) (s : State) : (onJob i f s).matcher = s.matcher := rfl

@[simp] theorem onJob_dispatch_nextTag (i : Seg) (f : Job → Job) (s : State) :
    (onJob i f s).dispatch.nextTag = s.dispatch.nextTag := rfl

@[simp] theorem onJob_dispatch_hold (i : Seg) (f : Job → Job) (s : State) :
    (onJob i f s).dispatch.hold = s.dispatch.hold := rfl

@[simp] theorem onJob_dispatch_segHold (i : Seg) (f : Job → Job) (s : State) :
    (onJob i f s).dispatch.segHold = s.dispatch.segHold := rfl

@[simp] theorem onJob_dispatch_highArmed (i : Seg) (f : Job → Job) (s : State) :
    (onJob i f s).dispatch.highArmed = s.dispatch.highArmed := rfl

@[simp] theorem onJob_dispatch_ended (i : Seg) (f : Job → Job) (s : State) :
    (onJob i f s).dispatch.ended = s.dispatch.ended := rfl

@[simp] theorem onJob_ports (i : Seg) (f : Job → Job) (s : State) : (onJob i f s).ports = s.ports := rfl

@[simp] theorem onJob_notices (i : Seg) (f : Job → Job) (s : State) : (onJob i f s).notices = s.notices := rfl

@[simp] theorem onJob_supply (i : Seg) (f : Job → Job) (s : State) : (onJob i f s).supply = s.supply := rfl

/-! ### What the updates set -/

@[simp] theorem queue_setQueue (i j : Seg) (q : List Job) (s : State) :
    (setQueue i q s).queue j = if j = i then q else s.queue j := PerSegment.get_set ..

@[simp] theorem queue_removeTo (i j : Seg) (q : List Job) (s : State) :
    (removeTo i q s).queue j = if j = i then q else s.queue j := PerSegment.get_set ..

@[simp] theorem queue_insertOffer (i j : Seg) (o : Offer) (s : State) :
    (insertOffer i o s).queue j = if j = i then insertJob (o.job (nextFreeTag s)) (s.queue i) else s.queue j :=
  PerSegment.get_set ..

@[simp] theorem queue_onPort (i j : Seg) (f : Port → Port) (s : State) : (onPort i f s).queue j = s.queue j := rfl

@[simp] theorem queue_setEnded (i j : Seg) (l : List JobEnd) (s : State) : (setEnded i l s).queue j = s.queue j := rfl

@[simp] theorem queue_spendHigh (i j : Seg) (s : State) : (spendHigh i s).queue j = s.queue j := rfl

@[simp] theorem queue_grant (r : Requester) (j : Seg) (s : State) : (grant r s).queue j = s.queue j := rfl

@[simp] theorem queue_writeHeader (e : EntryIx) (h : Header) (j : Seg) (s : State) :
    (writeHeader e h s).queue j = s.queue j := rfl

@[simp] theorem queue_freeGranules (e : EntryIx) (j : Seg) (s : State) : (freeGranules e s).queue j = s.queue j := rfl

@[simp] theorem queue_takeHead (i k : Seg) (j : Job) (rest : List Job) (s : State) :
    (takeHead i j rest s).queue k =
      if k = i then j.taken :: ((s.queue i).filter (·.inService) ++ rest) else s.queue k := PerSegment.get_set ..

@[simp] theorem queue_onJob (i k : Seg) (f : Job → Job) (s : State) :
    (onJob i f s).queue k = if k = i then (s.queue i).map (fun j => if j.inService then f j else j) else s.queue k :=
  PerSegment.get_set ..

@[simp] theorem queue_markStale (owns : EntryIx → Bool) (i : Seg) (s : State) :
    (markStale owns s).queue i = (s.queue i).map (fun j => if owns j.entry then { j with stale := true } else j) :=
  PerSegment.get_map ..

@[simp] theorem port_onPort (i j : Seg) (f : Port → Port) (s : State) :
    (onPort i f s).port j = if j = i then f (s.port i) else s.port j := PerSegment.get_set ..

theorem port_takeHead (i k : Seg) (j : Job) (rest : List Job) (s : State) :
    (takeHead i j rest s).port k =
      if k = i then { s.port i with tx := .fetch, fetchOp := .fetch } else s.port k := PerSegment.get_set ..

@[simp] theorem ended_setEnded (i j : Seg) (l : List JobEnd) (s : State) :
    (setEnded i l s).dispatch.ended.get j = if j = i then l else s.dispatch.ended.get j := PerSegment.get_set ..

/-- The header of an entry after a header write. -/
theorem header_writeHeader (e k : EntryIx) (h : Header) (s : State) :
    (writeHeader e h s).store.headers.get k = if k = e then freshHeader h else s.store.headers.get k := by
  simp only [writeHeader, putHeader, Vector.get_eq_getElem, Vector.getElem_set]
  by_cases hk : k = e
  · subst hk
    simp
  · have : ¬ (e.val = k.val) := fun hh => hk (Fin.ext hh.symm)
    simp [hk, this]

/-- The entry state list after a header write. -/
theorem stateOf_writeHeader (e k : EntryIx) (h : Header) (s : State) :
    stateOf (writeHeader e h s) k = if k = e then h.state.entryState else stateOf s k := by
  simp only [writeHeader, stateOf, Vector.get_eq_getElem, Vector.getElem_set]
  by_cases hk : k = e
  · subst hk
    simp
  · have : ¬ (e.val = k.val) := fun hh => hk (Fin.ext hh.symm)
    simp [hk, this]

end Machine

end Sys2Proof
end

