-- ==== Sys2Proof/Laws/Shared.lean ====
section
/-! SUPPORT. What the shared operations can do, said once: a property that the elementary updates of the store and the
queues keep is kept by expiry, take-in, quarantine, recording and withdrawal (Kept), by offers (KeptByOffers), and by
the ends of jobs (KeptByPorts). The blocks that no such operation touches follow from it. -/

namespace Sys2Proof.Machine

/-- What a removal leaves of a queue: a part of it in the same order, or the job in service with a part of the waiting
jobs. -/
def Removed (q' q : List Job) : Prop :=
  q'.Sublist q ∨ ∃ rest, q' = q.filter (·.inService) ++ rest ∧ rest.Sublist (waiting q)

theorem Removed.mem {q' q : List Job} (h : Removed q' q) {j : Job} (hj : j ∈ q') : j ∈ q := by
  rcases h with h | ⟨rest, rfl, h⟩
  · exact h.subset hj
  · rcases List.mem_append.mp hj with hj | hj
    · exact (List.mem_filter.mp hj).1
    · exact (List.mem_filter.mp (h.subset hj)).1

theorem filter_split_length {α : Type} (p : α → Bool) (l : List α) :
    (l.filter p).length + (l.filter (fun x => !p x)).length = l.length := by
  induction l with
  | nil => rfl
  | cons x l ih =>
    by_cases hp : p x = true
    · simp [hp]
      omega
    · simp [hp]
      omega

theorem Removed.length_le {q' q : List Job} (h : Removed q' q) : q'.length ≤ q.length := by
  rcases h with h | ⟨rest, rfl, h⟩
  · exact h.length_le
  · have h1 := h.length_le
    have h2 := filter_split_length (fun j : Job => j.inService) q
    rw [List.length_append]
    exact le_trans (Nat.add_le_add_left h1 _) (le_of_eq h2)

theorem Removed.waiting_sublist {q' q : List Job} (h : Removed q' q) : (waiting q').Sublist (waiting q) := by
  rcases h with h | ⟨rest, rfl, h⟩
  · exact h.filter _
  · have h1 : waiting (q.filter (·.inService)) = [] := by
      simp [waiting, List.filter_filter]
    have h2 : waiting rest = rest := by
      apply List.filter_eq_self.mpr
      intro j hj
      exact (List.mem_filter.mp (h.subset hj)).2
    have h3 : waiting (q.filter (·.inService) ++ rest) = rest := by
      simp only [waiting, List.filter_append] at h1 h2 ⊢
      rw [h1, h2, List.nil_append]
    rw [h3]
    exact h

/-- A property that the elementary updates of the queues and the notices keep. -/
structure KeptByQueues (P : State → Prop) : Prop where
  post : ∀ b s, P s → P (post b s)
  setEnded : ∀ i l s, P s → P (setEnded i l s)
  removeTo : ∀ i q s, Removed q (s.queue i) → P s → P (removeTo i q s)
  markStale : ∀ owns s, (∀ i, ∀ j ∈ s.queue i, owns j.entry = true → j.inService = true) → P s → P (markStale owns s)
  takeHead : ∀ i j rest s, waiting (s.queue i) = j :: rest → mayTakeIn s i = true → P s → P (takeHead i j rest s)
  presentLine : ∀ i s, P s → P (onPort i (fun p => { p with fetchOp := .record }) s)

/-- A property that the writes of headers keep as well: one that keeps the body reference, and one that frees the
entry's granules. -/
structure Kept (P : State → Prop) : Prop extends KeptByQueues P where
  rewrite : ∀ e h s, h.body = (s.store.headers.get e).header.body → P s → P (writeHeader e h s)
  clear : ∀ e h s, h.body = none → P s → P (freeGranules e (writeHeader e h s))

variable {P : State → Prop}

/-! ### Take-in -/

theorem KeptByQueues.presentRecording (k : KeptByQueues P) (i : Seg) {s : State} (h : P s) : P (presentRecording i s) := by
  unfold Machine.presentRecording
  split
  · exact k.presentLine i s h
  · exact h

theorem splitOld_sublist (now : RunSecond) (limit : Nat) (l : List Job) : (splitOld now limit l).2.Sublist l := by
  induction l with
  | nil => exact List.Sublist.refl _
  | cons j l ih =>
    simp only [splitOld]
    split
    · exact ih.cons _
    · exact List.Sublist.refl _

theorem KeptByQueues.expireHeads (k : KeptByQueues P) (i : Seg) {s : State} (h : P s) : P (expireHeads i s) :=
  k.setEnded _ _ _ (k.removeTo _ _ _ (Or.inr ⟨_, rfl, splitOld_sublist ..⟩) h)

theorem KeptByQueues.considerTakeIn (k : KeptByQueues P) (i : Seg) {s : State} (h : P s) : P (considerTakeIn i s) := by
  unfold Machine.considerTakeIn
  split
  · exact h
  · have h1 := k.expireHeads i h
    dsimp only
    split
    · exact k.presentRecording i h1
    · rename_i j rest hw
      split
      · rename_i hm
        exact k.takeHead i j rest _ hw hm h1
      · exact k.presentRecording i h1

theorem KeptByQueues.considerAll (k : KeptByQueues P) (l : List Seg) {s : State} (h : P s) : P (considerAll l s) := by
  unfold Machine.considerAll
  induction l generalizing s with
  | nil => exact h
  | cons i l ih => exact ih (k.considerTakeIn i h)

/-! ### Removal of selected waiting jobs -/

@[simp] theorem queue_removeOn (sel : Seg → Job → Bool) (i k : Seg) (s : State) :
    (removeOn sel i s).queue k =
      if k = i then (s.queue i).filter (fun j => j.inService || !sel i j) else s.queue k := queue_removeTo ..

theorem KeptByQueues.removeOn (k : KeptByQueues P) (sel : Seg → Job → Bool) (i : Seg) {s : State} (h : P s) : P (removeOn sel i s) :=
  k.removeTo _ _ _ (Or.inl List.filter_sublist) h

theorem KeptByQueues.removeSelected (k : KeptByQueues P) (sel : Seg → Job → Bool) {s : State} (h : P s) : P (removeSelected sel s) :=
  k.removeOn _ _ (k.removeOn _ _ (k.removeOn _ _ (k.removeOn _ _ h)))

/-- Each queue keeps its job in service and the waiting jobs that are not selected. -/
theorem queue_removeSelected (sel : Seg → Job → Bool) (i : Seg) (s : State) :
    (removeSelected sel s).queue i = (s.queue i).filter (fun j => j.inService || !sel i j) := by
  match i with
  | 0 => simp [removeSelected]
  | 1 => simp [removeSelected]
  | 2 => simp [removeSelected]
  | 3 => simp [removeSelected]

/-- After the waiting jobs of some entries are removed, only jobs in service are left of those entries. -/
theorem removeSelected_none_waiting (owns : EntryIx → Bool) (s : State) (i : Seg) (j : Job)
    (hj : j ∈ (removeSelected (fun _ k => owns k.entry) s).queue i) (ho : owns j.entry = true) :
    j.inService = true := by
  rw [queue_removeSelected, List.mem_filter] at hj
  simpa [ho] using hj.2

/-! ### Quarantine, recording, withdrawal -/

theorem KeptByQueues.reportEnd (k : KeptByQueues P) (m : ReportMode) (j : JobEnd) {s : State} (h : P s) : P (reportEnd m j s) := by
  unfold Machine.reportEnd
  split
  · exact k.post _ _ h
  · exact h

theorem KeptByQueues.recordBare (k : KeptByQueues P) (j : JobEnd) {s : State} (h : P s) : P (recordBare s j) := k.reportEnd _ _ h

theorem KeptByQueues.foldl {α : Type} {f : State → α → State} (l : List α) (hf : ∀ s a, P s → P (f s a)) {s : State} (h : P s) :
    P (l.foldl f s) := by
  induction l generalizing s with
  | nil => exact h
  | cons a l ih => exact ih (hf s a h)

theorem Kept.quarantine (k : Kept P) (e : EntryIx) (r : FaultRecord) (p : FaultPath) {s : State} (h : P s) :
    P (quarantine e r p s) := by
  have h1 := k.clear e (bareHeader .quarantined) s rfl h
  have h2 := k.removeSelected (fun _ j => j.entry == e) h1
  have h3 := k.markStale (· == e) _ (removeSelected_none_waiting (· == e) _) h2
  exact k.post _ _ (k.considerAll _ (KeptByQueues.foldl _ (fun s a hs => k.recordBare a hs) h3))

/-- What a sound read of a header says of the stored header. -/
theorem readHeader_some {s : State} {e : EntryIx} {h : Header} {d : Definition} (hr : readHeader s e = some (h, d)) :
    (s.store.headers.get e).header = h ∧ h.defn = some d ∧ (s.store.headers.get e).check = headerCheck h := by
  unfold readHeader at hr
  dsimp only at hr
  split at hr
  · rename_i hc
    split at hr
    · rename_i d' hd
      simp only [Option.some.injEq, Prod.mk.injEq] at hr
      obtain ⟨rfl, rfl⟩ := hr
      exact ⟨rfl, hd, hc⟩
    · cases hr
  · cases hr

theorem Kept.recordEnd (k : Kept P) (path : FaultPath) (j : JobEnd) {s : State} (h : P s) : P (recordEnd path s j) := by
  unfold Machine.recordEnd
  split
  · split
    · exact k.recordBare j (k.quarantine _ _ _ h)
    · rename_i hd d hr
      apply k.reportEnd
      split
      · exact h
      · exact k.rewrite _ _ _ (by rw [(readHeader_some hr).1]) h
  · exact k.recordBare j h

theorem Kept.recordAll (k : Kept P) (path : FaultPath) (l : List JobEnd) {s : State} (h : P s) :
    P (recordAll path l s) := KeptByQueues.foldl l (fun _ a hs => k.recordEnd path a hs) h

theorem Kept.withdraw (k : Kept P) (owns : EntryIx → Bool) {s : State} (h : P s) : P (withdraw owns s) :=
  k.considerAll _ (k.recordAll _ _
    (k.markStale owns _ (removeSelected_none_waiting owns s) (k.removeSelected _ h)))

theorem Kept.recordPending (k : Kept P) (path : FaultPath) (i : Seg) (n : Nat) {s : State} (h : P s) :
    P (recordPending path i n s) := by
  induction n generalizing s with
  | zero => exact h
  | succ n ih =>
    simp only [Machine.recordPending]
    split
    · exact h
    · exact ih (k.recordEnd path _ (k.setEnded _ _ _ h))

/-! ### Offers -/

/-- A queue has room, where the property bounds the queues. -/
def Room (P : State → Prop) (i : Seg) (s : State) : Prop :=
  (∀ t, P t → (t.queue i).length ≤ 16) → (s.queue i).length < 16

/-- A property that the making of jobs keeps as well: the high-water flag may be spent and a job inserted into a
queue with room that holds no waiting job of its entry. -/
structure KeptByJobs (P : State → Prop) : Prop extends KeptByQueues P where
  spendHigh : ∀ i s, P s → P (spendHigh i s)
  insert : ∀ i o s, Room P i s → (∀ j ∈ s.queue i, j.entry = o.entry → j.inService = true) → P s →
    P (insertOffer i o s)

theorem KeptByJobs.testHigh (k : KeptByJobs P) (i : Seg) {s : State} (h : P s) : P (testHigh i s) := by
  unfold Machine.testHigh
  split
  · exact k.post _ _ (k.spendHigh _ _ h)
  · exact h

theorem KeptByJobs.makeJob (k : KeptByJobs P) (i : Seg) (o : Offer) {s : State} (hl : Room P i s)
    (hn : ∀ j ∈ s.queue i, j.entry = o.entry → j.inService = true) (h : P s) : P (makeJob i o s) :=
  k.considerTakeIn i (k.testHigh i (k.insert i o s hl hn h))

/-- A property that offers keep, with what a displaced job's recording does. -/
structure KeptByOffers (P : State → Prop) : Prop extends Kept P, KeptByJobs P

@[simp] theorem queue_post (b : NoticeBody) (i : Seg) (s : State) : (post b s).queue i = s.queue i := by
  unfold post
  split
  · rfl
  · split <;> rfl

/-- The shared operations never make a queue longer. -/
theorem kept_length_le (i : Seg) (n : Nat) : Kept (fun s => (s.queue i).length ≤ n) where
  post b s h := by simpa using h
  rewrite e hd s _ h := h
  clear e hd s _ h := h
  setEnded k l s h := h
  removeTo k q s hq h := by
    rw [queue_removeTo]
    split
    · rename_i hk
      subst hk
      exact le_trans hq.length_le h
    · exact h
  markStale owns s _ h := by simpa using h
  takeHead k j rest s hw _ h := by
    rw [queue_takeHead]
    split
    · rename_i hk
      subst hk
      have := filter_split_length (fun j : Job => j.inService) (s.queue i)
      change _ + (waiting (s.queue i)).length = _ at this
      rw [hw] at this
      simp only [List.length_cons, List.length_append] at this ⊢
      omega
    · exact h
  presentLine k s h := h

/-- The shared operations give no queue a waiting job of an entry of which it has none. -/
theorem kept_none_waiting (i : Seg) (e : EntryIx) :
    Kept (fun s => ∀ j ∈ s.queue i, j.entry = e → j.inService = true) where
  post b s h := by simpa using h
  rewrite e hd s _ h := h
  clear e hd s _ h := h
  setEnded k l s h := h
  removeTo k q s hq h := by
    rw [queue_removeTo]
    split
    · rename_i hk
      subst hk
      exact fun j hj => h j (hq.mem hj)
    · exact h
  markStale owns s _ h := by
    intro j hj
    rw [queue_markStale, List.mem_map] at hj
    obtain ⟨k, hk, rfl⟩ := hj
    split
    · exact h k hk
    · exact h k hk
  takeHead k j rest s hw _ h := by
    rw [queue_takeHead]
    split
    · rename_i hk
      subst hk
      intro x hx
      have hmem : ∀ y ∈ j :: rest, y ∈ s.queue i := by
        intro y hy
        rw [← hw] at hy
        exact (List.mem_filter.mp hy).1
      rcases List.mem_cons.mp hx with rfl | hx
      · exact fun _ => rfl
      · rcases List.mem_append.mp hx with hx | hx
        · exact h x (List.mem_filter.mp hx).1
        · exact h x (hmem x (List.mem_cons_of_mem _ hx))
    · exact h
  presentLine k s h := h

theorem KeptByOffers.meetOffer (k : KeptByOffers P) (path : FaultPath) (i : Seg) (o : Offer) (m : ReportMode) {s : State}
    (h : P s) : P (meetOffer path i o m s).2 := by
  unfold Machine.meetOffer
  split
  · exact k.reportEnd _ _ h
  · split
    · exact h
    · rename_i hf
      have hn : ∀ j ∈ s.queue i, j.entry = o.entry → j.inService = true := by
        intro j hj he
        have := List.find?_eq_none.mp hf j hj
        simpa [he] using this
      split
      · rename_i hl
        exact k.makeJob i o (fun _ => hl) hn h
      · split
        · rename_i victim hv
          split
          · have hsub : Removed (s.queue i).dropLast (s.queue i) := Or.inl (List.dropLast_sublist _)
            have h1 : P (removeTo i (s.queue i).dropLast s) := k.removeTo _ _ _ hsub h
            apply k.makeJob
            · intro hb
              have hq := hb s h
              have hlen : ((removeTo i (s.queue i).dropLast s).queue i).length ≤ 15 := by
                rw [queue_removeTo, if_pos rfl, List.length_dropLast]
                omega
              have := (kept_length_le i 15).recordEnd path (victim.end i .dropped (some .displaced)) hlen
              omega
            · have h2 : ∀ j ∈ (removeTo i (s.queue i).dropLast s).queue i, j.entry = o.entry → j.inService = true := by
                rw [queue_removeTo, if_pos rfl]
                exact fun j hj => hn j (hsub.mem hj)
              exact (kept_none_waiting i o.entry).recordEnd path _ h2
            · exact k.recordEnd _ _ h1
          · exact k.reportEnd _ _ h
        · exact k.reportEnd _ _ h

/-! ### The ends of jobs -/

/-- A change of a job that touches its attempt and busy counts alone. -/
def CountsOnly (f : Job → Job) : Prop := ∀ j, ∃ a b, f j = { j with attempts := a, busy := b }

/-- A property that the ports' own updates keep as well. -/
structure KeptByPorts (P : State → Prop) : Prop extends Kept P where
  onPort : ∀ i f s, P s → P (onPort i f s)
  onJob : ∀ i f s, CountsOnly f → P s → P (onJob i f s)
  putSegRecord : ∀ i c s, P s → P (putSegRecord i c s)

theorem KeptByPorts.loadConfig (k : KeptByPorts P) (i : Seg) (path : FaultPath) {s : State} (h : P s) :
    P (loadConfig i path s) := by
  unfold Machine.loadConfig
  dsimp only
  split
  · exact k.onPort _ _ _ h
  · exact k.onPort _ _ _ (k.post _ _ (k.putSegRecord _ _ _ h))

theorem KeptByPorts.changeHealth (k : KeptByPorts P) (i : Seg) (hl : Health) (c : HealthCause) (d : Option Nat) {s : State}
    (h : P s) : P (changeHealth i hl c d s) := by
  unfold Machine.changeHealth
  dsimp only
  split
  · exact h
  · exact k.post _ _ (k.onPort _ _ _ h)

theorem KeptByPorts.segmentAnswered (k : KeptByPorts P) (i : Seg) (c : HealthCause) (d : Nat) {s : State} (h : P s) :
    P (segmentAnswered i c d s) := by
  unfold Machine.segmentAnswered
  dsimp only
  split
  · exact k.changeHealth _ _ _ _ (k.onPort _ _ _ h)
  · exact k.onPort _ _ _ h

theorem KeptByPorts.segmentSilent (k : KeptByPorts P) (i : Seg) (d : Nat) {s : State} (h : P s) :
    P (segmentSilent i d s) := by
  unfold Machine.segmentSilent
  dsimp only
  split
  · exact k.changeHealth _ _ _ _ (k.onPort _ _ _ h)
  · split
    · exact k.onPort _ _ _ (k.changeHealth _ _ _ _ (k.onPort _ _ _ h))
    · exact k.onPort _ _ _ h

theorem KeptByPorts.endJob (k : KeptByPorts P) (i : Seg) (o : JobOutcome) {s : State} (h : P s) : P (endJob i o s) := by
  unfold Machine.endJob
  split
  · exact k.onPort _ _ _ h
  · exact k.considerTakeIn _ (k.setEnded _ _ _ (k.removeTo _ _ _ (Or.inl List.filter_sublist) (k.onPort _ _ _ h)))

end Sys2Proof.Machine
end

