-- ==== Sys2Proof/Laws/Frames.lean ====
section
/-! SUPPORT. What the shared operations leave unchanged, block by block: the frame lemmas of take-in, quarantine,
recording, withdrawal, offers and the ends of jobs. -/

namespace Sys2Proof.Machine

/-! ### Posting a notice -/

@[simp] theorem post_pending (b : NoticeBody) (s : State) : (post b s).pending = s.pending := by
  unfold post
  split
  · rfl
  · split <;> rfl

@[simp] theorem post_free (b : NoticeBody) (s : State) : (post b s).free = s.free := by
  unfold post
  split
  · rfl
  · split <;> rfl

@[simp] theorem post_link (b : NoticeBody) (s : State) : (post b s).link = s.link := by
  unfold post
  split
  · rfl
  · split <;> rfl

@[simp] theorem post_store (b : NoticeBody) (s : State) : (post b s).store = s.store := by
  unfold post
  split
  · rfl
  · split <;> rfl

@[simp] theorem post_ctl (b : NoticeBody) (s : State) : (post b s).ctl = s.ctl := by
  unfold post
  split
  · rfl
  · split <;> rfl

@[simp] theorem post_cal (b : NoticeBody) (s : State) : (post b s).cal = s.cal := by
  unfold post
  split
  · rfl
  · split <;> rfl

@[simp] theorem post_matcher (b : NoticeBody) (s : State) : (post b s).matcher = s.matcher := by
  unfold post
  split
  · rfl
  · split <;> rfl

@[simp] theorem post_dispatch (b : NoticeBody) (s : State) : (post b s).dispatch = s.dispatch := by
  unfold post
  split
  · rfl
  · split <;> rfl

@[simp] theorem post_ports (b : NoticeBody) (s : State) : (post b s).ports = s.ports := by
  unfold post
  split
  · rfl
  · split <;> rfl

@[simp] theorem post_supply (b : NoticeBody) (s : State) : (post b s).supply = s.supply := by
  unfold post
  split
  · rfl
  · split <;> rfl

@[simp] theorem post_notices_timer (b : NoticeBody) (s : State) : (post b s).notices.timer = s.notices.timer := by
  unfold post
  split
  · rfl
  · split <;> rfl

@[simp] theorem post_notices_resendCount (b : NoticeBody) (s : State) : (post b s).notices.resendCount = s.notices.resendCount := by
  unfold post
  split
  · rfl
  · split <;> rfl

@[simp] theorem post_notices_mask (b : NoticeBody) (s : State) : (post b s).notices.mask = s.notices.mask := by
  unfold post
  split
  · rfl
  · split <;> rfl

@[simp] theorem post_notices_hostAbsent (b : NoticeBody) (s : State) : (post b s).notices.hostAbsent = s.notices.hostAbsent := by
  unfold post
  split
  · rfl
  · split <;> rfl

/-! ### The blocks as kept properties -/

theorem kept_pending (s₀ : State) : KeptByOffers (fun s => s.pending = s₀.pending) where
  post _ _ h := by simpa using h
  setEnded _ _ _ h := h
  removeTo _ _ _ _ h := h
  markStale _ _ _ h := h
  takeHead _ _ _ _ _ _ h := h
  presentLine _ _ h := h
  rewrite _ _ _ _ h := h
  clear _ _ _ _ h := h
  spendHigh _ _ h := h
  insert _ _ _ _ _ h := h

theorem kept_free (s₀ : State) : KeptByOffers (fun s => s.free = s₀.free) where
  post _ _ h := by simpa using h
  setEnded _ _ _ h := h
  removeTo _ _ _ _ h := h
  markStale _ _ _ h := h
  takeHead _ _ _ _ _ _ h := h
  presentLine _ _ h := h
  rewrite _ _ _ _ h := h
  clear _ _ _ _ h := h
  spendHigh _ _ h := h
  insert _ _ _ _ _ h := h

theorem kept_link (s₀ : State) : KeptByOffers (fun s => s.link = s₀.link) where
  post _ _ h := by simpa using h
  setEnded _ _ _ h := h
  removeTo _ _ _ _ h := h
  markStale _ _ _ h := h
  takeHead _ _ _ _ _ _ h := h
  presentLine _ _ h := h
  rewrite _ _ _ _ h := h
  clear _ _ _ _ h := h
  spendHigh _ _ h := h
  insert _ _ _ _ _ h := h

theorem kept_cal (s₀ : State) : KeptByOffers (fun s => s.cal = s₀.cal) where
  post _ _ h := by simpa using h
  setEnded _ _ _ h := h
  removeTo _ _ _ _ h := h
  markStale _ _ _ h := h
  takeHead _ _ _ _ _ _ h := h
  presentLine _ _ h := h
  rewrite _ _ _ _ h := h
  clear _ _ _ _ h := h
  spendHigh _ _ h := h
  insert _ _ _ _ _ h := h

theorem kept_matcher (s₀ : State) : KeptByOffers (fun s => s.matcher = s₀.matcher) where
  post _ _ h := by simpa using h
  setEnded _ _ _ h := h
  removeTo _ _ _ _ h := h
  markStale _ _ _ h := h
  takeHead _ _ _ _ _ _ h := h
  presentLine _ _ h := h
  rewrite _ _ _ _ h := h
  clear _ _ _ _ h := h
  spendHigh _ _ h := h
  insert _ _ _ _ _ h := h

theorem kept_supply (s₀ : State) : KeptByOffers (fun s => s.supply = s₀.supply) where
  post _ _ h := by simpa using h
  setEnded _ _ _ h := h
  removeTo _ _ _ _ h := h
  markStale _ _ _ h := h
  takeHead _ _ _ _ _ _ h := h
  presentLine _ _ h := h
  rewrite _ _ _ _ h := h
  clear _ _ _ _ h := h
  spendHigh _ _ h := h
  insert _ _ _ _ _ h := h

theorem kept_store_heap (s₀ : State) : KeptByOffers (fun s => s.store.heap = s₀.store.heap) where
  post _ _ h := by simpa using h
  setEnded _ _ _ h := h
  removeTo _ _ _ _ h := h
  markStale _ _ _ h := h
  takeHead _ _ _ _ _ _ h := h
  presentLine _ _ h := h
  rewrite _ _ _ _ h := h
  clear _ _ _ _ h := h
  spendHigh _ _ h := h
  insert _ _ _ _ _ h := h

theorem kept_store_segRecords (s₀ : State) : KeptByOffers (fun s => s.store.segRecords = s₀.store.segRecords) where
  post _ _ h := by simpa using h
  setEnded _ _ _ h := h
  removeTo _ _ _ _ h := h
  markStale _ _ _ h := h
  takeHead _ _ _ _ _ _ h := h
  presentLine _ _ h := h
  rewrite _ _ _ _ h := h
  clear _ _ _ _ h := h
  spendHigh _ _ h := h
  insert _ _ _ _ _ h := h

theorem kept_store_daylightRecord (s₀ : State) : KeptByOffers (fun s => s.store.daylightRecord = s₀.store.daylightRecord) where
  post _ _ h := by simpa using h
  setEnded _ _ _ h := h
  removeTo _ _ _ _ h := h
  markStale _ _ _ h := h
  takeHead _ _ _ _ _ _ h := h
  presentLine _ _ h := h
  rewrite _ _ _ _ h := h
  clear _ _ _ _ h := h
  spendHigh _ _ h := h
  insert _ _ _ _ _ h := h

theorem kept_ctl_compacting (s₀ : State) : KeptByOffers (fun s => s.ctl.compacting = s₀.ctl.compacting) where
  post _ _ h := by simpa using h
  setEnded _ _ _ h := h
  removeTo _ _ _ _ h := h
  markStale _ _ _ h := h
  takeHead _ _ _ _ _ _ h := h
  presentLine _ _ h := h
  rewrite _ _ _ _ h := h
  clear _ _ _ _ h := h
  spendHigh _ _ h := h
  insert _ _ _ _ _ h := h

theorem kept_ctl_frontier (s₀ : State) : KeptByOffers (fun s => s.ctl.frontier = s₀.ctl.frontier) where
  post _ _ h := by simpa using h
  setEnded _ _ _ h := h
  removeTo _ _ _ _ h := h
  markStale _ _ _ h := h
  takeHead _ _ _ _ _ _ h := h
  presentLine _ _ h := h
  rewrite _ _ _ _ h := h
  clear _ _ _ _ h := h
  spendHigh _ _ h := h
  insert _ _ _ _ _ h := h

theorem kept_ctl_moved (s₀ : State) : KeptByOffers (fun s => s.ctl.moved = s₀.ctl.moved) where
  post _ _ h := by simpa using h
  setEnded _ _ _ h := h
  removeTo _ _ _ _ h := h
  markStale _ _ _ h := h
  takeHead _ _ _ _ _ _ h := h
  presentLine _ _ h := h
  rewrite _ _ _ _ h := h
  clear _ _ _ _ h := h
  spendHigh _ _ h := h
  insert _ _ _ _ _ h := h

theorem kept_ctl_order (s₀ : State) : KeptByOffers (fun s => s.ctl.order = s₀.ctl.order) where
  post _ _ h := by simpa using h
  setEnded _ _ _ h := h
  removeTo _ _ _ _ h := h
  markStale _ _ _ h := h
  takeHead _ _ _ _ _ _ h := h
  presentLine _ _ h := h
  rewrite _ _ _ _ h := h
  clear _ _ _ _ h := h
  spendHigh _ _ h := h
  insert _ _ _ _ _ h := h

theorem kept_store (s₀ : State) : KeptByJobs (fun s => s.store = s₀.store) where
  post _ _ h := by simpa using h
  setEnded _ _ _ h := h
  removeTo _ _ _ _ h := h
  markStale _ _ _ h := h
  takeHead _ _ _ _ _ _ h := h
  presentLine _ _ h := h
  spendHigh _ _ h := h
  insert _ _ _ _ _ h := h

theorem kept_ctl (s₀ : State) : KeptByJobs (fun s => s.ctl = s₀.ctl) where
  post _ _ h := by simpa using h
  setEnded _ _ _ h := h
  removeTo _ _ _ _ h := h
  markStale _ _ _ h := h
  takeHead _ _ _ _ _ _ h := h
  presentLine _ _ h := h
  spendHigh _ _ h := h
  insert _ _ _ _ _ h := h

theorem keptByPorts_pending (s₀ : State) : KeptByPorts (fun s => s.pending = s₀.pending) :=
  { (kept_pending s₀).toKept with
    onPort := fun _ _ _ h => h
    onJob := fun _ _ _ _ h => h
    putSegRecord := fun _ _ _ h => h }

theorem keptByPorts_free (s₀ : State) : KeptByPorts (fun s => s.free = s₀.free) :=
  { (kept_free s₀).toKept with
    onPort := fun _ _ _ h => h
    onJob := fun _ _ _ _ h => h
    putSegRecord := fun _ _ _ h => h }

theorem keptByPorts_link (s₀ : State) : KeptByPorts (fun s => s.link = s₀.link) :=
  { (kept_link s₀).toKept with
    onPort := fun _ _ _ h => h
    onJob := fun _ _ _ _ h => h
    putSegRecord := fun _ _ _ h => h }

theorem keptByPorts_cal (s₀ : State) : KeptByPorts (fun s => s.cal = s₀.cal) :=
  { (kept_cal s₀).toKept with
    onPort := fun _ _ _ h => h
    onJob := fun _ _ _ _ h => h
    putSegRecord := fun _ _ _ h => h }

theorem keptByPorts_matcher (s₀ : State) : KeptByPorts (fun s => s.matcher = s₀.matcher) :=
  { (kept_matcher s₀).toKept with
    onPort := fun _ _ _ h => h
    onJob := fun _ _ _ _ h => h
    putSegRecord := fun _ _ _ h => h }

theorem keptByPorts_supply (s₀ : State) : KeptByPorts (fun s => s.supply = s₀.supply) :=
  { (kept_supply s₀).toKept with
    onPort := fun _ _ _ h => h
    onJob := fun _ _ _ _ h => h
    putSegRecord := fun _ _ _ h => h }

theorem keptByPorts_store_heap (s₀ : State) : KeptByPorts (fun s => s.store.heap = s₀.store.heap) :=
  { (kept_store_heap s₀).toKept with
    onPort := fun _ _ _ h => h
    onJob := fun _ _ _ _ h => h
    putSegRecord := fun _ _ _ h => h }

theorem keptByPorts_store_daylightRecord (s₀ : State) : KeptByPorts (fun s => s.store.daylightRecord = s₀.store.daylightRecord) :=
  { (kept_store_daylightRecord s₀).toKept with
    onPort := fun _ _ _ h => h
    onJob := fun _ _ _ _ h => h
    putSegRecord := fun _ _ _ h => h }

theorem keptByPorts_ctl_compacting (s₀ : State) : KeptByPorts (fun s => s.ctl.compacting = s₀.ctl.compacting) :=
  { (kept_ctl_compacting s₀).toKept with
    onPort := fun _ _ _ h => h
    onJob := fun _ _ _ _ h => h
    putSegRecord := fun _ _ _ h => h }

theorem keptByPorts_ctl_frontier (s₀ : State) : KeptByPorts (fun s => s.ctl.frontier = s₀.ctl.frontier) :=
  { (kept_ctl_frontier s₀).toKept with
    onPort := fun _ _ _ h => h
    onJob := fun _ _ _ _ h => h
    putSegRecord := fun _ _ _ h => h }

theorem keptByPorts_ctl_moved (s₀ : State) : KeptByPorts (fun s => s.ctl.moved = s₀.ctl.moved) :=
  { (kept_ctl_moved s₀).toKept with
    onPort := fun _ _ _ h => h
    onJob := fun _ _ _ _ h => h
    putSegRecord := fun _ _ _ h => h }

theorem keptByPorts_ctl_order (s₀ : State) : KeptByPorts (fun s => s.ctl.order = s₀.ctl.order) :=
  { (kept_ctl_order s₀).toKept with
    onPort := fun _ _ _ h => h
    onJob := fun _ _ _ _ h => h
    putSegRecord := fun _ _ _ h => h }

/-! ### considerTakeIn -/

@[simp] theorem considerTakeIn_pending (i : Seg) (s : State) :
    (considerTakeIn i s).pending = s.pending := (kept_pending s).considerTakeIn i rfl

@[simp] theorem considerTakeIn_free (i : Seg) (s : State) :
    (considerTakeIn i s).free = s.free := (kept_free s).considerTakeIn i rfl

@[simp] theorem considerTakeIn_link (i : Seg) (s : State) :
    (considerTakeIn i s).link = s.link := (kept_link s).considerTakeIn i rfl

@[simp] theorem considerTakeIn_cal (i : Seg) (s : State) :
    (considerTakeIn i s).cal = s.cal := (kept_cal s).considerTakeIn i rfl

@[simp] theorem considerTakeIn_matcher (i : Seg) (s : State) :
    (considerTakeIn i s).matcher = s.matcher := (kept_matcher s).considerTakeIn i rfl

@[simp] theorem considerTakeIn_supply (i : Seg) (s : State) :
    (considerTakeIn i s).supply = s.supply := (kept_supply s).considerTakeIn i rfl

@[simp] theorem considerTakeIn_store_heap (i : Seg) (s : State) :
    (considerTakeIn i s).store.heap = s.store.heap := (kept_store_heap s).considerTakeIn i rfl

@[simp] theorem considerTakeIn_store_segRecords (i : Seg) (s : State) :
    (considerTakeIn i s).store.segRecords = s.store.segRecords := (kept_store_segRecords s).considerTakeIn i rfl

@[simp] theorem considerTakeIn_store_daylightRecord (i : Seg) (s : State) :
    (considerTakeIn i s).store.daylightRecord = s.store.daylightRecord := (kept_store_daylightRecord s).considerTakeIn i rfl

@[simp] theorem considerTakeIn_ctl_compacting (i : Seg) (s : State) :
    (considerTakeIn i s).ctl.compacting = s.ctl.compacting := (kept_ctl_compacting s).considerTakeIn i rfl

@[simp] theorem considerTakeIn_ctl_frontier (i : Seg) (s : State) :
    (considerTakeIn i s).ctl.frontier = s.ctl.frontier := (kept_ctl_frontier s).considerTakeIn i rfl

@[simp] theorem considerTakeIn_ctl_moved (i : Seg) (s : State) :
    (considerTakeIn i s).ctl.moved = s.ctl.moved := (kept_ctl_moved s).considerTakeIn i rfl

@[simp] theorem considerTakeIn_ctl_order (i : Seg) (s : State) :
    (considerTakeIn i s).ctl.order = s.ctl.order := (kept_ctl_order s).considerTakeIn i rfl

@[simp] theorem considerTakeIn_store (i : Seg) (s : State) :
    (considerTakeIn i s).store = s.store := (kept_store s).considerTakeIn i rfl

@[simp] theorem considerTakeIn_ctl (i : Seg) (s : State) :
    (considerTakeIn i s).ctl = s.ctl := (kept_ctl s).considerTakeIn i rfl

/-! ### considerAll -/

@[simp] theorem considerAll_pending (l : List Seg) (s : State) :
    (considerAll l s).pending = s.pending := (kept_pending s).considerAll l rfl

@[simp] theorem considerAll_free (l : List Seg) (s : State) :
    (considerAll l s).free = s.free := (kept_free s).considerAll l rfl

@[simp] theorem considerAll_link (l : List Seg) (s : State) :
    (considerAll l s).link = s.link := (kept_link s).considerAll l rfl

@[simp] theorem considerAll_cal (l : List Seg) (s : State) :
    (considerAll l s).cal = s.cal := (kept_cal s).considerAll l rfl

@[simp] theorem considerAll_matcher (l : List Seg) (s : State) :
    (considerAll l s).matcher = s.matcher := (kept_matcher s).considerAll l rfl

@[simp] theorem considerAll_supply (l : List Seg) (s : State) :
    (considerAll l s).supply = s.supply := (kept_supply s).considerAll l rfl

@[simp] theorem considerAll_store_heap (l : List Seg) (s : State) :
    (considerAll l s).store.heap = s.store.heap := (kept_store_heap s).considerAll l rfl

@[simp] theorem considerAll_store_segRecords (l : List Seg) (s : State) :
    (considerAll l s).store.segRecords = s.store.segRecords := (kept_store_segRecords s).considerAll l rfl

@[simp] theorem considerAll_store_daylightRecord (l : List Seg) (s : State) :
    (considerAll l s).store.daylightRecord = s.store.daylightRecord := (kept_store_daylightRecord s).considerAll l rfl

@[simp] theorem considerAll_ctl_compacting (l : List Seg) (s : State) :
    (considerAll l s).ctl.compacting = s.ctl.compacting := (kept_ctl_compacting s).considerAll l rfl

@[simp] theorem considerAll_ctl_frontier (l : List Seg) (s : State) :
    (considerAll l s).ctl.frontier = s.ctl.frontier := (kept_ctl_frontier s).considerAll l rfl

@[simp] theorem considerAll_ctl_moved (l : List Seg) (s : State) :
    (considerAll l s).ctl.moved = s.ctl.moved := (kept_ctl_moved s).considerAll l rfl

@[simp] theorem considerAll_ctl_order (l : List Seg) (s : State) :
    (considerAll l s).ctl.order = s.ctl.order := (kept_ctl_order s).considerAll l rfl

@[simp] theorem considerAll_store (l : List Seg) (s : State) :
    (considerAll l s).store = s.store := (kept_store s).considerAll l rfl

@[simp] theorem considerAll_ctl (l : List Seg) (s : State) :
    (considerAll l s).ctl = s.ctl := (kept_ctl s).considerAll l rfl

/-! ### removeSelected -/

@[simp] theorem removeSelected_pending (sel : Seg → Job → Bool) (s : State) :
    (removeSelected sel s).pending = s.pending := (kept_pending s).removeSelected sel rfl

@[simp] theorem removeSelected_free (sel : Seg → Job → Bool) (s : State) :
    (removeSelected sel s).free = s.free := (kept_free s).removeSelected sel rfl

@[simp] theorem removeSelected_link (sel : Seg → Job → Bool) (s : State) :
    (removeSelected sel s).link = s.link := (kept_link s).removeSelected sel rfl

@[simp] theorem removeSelected_cal (sel : Seg → Job → Bool) (s : State) :
    (removeSelected sel s).cal = s.cal := (kept_cal s).removeSelected sel rfl

@[simp] theorem removeSelected_matcher (sel : Seg → Job → Bool) (s : State) :
    (removeSelected sel s).matcher = s.matcher := (kept_matcher s).removeSelected sel rfl

@[simp] theorem removeSelected_supply (sel : Seg → Job → Bool) (s : State) :
    (removeSelected sel s).supply = s.supply := (kept_supply s).removeSelected sel rfl

@[simp] theorem removeSelected_store_heap (sel : Seg → Job → Bool) (s : State) :
    (removeSelected sel s).store.heap = s.store.heap := (kept_store_heap s).removeSelected sel rfl

@[simp] theorem removeSelected_store_segRecords (sel : Seg → Job → Bool) (s : State) :
    (removeSelected sel s).store.segRecords = s.store.segRecords := (kept_store_segRecords s).removeSelected sel rfl

@[simp] theorem removeSelected_store_daylightRecord (sel : Seg → Job → Bool) (s : State) :
    (removeSelected sel s).store.daylightRecord = s.store.daylightRecord := (kept_store_daylightRecord s).removeSelected sel rfl

@[simp] theorem removeSelected_ctl_compacting (sel : Seg → Job → Bool) (s : State) :
    (removeSelected sel s).ctl.compacting = s.ctl.compacting := (kept_ctl_compacting s).removeSelected sel rfl

@[simp] theorem removeSelected_ctl_frontier (sel : Seg → Job → Bool) (s : State) :
    (removeSelected sel s).ctl.frontier = s.ctl.frontier := (kept_ctl_frontier s).removeSelected sel rfl

@[simp] theorem removeSelected_ctl_moved (sel : Seg → Job → Bool) (s : State) :
    (removeSelected sel s).ctl.moved = s.ctl.moved := (kept_ctl_moved s).removeSelected sel rfl

@[simp] theorem removeSelected_ctl_order (sel : Seg → Job → Bool) (s : State) :
    (removeSelected sel s).ctl.order = s.ctl.order := (kept_ctl_order s).removeSelected sel rfl

@[simp] theorem removeSelected_store (sel : Seg → Job → Bool) (s : State) :
    (removeSelected sel s).store = s.store := (kept_store s).removeSelected sel rfl

@[simp] theorem removeSelected_ctl (sel : Seg → Job → Bool) (s : State) :
    (removeSelected sel s).ctl = s.ctl := (kept_ctl s).removeSelected sel rfl

/-! ### reportEnd -/

@[simp] theorem reportEnd_pending (m : ReportMode) (j : JobEnd) (s : State) :
    (reportEnd m j s).pending = s.pending := (kept_pending s).reportEnd m j rfl

@[simp] theorem reportEnd_free (m : ReportMode) (j : JobEnd) (s : State) :
    (reportEnd m j s).free = s.free := (kept_free s).reportEnd m j rfl

@[simp] theorem reportEnd_link (m : ReportMode) (j : JobEnd) (s : State) :
    (reportEnd m j s).link = s.link := (kept_link s).reportEnd m j rfl

@[simp] theorem reportEnd_cal (m : ReportMode) (j : JobEnd) (s : State) :
    (reportEnd m j s).cal = s.cal := (kept_cal s).reportEnd m j rfl

@[simp] theorem reportEnd_matcher (m : ReportMode) (j : JobEnd) (s : State) :
    (reportEnd m j s).matcher = s.matcher := (kept_matcher s).reportEnd m j rfl

@[simp] theorem reportEnd_supply (m : ReportMode) (j : JobEnd) (s : State) :
    (reportEnd m j s).supply = s.supply := (kept_supply s).reportEnd m j rfl

@[simp] theorem reportEnd_store_heap (m : ReportMode) (j : JobEnd) (s : State) :
    (reportEnd m j s).store.heap = s.store.heap := (kept_store_heap s).reportEnd m j rfl

@[simp] theorem reportEnd_store_segRecords (m : ReportMode) (j : JobEnd) (s : State) :
    (reportEnd m j s).store.segRecords = s.store.segRecords := (kept_store_segRecords s).reportEnd m j rfl

@[simp] theorem reportEnd_store_daylightRecord (m : ReportMode) (j : JobEnd) (s : State) :
    (reportEnd m j s).store.daylightRecord = s.store.daylightRecord := (kept_store_daylightRecord s).reportEnd m j rfl

@[simp] theorem reportEnd_ctl_compacting (m : ReportMode) (j : JobEnd) (s : State) :
    (reportEnd m j s).ctl.compacting = s.ctl.compacting := (kept_ctl_compacting s).reportEnd m j rfl

@[simp] theorem reportEnd_ctl_frontier (m : ReportMode) (j : JobEnd) (s : State) :
    (reportEnd m j s).ctl.frontier = s.ctl.frontier := (kept_ctl_frontier s).reportEnd m j rfl

@[simp] theorem reportEnd_ctl_moved (m : ReportMode) (j : JobEnd) (s : State) :
    (reportEnd m j s).ctl.moved = s.ctl.moved := (kept_ctl_moved s).reportEnd m j rfl

@[simp] theorem reportEnd_ctl_order (m : ReportMode) (j : JobEnd) (s : State) :
    (reportEnd m j s).ctl.order = s.ctl.order := (kept_ctl_order s).reportEnd m j rfl

@[simp] theorem reportEnd_store (m : ReportMode) (j : JobEnd) (s : State) :
    (reportEnd m j s).store = s.store := (kept_store s).reportEnd m j rfl

@[simp] theorem reportEnd_ctl (m : ReportMode) (j : JobEnd) (s : State) :
    (reportEnd m j s).ctl = s.ctl := (kept_ctl s).reportEnd m j rfl

/-! ### quarantine -/

@[simp] theorem quarantine_pending (e : EntryIx) (r : FaultRecord) (p : FaultPath) (s : State) :
    (quarantine e r p s).pending = s.pending := (kept_pending s).quarantine e r p rfl

@[simp] theorem quarantine_free (e : EntryIx) (r : FaultRecord) (p : FaultPath) (s : State) :
    (quarantine e r p s).free = s.free := (kept_free s).quarantine e r p rfl

@[simp] theorem quarantine_link (e : EntryIx) (r : FaultRecord) (p : FaultPath) (s : State) :
    (quarantine e r p s).link = s.link := (kept_link s).quarantine e r p rfl

@[simp] theorem quarantine_cal (e : EntryIx) (r : FaultRecord) (p : FaultPath) (s : State) :
    (quarantine e r p s).cal = s.cal := (kept_cal s).quarantine e r p rfl

@[simp] theorem quarantine_matcher (e : EntryIx) (r : FaultRecord) (p : FaultPath) (s : State) :
    (quarantine e r p s).matcher = s.matcher := (kept_matcher s).quarantine e r p rfl

@[simp] theorem quarantine_supply (e : EntryIx) (r : FaultRecord) (p : FaultPath) (s : State) :
    (quarantine e r p s).supply = s.supply := (kept_supply s).quarantine e r p rfl

@[simp] theorem quarantine_store_heap (e : EntryIx) (r : FaultRecord) (p : FaultPath) (s : State) :
    (quarantine e r p s).store.heap = s.store.heap := (kept_store_heap s).quarantine e r p rfl

@[simp] theorem quarantine_store_segRecords (e : EntryIx) (r : FaultRecord) (p : FaultPath) (s : State) :
    (quarantine e r p s).store.segRecords = s.store.segRecords := (kept_store_segRecords s).quarantine e r p rfl

@[simp] theorem quarantine_store_daylightRecord (e : EntryIx) (r : FaultRecord) (p : FaultPath) (s : State) :
    (quarantine e r p s).store.daylightRecord = s.store.daylightRecord := (kept_store_daylightRecord s).quarantine e r p rfl

@[simp] theorem quarantine_ctl_compacting (e : EntryIx) (r : FaultRecord) (p : FaultPath) (s : State) :
    (quarantine e r p s).ctl.compacting = s.ctl.compacting := (kept_ctl_compacting s).quarantine e r p rfl

@[simp] theorem quarantine_ctl_frontier (e : EntryIx) (r : FaultRecord) (p : FaultPath) (s : State) :
    (quarantine e r p s).ctl.frontier = s.ctl.frontier := (kept_ctl_frontier s).quarantine e r p rfl

@[simp] theorem quarantine_ctl_moved (e : EntryIx) (r : FaultRecord) (p : FaultPath) (s : State) :
    (quarantine e r p s).ctl.moved = s.ctl.moved := (kept_ctl_moved s).quarantine e r p rfl

@[simp] theorem quarantine_ctl_order (e : EntryIx) (r : FaultRecord) (p : FaultPath) (s : State) :
    (quarantine e r p s).ctl.order = s.ctl.order := (kept_ctl_order s).quarantine e r p rfl

/-! ### recordEnd -/

@[simp] theorem recordEnd_pending (path : FaultPath) (j : JobEnd) (s : State) :
    (recordEnd path s j).pending = s.pending := (kept_pending s).recordEnd path j rfl

@[simp] theorem recordEnd_free (path : FaultPath) (j : JobEnd) (s : State) :
    (recordEnd path s j).free = s.free := (kept_free s).recordEnd path j rfl

@[simp] theorem recordEnd_link (path : FaultPath) (j : JobEnd) (s : State) :
    (recordEnd path s j).link = s.link := (kept_link s).recordEnd path j rfl

@[simp] theorem recordEnd_cal (path : FaultPath) (j : JobEnd) (s : State) :
    (recordEnd path s j).cal = s.cal := (kept_cal s).recordEnd path j rfl

@[simp] theorem recordEnd_matcher (path : FaultPath) (j : JobEnd) (s : State) :
    (recordEnd path s j).matcher = s.matcher := (kept_matcher s).recordEnd path j rfl

@[simp] theorem recordEnd_supply (path : FaultPath) (j : JobEnd) (s : State) :
    (recordEnd path s j).supply = s.supply := (kept_supply s).recordEnd path j rfl

@[simp] theorem recordEnd_store_heap (path : FaultPath) (j : JobEnd) (s : State) :
    (recordEnd path s j).store.heap = s.store.heap := (kept_store_heap s).recordEnd path j rfl

@[simp] theorem recordEnd_store_segRecords (path : FaultPath) (j : JobEnd) (s : State) :
    (recordEnd path s j).store.segRecords = s.store.segRecords := (kept_store_segRecords s).recordEnd path j rfl

@[simp] theorem recordEnd_store_daylightRecord (path : FaultPath) (j : JobEnd) (s : State) :
    (recordEnd path s j).store.daylightRecord = s.store.daylightRecord := (kept_store_daylightRecord s).recordEnd path j rfl

@[simp] theorem recordEnd_ctl_compacting (path : FaultPath) (j : JobEnd) (s : State) :
    (recordEnd path s j).ctl.compacting = s.ctl.compacting := (kept_ctl_compacting s).recordEnd path j rfl

@[simp] theorem recordEnd_ctl_frontier (path : FaultPath) (j : JobEnd) (s : State) :
    (recordEnd path s j).ctl.frontier = s.ctl.frontier := (kept_ctl_frontier s).recordEnd path j rfl

@[simp] theorem recordEnd_ctl_moved (path : FaultPath) (j : JobEnd) (s : State) :
    (recordEnd path s j).ctl.moved = s.ctl.moved := (kept_ctl_moved s).recordEnd path j rfl

@[simp] theorem recordEnd_ctl_order (path : FaultPath) (j : JobEnd) (s : State) :
    (recordEnd path s j).ctl.order = s.ctl.order := (kept_ctl_order s).recordEnd path j rfl

/-! ### recordAll -/

@[simp] theorem recordAll_pending (path : FaultPath) (l : List JobEnd) (s : State) :
    (recordAll path l s).pending = s.pending := (kept_pending s).recordAll path l rfl

@[simp] theorem recordAll_free (path : FaultPath) (l : List JobEnd) (s : State) :
    (recordAll path l s).free = s.free := (kept_free s).recordAll path l rfl

@[simp] theorem recordAll_link (path : FaultPath) (l : List JobEnd) (s : State) :
    (recordAll path l s).link = s.link := (kept_link s).recordAll path l rfl

@[simp] theorem recordAll_cal (path : FaultPath) (l : List JobEnd) (s : State) :
    (recordAll path l s).cal = s.cal := (kept_cal s).recordAll path l rfl

@[simp] theorem recordAll_matcher (path : FaultPath) (l : List JobEnd) (s : State) :
    (recordAll path l s).matcher = s.matcher := (kept_matcher s).recordAll path l rfl

@[simp] theorem recordAll_supply (path : FaultPath) (l : List JobEnd) (s : State) :
    (recordAll path l s).supply = s.supply := (kept_supply s).recordAll path l rfl

@[simp] theorem recordAll_store_heap (path : FaultPath) (l : List JobEnd) (s : State) :
    (recordAll path l s).store.heap = s.store.heap := (kept_store_heap s).recordAll path l rfl

@[simp] theorem recordAll_store_segRecords (path : FaultPath) (l : List JobEnd) (s : State) :
    (recordAll path l s).store.segRecords = s.store.segRecords := (kept_store_segRecords s).recordAll path l rfl

@[simp] theorem recordAll_store_daylightRecord (path : FaultPath) (l : List JobEnd) (s : State) :
    (recordAll path l s).store.daylightRecord = s.store.daylightRecord := (kept_store_daylightRecord s).recordAll path l rfl

@[simp] theorem recordAll_ctl_compacting (path : FaultPath) (l : List JobEnd) (s : State) :
    (recordAll path l s).ctl.compacting = s.ctl.compacting := (kept_ctl_compacting s).recordAll path l rfl

@[simp] theorem recordAll_ctl_frontier (path : FaultPath) (l : List JobEnd) (s : State) :
    (recordAll path l s).ctl.frontier = s.ctl.frontier := (kept_ctl_frontier s).recordAll path l rfl

@[simp] theorem recordAll_ctl_moved (path : FaultPath) (l : List JobEnd) (s : State) :
    (recordAll path l s).ctl.moved = s.ctl.moved := (kept_ctl_moved s).recordAll path l rfl

@[simp] theorem recordAll_ctl_order (path : FaultPath) (l : List JobEnd) (s : State) :
    (recordAll path l s).ctl.order = s.ctl.order := (kept_ctl_order s).recordAll path l rfl

/-! ### withdraw -/

@[simp] theorem withdraw_pending (owns : EntryIx → Bool) (s : State) :
    (withdraw owns s).pending = s.pending := (kept_pending s).withdraw owns rfl

@[simp] theorem withdraw_free (owns : EntryIx → Bool) (s : State) :
    (withdraw owns s).free = s.free := (kept_free s).withdraw owns rfl

@[simp] theorem withdraw_link (owns : EntryIx → Bool) (s : State) :
    (withdraw owns s).link = s.link := (kept_link s).withdraw owns rfl

@[simp] theorem withdraw_cal (owns : EntryIx → Bool) (s : State) :
    (withdraw owns s).cal = s.cal := (kept_cal s).withdraw owns rfl

@[simp] theorem withdraw_matcher (owns : EntryIx → Bool) (s : State) :
    (withdraw owns s).matcher = s.matcher := (kept_matcher s).withdraw owns rfl

@[simp] theorem withdraw_supply (owns : EntryIx → Bool) (s : State) :
    (withdraw owns s).supply = s.supply := (kept_supply s).withdraw owns rfl

@[simp] theorem withdraw_store_heap (owns : EntryIx → Bool) (s : State) :
    (withdraw owns s).store.heap = s.store.heap := (kept_store_heap s).withdraw owns rfl

@[simp] theorem withdraw_store_segRecords (owns : EntryIx → Bool) (s : State) :
    (withdraw owns s).store.segRecords = s.store.segRecords := (kept_store_segRecords s).withdraw owns rfl

@[simp] theorem withdraw_store_daylightRecord (owns : EntryIx → Bool) (s : State) :
    (withdraw owns s).store.daylightRecord = s.store.daylightRecord := (kept_store_daylightRecord s).withdraw owns rfl

@[simp] theorem withdraw_ctl_compacting (owns : EntryIx → Bool) (s : State) :
    (withdraw owns s).ctl.compacting = s.ctl.compacting := (kept_ctl_compacting s).withdraw owns rfl

@[simp] theorem withdraw_ctl_frontier (owns : EntryIx → Bool) (s : State) :
    (withdraw owns s).ctl.frontier = s.ctl.frontier := (kept_ctl_frontier s).withdraw owns rfl

@[simp] theorem withdraw_ctl_moved (owns : EntryIx → Bool) (s : State) :
    (withdraw owns s).ctl.moved = s.ctl.moved := (kept_ctl_moved s).withdraw owns rfl

@[simp] theorem withdraw_ctl_order (owns : EntryIx → Bool) (s : State) :
    (withdraw owns s).ctl.order = s.ctl.order := (kept_ctl_order s).withdraw owns rfl

/-! ### recordPending -/

@[simp] theorem recordPending_pending (path : FaultPath) (i : Seg) (n : Nat) (s : State) :
    (recordPending path i n s).pending = s.pending := (kept_pending s).recordPending path i n rfl

@[simp] theorem recordPending_free (path : FaultPath) (i : Seg) (n : Nat) (s : State) :
    (recordPending path i n s).free = s.free := (kept_free s).recordPending path i n rfl

@[simp] theorem recordPending_link (path : FaultPath) (i : Seg) (n : Nat) (s : State) :
    (recordPending path i n s).link = s.link := (kept_link s).recordPending path i n rfl

@[simp] theorem recordPending_cal (path : FaultPath) (i : Seg) (n : Nat) (s : State) :
    (recordPending path i n s).cal = s.cal := (kept_cal s).recordPending path i n rfl

@[simp] theorem recordPending_matcher (path : FaultPath) (i : Seg) (n : Nat) (s : State) :
    (recordPending path i n s).matcher = s.matcher := (kept_matcher s).recordPending path i n rfl

@[simp] theorem recordPending_supply (path : FaultPath) (i : Seg) (n : Nat) (s : State) :
    (recordPending path i n s).supply = s.supply := (kept_supply s).recordPending path i n rfl

@[simp] theorem recordPending_store_heap (path : FaultPath) (i : Seg) (n : Nat) (s : State) :
    (recordPending path i n s).store.heap = s.store.heap := (kept_store_heap s).recordPending path i n rfl

@[simp] theorem recordPending_store_segRecords (path : FaultPath) (i : Seg) (n : Nat) (s : State) :
    (recordPending path i n s).store.segRecords = s.store.segRecords := (kept_store_segRecords s).recordPending path i n rfl

@[simp] theorem recordPending_store_daylightRecord (path : FaultPath) (i : Seg) (n : Nat) (s : State) :
    (recordPending path i n s).store.daylightRecord = s.store.daylightRecord := (kept_store_daylightRecord s).recordPending path i n rfl

@[simp] theorem recordPending_ctl_compacting (path : FaultPath) (i : Seg) (n : Nat) (s : State) :
    (recordPending path i n s).ctl.compacting = s.ctl.compacting := (kept_ctl_compacting s).recordPending path i n rfl

@[simp] theorem recordPending_ctl_frontier (path : FaultPath) (i : Seg) (n : Nat) (s : State) :
    (recordPending path i n s).ctl.frontier = s.ctl.frontier := (kept_ctl_frontier s).recordPending path i n rfl

@[simp] theorem recordPending_ctl_moved (path : FaultPath) (i : Seg) (n : Nat) (s : State) :
    (recordPending path i n s).ctl.moved = s.ctl.moved := (kept_ctl_moved s).recordPending path i n rfl

@[simp] theorem recordPending_ctl_order (path : FaultPath) (i : Seg) (n : Nat) (s : State) :
    (recordPending path i n s).ctl.order = s.ctl.order := (kept_ctl_order s).recordPending path i n rfl

/-! ### makeJob -/

@[simp] theorem makeJob_pending (i : Seg) (o : Offer) (s : State) : (makeJob i o s).pending = s.pending := by
  rw [makeJob, considerTakeIn_pending]
  exact (kept_pending s).testHigh i rfl

@[simp] theorem makeJob_free (i : Seg) (o : Offer) (s : State) : (makeJob i o s).free = s.free := by
  rw [makeJob, considerTakeIn_free]
  exact (kept_free s).testHigh i rfl

@[simp] theorem makeJob_link (i : Seg) (o : Offer) (s : State) : (makeJob i o s).link = s.link := by
  rw [makeJob, considerTakeIn_link]
  exact (kept_link s).testHigh i rfl

@[simp] theorem makeJob_cal (i : Seg) (o : Offer) (s : State) : (makeJob i o s).cal = s.cal := by
  rw [makeJob, considerTakeIn_cal]
  exact (kept_cal s).testHigh i rfl

@[simp] theorem makeJob_matcher (i : Seg) (o : Offer) (s : State) : (makeJob i o s).matcher = s.matcher := by
  rw [makeJob, considerTakeIn_matcher]
  exact (kept_matcher s).testHigh i rfl

@[simp] theorem makeJob_supply (i : Seg) (o : Offer) (s : State) : (makeJob i o s).supply = s.supply := by
  rw [makeJob, considerTakeIn_supply]
  exact (kept_supply s).testHigh i rfl

@[simp] theorem makeJob_store_heap (i : Seg) (o : Offer) (s : State) : (makeJob i o s).store.heap = s.store.heap := by
  rw [makeJob, considerTakeIn_store_heap]
  exact (kept_store_heap s).testHigh i rfl

@[simp] theorem makeJob_store_segRecords (i : Seg) (o : Offer) (s : State) : (makeJob i o s).store.segRecords = s.store.segRecords := by
  rw [makeJob, considerTakeIn_store_segRecords]
  exact (kept_store_segRecords s).testHigh i rfl

@[simp] theorem makeJob_store_daylightRecord (i : Seg) (o : Offer) (s : State) : (makeJob i o s).store.daylightRecord = s.store.daylightRecord := by
  rw [makeJob, considerTakeIn_store_daylightRecord]
  exact (kept_store_daylightRecord s).testHigh i rfl

@[simp] theorem makeJob_ctl_compacting (i : Seg) (o : Offer) (s : State) : (makeJob i o s).ctl.compacting = s.ctl.compacting := by
  rw [makeJob, considerTakeIn_ctl_compacting]
  exact (kept_ctl_compacting s).testHigh i rfl

@[simp] theorem makeJob_ctl_frontier (i : Seg) (o : Offer) (s : State) : (makeJob i o s).ctl.frontier = s.ctl.frontier := by
  rw [makeJob, considerTakeIn_ctl_frontier]
  exact (kept_ctl_frontier s).testHigh i rfl

@[simp] theorem makeJob_ctl_moved (i : Seg) (o : Offer) (s : State) : (makeJob i o s).ctl.moved = s.ctl.moved := by
  rw [makeJob, considerTakeIn_ctl_moved]
  exact (kept_ctl_moved s).testHigh i rfl

@[simp] theorem makeJob_ctl_order (i : Seg) (o : Offer) (s : State) : (makeJob i o s).ctl.order = s.ctl.order := by
  rw [makeJob, considerTakeIn_ctl_order]
  exact (kept_ctl_order s).testHigh i rfl

@[simp] theorem makeJob_store (i : Seg) (o : Offer) (s : State) : (makeJob i o s).store = s.store := by
  rw [makeJob, considerTakeIn_store]
  exact (kept_store s).testHigh i rfl

@[simp] theorem makeJob_ctl (i : Seg) (o : Offer) (s : State) : (makeJob i o s).ctl = s.ctl := by
  rw [makeJob, considerTakeIn_ctl]
  exact (kept_ctl s).testHigh i rfl

/-! ### meetOffer -/

@[simp] theorem meetOffer_pending (path : FaultPath) (i : Seg) (o : Offer) (m : ReportMode) (s : State) :
    (meetOffer path i o m s).2.pending = s.pending := (kept_pending s).meetOffer path i o m rfl

@[simp] theorem meetOffer_free (path : FaultPath) (i : Seg) (o : Offer) (m : ReportMode) (s : State) :
    (meetOffer path i o m s).2.free = s.free := (kept_free s).meetOffer path i o m rfl

@[simp] theorem meetOffer_link (path : FaultPath) (i : Seg) (o : Offer) (m : ReportMode) (s : State) :
    (meetOffer path i o m s).2.link = s.link := (kept_link s).meetOffer path i o m rfl

@[simp] theorem meetOffer_cal (path : FaultPath) (i : Seg) (o : Offer) (m : ReportMode) (s : State) :
    (meetOffer path i o m s).2.cal = s.cal := (kept_cal s).meetOffer path i o m rfl

@[simp] theorem meetOffer_matcher (path : FaultPath) (i : Seg) (o : Offer) (m : ReportMode) (s : State) :
    (meetOffer path i o m s).2.matcher = s.matcher := (kept_matcher s).meetOffer path i o m rfl

@[simp] theorem meetOffer_supply (path : FaultPath) (i : Seg) (o : Offer) (m : ReportMode) (s : State) :
    (meetOffer path i o m s).2.supply = s.supply := (kept_supply s).meetOffer path i o m rfl

@[simp] theorem meetOffer_store_heap (path : FaultPath) (i : Seg) (o : Offer) (m : ReportMode) (s : State) :
    (meetOffer path i o m s).2.store.heap = s.store.heap := (kept_store_heap s).meetOffer path i o m rfl

@[simp] theorem meetOffer_store_segRecords (path : FaultPath) (i : Seg) (o : Offer) (m : ReportMode) (s : State) :
    (meetOffer path i o m s).2.store.segRecords = s.store.segRecords := (kept_store_segRecords s).meetOffer path i o m rfl

@[simp] theorem meetOffer_store_daylightRecord (path : FaultPath) (i : Seg) (o : Offer) (m : ReportMode) (s : State) :
    (meetOffer path i o m s).2.store.daylightRecord = s.store.daylightRecord := (kept_store_daylightRecord s).meetOffer path i o m rfl

@[simp] theorem meetOffer_ctl_compacting (path : FaultPath) (i : Seg) (o : Offer) (m : ReportMode) (s : State) :
    (meetOffer path i o m s).2.ctl.compacting = s.ctl.compacting := (kept_ctl_compacting s).meetOffer path i o m rfl

@[simp] theorem meetOffer_ctl_frontier (path : FaultPath) (i : Seg) (o : Offer) (m : ReportMode) (s : State) :
    (meetOffer path i o m s).2.ctl.frontier = s.ctl.frontier := (kept_ctl_frontier s).meetOffer path i o m rfl

@[simp] theorem meetOffer_ctl_moved (path : FaultPath) (i : Seg) (o : Offer) (m : ReportMode) (s : State) :
    (meetOffer path i o m s).2.ctl.moved = s.ctl.moved := (kept_ctl_moved s).meetOffer path i o m rfl

@[simp] theorem meetOffer_ctl_order (path : FaultPath) (i : Seg) (o : Offer) (m : ReportMode) (s : State) :
    (meetOffer path i o m s).2.ctl.order = s.ctl.order := (kept_ctl_order s).meetOffer path i o m rfl

/-! ### loadConfig -/

@[simp] theorem loadConfig_pending (i : Seg) (path : FaultPath) (s : State) :
    (loadConfig i path s).pending = s.pending := (keptByPorts_pending s).loadConfig i path rfl

@[simp] theorem loadConfig_free (i : Seg) (path : FaultPath) (s : State) :
    (loadConfig i path s).free = s.free := (keptByPorts_free s).loadConfig i path rfl

@[simp] theorem loadConfig_link (i : Seg) (path : FaultPath) (s : State) :
    (loadConfig i path s).link = s.link := (keptByPorts_link s).loadConfig i path rfl

@[simp] theorem loadConfig_cal (i : Seg) (path : FaultPath) (s : State) :
    (loadConfig i path s).cal = s.cal := (keptByPorts_cal s).loadConfig i path rfl

@[simp] theorem loadConfig_matcher (i : Seg) (path : FaultPath) (s : State) :
    (loadConfig i path s).matcher = s.matcher := (keptByPorts_matcher s).loadConfig i path rfl

@[simp] theorem loadConfig_supply (i : Seg) (path : FaultPath) (s : State) :
    (loadConfig i path s).supply = s.supply := (keptByPorts_supply s).loadConfig i path rfl

@[simp] theorem loadConfig_store_heap (i : Seg) (path : FaultPath) (s : State) :
    (loadConfig i path s).store.heap = s.store.heap := (keptByPorts_store_heap s).loadConfig i path rfl

@[simp] theorem loadConfig_store_daylightRecord (i : Seg) (path : FaultPath) (s : State) :
    (loadConfig i path s).store.daylightRecord = s.store.daylightRecord := (keptByPorts_store_daylightRecord s).loadConfig i path rfl

@[simp] theorem loadConfig_ctl_compacting (i : Seg) (path : FaultPath) (s : State) :
    (loadConfig i path s).ctl.compacting = s.ctl.compacting := (keptByPorts_ctl_compacting s).loadConfig i path rfl

@[simp] theorem loadConfig_ctl_frontier (i : Seg) (path : FaultPath) (s : State) :
    (loadConfig i path s).ctl.frontier = s.ctl.frontier := (keptByPorts_ctl_frontier s).loadConfig i path rfl

@[simp] theorem loadConfig_ctl_moved (i : Seg) (path : FaultPath) (s : State) :
    (loadConfig i path s).ctl.moved = s.ctl.moved := (keptByPorts_ctl_moved s).loadConfig i path rfl

@[simp] theorem loadConfig_ctl_order (i : Seg) (path : FaultPath) (s : State) :
    (loadConfig i path s).ctl.order = s.ctl.order := (keptByPorts_ctl_order s).loadConfig i path rfl

/-! ### changeHealth -/

@[simp] theorem changeHealth_pending (i : Seg) (h : Health) (c : HealthCause) (d : Option Nat) (s : State) :
    (changeHealth i h c d s).pending = s.pending := (keptByPorts_pending s).changeHealth i h c d rfl

@[simp] theorem changeHealth_free (i : Seg) (h : Health) (c : HealthCause) (d : Option Nat) (s : State) :
    (changeHealth i h c d s).free = s.free := (keptByPorts_free s).changeHealth i h c d rfl

@[simp] theorem changeHealth_link (i : Seg) (h : Health) (c : HealthCause) (d : Option Nat) (s : State) :
    (changeHealth i h c d s).link = s.link := (keptByPorts_link s).changeHealth i h c d rfl

@[simp] theorem changeHealth_cal (i : Seg) (h : Health) (c : HealthCause) (d : Option Nat) (s : State) :
    (changeHealth i h c d s).cal = s.cal := (keptByPorts_cal s).changeHealth i h c d rfl

@[simp] theorem changeHealth_matcher (i : Seg) (h : Health) (c : HealthCause) (d : Option Nat) (s : State) :
    (changeHealth i h c d s).matcher = s.matcher := (keptByPorts_matcher s).changeHealth i h c d rfl

@[simp] theorem changeHealth_supply (i : Seg) (h : Health) (c : HealthCause) (d : Option Nat) (s : State) :
    (changeHealth i h c d s).supply = s.supply := (keptByPorts_supply s).changeHealth i h c d rfl

@[simp] theorem changeHealth_store_heap (i : Seg) (h : Health) (c : HealthCause) (d : Option Nat) (s : State) :
    (changeHealth i h c d s).store.heap = s.store.heap := (keptByPorts_store_heap s).changeHealth i h c d rfl

@[simp] theorem changeHealth_store_daylightRecord (i : Seg) (h : Health) (c : HealthCause) (d : Option Nat) (s : State) :
    (changeHealth i h c d s).store.daylightRecord = s.store.daylightRecord := (keptByPorts_store_daylightRecord s).changeHealth i h c d rfl

@[simp] theorem changeHealth_ctl_compacting (i : Seg) (h : Health) (c : HealthCause) (d : Option Nat) (s : State) :
    (changeHealth i h c d s).ctl.compacting = s.ctl.compacting := (keptByPorts_ctl_compacting s).changeHealth i h c d rfl

@[simp] theorem changeHealth_ctl_frontier (i : Seg) (h : Health) (c : HealthCause) (d : Option Nat) (s : State) :
    (changeHealth i h c d s).ctl.frontier = s.ctl.frontier := (keptByPorts_ctl_frontier s).changeHealth i h c d rfl

@[simp] theorem changeHealth_ctl_moved (i : Seg) (h : Health) (c : HealthCause) (d : Option Nat) (s : State) :
    (changeHealth i h c d s).ctl.moved = s.ctl.moved := (keptByPorts_ctl_moved s).changeHealth i h c d rfl

@[simp] theorem changeHealth_ctl_order (i : Seg) (h : Health) (c : HealthCause) (d : Option Nat) (s : State) :
    (changeHealth i h c d s).ctl.order = s.ctl.order := (keptByPorts_ctl_order s).changeHealth i h c d rfl

/-! ### segmentAnswered -/

@[simp] theorem segmentAnswered_pending (i : Seg) (c : HealthCause) (d : Nat) (s : State) :
    (segmentAnswered i c d s).pending = s.pending := (keptByPorts_pending s).segmentAnswered i c d rfl

@[simp] theorem segmentAnswered_free (i : Seg) (c : HealthCause) (d : Nat) (s : State) :
    (segmentAnswered i c d s).free = s.free := (keptByPorts_free s).segmentAnswered i c d rfl

@[simp] theorem segmentAnswered_link (i : Seg) (c : HealthCause) (d : Nat) (s : State) :
    (segmentAnswered i c d s).link = s.link := (keptByPorts_link s).segmentAnswered i c d rfl

@[simp] theorem segmentAnswered_cal (i : Seg) (c : HealthCause) (d : Nat) (s : State) :
    (segmentAnswered i c d s).cal = s.cal := (keptByPorts_cal s).segmentAnswered i c d rfl

@[simp] theorem segmentAnswered_matcher (i : Seg) (c : HealthCause) (d : Nat) (s : State) :
    (segmentAnswered i c d s).matcher = s.matcher := (keptByPorts_matcher s).segmentAnswered i c d rfl

@[simp] theorem segmentAnswered_supply (i : Seg) (c : HealthCause) (d : Nat) (s : State) :
    (segmentAnswered i c d s).supply = s.supply := (keptByPorts_supply s).segmentAnswered i c d rfl

@[simp] theorem segmentAnswered_store_heap (i : Seg) (c : HealthCause) (d : Nat) (s : State) :
    (segmentAnswered i c d s).store.heap = s.store.heap := (keptByPorts_store_heap s).segmentAnswered i c d rfl

@[simp] theorem segmentAnswered_store_daylightRecord (i : Seg) (c : HealthCause) (d : Nat) (s : State) :
    (segmentAnswered i c d s).store.daylightRecord = s.store.daylightRecord := (keptByPorts_store_daylightRecord s).segmentAnswered i c d rfl

@[simp] theorem segmentAnswered_ctl_compacting (i : Seg) (c : HealthCause) (d : Nat) (s : State) :
    (segmentAnswered i c d s).ctl.compacting = s.ctl.compacting := (keptByPorts_ctl_compacting s).segmentAnswered i c d rfl

@[simp] theorem segmentAnswered_ctl_frontier (i : Seg) (c : HealthCause) (d : Nat) (s : State) :
    (segmentAnswered i c d s).ctl.frontier = s.ctl.frontier := (keptByPorts_ctl_frontier s).segmentAnswered i c d rfl

@[simp] theorem segmentAnswered_ctl_moved (i : Seg) (c : HealthCause) (d : Nat) (s : State) :
    (segmentAnswered i c d s).ctl.moved = s.ctl.moved := (keptByPorts_ctl_moved s).segmentAnswered i c d rfl

@[simp] theorem segmentAnswered_ctl_order (i : Seg) (c : HealthCause) (d : Nat) (s : State) :
    (segmentAnswered i c d s).ctl.order = s.ctl.order := (keptByPorts_ctl_order s).segmentAnswered i c d rfl

/-! ### segmentSilent -/

@[simp] theorem segmentSilent_pending (i : Seg) (d : Nat) (s : State) :
    (segmentSilent i d s).pending = s.pending := (keptByPorts_pending s).segmentSilent i d rfl

@[simp] theorem segmentSilent_free (i : Seg) (d : Nat) (s : State) :
    (segmentSilent i d s).free = s.free := (keptByPorts_free s).segmentSilent i d rfl

@[simp] theorem segmentSilent_link (i : Seg) (d : Nat) (s : State) :
    (segmentSilent i d s).link = s.link := (keptByPorts_link s).segmentSilent i d rfl

@[simp] theorem segmentSilent_cal (i : Seg) (d : Nat) (s : State) :
    (segmentSilent i d s).cal = s.cal := (keptByPorts_cal s).segmentSilent i d rfl

@[simp] theorem segmentSilent_matcher (i : Seg) (d : Nat) (s : State) :
    (segmentSilent i d s).matcher = s.matcher := (keptByPorts_matcher s).segmentSilent i d rfl

@[simp] theorem segmentSilent_supply (i : Seg) (d : Nat) (s : State) :
    (segmentSilent i d s).supply = s.supply := (keptByPorts_supply s).segmentSilent i d rfl

@[simp] theorem segmentSilent_store_heap (i : Seg) (d : Nat) (s : State) :
    (segmentSilent i d s).store.heap = s.store.heap := (keptByPorts_store_heap s).segmentSilent i d rfl

@[simp] theorem segmentSilent_store_daylightRecord (i : Seg) (d : Nat) (s : State) :
    (segmentSilent i d s).store.daylightRecord = s.store.daylightRecord := (keptByPorts_store_daylightRecord s).segmentSilent i d rfl

@[simp] theorem segmentSilent_ctl_compacting (i : Seg) (d : Nat) (s : State) :
    (segmentSilent i d s).ctl.compacting = s.ctl.compacting := (keptByPorts_ctl_compacting s).segmentSilent i d rfl

@[simp] theorem segmentSilent_ctl_frontier (i : Seg) (d : Nat) (s : State) :
    (segmentSilent i d s).ctl.frontier = s.ctl.frontier := (keptByPorts_ctl_frontier s).segmentSilent i d rfl

@[simp] theorem segmentSilent_ctl_moved (i : Seg) (d : Nat) (s : State) :
    (segmentSilent i d s).ctl.moved = s.ctl.moved := (keptByPorts_ctl_moved s).segmentSilent i d rfl

@[simp] theorem segmentSilent_ctl_order (i : Seg) (d : Nat) (s : State) :
    (segmentSilent i d s).ctl.order = s.ctl.order := (keptByPorts_ctl_order s).segmentSilent i d rfl

/-! ### endJob -/

@[simp] theorem endJob_pending (i : Seg) (o : JobOutcome) (s : State) :
    (endJob i o s).pending = s.pending := (keptByPorts_pending s).endJob i o rfl

@[simp] theorem endJob_free (i : Seg) (o : JobOutcome) (s : State) :
    (endJob i o s).free = s.free := (keptByPorts_free s).endJob i o rfl

@[simp] theorem endJob_link (i : Seg) (o : JobOutcome) (s : State) :
    (endJob i o s).link = s.link := (keptByPorts_link s).endJob i o rfl

@[simp] theorem endJob_cal (i : Seg) (o : JobOutcome) (s : State) :
    (endJob i o s).cal = s.cal := (keptByPorts_cal s).endJob i o rfl

@[simp] theorem endJob_matcher (i : Seg) (o : JobOutcome) (s : State) :
    (endJob i o s).matcher = s.matcher := (keptByPorts_matcher s).endJob i o rfl

@[simp] theorem endJob_supply (i : Seg) (o : JobOutcome) (s : State) :
    (endJob i o s).supply = s.supply := (keptByPorts_supply s).endJob i o rfl

@[simp] theorem endJob_store_heap (i : Seg) (o : JobOutcome) (s : State) :
    (endJob i o s).store.heap = s.store.heap := (keptByPorts_store_heap s).endJob i o rfl

@[simp] theorem endJob_store_daylightRecord (i : Seg) (o : JobOutcome) (s : State) :
    (endJob i o s).store.daylightRecord = s.store.daylightRecord := (keptByPorts_store_daylightRecord s).endJob i o rfl

@[simp] theorem endJob_ctl_compacting (i : Seg) (o : JobOutcome) (s : State) :
    (endJob i o s).ctl.compacting = s.ctl.compacting := (keptByPorts_ctl_compacting s).endJob i o rfl

@[simp] theorem endJob_ctl_frontier (i : Seg) (o : JobOutcome) (s : State) :
    (endJob i o s).ctl.frontier = s.ctl.frontier := (keptByPorts_ctl_frontier s).endJob i o rfl

@[simp] theorem endJob_ctl_moved (i : Seg) (o : JobOutcome) (s : State) :
    (endJob i o s).ctl.moved = s.ctl.moved := (keptByPorts_ctl_moved s).endJob i o rfl

@[simp] theorem endJob_ctl_order (i : Seg) (o : JobOutcome) (s : State) :
    (endJob i o s).ctl.order = s.ctl.order := (keptByPorts_ctl_order s).endJob i o rfl

/-! ### The store under a quarantine and a recording -/

/-- A quarantine writes the marker and nothing else in the store (R34). -/
theorem quarantine_store (e : EntryIx) (r : FaultRecord) (p : FaultPath) (s : State) :
    (quarantine e r p s).store = (writeHeader e (bareHeader .quarantined) s).store := by
  have k := (kept_store (writeHeader e (bareHeader .quarantined) s)).toKeptByQueues
  unfold quarantine
  refine k.post _ _ (k.considerAll _ ?_)
  refine KeptByQueues.foldl (P := fun t => t.store = _) _ (fun _ a hs => k.recordBare a hs) ?_
  rw [markStale_store, removeSelected_store, freeGranules_store]

/-- A quarantine frees the entry's granules and marks it QUARANTINED, and changes no other element (R34). -/
theorem quarantine_ctl (e : EntryIx) (r : FaultRecord) (p : FaultPath) (s : State) :
    (quarantine e r p s).ctl = (freeGranules e (writeHeader e (bareHeader .quarantined) s)).ctl := by
  have k := (kept_ctl (freeGranules e (writeHeader e (bareHeader .quarantined) s))).toKeptByQueues
  unfold quarantine
  refine k.post _ _ (k.considerAll _ ?_)
  refine KeptByQueues.foldl (P := fun t => t.ctl = _) _ (fun _ a hs => k.recordBare a hs) ?_
  rw [markStale_ctl, removeSelected_ctl]

/-- Recording an end changes no header but that of the end's entry (R105). -/
theorem recordEnd_header_ne (path : FaultPath) (s : State) (j : JobEnd) (e : EntryIx) (h : e ≠ j.entry) :
    (recordEnd path s j).store.headers.get e = s.store.headers.get e := by
  unfold recordEnd recordBare
  split
  · split
    · rw [reportEnd_store, quarantine_store, header_writeHeader, if_neg h]
    · rw [reportEnd_store]
      split
      · rfl
      · rw [header_writeHeader, if_neg h]
  · rw [reportEnd_store]

/-- An offer of entry `e` leaves the stored header of `e` as it was: a displaced job is another entry's (R94). -/
theorem meetOffer_header (path : FaultPath) (i : Seg) (o : Offer) (m : ReportMode) (s : State) :
    (meetOffer path i o m s).2.store.headers.get o.entry = s.store.headers.get o.entry := by
  unfold meetOffer
  split
  · simp
  · split
    · rfl
    · rename_i hf
      split
      · simp
      · split
        · rename_i victim hv
          split
          · rename_i hc
            have hmem : victim ∈ s.queue i := List.mem_of_getLast? hv
            have hne : o.entry ≠ victim.entry := by
              intro he
              have h1 := List.find?_eq_none.mp hf victim hmem
              simp only [Bool.and_eq_true, Bool.not_eq_true'] at hc
              simp [hc.1, he] at h1
            simp only [makeJob_store]
            rw [recordEnd_header_ne _ _ _ _ hne]
            rfl
          · simp
        · simp

end Sys2Proof.Machine
end

