-- ==== Sys2Proof/Laws/Commands.lean ====
section
/-! SUPPORT. What a step can do, said once: a property that every elementary update keeps (KeptByCommands) is kept by
every command and by step; one that the start of service need not keep (KeptInService), by every command outside a
start-up. An invariant is proved by giving its KeptByCommands. -/

namespace Sys2Proof.Machine

/-- The state as main supply's failure or NRST leaves it, with the supplies as given (R169). -/
def stopped (p : Supply) (s : State) : State := { loseVolatile s with supply := p }

/-- The backup domain's contents lost, with the supplies as given (R171). -/
def backupGone (p : Supply) (s : State) : State :=
  { s with free := s.free + 1, store := lostStore s.free, cal := lostCalendar s.free s.cal, supply := p }

/-- A property that every elementary update of a command keeps, the start of service apart. -/
structure KeptInService (P : State → Prop) : Prop extends KeptByOffers P, KeptByPorts P where
  pending : ∀ l s, P s → P { s with pending := l }
  grant : ∀ r s, P s → P (grant r s)
  reply : ∀ body s, P s → P (replyInHand body s)
  kick : ∀ s, P s → P (kickTx s)
  cal : ∀ c s, P s → P { s with cal := c }
  daylight : ∀ r s, P s → P { s with store := { s.store with daylightRecord := r } }
  place : ∀ e h d start body s, readHeader s e = some (h, d) →
    allocate s.ctl (granulesFor body.length) = some start → 1 ≤ body.length → body.length ≤ 240 → P s →
    P (placeBody e h start body s)
  erase : ∀ s, P s → P (eraseStore s)
  compactor : ∀ b f m s, P s → P { s with ctl := { s.ctl with compacting := b, frontier := f, moved := m } }
  move : ∀ e h d r s, readHeader s e = some (h, d) → h.body = some r →
    lowestFrom s.ctl.frontier 0 s.ctl.map.toList = some (r.first, e) → r.first ≠ s.ctl.frontier →
    recordSound s.store.heap e r = true → P s → P (moveRecord e h r s)
  hold : ∀ b s, P s → P { s with dispatch := { s.dispatch with hold := b } }
  segHold : ∀ i b s, P s → P (setSegHold i b s)
  clearDiscards : ∀ s, P s → P { s with link := { s.link with discards := 0 } }
  reset : ∀ r s, inHand s = some r → s.supply.phase = .inService → P s → P (beginReset r s)
  ack : ∀ serial s, (inFlightSerials s).contains serial = true → P s → P (noticeAckOp serial s).1
  mask : ∀ m s, P s → P { s with notices := { s.notices with mask := m } }
  rx : ∀ r s, P s → P (setRx r s)
  discard : ∀ s, P s → P (countDiscard s)
  present : ∀ s, P s → P (hostPresent s)
  meet : ∀ seq kind body s, P s → P (meetFrame seq kind body s)
  replySent : ∀ r s, s.link.tx = some (.reply r) → P s → P (replySent r s)
  noticeSent : ∀ n s, s.link.tx = some (.notice n) → P s → P (noticeSent n (idleTx s))
  timer : ∀ s, s.notices.timer = true → P s → P (timerExpired s)
  matcher : ∀ m s, P s → P { s with matcher := m }
  supply : ∀ p s, (p.running → s.supply.running) → P s → P { s with supply := p }
  stop : ∀ p s, ¬ p.running → P s → P (stopped p s)
  startUnit : ∀ u s, s.supply.phase = .starting → P s → P (runStartUnit s u)
  lost : ∀ p s, s.supply.phase = .unpowered → p.phase = .unpowered → P s → P (backupGone p s)

/-- A property that every elementary update of a command keeps. -/
structure KeptByCommands (P : State → Prop) : Prop extends KeptInService P where
  service : ∀ s, s.supply.phase = .starting → P s → P (beginService (volatileInit s))

variable {P : State → Prop}

theorem KeptInService.finish (k : KeptInService P) (body : List Byte) {s : State} (h : P s) : P (finish body s) :=
  k.kick _ (k.reply _ _ h)

/-- A request keeps what its operation keeps. -/
theorem KeptInService.serve (k : KeptInService P) {α : Type} (kind : Byte) (usesStore : Bool)
    (parse : List Byte → Except ReqError α) (op : α → State → State × List Byte) {s : State} (h : P s)
    (hop : ∀ a body t, parse body = .ok a → (t = s ∨ t = Machine.grant .commandInterpreter s) → P t → P (op a t).1) :
    P (serve kind usesStore parse op s) := by
  unfold Machine.serve
  split
  · exact h
  · split
    · split
      · exact k.finish _ h
      · rename_i a ha
        split
        · split
          · exact k.finish _ (hop a _ _ ha (Or.inr rfl) (k.grant _ _ h))
          · exact h
        · exact k.finish _ (hop a _ _ ha (Or.inl rfl) h)
    · exact h

theorem KeptInService.dataFault (k : KeptInService P) (e : EntryIx) (r : FaultRecord) {s : State} (h : P s) :
    P (dataFault e r s).1 := k.quarantine _ _ _ h

/-! ### Entry requests -/

theorem KeptInService.define (k : KeptInService P) (q : DefineReq) {s : State} (h : P s) : P (defineOp q s).1 := by
  have clear : ∀ hd : Header, hd.body = none → P (freeGranules q.index (writeHeader q.index hd s)) :=
    fun hd hb => k.clear _ _ _ hb h
  unfold defineOp
  split
  · split
    · exact k.dataFault _ _ h
    · rename_i hd d hr
      split
      · cases hb : hd.body with
        | none =>
          simp only [storeDefinition]
          exact k.withdraw _ (clear _ rfl)
        | some r =>
          simp only [storeDefinition]
          exact k.withdraw _ (k.rewrite _ _ _ (by rw [(readHeader_some hr).1, hb]; rfl) h)
      · exact k.withdraw _ (clear _ rfl)
  · exact k.withdraw _ (clear _ rfl)

theorem KeptInService.arm (k : KeptInService P) (e : EntryIx) {s : State} (h : P s) : P (armOp e s).1 := by
  unfold armOp
  split
  · split
    · exact k.dataFault _ _ h
    · rename_i hd d hr
      exact k.rewrite _ _ _ (by rw [(readHeader_some hr).1]) h
  · exact h

theorem KeptInService.disarm (k : KeptInService P) (e : EntryIx) {s : State} (h : P s) : P (disarmOp e s).1 := by
  unfold disarmOp
  split
  · exact h
  · split
    · exact k.dataFault _ _ h
    · rename_i hd d hr
      exact k.rewrite _ _ _ (by rw [(readHeader_some hr).1]) h
  · exact h
  · exact h
  · exact h

theorem KeptInService.delete (k : KeptInService P) (e : EntryIx) {s : State} (h : P s) : P (deleteOp e s).1 := by
  unfold deleteOp
  split
  · exact h
  · exact k.withdraw _ (k.clear _ _ _ rfl h)

theorem KeptInService.read (k : KeptInService P) (e : EntryIx) {s : State} (h : P s) : P (readOp e s).1 := by
  unfold readOp
  split
  · split
    · exact k.dataFault _ _ h
    · exact h
  · exact h

/-! ### ENTRY-FIRE and the body requests -/

theorem KeptInService.fire (k : KeptInService P) (e : EntryIx) {s : State} (h : P s) : P (fireOp e s).1 := by
  unfold fireOp
  split
  · split
    · exact k.dataFault _ _ h
    · rename_i hd d hr
      refine k.rewrite _ _ _ ?_ (k.meetOffer _ _ _ _ h)
      have := meetOffer_header .hostRead d.seg (manualOffer e d s.cal.runSecond) d.report s
      change _ = (_ : StoredHeader) at this
      rw [show (manualOffer e d s.cal.runSecond).entry = e from rfl] at this
      rw [this, (readHeader_some hr).1]
      rfl
  · exact h

theorem parseBodyLoad_ok {body : List Byte} {q : EntryIx × List Byte} (h : parseBodyLoad body = .ok q) :
    1 ≤ q.2.length ∧ q.2.length ≤ 240 := by
  unfold parseBodyLoad at h
  split at h
  · cases h
  · split at h
    · rename_i hl
      injection h with h
      subst h
      exact hl
    · cases h

theorem KeptInService.load (k : KeptInService P) (q : EntryIx × List Byte) (hq : 1 ≤ q.2.length ∧ q.2.length ≤ 240)
    {s : State} (h : P s) : P (loadOp q s).1 := by
  unfold loadOp
  split
  · split
    · exact k.dataFault _ _ h
    · rename_i hd d hr
      split
      · exact h
      · rename_i start ha
        exact k.withdraw _ (k.place _ _ _ _ _ _ hr ha hq.1 hq.2 h)
  · exact h

theorem KeptInService.bodyRead (k : KeptInService P) (e : EntryIx) {s : State} (h : P s) : P (bodyReadOp e s).1 := by
  unfold bodyReadOp
  split
  · exact h
  · exact h
  · split
    · exact k.dataFault _ _ h
    · split
      · exact h
      · split
        · exact h
        · exact k.dataFault _ _ h

theorem KeptInService.drop (k : KeptInService P) (e : EntryIx) {s : State} (h : P s) : P (dropOp e s).1 := by
  unfold dropOp
  split
  · exact h
  · exact h
  · split
    · exact k.dataFault _ _ h
    · split
      · exact k.withdraw _ (k.clear _ _ _ rfl h)
      · exact h

theorem KeptInService.compact (k : KeptInService P) (u : Unit) {s : State} (h : P s) : P (compactOp u s).1 := by
  unfold compactOp
  split
  · exact h
  · exact k.compactor _ _ _ _ h

theorem KeptInService.eraseAll (k : KeptInService P) (u : Unit) {s : State} (h : P s) : P (eraseOp u s).1 := by
  unfold eraseOp
  split
  · exact h
  · exact k.withdraw _ (k.erase _ h)

/-! ### Dispatch and segment requests -/

theorem KeptInService.purge (k : KeptInService P) (l : List Seg) {s : State} (h : P s) : P (purgeOp l s).1 :=
  k.considerAll _ (k.recordAll _ _ (k.removeSelected _ h))

theorem KeptInService.release (k : KeptInService P) (u : Unit) {s : State} (h : P s) : P (dispatchReleaseOp u s).1 := by
  unfold dispatchReleaseOp
  dsimp only
  split
  · exact k.considerAll _ (k.hold _ _ h)
  · exact h

theorem KeptInService.segConfig (k : KeptInService P) (q : Seg × SegConfig) {s : State} (h : P s) :
    P (segmentConfigOp q s).1 := by
  unfold segmentConfigOp
  dsimp only
  split
  · exact k.putSegRecord _ _ _ h
  · exact k.onPort _ _ _ (k.putSegRecord _ _ _ h)

theorem KeptInService.segOpen (k : KeptInService P) (i : Seg) {s : State} (h : P s) : P (segmentOpenOp i s).1 := by
  unfold segmentOpenOp
  split
  · exact k.considerTakeIn _ (k.changeHealth _ _ _ _ (k.onPort _ _ _ (k.loadConfig _ _ h)))
  · exact h

theorem KeptInService.abandon (k : KeptInService P) (i : Seg) {s : State} (h : P s) : P (abandonService i s) := by
  unfold abandonService
  split
  · exact h
  · exact k.recordEnd _ _ (k.removeTo _ _ _ (Or.inl List.filter_sublist) (k.onPort _ _ _ h))

theorem KeptInService.segClose (k : KeptInService P) (i : Seg) {s : State} (h : P s) : P (segmentCloseOp i s).1 := by
  unfold segmentCloseOp closeSegment purgeWaiting
  split
  · exact h
  · refine k.post _ _ (k.recordAll _ _ (k.removeTo _ _ _ (Or.inl (List.nil_sublist _)) ?_))
    exact k.abandon _ (k.recordPending _ _ _ (k.onPort _ _ _ h))

theorem KeptInService.segRelease (k : KeptInService P) (i : Seg) {s : State} (h : P s) : P (segmentReleaseOp i s).1 := by
  unfold segmentReleaseOp
  dsimp only
  split
  · exact k.considerTakeIn _ (k.segHold _ _ _ h)
  · exact h

/-! ### Reception -/

theorem KeptInService.discardFrame (k : KeptInService P) {s : State} (h : P s) : P (discardFrame s) :=
  k.discard _ (k.rx _ _ h)

theorem KeptInService.frameArrives (k : KeptInService P) (kept : List Byte) {s : State} (h : P s) :
    P (frameArrives kept s) := by
  unfold Machine.frameArrives
  split
  · exact k.kick _ (k.meet _ _ _ _ (k.present _ (k.rx _ _ h)))
  · exact k.rx _ _ h

theorem KeptInService.receive (k : KeptInService P) (c : RxChar) {s : State} (h : P s) : P (receive s c) := by
  unfold Machine.receive
  split
  · split
    · exact k.rx _ _ h
    · exact h
  · split
    · exact k.rx _ _ h
    · exact k.discardFrame h
  · split
    · split
      · exact k.rx _ _ h
      · exact k.rx _ _ h
    · exact k.discardFrame h
  · split
    · exact k.rx _ _ h
    · exact k.discardFrame h
  · split
    · exact k.frameArrives _ h
    · exact k.discardFrame h

theorem KeptInService.receiveAll (k : KeptInService P) (l : List RxChar) {s : State} (h : P s) :
    P (receiveAll l s) := by
  unfold Machine.receiveAll
  split
  · exact KeptByQueues.foldl l (fun _ c hs => k.receive c hs) h
  · exact h

/-! ### The start-up -/

theorem runStartUnit_phase (s : State) (u : StartUnit) : (runStartUnit s u).supply.phase = s.supply.phase := by
  cases u <;> simp only [runStartUnit, testEntry, replaceConfig, startQuarantine] <;> repeat' split
  all_goals rfl

theorem KeptInService.runStart (k : KeptInService P) (n : Nat) {s : State} (hp : s.supply.phase = .starting) (h : P s) :
    P (runStart n s) ∧ (runStart n s).supply.phase = .starting := by
  have hfold : ∀ (l : List StartUnit) (t : State), t.supply.phase = .starting → P t →
      P (l.foldl runStartUnit t) ∧ (l.foldl runStartUnit t).supply.phase = .starting := by
    intro l
    induction l with
    | nil => exact fun t ht h => ⟨h, ht⟩
    | cons u l ih =>
      intro t ht h
      exact ih _ (by rw [runStartUnit_phase, ht]) (k.startUnit u t ht h)
  have := hfold (((startUnits s.supply.cause).drop s.supply.startDone).take n) s hp h
  unfold Machine.runStart
  refine ⟨k.supply _ _ ?_ this.1, this.2⟩
  intro hr
  exact hr

theorem KeptInService.beginStart (k : KeptInService P) (start : StartInput) {s : State} (h : P s) :
    P (beginStart start s) := by
  unfold Machine.beginStart
  refine (k.runStart _ rfl (k.supply _ _ ?_ h)).1
  intro hr
  rcases hr with hr | hr <;> cases hr

/-! ### Schedule and compaction -/

theorem KeptInService.makeMatch (k : KeptInService P) (stamp : Stamp) (e : EntryIx) (hd : Header) (d : Definition)
    {s : State} (hb : hd.body = (s.store.headers.get e).header.body) (h : P s) : P (makeMatch stamp e hd d s) := by
  have key : P (writeHeader e (matchedHeader hd d stamp (meetOffer .scan d.seg (matchOffer e d stamp) d.report s).1)
      (meetOffer .scan d.seg (matchOffer e d stamp) d.report s).2) := by
    refine k.rewrite _ _ _ ?_ (k.meetOffer _ _ _ _ h)
    have := meetOffer_header .scan d.seg (matchOffer e d stamp) d.report s
    rw [show (matchOffer e d stamp).entry = e from rfl] at this
    rw [this, ← hb]
    rfl
  unfold Machine.makeMatch
  dsimp only
  split
  · exact k.post _ _ key
  · exact key

theorem KeptInService.scanEntry (k : KeptInService P) (stamp : Stamp) (e : EntryIx) {s : State} (h : P s) :
    P (scanEntry stamp e s) := by
  unfold Machine.scanEntry
  split
  · split
    · exact k.quarantine _ _ _ h
    · rename_i hd d hr
      have hb : hd.body = (s.store.headers.get e).header.body := by rw [(readHeader_some hr).1]
      split
      · unfold scanArmed
        split
        · split
          · exact k.makeMatch _ _ _ _ hb h
          · exact h
        · split
          · exact k.rewrite _ _ _ hb h
          · exact k.makeMatch _ _ _ _ hb h
      · exact h
  · exact h

theorem KeptInService.compactStep (k : KeptInService P) {s : State} (h : P s) : P (compactStep s) := by
  unfold Machine.compactStep
  split
  · exact k.post _ _ (k.compactor false s.ctl.frontier s.ctl.moved _ h)
  · rename_i start e hn
    have hl := (nextRecord_some hn).1
    split
    · exact k.compactor s.ctl.compacting _ s.ctl.moved _ h
    · rename_i hne
      unfold compactRecord
      split
      · exact k.quarantine _ _ _ h
      · rename_i hd d hr
        split
        · exact k.quarantine _ _ _ h
        · rename_i r hb
          split
          · rename_i hc
            exact k.move _ _ _ _ _ hr hb (by rw [hc.1]; exact hl) (by rw [hc.1]; exact hne) hc.2 h
          · exact k.quarantine _ _ _ h

/-! ### Port events -/

theorem countsOnly_attempts (n : Nat → Nat) : CountsOnly (fun j => { j with attempts := n j.attempts }) :=
  fun j => ⟨n j.attempts, j.busy, rfl⟩

theorem countsOnly_busy (n : Nat → Nat) : CountsOnly (fun j => { j with busy := n j.busy }) :=
  fun j => ⟨j.attempts, n j.busy, rfl⟩

theorem KeptInService.sendFetched (k : KeptInService P) (i : Seg) (j : Job) (body : List Byte) {s : State} (h : P s) :
    P (sendFetched i j body s) := k.onPort _ _ _ (k.onJob _ _ _ (countsOnly_attempts (· + 1)) h)

theorem KeptInService.recordLine (k : KeptInService P) (i : Seg) {s : State} (h : P s) : P (recordLine i s) :=
  k.recordPending _ _ _ h

theorem KeptInService.takeFetchLine (k : KeptInService P) (i : Seg) {s : State} (h : P s) : P (takeFetchLine i s) :=
  k.onPort _ _ _ (k.grant _ _ h)

theorem KeptInService.fetchOnLine (k : KeptInService P) (i : Seg) {s : State} (h : P s) : P (fetchOnLine i s) := by
  have h1 := k.recordLine i (k.takeFetchLine i h)
  have h2 : P (if ((Machine.recordLine i (Machine.takeFetchLine i s)).port i).cfgPending then
      Machine.loadConfig i .fetch (Machine.recordLine i (Machine.takeFetchLine i s)) else Machine.recordLine i (Machine.takeFetchLine i s)) := by
    split
    · exact k.loadConfig _ _ h1
    · exact h1
  unfold Machine.fetchOnLine
  dsimp only
  generalize (if ((Machine.recordLine i (Machine.takeFetchLine i s)).port i).cfgPending then
      Machine.loadConfig i .fetch (Machine.recordLine i (Machine.takeFetchLine i s))
      else Machine.recordLine i (Machine.takeFetchLine i s)) = t at h2 ⊢
  split
  · exact h2
  · unfold fetchJob
    split
    · exact k.endJob _ _ h2
    · split
      · exact k.endJob _ _ (k.quarantine _ _ _ h2)
      · split
        · exact k.sendFetched _ _ _ h2
        · split
          · exact k.sendFetched _ _ _ h2
          · exact k.endJob _ _ (k.quarantine _ _ _ h2)

theorem KeptInService.telegramEnds (k : KeptInService P) (i : Seg) {s : State} (h : P s) : P (telegramEnds i s) := by
  have h1 : P (Machine.onPort i Port.released s) := k.onPort _ _ _ h
  unfold Machine.telegramEnds
  dsimp only
  split
  · exact k.onPort _ _ _ h1
  · split
    · exact k.onPort _ _ _ h1
    · split
      · exact k.endJob _ _ h1
      · exact k.onPort _ _ _ h1

theorem KeptInService.windowAnswered (k : KeptInService P) (i : Seg) (kind : DeviceReplyKind) (sent : Telegram) {s : State}
    (h : P s) : P (windowAnswered i kind sent s) := by
  unfold Machine.windowAnswered
  split
  · exact k.considerTakeIn _ (k.onPort _ _ _ (k.segmentAnswered _ _ _ h))
  · split
    · exact k.endJob _ _ (k.segmentAnswered _ _ _ (k.onPort _ _ _ h))
    · exact k.endJob _ _ (k.segmentAnswered _ _ _ (k.onPort _ _ _ h))
    · have h1 := k.segmentAnswered i .reply sent.destination (k.onJob i _ _ (countsOnly_busy (· + 1)) h)
      unfold jobBusy
      dsimp only
      split
      · split
        · exact k.onPort _ _ _ h1
        · exact k.considerTakeIn _ (k.onPort _ _ _ h1)
      · exact k.endJob _ _ h1

theorem KeptInService.hear (k : KeptInService P) (i : Seg) (c : RxChar) {s : State} (h : P s) : P (hear i s c) := by
  have hc : ∀ l, P (setCand i l s) := fun l => k.onPort _ _ _ h
  unfold Machine.hear
  split
  · split
    · split
      · exact hc _
      · exact h
    · split
      · split
        · exact hc _
        · unfold candidateEnds
          dsimp only
          split
          · split
            · exact hc _
            · exact k.windowAnswered _ _ _ (hc _)
          · exact hc _
      · exact hc _
  · exact h

theorem KeptInService.windowSilent (k : KeptInService P) (i : Seg) {s : State} (h : P s) : P (windowSilent i s) := by
  unfold Machine.windowSilent
  split
  · exact k.onPort _ _ _ h
  · split
    · exact k.onPort _ _ _ (k.onJob _ _ _ (countsOnly_attempts (· + 1)) h)
    · exact k.endJob _ _ (k.segmentSilent _ _ h)

theorem parseAck_ok {l : List Word16} {body : List Byte} {serial : Word16} (h : parseAck l body = .ok serial) :
    l.contains serial = true := by
  unfold parseAck at h
  split at h
  · simp only [tested, firstFault] at h
    split at h
    · cases h
    · rename_i hf
      injection h with h
      subst h
      simpa using hf
  · cases h

theorem beginReset_keeps (k : KeptInService P) {s : State} (h : P s) :
    P (match inHand s with
      | none => s
      | some r => if s.inService && r.kind == 0x32#8 then kickTx (beginReset r s) else s) := by
  split
  · exact h
  · rename_i r hr
    split
    · rename_i hc
      simp only [Bool.and_eq_true, State.inService, beq_iff_eq] at hc
      exact k.kick _ (k.reset _ _ hr hc.1 h)
    · exact h

/-! ### Every command -/

/-- Every command answers a next state, in which a property that its elementary updates keep still holds, where the
start of service keeps it. -/
theorem KeptInService.execWith (k : KeptInService P) (c : Instr) {s : State} (h : P s)
    (service : ∀ t, s.supply.phase = .starting → t.supply.phase = .starting → P t → P (beginService (volatileInit t))) :
    ∃ t, exec c s = .next t ∧ P t := by
  cases c
  case entryDefine => exact ⟨_, rfl, k.serve _ _ _ _ h (fun a _ _ _ _ ht => k.define a ht)⟩
  case entryArm => exact ⟨_, rfl, k.serve _ _ _ _ h (fun a _ _ _ _ ht => k.arm a ht)⟩
  case entryDisarm => exact ⟨_, rfl, k.serve _ _ _ _ h (fun a _ _ _ _ ht => k.disarm a ht)⟩
  case entryDelete => exact ⟨_, rfl, k.serve _ _ _ _ h (fun a _ _ _ _ ht => k.delete a ht)⟩
  case entryRead => exact ⟨_, rfl, k.serve _ _ _ _ h (fun a _ _ _ _ ht => k.read a ht)⟩
  case entryMap => exact ⟨_, rfl, k.serve _ _ _ _ h (fun _ _ _ _ _ ht => ht)⟩
  case entryFire => exact ⟨_, rfl, k.serve _ _ _ _ h (fun a _ _ _ _ ht => k.fire a ht)⟩
  case bodyLoad => exact ⟨_, rfl, k.serve _ _ _ _ h (fun a _ _ ha _ ht => k.load a (parseBodyLoad_ok ha) ht)⟩
  case bodyRead => exact ⟨_, rfl, k.serve _ _ _ _ h (fun a _ _ _ _ ht => k.bodyRead a ht)⟩
  case bodyDrop => exact ⟨_, rfl, k.serve _ _ _ _ h (fun a _ _ _ _ ht => k.drop a ht)⟩
  case storeCompact => exact ⟨_, rfl, k.serve _ _ _ _ h (fun a _ _ _ _ ht => k.compact a ht)⟩
  case storeStatus => exact ⟨_, rfl, k.serve _ _ _ _ h (fun _ _ _ _ _ ht => ht)⟩
  case storeErase => exact ⟨_, rfl, k.serve _ _ _ _ h (fun a _ _ _ _ ht => k.eraseAll a ht)⟩
  case clockSet => exact ⟨_, rfl, k.serve _ _ _ _ h (fun _ _ _ _ _ ht => k.cal _ _ ht)⟩
  case clockRead => exact ⟨_, rfl, k.serve _ _ _ _ h (fun _ _ _ _ _ ht => ht)⟩
  case clockRule => exact ⟨_, rfl, k.serve _ _ _ _ h (fun a _ t _ _ ht => k.cal { t.cal with rule := a, fold := foldUnder a t.cal.fold t.cal.reading } _ (k.daylight (freshDaylight a) t ht))⟩
  case queueRead => exact ⟨_, rfl, k.serve _ _ _ _ h (fun _ _ _ _ _ ht => ht)⟩
  case queuePurge => exact ⟨_, rfl, k.serve _ _ _ _ h (fun a _ _ _ _ ht => k.purge a ht)⟩
  case dispatchHold => exact ⟨_, rfl, k.serve _ _ _ _ h (fun _ _ _ _ _ ht => k.hold _ _ ht)⟩
  case dispatchRelease => exact ⟨_, rfl, k.serve _ _ _ _ h (fun a _ _ _ _ ht => k.release a ht)⟩
  case segmentConfig => exact ⟨_, rfl, k.serve _ _ _ _ h (fun a _ _ _ _ ht => k.segConfig a ht)⟩
  case segmentOpen => exact ⟨_, rfl, k.serve _ _ _ _ h (fun a _ _ _ _ ht => k.segOpen a ht)⟩
  case segmentClose => exact ⟨_, rfl, k.serve _ _ _ _ h (fun a _ _ _ _ ht => k.segClose a ht)⟩
  case segmentHold => exact ⟨_, rfl, k.serve _ _ _ _ h (fun _ _ _ _ _ ht => k.segHold _ _ _ ht)⟩
  case segmentRelease => exact ⟨_, rfl, k.serve _ _ _ _ h (fun a _ _ _ _ ht => k.segRelease a ht)⟩
  case segmentStatus => exact ⟨_, rfl, k.serve _ _ _ _ h (fun _ _ _ _ _ ht => ht)⟩
  case linkEcho => exact ⟨_, rfl, k.serve _ _ _ _ h (fun _ _ _ _ _ ht => ht)⟩
  case partStatus =>
    refine ⟨_, rfl, k.serve _ _ _ _ h (fun a _ _ _ _ ht => ?_)⟩
    unfold partStatusOp
    dsimp only
    split
    · exact k.clearDiscards _ ht
    · exact ht
  case partReset => exact ⟨_, rfl, beginReset_keeps k h⟩
  case noticeAck =>
    refine ⟨_, rfl, k.serve _ _ _ _ h (fun a _ t ha hts ht => k.ack _ _ ?_ ht)⟩
    rcases hts with rfl | rfl
    · exact parseAck_ok ha
    · exact parseAck_ok ha
  case noticeMask => exact ⟨_, rfl, k.serve _ _ _ _ h (fun _ _ _ _ _ ht => k.mask _ _ ht)⟩
  case unknownKindRequest =>
    refine ⟨_, rfl, ?_⟩
    split
    · exact h
    · split
      · exact k.finish _ h
      · exact h
  case frameArrival chars => exact ⟨_, rfl, k.receiveAll chars h⟩
  case frameDiscard chars => exact ⟨_, rfl, k.receiveAll chars h⟩
  case interCharacterTimerExpiry =>
    refine ⟨_, rfl, ?_⟩
    split
    · exact k.discardFrame h
    · exact h
  case replyTransmitEnd start =>
    refine ⟨_, rfl, ?_⟩
    split
    · rename_i r hr
      have h1 := k.replySent r s hr h
      dsimp only
      split
      · exact k.beginStart _ h1
      · exact k.kick _ h1
    · exact h
  case noticeFrameEnd =>
    refine ⟨_, rfl, ?_⟩
    split
    · rename_i n hn
      exact k.kick _ (k.noticeSent n s hn h)
    · exact h
  case resendTimerExpiry =>
    refine ⟨_, rfl, ?_⟩
    split
    · rename_i ht
      exact k.kick _ (k.timer s ht h)
    · exact h
  case updateEvent =>
    refine ⟨_, rfl, ?_⟩
    split
    · exact h
    · have h1 : P (advanceCalendar s) := k.cal _ _ h
      split
      · refine k.kick _ (k.matcher _ _ ?_)
        unfold postShift
        split
        · exact k.cal _ _ h1
        · exact k.post _ _ (k.cal _ _ h1)
      · exact h1
  case expirySweep =>
    refine ⟨_, rfl, ?_⟩
    split
    · exact h
    · split
      · exact k.kick _ (k.matcher _ _
          (k.considerAll _ (k.recordAll _ _ (k.removeSelected _ (k.grant _ _ h)))))
      · exact h
  case scanStep =>
    refine ⟨_, rfl, ?_⟩
    split
    · exact h
    · split
      · exact k.kick _ (k.matcher _ _ (k.scanEntry _ _ (k.grant _ _ h)))
      · exact h
  case compactionStep =>
    refine ⟨_, rfl, ?_⟩
    split
    · exact k.kick _ (k.compactStep (k.grant _ _ h))
    · exact h
  case fetch i =>
    refine ⟨_, rfl, ?_⟩
    split
    · exact k.kick _ (k.fetchOnLine i h)
    · exact h
  case recordingOperation i =>
    refine ⟨_, rfl, ?_⟩
    split
    · exact k.kick _ (k.recordLine i (k.takeFetchLine i h))
    · exact h
  case sendStartAfterGap i =>
    refine ⟨_, rfl, ?_⟩
    split
    · exact k.onPort _ _ _ h
    · exact h
  case telegramSendEnd i =>
    refine ⟨_, rfl, ?_⟩
    split
    · exact k.kick _ (k.telegramEnds i h)
    · exact h
  case deviceReply i chars =>
    exact ⟨_, rfl, k.kick _ (KeptByQueues.foldl chars (fun _ c hs => k.hear i c hs) h)⟩
  case responseWindowExpiry i =>
    refine ⟨_, rfl, ?_⟩
    split
    · dsimp only
      refine k.kick _ ?_
      split
      · exact k.considerTakeIn _ (k.onPort _ _ _ (k.onPort _ _ _ h))
      · exact k.windowSilent i (k.onPort _ _ _ h)
    · exact h
  case backoffExpiry i =>
    refine ⟨_, rfl, ?_⟩
    split
    · exact k.onPort _ _ _ h
    · exact h
  case probeTimerExpiry i =>
    refine ⟨_, rfl, ?_⟩
    split
    · exact h
    · split
      · exact k.onPort _ _ _ h
      · exact h
  case mainSupplyFail =>
    refine ⟨_, rfl, ?_⟩
    split
    · exact h
    · exact k.stop _ _ (by intro hr; rcases hr with hr | hr <;> cases hr) h
  case mainSupplyReturn start =>
    refine ⟨_, rfl, ?_⟩
    split
    · unfold powerReturns
      split
      · exact k.beginStart _ h
      · exact k.supply _ _ (by intro hr; rcases hr with hr | hr <;> cases hr) h
    · exact h
  case nrstAssert =>
    refine ⟨_, rfl, ?_⟩
    split
    · exact k.supply _ _ (fun hr => hr) h
    · exact k.stop _ _ (by intro hr; rcases hr with hr | hr <;> cases hr) h
  case nrstRelease start =>
    refine ⟨_, rfl, ?_⟩
    have h1 : P { s with supply := { s.supply with nrst := true } } := k.supply _ _ (fun hr => hr) h
    dsimp only
    split
    · exact k.beginStart _ h1
    · exact h1
  case backupLost =>
    refine ⟨_, rfl, ?_⟩
    split
    · rename_i hp
      exact k.lost _ _ hp hp h
    · exact h
  case startUpSequenceEnd =>
    refine ⟨_, rfl, ?_⟩
    split
    · rename_i hp
      have h1 := k.runStart (startUnits s.supply.cause).length hp h
      exact service _ hp h1.2 h1.1
    · exact h

/-- Outside a start-up, every command answers a next state and keeps what its elementary updates keep. -/
theorem KeptInService.exec (k : KeptInService P) (c : Instr) {s : State} (hp : s.supply.phase ≠ .starting) (h : P s) :
    ∃ t, exec c s = .next t ∧ P t := k.execWith c h (fun _ hs _ _ => absurd hs hp)

/-- Every command answers a next state and keeps what its elementary updates keep. -/
theorem KeptByCommands.exec (k : KeptByCommands P) (c : Instr) {s : State} (h : P s) :
    ∃ t, exec c s = .next t ∧ P t := k.execWith c h (fun t _ ht hp => k.service t ht hp)

/-- Outside a start-up, what every elementary update keeps, every step keeps. -/
theorem KeptInService.step (k : KeptInService P) {s t : State} (hp : s.supply.phase ≠ .starting) (h : P s)
    (hs : step s = .next t) : P t := by
  unfold Machine.step at hs
  split at hs
  · injection hs with hs
    exact hs ▸ h
  · rename_i c rest _
    obtain ⟨t', ht, hp⟩ := k.exec (s := { s with pending := rest }) c hp (k.pending rest s h)
    rw [ht] at hs
    injection hs with hs
    exact hs ▸ hp

/-- What every elementary update keeps, every step keeps. -/
theorem KeptByCommands.step (k : KeptByCommands P) {s t : State} (h : P s) (hs : step s = .next t) : P t := by
  unfold Machine.step at hs
  split at hs
  · injection hs with hs
    exact hs ▸ h
  · rename_i c rest _
    obtain ⟨t', ht, hp⟩ := k.exec c (k.pending rest s h)
    rw [ht] at hs
    injection hs with hs
    exact hs ▸ hp

end Sys2Proof.Machine
end

