-- ==== Sys2Proof/Laws/LinkFrames.lean ====
section
/-! SUPPORT. The blocks that the link's and the notices' own operations leave alone, one lemma per block, and what the
start of service leaves of the store and its accounts. -/

namespace Sys2Proof.Machine

/-! ### kickTx -/

@[simp] theorem kickTx_pending (s : State) : (kickTx s).pending = s.pending := by
  unfold kickTx
  repeat' split
  all_goals rfl

@[simp] theorem kickTx_free (s : State) : (kickTx s).free = s.free := by
  unfold kickTx
  repeat' split
  all_goals rfl

@[simp] theorem kickTx_store (s : State) : (kickTx s).store = s.store := by
  unfold kickTx
  repeat' split
  all_goals rfl

@[simp] theorem kickTx_ctl (s : State) : (kickTx s).ctl = s.ctl := by
  unfold kickTx
  repeat' split
  all_goals rfl

@[simp] theorem kickTx_cal (s : State) : (kickTx s).cal = s.cal := by
  unfold kickTx
  repeat' split
  all_goals rfl

@[simp] theorem kickTx_matcher (s : State) : (kickTx s).matcher = s.matcher := by
  unfold kickTx
  repeat' split
  all_goals rfl

@[simp] theorem kickTx_dispatch (s : State) : (kickTx s).dispatch = s.dispatch := by
  unfold kickTx
  repeat' split
  all_goals rfl

@[simp] theorem kickTx_ports (s : State) : (kickTx s).ports = s.ports := by
  unfold kickTx
  repeat' split
  all_goals rfl

@[simp] theorem kickTx_supply (s : State) : (kickTx s).supply = s.supply := by
  unfold kickTx
  repeat' split
  all_goals rfl

/-! ### replyInHand -/

@[simp] theorem replyInHand_pending (body : List Byte) (s : State) : (replyInHand body s).pending = s.pending := by
  unfold replyInHand
  split
  all_goals rfl

@[simp] theorem replyInHand_free (body : List Byte) (s : State) : (replyInHand body s).free = s.free := by
  unfold replyInHand
  split
  all_goals rfl

@[simp] theorem replyInHand_store (body : List Byte) (s : State) : (replyInHand body s).store = s.store := by
  unfold replyInHand
  split
  all_goals rfl

@[simp] theorem replyInHand_ctl (body : List Byte) (s : State) : (replyInHand body s).ctl = s.ctl := by
  unfold replyInHand
  split
  all_goals rfl

@[simp] theorem replyInHand_cal (body : List Byte) (s : State) : (replyInHand body s).cal = s.cal := by
  unfold replyInHand
  split
  all_goals rfl

@[simp] theorem replyInHand_matcher (body : List Byte) (s : State) : (replyInHand body s).matcher = s.matcher := by
  unfold replyInHand
  split
  all_goals rfl

@[simp] theorem replyInHand_dispatch (body : List Byte) (s : State) : (replyInHand body s).dispatch = s.dispatch := by
  unfold replyInHand
  split
  all_goals rfl

@[simp] theorem replyInHand_ports (body : List Byte) (s : State) : (replyInHand body s).ports = s.ports := by
  unfold replyInHand
  split
  all_goals rfl

@[simp] theorem replyInHand_supply (body : List Byte) (s : State) : (replyInHand body s).supply = s.supply := by
  unfold replyInHand
  split
  all_goals rfl

/-! ### meetFrame -/

@[simp] theorem meetFrame_pending (seq kind : Byte) (body : List Byte) (s : State) : (meetFrame seq kind body s).pending = s.pending := by
  unfold meetFrame answerAtOnce countDiscard
  repeat' split
  all_goals rfl

@[simp] theorem meetFrame_free (seq kind : Byte) (body : List Byte) (s : State) : (meetFrame seq kind body s).free = s.free := by
  unfold meetFrame answerAtOnce countDiscard
  repeat' split
  all_goals rfl

@[simp] theorem meetFrame_store (seq kind : Byte) (body : List Byte) (s : State) : (meetFrame seq kind body s).store = s.store := by
  unfold meetFrame answerAtOnce countDiscard
  repeat' split
  all_goals rfl

@[simp] theorem meetFrame_ctl (seq kind : Byte) (body : List Byte) (s : State) : (meetFrame seq kind body s).ctl = s.ctl := by
  unfold meetFrame answerAtOnce countDiscard
  repeat' split
  all_goals rfl

@[simp] theorem meetFrame_cal (seq kind : Byte) (body : List Byte) (s : State) : (meetFrame seq kind body s).cal = s.cal := by
  unfold meetFrame answerAtOnce countDiscard
  repeat' split
  all_goals rfl

@[simp] theorem meetFrame_matcher (seq kind : Byte) (body : List Byte) (s : State) : (meetFrame seq kind body s).matcher = s.matcher := by
  unfold meetFrame answerAtOnce countDiscard
  repeat' split
  all_goals rfl

@[simp] theorem meetFrame_dispatch (seq kind : Byte) (body : List Byte) (s : State) : (meetFrame seq kind body s).dispatch = s.dispatch := by
  unfold meetFrame answerAtOnce countDiscard
  repeat' split
  all_goals rfl

@[simp] theorem meetFrame_ports (seq kind : Byte) (body : List Byte) (s : State) : (meetFrame seq kind body s).ports = s.ports := by
  unfold meetFrame answerAtOnce countDiscard
  repeat' split
  all_goals rfl

@[simp] theorem meetFrame_supply (seq kind : Byte) (body : List Byte) (s : State) : (meetFrame seq kind body s).supply = s.supply := by
  unfold meetFrame answerAtOnce countDiscard
  repeat' split
  all_goals rfl

/-! ### hostPresent -/

@[simp] theorem hostPresent_pending (s : State) : (hostPresent s).pending = s.pending := rfl

@[simp] theorem hostPresent_free (s : State) : (hostPresent s).free = s.free := rfl

@[simp] theorem hostPresent_store (s : State) : (hostPresent s).store = s.store := rfl

@[simp] theorem hostPresent_ctl (s : State) : (hostPresent s).ctl = s.ctl := rfl

@[simp] theorem hostPresent_cal (s : State) : (hostPresent s).cal = s.cal := rfl

@[simp] theorem hostPresent_matcher (s : State) : (hostPresent s).matcher = s.matcher := rfl

@[simp] theorem hostPresent_dispatch (s : State) : (hostPresent s).dispatch = s.dispatch := rfl

@[simp] theorem hostPresent_ports (s : State) : (hostPresent s).ports = s.ports := rfl

@[simp] theorem hostPresent_supply (s : State) : (hostPresent s).supply = s.supply := rfl

/-! ### replySent -/

@[simp] theorem replySent_pending (r : Reply) (s : State) : (replySent r s).pending = s.pending := by
  unfold replySent
  split
  all_goals rfl

@[simp] theorem replySent_free (r : Reply) (s : State) : (replySent r s).free = s.free := by
  unfold replySent
  split
  all_goals rfl

@[simp] theorem replySent_store (r : Reply) (s : State) : (replySent r s).store = s.store := by
  unfold replySent
  split
  all_goals rfl

@[simp] theorem replySent_ctl (r : Reply) (s : State) : (replySent r s).ctl = s.ctl := by
  unfold replySent
  split
  all_goals rfl

@[simp] theorem replySent_cal (r : Reply) (s : State) : (replySent r s).cal = s.cal := by
  unfold replySent
  split
  all_goals rfl

@[simp] theorem replySent_matcher (r : Reply) (s : State) : (replySent r s).matcher = s.matcher := by
  unfold replySent
  split
  all_goals rfl

@[simp] theorem replySent_dispatch (r : Reply) (s : State) : (replySent r s).dispatch = s.dispatch := by
  unfold replySent
  split
  all_goals rfl

@[simp] theorem replySent_ports (r : Reply) (s : State) : (replySent r s).ports = s.ports := by
  unfold replySent
  split
  all_goals rfl

@[simp] theorem replySent_supply (r : Reply) (s : State) : (replySent r s).supply = s.supply := by
  unfold replySent
  split
  all_goals rfl

/-! ### noticeSent -/

@[simp] theorem noticeSent_pending (n : Notice) (s : State) : (noticeSent n s).pending = s.pending := by
  unfold noticeSent
  split
  all_goals rfl

@[simp] theorem noticeSent_free (n : Notice) (s : State) : (noticeSent n s).free = s.free := by
  unfold noticeSent
  split
  all_goals rfl

@[simp] theorem noticeSent_store (n : Notice) (s : State) : (noticeSent n s).store = s.store := by
  unfold noticeSent
  split
  all_goals rfl

@[simp] theorem noticeSent_ctl (n : Notice) (s : State) : (noticeSent n s).ctl = s.ctl := by
  unfold noticeSent
  split
  all_goals rfl

@[simp] theorem noticeSent_cal (n : Notice) (s : State) : (noticeSent n s).cal = s.cal := by
  unfold noticeSent
  split
  all_goals rfl

@[simp] theorem noticeSent_matcher (n : Notice) (s : State) : (noticeSent n s).matcher = s.matcher := by
  unfold noticeSent
  split
  all_goals rfl

@[simp] theorem noticeSent_dispatch (n : Notice) (s : State) : (noticeSent n s).dispatch = s.dispatch := by
  unfold noticeSent
  split
  all_goals rfl

@[simp] theorem noticeSent_ports (n : Notice) (s : State) : (noticeSent n s).ports = s.ports := by
  unfold noticeSent
  split
  all_goals rfl

@[simp] theorem noticeSent_supply (n : Notice) (s : State) : (noticeSent n s).supply = s.supply := by
  unfold noticeSent
  split
  all_goals rfl

/-! ### timerExpired -/

@[simp] theorem timerExpired_pending (s : State) : (timerExpired s).pending = s.pending := by
  unfold timerExpired
  split
  all_goals rfl

@[simp] theorem timerExpired_free (s : State) : (timerExpired s).free = s.free := by
  unfold timerExpired
  split
  all_goals rfl

@[simp] theorem timerExpired_store (s : State) : (timerExpired s).store = s.store := by
  unfold timerExpired
  split
  all_goals rfl

@[simp] theorem timerExpired_ctl (s : State) : (timerExpired s).ctl = s.ctl := by
  unfold timerExpired
  split
  all_goals rfl

@[simp] theorem timerExpired_cal (s : State) : (timerExpired s).cal = s.cal := by
  unfold timerExpired
  split
  all_goals rfl

@[simp] theorem timerExpired_matcher (s : State) : (timerExpired s).matcher = s.matcher := by
  unfold timerExpired
  split
  all_goals rfl

@[simp] theorem timerExpired_dispatch (s : State) : (timerExpired s).dispatch = s.dispatch := by
  unfold timerExpired
  split
  all_goals rfl

@[simp] theorem timerExpired_ports (s : State) : (timerExpired s).ports = s.ports := by
  unfold timerExpired
  split
  all_goals rfl

@[simp] theorem timerExpired_supply (s : State) : (timerExpired s).supply = s.supply := by
  unfold timerExpired
  split
  all_goals rfl

/-! ### noticeAckOp -/

@[simp] theorem noticeAckOp_pending (serial : Word16) (s : State) : ((noticeAckOp serial s).1).pending = s.pending := by
  simp only [noticeAckOp, makeGap]
  split
  all_goals rfl

@[simp] theorem noticeAckOp_free (serial : Word16) (s : State) : ((noticeAckOp serial s).1).free = s.free := by
  simp only [noticeAckOp, makeGap]
  split
  all_goals rfl

@[simp] theorem noticeAckOp_store (serial : Word16) (s : State) : ((noticeAckOp serial s).1).store = s.store := by
  simp only [noticeAckOp, makeGap]
  split
  all_goals rfl

@[simp] theorem noticeAckOp_ctl (serial : Word16) (s : State) : ((noticeAckOp serial s).1).ctl = s.ctl := by
  simp only [noticeAckOp, makeGap]
  split
  all_goals rfl

@[simp] theorem noticeAckOp_cal (serial : Word16) (s : State) : ((noticeAckOp serial s).1).cal = s.cal := by
  simp only [noticeAckOp, makeGap]
  split
  all_goals rfl

@[simp] theorem noticeAckOp_matcher (serial : Word16) (s : State) : ((noticeAckOp serial s).1).matcher = s.matcher := by
  simp only [noticeAckOp, makeGap]
  split
  all_goals rfl

@[simp] theorem noticeAckOp_dispatch (serial : Word16) (s : State) : ((noticeAckOp serial s).1).dispatch = s.dispatch := by
  simp only [noticeAckOp, makeGap]
  split
  all_goals rfl

@[simp] theorem noticeAckOp_ports (serial : Word16) (s : State) : ((noticeAckOp serial s).1).ports = s.ports := by
  simp only [noticeAckOp, makeGap]
  split
  all_goals rfl

@[simp] theorem noticeAckOp_supply (serial : Word16) (s : State) : ((noticeAckOp serial s).1).supply = s.supply := by
  simp only [noticeAckOp, makeGap]
  split
  all_goals rfl

/-! ### finish -/

@[simp] theorem finish_pending (body : List Byte) (s : State) : (finish body s).pending = s.pending := by
  rw [finish, kickTx_pending, replyInHand_pending]

@[simp] theorem finish_free (body : List Byte) (s : State) : (finish body s).free = s.free := by
  rw [finish, kickTx_free, replyInHand_free]

@[simp] theorem finish_store (body : List Byte) (s : State) : (finish body s).store = s.store := by
  rw [finish, kickTx_store, replyInHand_store]

@[simp] theorem finish_ctl (body : List Byte) (s : State) : (finish body s).ctl = s.ctl := by
  rw [finish, kickTx_ctl, replyInHand_ctl]

@[simp] theorem finish_cal (body : List Byte) (s : State) : (finish body s).cal = s.cal := by
  rw [finish, kickTx_cal, replyInHand_cal]

@[simp] theorem finish_matcher (body : List Byte) (s : State) : (finish body s).matcher = s.matcher := by
  rw [finish, kickTx_matcher, replyInHand_matcher]

@[simp] theorem finish_dispatch (body : List Byte) (s : State) : (finish body s).dispatch = s.dispatch := by
  rw [finish, kickTx_dispatch, replyInHand_dispatch]

@[simp] theorem finish_ports (body : List Byte) (s : State) : (finish body s).ports = s.ports := by
  rw [finish, kickTx_ports, replyInHand_ports]

@[simp] theorem finish_supply (body : List Byte) (s : State) : (finish body s).supply = s.supply := by
  rw [finish, kickTx_supply, replyInHand_supply]

/-! ### The start of service and of the start-up -/

theorem faultItems_store (l : List FaultItem) (s : State) : (l.foldl postFaultItem s).store = s.store := by
  induction l generalizing s with
  | nil => rfl
  | cons a l ih =>
    rw [List.foldl_cons, ih]
    cases a <;> exact post_store ..

theorem faultItems_ctl (l : List FaultItem) (s : State) : (l.foldl postFaultItem s).ctl = s.ctl := by
  induction l generalizing s with
  | nil => rfl
  | cons a l ih =>
    rw [List.foldl_cons, ih]
    cases a <;> exact post_ctl ..

theorem faultItems_dispatch (l : List FaultItem) (s : State) : (l.foldl postFaultItem s).dispatch = s.dispatch := by
  induction l generalizing s with
  | nil => rfl
  | cons a l ih =>
    rw [List.foldl_cons, ih]
    cases a <;> exact post_dispatch ..

@[simp] theorem beginService_store (s : State) : (beginService s).store = s.store := by
  unfold beginService
  simp only [kickTx_store, faultItems_store, post_store]

@[simp] theorem beginService_ctl (s : State) : (beginService s).ctl = s.ctl := by
  unfold beginService
  simp only [kickTx_ctl, faultItems_ctl, post_ctl]

@[simp] theorem beginService_dispatch (s : State) : (beginService s).dispatch = s.dispatch := by
  unfold beginService
  simp only [kickTx_dispatch, faultItems_dispatch, post_dispatch]

@[simp] theorem beginService_phase (s : State) : (beginService s).supply.phase = .inService := by
  unfold beginService
  simp only [kickTx_supply]

theorem runStartUnit_ctl (s : State) (u : StartUnit) : (runStartUnit s u).ctl = s.ctl := by
  cases u <;> simp only [runStartUnit, testEntry, replaceConfig, startQuarantine] <;> repeat' split
  all_goals rfl

theorem runStartUnit_link (s : State) (u : StartUnit) : (runStartUnit s u).link = s.link := by
  cases u <;> simp only [runStartUnit, testEntry, replaceConfig, startQuarantine] <;> repeat' split
  all_goals rfl

theorem runStartUnit_notices (s : State) (u : StartUnit) : (runStartUnit s u).notices = s.notices := by
  cases u <;> simp only [runStartUnit, testEntry, replaceConfig, startQuarantine] <;> repeat' split
  all_goals rfl

theorem runStartUnit_dispatch (s : State) (u : StartUnit) : (runStartUnit s u).dispatch = s.dispatch := by
  cases u <;> simp only [runStartUnit, testEntry, replaceConfig, startQuarantine] <;> repeat' split
  all_goals rfl

theorem runStartUnit_heap (s : State) (u : StartUnit) : (runStartUnit s u).store.heap = s.store.heap := by
  cases u <;> simp only [runStartUnit, testEntry, replaceConfig, startQuarantine] <;> repeat' split
  all_goals rfl

end Sys2Proof.Machine
end

