-- ==== Sys2Proof/Laws/Serve.lean ====
section
/-! SUPPORT. The carrying out of a request, said once: what `finish` and `serve` answer, and what a withdraw leaves. -/

namespace Sys2Proof.Machine

/-! ### finish and serve -/

/-- A finished request's reply stands on the link, and nothing else changes (R143, R147). -/
theorem finish_eq {s : State} {r : Request} (body : List Byte) (hr : inHand s = some r)
    (hp : s.supply.phase = .inService) : finish body s = { s with link := s.link.answered r body } := by
  have h : replyInHand body s = { s with link := { s.link with
      requests := markBuilt s.link.requests
      replies := s.link.replies ++ [⟨r.seq, r.kind, body, false⟩] } } := by
    unfold replyInHand
    rw [hr]
  rw [finish, h]
  unfold kickTx HostLink.answered
  dsimp only
  cases htx : s.link.tx with
  | some x => simp
  | none =>
    simp only [hp, ne_eq, reduceCtorEq, not_true_eq_false, false_and, if_false]
    cases s.link.replies <;> rfl

variable {α : Type} {s : State} {r : Request} {kind : Byte} {parse : List Byte → Except ReqError α}
  {op : α → State → State × List Byte}

/-- A request refused at tests 1 to 3 acts on no block but the link (R144). -/
theorem serve_refused (hs : Serving s r kind) (usesStore : Bool) {e : ReqError} (hp : parse r.body = .error e) :
    serve kind usesStore parse op s = { s with link := s.link.answered r e.bytes } := by
  unfold serve
  simp only [hs.inHand, State.inService, hs.inService, hs.kind, beq_self_eq_true, Bool.and_self, if_true, hp]
  exact finish_eq _ hs.inHand hs.inService

/-- A request that acts on another block alone (R143). -/
theorem serve_immediate (hs : Serving s r kind) {a : α} (hp : parse r.body = .ok a)
    (hr : inHand (op a s).1 = some r) (hi : (op a s).1.supply.phase = .inService) :
    serve kind false parse op s = { (op a s).1 with link := (op a s).1.link.answered r (op a s).2 } := by
  unfold serve
  simp only [hs.inHand, State.inService, hs.inService, hs.kind, beq_self_eq_true, Bool.and_self, if_true, hp,
    Bool.false_eq_true, if_false]
  exact finish_eq _ hr hi

/-- A request that uses the store, at its grant (R143). -/
theorem serve_store (hs : ServingStore s r kind) {a : α} (hp : parse r.body = .ok a)
    (hr : inHand (op a (grant .commandInterpreter s)).1 = some r)
    (hi : (op a (grant .commandInterpreter s)).1.supply.phase = .inService) :
    serve kind true parse op s =
      { (op a (grant .commandInterpreter s)).1 with
        link := (op a (grant .commandInterpreter s)).1.link.answered r (op a (grant .commandInterpreter s)).2 } := by
  unfold serve
  simp only [hs.inHand, State.inService, hs.inService, hs.kind, beq_self_eq_true, Bool.and_self, if_true, hp,
    hs.granted]
  exact finish_eq _ hr hi

/-- A request whose act leaves the link and the supply, in one equation (R143). -/
theorem serve_immediate_eq (hs : Serving s r kind) {a : α} (hp : parse r.body = .ok a)
    (hl : (op a s).1.link = s.link) (hu : (op a s).1.supply = s.supply) :
    serve kind false parse op s = { (op a s).1 with link := s.link.answered r (op a s).2 } := by
  rw [serve_immediate hs hp (by rw [inHand, hl]; exact hs.inHand) (by rw [hu]; exact hs.inService), hl]

/-- A request whose store operation leaves the link and the supply, in one equation (R143). -/
theorem serve_store_eq (hs : ServingStore s r kind) {a : α} (hp : parse r.body = .ok a)
    (hl : (op a (grant .commandInterpreter s)).1.link = s.link)
    (hu : (op a (grant .commandInterpreter s)).1.supply = s.supply) :
    serve kind true parse op s =
      { (op a (grant .commandInterpreter s)).1 with
        link := s.link.answered r (op a (grant .commandInterpreter s)).2 } := by
  rw [serve_store hs hp (by rw [inHand, hl]; exact hs.inHand) (by rw [hu]; exact hs.inService), hl]

/-- A request that uses the store waits for its grant (R143). -/
theorem serve_waits (hs : Serving s r kind) {a : α} (hp : parse r.body = .ok a)
    (hg : granted s .commandInterpreter = false) : serve kind true parse op s = s := by
  unfold serve
  simp [hs.inHand, State.inService, hs.inService, hs.kind, hp, hg]

/-! ### One segment's take-in leaves the others -/

theorem considerTakeIn_queue_ne {i k : Seg} (h : k ≠ i) (s : State) : (considerTakeIn i s).queue k = s.queue k := by
  unfold considerTakeIn
  have he : (expireHeads i s).queue k = s.queue k := by simp [expireHeads, h]
  have hp : ∀ t : State, (presentRecording i t).queue k = t.queue k := by
    intro t
    unfold presentRecording
    split <;> rfl
  split
  · rfl
  · dsimp only
    split
    · rw [hp, he]
    · split
      · rw [queue_takeHead, if_neg h, he]
      · rw [hp, he]

theorem considerTakeIn_port_ne {i k : Seg} (h : k ≠ i) (s : State) : (considerTakeIn i s).port k = s.port k := by
  unfold considerTakeIn
  have hp : ∀ t : State, (presentRecording i t).port k = t.port k := by
    intro t
    unfold presentRecording
    split
    · simp [h]
    · rfl
  split
  · rfl
  · dsimp only
    split
    · rw [hp]
      rfl
    · split
      · simp only [takeHead, port_onPort, if_neg h]
        rfl
      · rw [hp]
        rfl

theorem considerAll_queue_of_notMem {l : List Seg} {k : Seg} (h : k ∉ l) (s : State) :
    (considerAll l s).queue k = s.queue k := by
  unfold considerAll
  induction l generalizing s with
  | nil => rfl
  | cons i l ih =>
    rw [List.foldl_cons, ih (fun hk => h (List.mem_cons_of_mem _ hk)),
      considerTakeIn_queue_ne (fun hk => h (by rw [hk]; exact List.mem_cons_self))]

theorem considerAll_port_of_notMem {l : List Seg} {k : Seg} (h : k ∉ l) (s : State) :
    (considerAll l s).port k = s.port k := by
  unfold considerAll
  induction l generalizing s with
  | nil => rfl
  | cons i l ih =>
    rw [List.foldl_cons, ih (fun hk => h (List.mem_cons_of_mem _ hk)),
      considerTakeIn_port_ne (fun hk => h (by rw [hk]; exact List.mem_cons_self))]

/-! ### The recording of stale ends -/

/-- Posting leaves everything but the notices. -/
theorem reportEnd_eq (m : ReportMode) (j : JobEnd) (s : State) :
    ∃ n, reportEnd m j s = { s with notices := n } := by
  unfold reportEnd
  split
  · unfold post makeNotice
    split
    · exact ⟨s.notices, rfl⟩
    · split
      · exact ⟨_, rfl⟩
      · exact ⟨_, rfl⟩
  · exact ⟨s.notices, rfl⟩

/-- The recording of a stale end whose entry has no definition, or a sound header, changes the notices alone (R105). -/
theorem recordEnd_stale {s : State} {j : JobEnd} (path : FaultPath) (hj : j.stale = true)
    (hs : (stateOf s j.entry).defined = true → (readHeader s j.entry).isSome = true) :
    ∃ n, recordEnd path s j = { s with notices := n } := by
  unfold recordEnd
  simp only [hj, if_true]
  split
  · rename_i hd
    have := hs hd
    split
    · rename_i hn
      rw [hn] at this
      cases this
    · exact reportEnd_eq ..
  · exact reportEnd_eq ..

theorem recordAll_stale (path : FaultPath) (l : List JobEnd) {s : State} (hj : ∀ j ∈ l, j.stale = true)
    (hs : ∀ j ∈ l, (stateOf s j.entry).defined = true → (readHeader s j.entry).isSome = true) :
    ∃ n, recordAll path l s = { s with notices := n } := by
  unfold recordAll
  induction l generalizing s with
  | nil => exact ⟨s.notices, rfl⟩
  | cons j l ih =>
    obtain ⟨n, hn⟩ := recordEnd_stale path (hj j List.mem_cons_self) (hs j List.mem_cons_self)
    rw [List.foldl_cons, hn]
    obtain ⟨n', hn'⟩ := ih (s := { s with notices := n }) (fun k hk => hj k (List.mem_cons_of_mem _ hk))
      (fun k hk => hs k (List.mem_cons_of_mem _ hk))
    exact ⟨n', hn'⟩

/-! ### withdraw -/

theorem endsOf_entry {sel : Seg → Job → Bool} {o : JobOutcome} {s : State} {j : JobEnd} (h : j ∈ endsOf sel o s) :
    ∃ i, ∃ k ∈ s.queue i, k.inService = false ∧ sel i k = true ∧ j = k.end i o none := by
  unfold endsOf selected at h
  simp only [List.mem_flatMap, List.mem_map, List.mem_filter, Bool.and_eq_true, Bool.not_eq_true'] at h
  obtain ⟨i, _, k, ⟨hk, h1, h2⟩, rfl⟩ := h
  exact ⟨i, k, hk, h1, h2, rfl⟩

/-- What stands before take-in is considered in a withdraw of entries that have no definition or a sound header. -/
theorem withdraw_eq {owns : EntryIx → Bool} {s : State}
    (hs : ∀ e, owns e = true → (stateOf s e).defined = true → (readHeader s e).isSome = true) :
    ∃ n, withdraw owns s =
      considerAll (losing (fun _ j => owns j.entry) s)
        { markStale owns (removeSelected (fun _ j => owns j.entry) s) with notices := n } := by
  unfold withdraw
  dsimp only
  have hst : ∀ e, stateOf (markStale owns (removeSelected (fun _ j => owns j.entry) s)) e = stateOf s e := fun _ => rfl
  have hrd : ∀ e, readHeader (markStale owns (removeSelected (fun _ j => owns j.entry) s)) e = readHeader s e :=
    fun _ => rfl
  obtain ⟨n, hn⟩ := recordAll_stale (s := markStale owns (removeSelected (fun _ j => owns j.entry) s)) .hostRead
    ((endsOf (fun _ j => owns j.entry) .superseded s).map JobEnd.marked)
    (by
      intro j hj
      obtain ⟨k, _, rfl⟩ := List.mem_map.mp hj
      rfl)
    (by
      intro j hj
      obtain ⟨k, hk, rfl⟩ := List.mem_map.mp hj
      obtain ⟨i, x, _, _, ho, rfl⟩ := endsOf_entry hk
      rw [hst, hrd]
      exact hs _ ho)
  exact ⟨n, by rw [hn]⟩

/-- A withdraw of entries that have no definition or a sound header leaves the store. -/
theorem withdraw_store {owns : EntryIx → Bool} {s : State}
    (hs : ∀ e, owns e = true → (stateOf s e).defined = true → (readHeader s e).isSome = true) :
    (withdraw owns s).store = s.store := by
  obtain ⟨n, hn⟩ := withdraw_eq hs
  rw [hn]
  simp

/-- A withdraw of entries that have no definition or a sound header leaves the store's accounts. -/
theorem withdraw_ctl {owns : EntryIx → Bool} {s : State}
    (hs : ∀ e, owns e = true → (stateOf s e).defined = true → (readHeader s e).isSome = true) :
    (withdraw owns s).ctl = s.ctl := by
  obtain ⟨n, hn⟩ := withdraw_eq hs
  rw [hn]
  simp

/-! ### Take-in after a withdraw -/

/-- Only jobs in service, all stale, and stale pending records are left of an entry. -/
def OnlyStale (e : EntryIx) (s : State) : Prop :=
  (∀ i, ∀ j ∈ s.queue i, j.entry = e → j.inService = true ∧ j.stale = true) ∧
    ∀ i, ∀ j ∈ s.dispatch.ended.get i, j.entry = e → j.stale = true

theorem splitOld_fst_sublist (now : RunSecond) (limit : Nat) (l : List Job) : (splitOld now limit l).1.Sublist l := by
  induction l with
  | nil => exact List.Sublist.refl _
  | cons j l ih =>
    simp only [splitOld]
    split
    · exact ih.cons_cons _
    · exact List.nil_sublist _

theorem OnlyStale.expireHeads {e : EntryIx} {s : State} (h : OnlyStale e s) (i : Seg) : OnlyStale e (expireHeads i s) := by
  constructor
  · intro k j hj he
    simp only [Machine.expireHeads, queue_setEnded, queue_removeTo] at hj
    split at hj
    · refine h.1 i j ?_ he
      rcases List.mem_append.mp hj with hj | hj
      · exact (List.mem_filter.mp hj).1
      · exact (List.mem_filter.mp ((splitOld_sublist _ _ _).subset hj)).1
    · exact h.1 k j hj he
  · intro k j hj he
    simp only [Machine.expireHeads, setEnded, PerSegment.get_set] at hj
    split at hj
    · rcases List.mem_append.mp hj with hj | hj
      · exact h.2 i j hj he
      · obtain ⟨x, hx, rfl⟩ := List.mem_map.mp hj
        have hw := List.mem_filter.mp ((splitOld_fst_sublist _ _ _).subset hx)
        have := (h.1 i x hw.1 he).1
        simp [this] at hw
    · exact h.2 k j hj he

theorem OnlyStale.presentRecording {e : EntryIx} {s : State} (h : OnlyStale e s) (i : Seg) :
    OnlyStale e (presentRecording i s) := by
  unfold Machine.presentRecording
  split
  · exact h
  · exact h

theorem OnlyStale.considerTakeIn {e : EntryIx} {s : State} (h : OnlyStale e s) (i : Seg) :
    OnlyStale e (considerTakeIn i s) := by
  unfold Machine.considerTakeIn
  split
  · exact h
  · have h1 := h.expireHeads i
    dsimp only
    split
    · exact h1.presentRecording i
    · rename_i j rest hw
      split
      · refine ⟨?_, h1.2⟩
        intro k x hx he
        rw [queue_takeHead] at hx
        split at hx
        · rcases List.mem_cons.mp hx with rfl | hx
          · have hm : j ∈ ((Machine.expireHeads i s).queue i).filter (fun j => !j.inService) := by rw [hw]; exact List.mem_cons_self
            have hm := List.mem_filter.mp hm
            have := (h1.1 i j hm.1 he).1
            simp [this] at hm
          · refine h1.1 i x ?_ he
            rcases List.mem_append.mp hx with hx | hx
            · exact (List.mem_filter.mp hx).1
            · have : x ∈ ((Machine.expireHeads i s).queue i).filter (fun j => !j.inService) := by rw [hw]; exact List.mem_cons_of_mem _ hx
              exact (List.mem_filter.mp this).1
        · exact h1.1 k x hx he
      · exact h1.presentRecording i

theorem OnlyStale.considerAll {e : EntryIx} (l : List Seg) {s : State} (h : OnlyStale e s) :
    OnlyStale e (considerAll l s) := by
  unfold Machine.considerAll
  induction l generalizing s with
  | nil => exact h
  | cons i l ih => exact ih (h.considerTakeIn i)

/-- After the removal and the marks of a withdraw, only stale jobs in service and records are left (R96). -/
theorem onlyStale_markStale {owns : EntryIx → Bool} {e : EntryIx} (he : owns e = true) (s : State) (n : NoticeUnit) :
    OnlyStale e { markStale owns (removeSelected (fun _ j => owns j.entry) s) with notices := n } := by
  constructor
  · intro i j hj hje
    change j ∈ (markStale owns (removeSelected (fun _ j => owns j.entry) s)).queue i at hj
    rw [queue_markStale] at hj
    obtain ⟨k, hk, rfl⟩ := List.mem_map.mp hj
    by_cases ho : owns k.entry = true
    · have := removeSelected_none_waiting owns s i k hk ho
      simp [ho, this]
    · simp only [ho, Bool.false_eq_true, if_false] at hje
      rw [hje] at ho
      exact absurd he ho
  · intro i j hj hje
    simp only [markStale, PerSegment.get_map] at hj
    obtain ⟨k, hk, rfl⟩ := List.mem_map.mp hj
    by_cases ho : owns k.entry = true
    · simp [ho]
    · simp only [ho, Bool.false_eq_true, if_false] at hje
      rw [hje] at ho
      exact absurd he ho

/-! ### What the shared operations keep of the dispatch, the ports and the notices -/

theorem kept_nextTag (n : Word16) : Kept (fun s => s.dispatch.nextTag = n) where
  post _ _ h := by simpa using h
  rewrite _ _ _ _ h := h
  clear _ _ _ _ h := h
  setEnded _ _ _ h := h
  removeTo _ _ _ _ h := h
  markStale _ _ _ h := h
  takeHead _ _ _ _ _ _ h := h
  presentLine _ _ h := h

theorem kept_holds (b : Bool) (l : PerSegment Bool) :
    KeptByOffers (fun s => s.dispatch.hold = b ∧ s.dispatch.segHold = l) where
  post _ _ h := by simpa using h
  rewrite _ _ _ _ h := h
  clear _ _ _ _ h := h
  setEnded _ _ _ h := h
  removeTo _ _ _ _ h := h
  markStale _ _ _ h := h
  takeHead _ _ _ _ _ _ h := h
  presentLine _ _ h := h
  spendHigh _ _ h := h
  insert _ _ _ _ _ h := h

/-- The shared operations change a port's transmitter state and its fetch line alone. -/
theorem kept_port (i : Seg) (p : Port) :
    KeptByOffers (fun s => s.port i = { p with tx := (s.port i).tx, fetchOp := (s.port i).fetchOp }) where
  post _ _ h := by simpa [State.port] using h
  rewrite _ _ _ _ h := h
  clear _ _ _ _ h := h
  setEnded _ _ _ h := h
  removeTo _ _ _ _ h := h
  markStale _ _ _ h := h
  takeHead k _ _ s _ _ h := by
    simp only [takeHead, port_onPort]
    split
    · rename_i hk
      subst hk
      rw [show (setQueue i _ s).port i = s.port i from rfl, h]
    · exact h
  presentLine k s h := by
    simp only [port_onPort]
    split
    · rename_i hk
      subst hk
      rw [h]
    · exact h
  spendHigh _ _ h := h
  insert _ _ _ _ _ h := h

theorem NoticesGrow.refl (n : NoticeUnit) : NoticesGrow n n := ⟨⟨[], by simp⟩, rfl, rfl, rfl, rfl⟩

theorem NoticesGrow.post {n : NoticeUnit} {s : State} (h : NoticesGrow n s.notices) (b : NoticeBody) :
    NoticesGrow n (post b s).notices := by
  unfold Machine.post
  split
  · exact h
  · split
    · exact ⟨h.queue, h.timer, h.resendCount, h.mask, h.hostAbsent⟩
    · obtain ⟨l, hl⟩ := h.queue
      refine ⟨⟨l ++ [⟨s.notices.nextSerial, stampNow s, b⟩], ?_⟩, h.timer, h.resendCount, h.mask, h.hostAbsent⟩
      simp [makeNotice, hl]

theorem kept_noticesGrow (n : NoticeUnit) : KeptByOffers (fun s => NoticesGrow n s.notices) where
  post b _ h := h.post b
  rewrite _ _ _ _ h := h
  clear _ _ _ _ h := h
  setEnded _ _ _ h := h
  removeTo _ _ _ _ h := h
  markStale _ _ _ h := h
  takeHead _ _ _ _ _ _ h := h
  presentLine _ _ h := h
  spendHigh _ _ h := h
  insert _ _ _ _ _ h := h

end Sys2Proof.Machine
end

