-- ==== Sys2Proof/Laws/Withdraw.lean ====
section
/-! SUPPORT. What a withdraw and a quarantine leave of the queues, the pending records, the high-water flags, the ports and
the notices. -/

namespace Sys2Proof.Machine

theorem LastPosted.post {s m : State} (b : NoticeBody) (h : NoticesGrow s.notices m.notices) : LastPosted s (post b m) b :=
  ⟨m, by simp, h, rfl⟩

/-! ### The high-water flag (R95) -/

/-- Between `s` and `t` queue `i` has lost jobs or none, and its high-water flag is as R95 gives. -/
def Rearmed (i : Seg) (s t : State) : Prop :=
  (t.queue i).length ≤ (s.queue i).length ∧
    t.dispatch.highArmed.get i =
      (s.dispatch.highArmed.get i || decide ((t.queue i).length < (s.queue i).length ∧ (t.queue i).length ≤ 8))

theorem Rearmed.refl (i : Seg) (s : State) : Rearmed i s s := ⟨le_refl _, by simp⟩

theorem highArmed_removeTo (i k : Seg) (q : List Job) (s : State) :
    (removeTo i q s).dispatch.highArmed.get k =
      (s.dispatch.highArmed.get k || decide (k = i ∧ q.length < (s.queue i).length ∧ q.length ≤ 8)) := by
  unfold removeTo Config.rearmMark
  by_cases h : q.length < (s.queue i).length ∧ q.length ≤ 8
  · rw [if_pos h]
    by_cases hk : k = i
    · subst hk
      simp [h]
    · simp [PerSegment.get_set, hk]
  · rw [if_neg h]
    have : ¬ (k = i ∧ q.length < (s.queue i).length ∧ q.length ≤ 8) := fun hh => h hh.2
    simp [this]

theorem kept_rearmed (i : Seg) (s₀ : State) : Kept (fun s => Rearmed i s₀ s) where
  post b s h := by
    refine ⟨?_, ?_⟩
    · simpa using h.1
    · simpa using h.2
  rewrite _ _ _ _ h := h
  clear _ _ _ _ h := h
  setEnded _ _ _ h := h
  removeTo k q s hq h := by
    obtain ⟨h1, h2⟩ := h
    have h3 := hq.length_le
    unfold Rearmed
    rw [queue_removeTo, highArmed_removeTo, h2]
    by_cases hk : i = k
    · subst hk
      rw [if_pos rfl]
      refine ⟨by omega, ?_⟩
      simp only [true_and, Bool.or_assoc]
      congr 1
      rw [Bool.eq_iff_iff]
      simp only [Bool.or_eq_true, decide_eq_true_eq]
      omega
    · rw [if_neg hk]
      exact ⟨h1, by simp [hk]⟩
  markStale owns s _ h := by
    refine ⟨?_, ?_⟩
    · rw [queue_markStale, List.length_map]
      exact h.1
    · rw [queue_markStale, List.length_map]
      exact h.2
  takeHead k j rest s hw _ h := by
    unfold Rearmed
    rw [queue_takeHead]
    by_cases hk : i = k
    · subst hk
      rw [if_pos rfl]
      have h1 := filter_split_length (fun j : Job => j.inService) (s.queue i)
      change _ + (waiting (s.queue i)).length = _ at h1
      rw [hw] at h1
      have h2 : (j.taken :: ((s.queue i).filter (·.inService) ++ rest)).length = (s.queue i).length := by
        simp only [List.length_cons, List.length_append] at h1 ⊢
        omega
      rw [h2]
      exact h
    · rw [if_neg hk]
      exact h
  presentLine _ _ h := h

/-! ### Take-in looks at one segment alone -/

/-- What take-in on segment `i` reads is the same in two states. -/
structure SameLine (i : Seg) (s t : State) : Prop where
  queue : s.queue i = t.queue i
  ended : s.dispatch.ended.get i = t.dispatch.ended.get i
  port : s.port i = t.port i
  cal : s.cal = t.cal
  hold : s.dispatch.hold = t.dispatch.hold
  segHold : s.dispatch.segHold = t.dispatch.segHold

theorem SameLine.expireHeads {i : Seg} {s t : State} (h : SameLine i s t) : SameLine i (expireHeads i s) (expireHeads i t) where
  queue := by simp [Machine.expireHeads, h.queue, h.cal, h.port]
  ended := by simp [Machine.expireHeads, h.queue, h.cal, h.port, h.ended]
  port := h.port
  cal := h.cal
  hold := h.hold
  segHold := h.segHold

theorem SameLine.presentRecording {i : Seg} {s t : State} (h : SameLine i s t) :
    SameLine i (presentRecording i s) (presentRecording i t) := by
  unfold Machine.presentRecording
  rw [h.ended, h.port]
  split
  · exact ⟨h.queue, h.ended, by simp [h.port], h.cal, h.hold, h.segHold⟩
  · exact h

/-- Take-in on a segment depends on that segment's line alone (R97). -/
theorem SameLine.considerTakeIn {i : Seg} {s t : State} (h : SameLine i s t) :
    SameLine i (considerTakeIn i s) (considerTakeIn i t) := by
  unfold Machine.considerTakeIn
  have h1 := h.expireHeads
  rw [h.port]
  dsimp only
  split
  · exact h
  · rw [h1.queue]
    split
    · exact h1.presentRecording
    · rename_i j rest hw
      have hm : mayTakeIn (Machine.expireHeads i s) i = mayTakeIn (Machine.expireHeads i t) i := by
        unfold mayTakeIn
        rw [h1.port, h1.hold, h1.segHold, h1.queue]
      rw [hm]
      split
      · refine ⟨by simp [h1.queue], h1.ended, by simp [port_takeHead, h1.port], h1.cal, h1.hold, h1.segHold⟩
      · exact h1.presentRecording

theorem considerTakeIn_ended_ne {i k : Seg} (h : k ≠ i) (s : State) :
    (considerTakeIn i s).dispatch.ended.get k = s.dispatch.ended.get k := by
  unfold considerTakeIn
  have he : (expireHeads i s).dispatch.ended.get k = s.dispatch.ended.get k := by simp [expireHeads, h]
  have hp : ∀ t : State, (presentRecording i t).dispatch.ended.get k = t.dispatch.ended.get k := by
    intro t
    unfold presentRecording
    split <;> rfl
  split
  · rfl
  · dsimp only
    split
    · rw [hp, he]
    · split
      · exact he
      · rw [hp, he]

/-- Take-in on one segment leaves the lines of the others. -/
theorem sameLine_considerTakeIn_ne {i k : Seg} (h : k ≠ i) (s : State) : SameLine k (considerTakeIn i s) s where
  queue := considerTakeIn_queue_ne h s
  ended := considerTakeIn_ended_ne h s
  port := considerTakeIn_port_ne h s
  cal := by simp
  hold := ((kept_holds s.dispatch.hold s.dispatch.segHold).considerTakeIn i ⟨rfl, rfl⟩).1
  segHold := ((kept_holds s.dispatch.hold s.dispatch.segHold).considerTakeIn i ⟨rfl, rfl⟩).2

theorem SameLine.trans {i : Seg} {s t u : State} (h : SameLine i s t) (h' : SameLine i t u) : SameLine i s u :=
  ⟨h.queue.trans h'.queue, h.ended.trans h'.ended, h.port.trans h'.port, h.cal.trans h'.cal, h.hold.trans h'.hold,
    h.segHold.trans h'.segHold⟩

theorem SameLine.refl (i : Seg) (s : State) : SameLine i s s := ⟨rfl, rfl, rfl, rfl, rfl, rfl⟩

/-- Take-in considered for some segments, each once, is take-in on each of them and nothing on the others. -/
theorem sameLine_considerAll {l : List Seg} (hl : l.Nodup) (i : Seg) (s : State) :
    SameLine i (considerAll l s) (if i ∈ l then considerTakeIn i s else s) := by
  unfold considerAll
  induction l generalizing s with
  | nil => exact SameLine.refl i s
  | cons k l ih =>
    rw [List.foldl_cons]
    have hk := List.nodup_cons.mp hl
    refine (ih hk.2 (considerTakeIn k s)).trans ?_
    by_cases hik : i = k
    · subst hik
      rw [if_neg hk.1, if_pos List.mem_cons_self]
      exact SameLine.refl ..
    · have h1 := sameLine_considerTakeIn_ne hik s
      by_cases hil : i ∈ l
      · rw [if_pos hil, if_pos (List.mem_cons_of_mem _ hil)]
        exact h1.considerTakeIn
      · rw [if_neg hil, if_neg (by simp [hik, hil])]
        exact h1

theorem nodup_losing (sel : Seg → Job → Bool) (s : State) : (losing sel s).Nodup :=
  List.Nodup.filter _ (by decide)

theorem mem_losing {sel : Seg → Job → Bool} {s : State} {i : Seg} :
    i ∈ losing sel s ↔ ∃ j ∈ s.queue i, j.inService = false ∧ sel i j = true := by
  have hi : i ∈ Seg.all := by
    revert i
    decide
  simp only [losing, selected, List.mem_filter, hi, true_and, Bool.not_eq_true', List.isEmpty_eq_false_iff,
    ne_eq, List.filter_eq_nil_iff, Bool.and_eq_true, not_forall]
  constructor
  · rintro ⟨j, hj, h⟩
    exact ⟨j, hj, by simpa using h⟩
  · rintro ⟨j, hj, h⟩
    exact ⟨j, hj, by simpa using h⟩

/-! ### Take-in looks at the dispatch, the ports and the calendar alone -/

/-- The blocks of `t`, but for the dispatch, the ports and the calendar, which are those of `s`. -/
def withLines (t s : State) : State := { t with dispatch := s.dispatch, ports := s.ports, cal := s.cal }

theorem withLines_self {s t : State} (hd : s.dispatch = t.dispatch) (hp : s.ports = t.ports) (hc : s.cal = t.cal) :
    withLines t s = t := by
  rw [withLines, hd, hp, hc]

theorem presentRecording_withLines (i : Seg) (t s : State) :
    presentRecording i (withLines t s) = withLines t (presentRecording i s) := by
  unfold presentRecording
  by_cases h : s.dispatch.ended.get i ≠ [] ∧ (s.port i).fetchOp = .none
  · rw [if_pos h, if_pos (show (withLines t s).dispatch.ended.get i ≠ [] ∧ ((withLines t s).port i).fetchOp = .none from h)]
    rfl
  · rw [if_neg h,
      if_neg (show ¬ ((withLines t s).dispatch.ended.get i ≠ [] ∧ ((withLines t s).port i).fetchOp = .none) from h)]

/-- Take-in acts on the dispatch and the ports, whatever the other blocks hold (R97). -/
theorem considerTakeIn_withLines (i : Seg) (t s : State) :
    considerTakeIn i (withLines t s) = withLines t (considerTakeIn i s) := by
  unfold considerTakeIn
  by_cases hc : (s.port i).health = .closed
  · rw [if_pos hc, if_pos (show ((withLines t s).port i).health = .closed from hc)]
  · rw [if_neg hc, if_neg (show ¬ ((withLines t s).port i).health = .closed from hc)]
    dsimp only
    rw [show expireHeads i (withLines t s) = withLines t (expireHeads i s) from rfl]
    generalize expireHeads i s = u
    rw [show (withLines t u).queue i = u.queue i from rfl]
    split
    · exact presentRecording_withLines i t u
    · rename_i j rest _
      by_cases hm : mayTakeIn u i = true
      · rw [if_pos hm, if_pos (show mayTakeIn (withLines t u) i = true from hm)]
        rfl
      · rw [if_neg hm, if_neg (show ¬ mayTakeIn (withLines t u) i = true from hm)]
        exact presentRecording_withLines i t u

/-- Take-in changes the dispatch and the ports alone. -/
theorem considerTakeIn_eq (i : Seg) (s : State) :
    considerTakeIn i s =
      { s with dispatch := (considerTakeIn i s).dispatch, ports := (considerTakeIn i s).ports } := by
  have h := considerTakeIn_withLines i s s
  rw [withLines_self rfl rfl rfl] at h
  conv_lhs => rw [h]
  rw [withLines, considerTakeIn_cal]

/-- Take-in on two states of the same dispatch, ports and calendar. -/
theorem considerTakeIn_congr {i : Seg} {s t : State} (hd : s.dispatch = t.dispatch) (hp : s.ports = t.ports)
    (hc : s.cal = t.cal) :
    (considerTakeIn i s).dispatch = (considerTakeIn i t).dispatch ∧
      (considerTakeIn i s).ports = (considerTakeIn i t).ports := by
  have h := considerTakeIn_withLines i t s
  rw [withLines_self hd hp hc] at h
  rw [h]
  exact ⟨rfl, rfl⟩

@[simp] theorem considerTakeIn_notices (i : Seg) (s : State) : (considerTakeIn i s).notices = s.notices := by
  rw [considerTakeIn_eq]

/-- Posting reads the notices and the calendar alone (R158). -/
theorem post_notices_congr {b : NoticeBody} {s t : State} (hn : s.notices = t.notices) (hc : s.cal = t.cal) :
    (post b s).notices = (post b t).notices := by
  unfold post makeNotice stampNow
  rw [hn, hc]
  split
  · exact hn
  · split
    · rfl
    · rfl

theorem reportEnd_notices (m : ReportMode) (j : JobEnd) (s : State) :
    (reportEnd m j s).notices = if m.wants j.outcome then (post (.dispatchReport j) s).notices else s.notices := by
  unfold reportEnd
  split <;> rfl

theorem NoticesGrow.reportEnd (m : ReportMode) (j : JobEnd) (s : State) :
    NoticesGrow s.notices (reportEnd m j s).notices := by
  rw [reportEnd_notices]
  split
  · exact (NoticesGrow.refl _).post _
  · exact NoticesGrow.refl _

theorem length_insertJob (j : Job) (q : List Job) : (insertJob j q).length = q.length + 1 := by
  induction q with
  | nil => rfl
  | cons k q ih =>
    simp only [insertJob]
    split
    · simp [ih]
    · simp

theorem find_none_waiting {q : List Job} {e : EntryIx} (h : ∀ j ∈ q, j.entry = e → j.inService = true) :
    q.find? (fun j => !j.inService && j.entry == e) = none := by
  rw [List.find?_eq_none]
  intro j hj hh
  simp only [Bool.and_eq_true, Bool.not_eq_true', beq_iff_eq] at hh
  rw [h j hj hh.2] at hh
  cases hh.1

/-! ### The removal and the marks of a withdraw -/

theorem removeSelected_ended (sel : Seg → Job → Bool) (s : State) :
    (removeSelected sel s).dispatch.ended = s.dispatch.ended := by
  simp only [removeSelected, removeOn, removeTo_dispatch_ended]

theorem removeSelected_ports (sel : Seg → Job → Bool) (s : State) : (removeSelected sel s).ports = s.ports := by
  simp only [removeSelected, removeOn, removeTo_ports]

theorem removeSelected_hold (sel : Seg → Job → Bool) (s : State) :
    (removeSelected sel s).dispatch.hold = s.dispatch.hold := by
  simp only [removeSelected, removeOn, removeTo_dispatch_hold]

theorem removeSelected_segHold (sel : Seg → Job → Bool) (s : State) :
    (removeSelected sel s).dispatch.segHold = s.dispatch.segHold := by
  simp only [removeSelected, removeOn, removeTo_dispatch_segHold]

/-- After the removal and the marks of a withdraw every line is that of `withoutJobs`. -/
theorem sameLine_withoutJobs (e : EntryIx) (i : Seg) (s : State) (n : NoticeUnit) :
    SameLine i { markStale (· == e) (removeSelected (fun _ j => j.entry == e) s) with notices := n } (withoutJobs e s) := by
  have hq : (markStale (· == e) (removeSelected (fun _ j => j.entry == e) s)).queue i = (withoutJobs e s).queue i := by
    rw [queue_markStale, queue_removeSelected]
    simp only [withoutJobs, State.queue, PerSegment.get_map, bne, beq_iff_eq]
  have he : (markStale (· == e) (removeSelected (fun _ j => j.entry == e) s)).dispatch.ended.get i =
      (withoutJobs e s).dispatch.ended.get i := by
    simp only [markStale, withoutJobs, PerSegment.get_map, beq_iff_eq, removeSelected_ended]
  have hp : (markStale (· == e) (removeSelected (fun _ j => j.entry == e) s)).ports = s.ports := by
    rw [markStale_ports, removeSelected_ports]
  have hc : (markStale (· == e) (removeSelected (fun _ j => j.entry == e) s)).cal = s.cal := by simp
  have hh : (markStale (· == e) (removeSelected (fun _ j => j.entry == e) s)).dispatch.hold = s.dispatch.hold := by
    rw [markStale_dispatch_hold, removeSelected_hold]
  have hs : (markStale (· == e) (removeSelected (fun _ j => j.entry == e) s)).dispatch.segHold = s.dispatch.segHold := by
    rw [markStale_dispatch_segHold, removeSelected_segHold]
  generalize markStale (· == e) (removeSelected (fun _ j => j.entry == e) s) = u at hq he hp hc hh hs ⊢
  exact ⟨hq, he, by rw [State.port, State.port]; exact congrArg (fun p => p.get i) hp, hc, hh, hs⟩

/-- What a withdraw or a quarantine leaves of the queues, once the ends are recorded (R13, R95, R96). -/
theorem jobsWithdrawn_considerAll (e : EntryIx) (s : State) (n : NoticeUnit) :
    JobsWithdrawn s (considerAll (losing (fun _ j => j.entry == e) s)
      { markStale (· == e) (removeSelected (fun _ j => j.entry == e) s) with notices := n }) e := by
  have h0 := onlyStale_markStale (owns := (· == e)) (e := e) (by simp) s n
  have h1 := h0.considerAll (losing (fun _ j => j.entry == e) s)
  have h2 := fun i => (sameLine_considerAll (nodup_losing (fun _ j => j.entry == e) s) i
    { markStale (· == e) (removeSelected (fun _ j => j.entry == e) s) with notices := n })
  have h3 := fun i => sameLine_withoutJobs e i s n
  have hr : ∀ i, Rearmed i s (considerAll (losing (fun _ j => j.entry == e) s)
      { markStale (· == e) (removeSelected (fun _ j => j.entry == e) s) with notices := n }) := by
    intro i
    have k := kept_rearmed i s
    refine k.considerAll _ ?_
    have := k.markStale (· == e) _ (removeSelected_none_waiting (· == e) s)
      (k.removeSelected (fun _ j => j.entry == e) (Rearmed.refl i s))
    exact this
  have hh := (kept_holds s.dispatch.hold s.dispatch.segHold).considerAll (losing (fun _ j => j.entry == e) s)
    (s := { markStale (· == e) (removeSelected (fun _ j => j.entry == e) s) with notices := n }) ⟨rfl, rfl⟩
  refine ⟨h1.1, h1.2, ?_, fun i => (hr i).2, ?_, hh.1, hh.2⟩
  · intro i
    have hm : i ∈ losing (fun _ j => j.entry == e) s ↔ ∃ j ∈ s.queue i, j.entry = e ∧ j.inService = false := by
      rw [mem_losing]
      simp [and_comm]
    dsimp only
    have h4 := h2 i
    by_cases hl : i ∈ losing (fun _ j => j.entry == e) s
    · rw [if_pos hl] at h4
      rw [if_pos (hm.mp hl)]
      have h5 := h4.trans (h3 i).considerTakeIn
      exact ⟨h5.queue, h5.ended, h5.port⟩
    · rw [if_neg hl] at h4
      rw [if_neg (fun hh => hl (hm.mpr hh))]
      have h5 := h4.trans (h3 i)
      exact ⟨h5.queue, h5.ended, h5.port⟩
  · exact (kept_nextTag s.dispatch.nextTag).considerAll _ rfl

/-- The withdraw of one entry that has no definition, or a sound header (R96). -/
theorem jobsWithdrawn_withdraw {e : EntryIx} {s : State}
    (hs : (stateOf s e).defined = true → (readHeader s e).isSome = true) :
    JobsWithdrawn s (withdraw (· == e) s) e := by
  have hs' : ∀ k, (k == e) = true → (stateOf s k).defined = true → (readHeader s k).isSome = true := by
    intro k hk
    rw [beq_iff_eq] at hk
    subst hk
    exact hs
  obtain ⟨n, hn⟩ := withdraw_eq (owns := (· == e)) hs'
  rw [hn]
  exact jobsWithdrawn_considerAll e s n

/-- The recording of ends of a quarantined entry changes the notices alone. -/
theorem foldl_recordBare (l : List JobEnd) (s : State) : ∃ n, l.foldl recordBare s = { s with notices := n } := by
  induction l generalizing s with
  | nil => exact ⟨s.notices, rfl⟩
  | cons j l ih =>
    obtain ⟨n, hn⟩ := reportEnd_eq .failures j s
    rw [List.foldl_cons, show recordBare s j = reportEnd .failures j s from rfl, hn]
    obtain ⟨n', hn'⟩ := ih { s with notices := n }
    exact ⟨n', hn'⟩

/-- Withdrawing depends on the dispatch, the ports and the calendar alone. -/
theorem JobsWithdrawn.of_same {s s' t : State} {e : EntryIx} (h : JobsWithdrawn s' t e) (hd : s'.dispatch = s.dispatch)
    (hp : s'.ports = s.ports) (hc : s'.cal = s.cal) : JobsWithdrawn s t e := by
  have hq : ∀ i, s'.queue i = s.queue i := fun i => by rw [State.queue, hd]; rfl
  refine ⟨h.jobs, h.records, ?_, ?_, by rw [← hd]; exact h.nextTag, by rw [← hd]; exact h.hold,
    by rw [← hd]; exact h.segHold⟩
  · intro i
    have h1 := h.segments i
    rw [hq] at h1
    have h2 : SameLine i (withoutJobs e s') (withoutJobs e s) :=
      ⟨by simp [withoutJobs, State.queue, hd], by simp [withoutJobs, hd], by simp [withoutJobs, State.port, hp], hc,
        by simp [withoutJobs, hd], by simp [withoutJobs, hd]⟩
    dsimp only at h1 ⊢
    split
    · rename_i hw
      rw [if_pos hw] at h1
      have h3 := h2.considerTakeIn
      exact ⟨h1.1.trans h3.queue, h1.2.1.trans h3.ended, h1.2.2.trans h3.port⟩
    · rename_i hw
      rw [if_neg hw] at h1
      exact ⟨h1.1.trans h2.queue, h1.2.1.trans h2.ended, h1.2.2.trans h2.port⟩
  · intro i
    rw [h.highWater i, hq, hd]

/-! ### Ends and their reports -/

@[simp] theorem considerAll_notices (l : List Seg) (s : State) : (considerAll l s).notices = s.notices := by
  unfold considerAll
  induction l generalizing s with
  | nil => rfl
  | cons i l ih => rw [List.foldl_cons, ih, considerTakeIn_notices]

/-- The end of a waiting job (R104). -/
theorem end_waiting {j : Job} (h : j.inService = false) (i : Seg) (o : JobOutcome) :
    j.end i o none = waitingEnd o j.stale i j := by
  simp [Job.end, waitingEnd, h]

/-- The ends of the waiting jobs that a test selects (R105). -/
theorem endsOf_eq (sel : Seg → Job → Bool) (o : JobOutcome) (s : State) : endsOf sel o s = waitingEnds sel o s := by
  unfold endsOf waitingEnds selected
  congr 1
  funext i
  apply List.map_congr_left
  intro j hj
  have := (List.mem_filter.mp hj).2
  simp only [Bool.and_eq_true, Bool.not_eq_true'] at this
  exact end_waiting this.1 i o

/-- The stale ends of the waiting jobs of one entry (R96). -/
theorem endsOf_marked (e : EntryIx) (o : JobOutcome) (s : State) :
    (endsOf (fun _ j => j.entry == e) o s).map JobEnd.marked = withdrawnEnds e o s := by
  rw [endsOf_eq]
  unfold waitingEnds withdrawnEnds
  rw [List.map_flatMap]
  congr 1
  funext i
  rw [List.map_map]
  rfl

theorem mem_withdrawnEnds {e : EntryIx} {o : JobOutcome} {s : State} {j : JobEnd} (h : j ∈ withdrawnEnds e o s) :
    j.entry = e ∧ j.outcome = o ∧ j.stale = true := by
  unfold withdrawnEnds at h
  simp only [List.mem_flatMap, List.mem_map, List.mem_filter, Bool.and_eq_true, beq_iff_eq] at h
  obtain ⟨i, _, k, ⟨_, _, h2⟩, rfl⟩ := h
  exact ⟨h2, rfl, rfl⟩

/-- Reports read the notices and the calendar alone (R158). -/
theorem reported_congr (l : List JobEnd) {s t : State} (hn : s.notices = t.notices) (hc : s.cal = t.cal) :
    reported l s = reported l t := by
  unfold reported
  induction l generalizing s t with
  | nil => exact hn
  | cons j l ih =>
    rw [List.foldl_cons, List.foldl_cons]
    exact ih (post_notices_congr hn hc) (by simp [hc])

/-- Operations that each post one report, of each of some ends. -/
theorem foldl_reported {f : State → JobEnd → State} (l : List JobEnd) {s : State}
    (hf : ∀ u, ∀ j ∈ l, (f u j).notices = (post (.dispatchReport j) u).notices ∧ (f u j).cal = u.cal) :
    (l.foldl f s).notices = reported l s := by
  unfold reported
  induction l generalizing s with
  | nil => rfl
  | cons j l ih =>
    rw [List.foldl_cons, List.foldl_cons, ih (fun u k hk => hf u k (List.mem_cons_of_mem _ hk))]
    exact reported_congr l (hf s j List.mem_cons_self).1 (by rw [(hf s j List.mem_cons_self).2]; simp)

theorem foldl_recordBare_cal (l : List JobEnd) (s : State) : (l.foldl recordBare s).cal = s.cal := by
  obtain ⟨n, hn⟩ := foldl_recordBare l s
  rw [hn]

/-- Ends that count as failures, recorded for an entry without a report mode, are all reported (R106). -/
theorem foldl_recordBare_notices (l : List JobEnd) {s : State} (h : ∀ j ∈ l, j.outcome.isFailure = true) :
    (l.foldl recordBare s).notices = reported l s := by
  refine foldl_reported l (fun u j hj => ?_)
  have hw : ReportMode.failures.wants j.outcome = true := h j hj
  unfold recordBare reportEnd
  rw [if_pos hw]
  simp

/-- The quarantine procedure leaves what R34 says. -/
theorem quarantined_quarantine (e : EntryIx) (r : FaultRecord) (p : FaultPath) (s : State) :
    Quarantined s (quarantine e r p s) e r p := by
  have hst := quarantine_store e r p s
  have hct := quarantine_ctl e r p s
  have hn := (kept_noticesGrow s.notices).toKept.quarantine e r p (NoticesGrow.refl s.notices)
  refine ⟨?_, ?_, ?_, ?_, ?_, ?_, ?_⟩
  · rw [hst, header_writeHeader, if_pos rfl]
  · rw [stateOf, hct]
    exact (stateOf_writeHeader e e _ s).trans (if_pos rfl)
  · intro g
    rw [hct]
    exact get_freeInMap e _ g
  · simp
  · obtain ⟨n, hf⟩ := foldl_recordBare ((endsOf (fun _ j => j.entry == e) .fault
      (freeGranules e (writeHeader e (bareHeader .quarantined) s))).map JobEnd.marked)
      (markStale (· == e) (removeSelected (fun _ j => j.entry == e)
        (freeGranules e (writeHeader e (bareHeader .quarantined) s))))
    have h1 := jobsWithdrawn_considerAll e (freeGranules e (writeHeader e (bareHeader .quarantined) s)) n
    have h2 := h1.of_same (s := s) (by simp) (by simp) (by simp)
    unfold quarantine
    dsimp only
    rw [hf]
    refine ⟨?_, ?_, ?_, ?_, ?_, ?_, ?_⟩
    · simpa using h2.jobs
    · simpa using h2.records
    · simpa [State.port] using h2.segments
    · simpa using h2.highWater
    · simpa using h2.nextTag
    · simpa using h2.hold
    · simpa using h2.segHold
  · unfold quarantine
    dsimp only
    refine post_notices_congr ?_ (by simp [foldl_recordBare_cal])
    rw [considerAll_notices, endsOf_marked, foldl_recordBare_notices _ (fun j hj => by
      rw [(mem_withdrawnEnds hj).2.1]
      rfl)]
    exact reported_congr _ (by simp [removeSelected, removeOn, removeTo]) (by simp)
  · refine ⟨?_, ?_, by simp, by simp, by simp, by simp, by simp, by simp, by simp, by simp, by simp, ?_, hn⟩
    · intro k hk
      rw [hst, header_writeHeader, if_neg hk]
    · intro k hk
      rw [stateOf, hct]
      exact (stateOf_writeHeader e k _ s).trans (if_neg hk)
    · intro i
      exact (kept_port i (s.port i)).toKept.quarantine e r p rfl

/-! ### The frame of a command that withdraws -/

/-- A header just written reads back sound (R3). -/
theorem readHeader_writeHeader (e : EntryIx) (h : Header) (s : State) {d : Definition} (hd : h.defn = some d) :
    readHeader (writeHeader e h s) e = some (h, d) := by
  unfold readHeader
  simp [header_writeHeader, freshHeader, hd]

/-- A command that changes one entry's header and map elements and then withdraws its jobs keeps to the entry's frame. -/
theorem entryFrame_withdraw {s u : State} {e : EntryIx}
    (hs : (stateOf u e).defined = true → (readHeader u e).isSome = true)
    (hh : ∀ k, k ≠ e → u.store.headers.get k = s.store.headers.get k) (hst : ∀ k, k ≠ e → stateOf u k = stateOf s k)
    (h1 : u.store.segRecords = s.store.segRecords) (h2 : u.store.daylightRecord = s.store.daylightRecord)
    (h3 : u.ctl.compacting = s.ctl.compacting) (h4 : u.ctl.frontier = s.ctl.frontier) (h5 : u.ctl.moved = s.ctl.moved)
    (h6 : u.cal = s.cal) (h7 : u.supply = s.supply) (h8 : u.free = s.free) (h9 : u.pending = s.pending)
    (h10 : u.ports = s.ports) (h11 : u.notices = s.notices) : EntryFrame s (withdraw (· == e) u) e := by
  have hs' : ∀ k, (k == e) = true → (stateOf u k).defined = true → (readHeader u k).isSome = true := by
    intro k hk
    rw [beq_iff_eq] at hk
    subst hk
    exact hs
  have hS := withdraw_store hs'
  have hC := withdraw_ctl hs'
  refine ⟨?_, ?_, by simp [h1], by simp [h2], by simp [h3], by simp [h4], by simp [h5], by simp [h6], by simp [h7],
    by simp [h8], by simp [h9], ?_, ?_⟩
  · intro k hk
    rw [hS]
    exact hh k hk
  · intro k hk
    rw [stateOf, hC]
    exact hst k hk
  · intro i
    have h := (kept_port i (u.port i)).toKept.withdraw (· == e) (s := u) rfl
    have hp : u.port i = s.port i := by rw [State.port, State.port, h10]
    rw [hp] at h
    exact h
  · rw [← h11]
    exact (kept_noticesGrow u.notices).toKept.withdraw _ (NoticesGrow.refl _)

/-- The reply leaves what a command has done to the other blocks. -/
theorem JobsWithdrawn.link {s t : State} {e : EntryIx} (h : JobsWithdrawn s t e) (l : HostLink) :
    JobsWithdrawn s { t with link := l } e := ⟨h.1, h.2, h.3, h.4, h.5, h.6, h.7⟩

theorem EntryFrame.link {s t : State} {e : EntryIx} (h : EntryFrame s t e) (l : HostLink) :
    EntryFrame s { t with link := l } e := ⟨h.1, h.2, h.3, h.4, h.5, h.6, h.7, h.8, h.9, h.10, h.11, h.12, h.13⟩

theorem Quarantined.link {s t : State} {e : EntryIx} {r : FaultRecord} {p : FaultPath} (h : Quarantined s t e r p)
    (l : HostLink) : Quarantined s { t with link := l } e r p :=
  ⟨h.1, h.2, h.3, h.4, h.5.link l, h.6, h.7.link l⟩

/-- A quarantine of a state that differs in the arbiter's order alone. -/
theorem Quarantined.of_grant {s t : State} {e : EntryIx} {r : FaultRecord} {p : FaultPath} {q : Requester}
    (h : Quarantined (grant q s) t e r p) : Quarantined s t e r p :=
  ⟨h.1, h.2, h.3, h.4, h.5.of_same rfl rfl rfl, h.6.trans (post_notices_congr (reported_congr _ rfl rfl) rfl),
    ⟨h.7.1, h.7.2, h.7.3, h.7.4, h.7.5, h.7.6, h.7.7, h.7.8, h.7.9, h.7.10, h.7.11, h.7.12, h.7.13⟩⟩

theorem entryIx_byte1 (e : EntryIx) : entryIx (byte1 e.val).toNat = e := by
  unfold entryIx byte1
  ext
  simp

/-- An entry index as it is carried (1.4). -/
theorem parseIndex_byte1 {body : List Byte} {e : EntryIx} (h : body = [byte1 e.val]) : parseIndex body = .ok e := by
  subst h
  simp [parseIndex, entryIx_byte1]

/-- A segment as it is carried. -/
theorem parseSegment_byte1 {body : List Byte} {i : Seg} (h : body = [byte1 i.val]) : parseSegment body = .ok i := by
  subst h
  revert i
  decide

theorem parseNone_nil {body : List Byte} (h : body = []) : parseNone body = .ok () := by
  subst h
  rfl

end Sys2Proof.Machine
end

