-- ==== Sys2Proof/Laws/Ports.lean ====
section
/-! SUPPORT. The ports' shared operations, said once: a change of one port, a post, a change of health, and the end of the
job in service. -/

namespace Sys2Proof.Machine

/-! ### One port -/

theorem set_get_self {α : Type} (p : PerSegment α) (i : Seg) : p.set i (p.get i) = p := by
  fin_cases i <;> rfl

theorem set_set_self {α : Type} (p : PerSegment α) (i : Seg) (a b : α) : (p.set i a).set i b = p.set i b := by
  fin_cases i <;> rfl

theorem get_set_self {α : Type} (p : PerSegment α) (i : Seg) (a : α) : (p.set i a).get i = a := by
  fin_cases i <;> rfl

theorem onPort_eq (i : Seg) (f : Port → Port) (s : State) :
    onPort i f s = { s with ports := s.ports.set i (f (s.port i)) } := rfl

theorem onPort_onPort (i : Seg) (f g : Port → Port) (s : State) : onPort i f (onPort i g s) = onPort i (f ∘ g) s := by
  unfold onPort
  simp only [get_set_self, set_set_self]
  rfl

theorem onPort_self (i : Seg) (f : Port → Port) (s : State) (h : f (s.port i) = s.port i) : onPort i f s = s := by
  rw [onPort_eq, h]
  unfold State.port
  rw [set_get_self]

/-- The arbiter looks at the phase, its order, the request in hand, the pass, the compactor and the fetch lines (R27). -/
theorem granted_congr {s t : State} (hu : s.supply = t.supply) (hc : s.ctl = t.ctl) (hl : s.link = t.link)
    (hm : s.matcher = t.matcher) (hf : ∀ k, (s.port k).fetchOp = (t.port k).fetchOp) (q : Requester) :
    granted s q = granted t q := by
  have h : presents s = presents t := by
    funext x
    cases x with
    | commandInterpreter =>
      unfold presents inHand
      rw [hl]
    | matcher =>
      unfold presents
      rw [hm]
    | fetch k =>
      unfold presents
      dsimp only
      rw [hf]
    | compactor =>
      unfold presents
      rw [hc]
  unfold granted State.inService
  rw [h, hu, hc]

/-! ### Posting -/

/-- A post changes the notices alone (R158). -/
theorem post_eq_notices (b : NoticeBody) (s : State) : post b s = { s with notices := (post b s).notices } := by
  unfold post
  split
  · rfl
  · split <;> rfl

/-- A change of health changes the port's health and the notices alone (R124). -/
theorem changeHealth_eq (i : Seg) (h : Health) (cause : HealthCause) (destination : Option Nat) (s : State) :
    changeHealth i h cause destination s = { s with
      ports := s.ports.set i { s.port i with health := h }
      notices := if (s.port i).health = h then s.notices
        else (post (.segmentState i (s.port i).health h (s.port i).silence cause destination) s).notices } := by
  unfold changeHealth
  dsimp only
  split
  · rename_i hh
    have : s.ports.set i { s.port i with health := h } = s.ports := by
      rw [← hh]
      exact set_get_self s.ports i
    rw [this]
  · rw [post_eq_notices]
    have : ((onPort i (fun p => { p with health := h }) s).port i).silence = (s.port i).silence := by
      rw [port_onPort, if_pos rfl]
    rw [this, post_notices_congr (s := onPort i (fun p => { p with health := h }) s) (t := s) rfl rfl]
    rfl

/-! ### The end of the job in service (R95, R104, R121) -/

theorem jobInService_lt {s : State} {i : Seg} {j : Job} (h : jobInService s i = some j) :
    ((s.queue i).filter (fun j => !j.inService)).length < (s.queue i).length := by
  have hj := List.find?_some h
  have hm := List.mem_of_find?_eq_some h
  have h1 := filter_split_length (fun j : Job => j.inService) (s.queue i)
  have h2 : 0 < ((s.queue i).filter (fun j : Job => j.inService)).length :=
    List.length_pos_of_mem (List.mem_filter.mpr ⟨hm, hj⟩)
  omega

/-- The job in service ends: the port is IDLE, the job is a pending record, and take-in is considered. -/
theorem endJob_eq {s : State} {i : Seg} {j : Job} (o : JobOutcome) (h : jobInService s i = some j) :
    ∃ m, endJob i o s = considerTakeIn i m ∧ JobEnded s m i (j.end i o none) ∧ m.port i = (s.port i).toIdle ∧
      m.store = s.store ∧ m.ctl = s.ctl ∧ m.notices = s.notices := by
  unfold endJob
  rw [h]
  dsimp only
  refine ⟨_, rfl, ⟨?_, ?_, ?_, ?_, rfl, rfl, rfl, rfl, rfl, rfl, rfl, rfl, rfl⟩, ?_, rfl, rfl, rfl⟩
  · simp
  · simp
  · change (removeTo i _ _).dispatch.highArmed.get i = _
    rw [highArmed_removeTo]
    have := jobInService_lt h
    change (s.dispatch.highArmed.get i || decide (i = i ∧ ((s.queue i).filter _).length < (s.queue i).length ∧ _)) = _
    simp [this]
  · intro k hk
    refine ⟨?_, ?_, ?_, ?_⟩
    · change (onPort i Port.toIdle s).port k = _
      rw [port_onPort, if_neg hk]
    · simp [hk]
    · simp [hk]
    · change (removeTo i _ _).dispatch.highArmed.get k = _
      rw [highArmed_removeTo]
      simp [hk]
  · change (onPort i Port.toIdle s).port i = _
    rw [port_onPort, if_pos rfl]

/-- The end of a job in a state that differs from another in the port, the notices, the store and the job's counts alone. -/
theorem JobEnded.of_same {s s' m : State} {i : Seg} {e : JobEnd} (h : JobEnded s' m i e)
    (hq : (s'.queue i).filter (fun j => !j.inService) = (s.queue i).filter (fun j => !j.inService))
    (he : s'.dispatch.ended = s.dispatch.ended) (hh : s'.dispatch.highArmed = s.dispatch.highArmed)
    (ho : ∀ k, k ≠ i → s'.port k = s.port k ∧ s'.queue k = s.queue k)
    (hn : s'.dispatch.nextTag = s.dispatch.nextTag) (hd : s'.dispatch.hold = s.dispatch.hold)
    (hs : s'.dispatch.segHold = s.dispatch.segHold) (hl : s'.link = s.link) (hc : s'.cal = s.cal)
    (hm : s'.matcher = s.matcher) (hu : s'.supply = s.supply) (hf : s'.free = s.free) (hp : s'.pending = s.pending) :
    JobEnded s m i e where
  queue := h.queue.trans hq
  ended := by rw [h.ended, he]
  highWater := by rw [h.highWater, hh, hq]
  others k hk := by
    obtain ⟨h1, h2, h3, h4⟩ := h.others k hk
    obtain ⟨h5, h6⟩ := ho k hk
    exact ⟨h1.trans h5, h2.trans h6, by rw [h3, he], by rw [h4, hh]⟩
  nextTag := h.nextTag.trans hn
  hold := h.hold.trans hd
  segHold := h.segHold.trans hs
  link := h.link.trans hl
  cal := h.cal.trans hc
  matcher := h.matcher.trans hm
  supply := h.supply.trans hu
  free := h.free.trans hf
  pending := h.pending.trans hp

/-! ### The sequence table, the silence count, and a device reply -/

/-- Setting the sequence state of a device destination is one write of the table (R122). -/
theorem setSeq_eq_set (p : Port) (d : Nat) (st : SeqState) (h : 1 ≤ d ∧ d ≤ 126) : p.setSeq d st = { p with seqTable := p.seqTable.set (d-1) st (by omega) } := by
  unfold Port.setSeq; rw [dif_pos h]

/-- The sequence table after one state is set (R122). -/
theorem get_setSeq (p : Port) (d : Nat) (st : SeqState) (n : Fin 126) : (p.setSeq d st).seqTable.get n = if d = n.val
    + 1 then st else p.seqTable.get n := by
  unfold Port.setSeq
  split
  · rename_i h
    simp only [Vector.get_eq_getElem, Vector.getElem_set]
    by_cases hh : d = n.val + 1
    · rw [if_pos hh, if_pos (by omega)]
    · rw [if_neg hh, if_neg (by omega)]
  · rename_i h
    rw [if_neg]
    have := n.isLt
    omega

/-- Setting a sequence state changes nothing else of the port. -/
theorem setSeq_eq (p : Port) (d : Nat) (st : SeqState) : p.setSeq d st = { p with seqTable := (p.setSeq d st).seqTable } := by
  unfold Port.setSeq; split <;> rfl

/-- What a valid answer does to a segment: silence 0, UP where it was SUSPECT or DOWN, with the notice (R123, R124).
-/
theorem segmentAnswered_eq (i : Seg) (c : HealthCause) (d : Nat) (s : State) : segmentAnswered i c d s = { s with
   ports := s.ports.set i { s.port i with silence := 0, health := if (s.port i).health = .suspect ∨ (s.port i).health = .down then .up else (s.port i).health }
   notices := if (s.port i).health = .suspect ∨ (s.port i).health = .down then (post (.segmentState i (s.port i).health .up 0 c (some d)) s).notices else s.notices } := by
  unfold segmentAnswered
  have e0 : (onPort i (fun p => { p with silence := 0 }) s).port i = { s.port i with silence := 0 } := by rw [port_onPort, if_pos rfl]
  simp only [e0]
  by_cases h : (s.port i).health = .suspect ∨ (s.port i).health = .down
  · rw [if_pos h]
    simp only [if_pos h]
    rw [changeHealth_eq]
    simp only [e0]
    rw [if_neg (by rcases h with h | h <;> rw [h] <;> decide)]
    rw [onPort_eq]
    simp only [set_set_self]
    congr 1
    exact post_notices_congr rfl rfl
  · rw [if_neg h]
    simp only [if_neg h]
    rfl

/-- What a silent job does to a segment: the destination UNKNOWN and the probe target, the count advanced, the health
and the probe timer by the count (R119, R123 to R125). -/
theorem segmentSilent_eq (i : Seg) (d : Nat) (s : State) :
   let after : Health := if (s.port i).silence + 1 = 3 then .suspect
      else if (s.port i).silence + 1 = 6 then .down else (s.port i).health
   segmentSilent i d s = { s with
     ports := s.ports.set i { s.port i with
       health := after, silence := (s.port i).silence + 1, seqTable := ((s.port i).setSeq d .unknown).seqTable, probeTarget := some d
       probeTimer := (s.port i).probeTimer || (s.port i).silence + 1 == 6 }
     notices := if after = (s.port i).health then s.notices else (post (.segmentState i (s.port i).health after ((s.port i).silence + 1) .silence (some d)) s).notices } := by
  dsimp only
  unfold segmentSilent
  dsimp only
  set f : Port → Port := fun p => { (p.setSeq d .unknown) with probeTarget := some d, silence := p.silence + 1 } with hf
  have e0 : (onPort i f s).port i = { s.port i with silence := (s.port i).silence + 1, seqTable := ((s.port i).setSeq d .unknown).seqTable, probeTarget := some d } := by
    rw [port_onPort, if_pos rfl, hf]
    dsimp only
    rw [setSeq_eq]
  rw [e0]
  dsimp only [Config.suspectMark, Config.downMark]
  by_cases h3 : (s.port i).silence + 1 = 3
  · simp only [h3, if_true]
    rw [changeHealth_eq]
    simp only [e0]
    have : ((3:Nat) == 6) = false := rfl
    rw [this, Bool.or_false]
    simp only [onPort_eq, set_set_self]
    by_cases hh : (s.port i).health = .suspect
    · simp only [if_pos hh, if_pos hh.symm, h3]; 
    · simp only [if_neg hh, if_neg (fun x => hh (Eq.symm x)), h3]
      congr 1
      exact post_notices_congr rfl rfl
  · simp only [h3, if_false]
    by_cases h6 : (s.port i).silence + 1 = 6
    · simp only [h6, if_true]
      rw [changeHealth_eq]
      simp only [e0]
      have : ((6:Nat) == 6) = true := rfl
      rw [this, Bool.or_true]
      simp only [onPort_eq, set_set_self, State.port, get_set_self]
      have hsil : (s.ports.get i).silence + 1 = 6 := h6
      have hc : (post (.segmentState i (s.ports.get i).health .down 6 .silence (some d)) { s with ports := s.ports.set i (f (s.ports.get i)) }).notices = (post (.segmentState i (s.ports.get i).health .down 6 .silence (some d)) s).notices := post_notices_congr rfl rfl
      simp only [hsil, hc]
      congr 1
      split <;> rename_i hh
      · exact (if_pos (Eq.symm hh)).symm
      · exact (if_neg (fun x => hh (Eq.symm x))).symm
    · have : ((s.port i).silence + 1 == 6) = false := by simpa using h6
      simp only [h6, this, Bool.or_false, if_false, if_true]
      rw [onPort_eq, hf]
      dsimp only
      rw [setSeq_eq]

/-- Outside AWAIT no character is heard (R111). -/
theorem hear_outside_await (i : Seg) (chars : List RxChar) : ∀ s : State, (s.port i).tx ≠ .await → chars.foldl (hear
    i) s = s := by
  induction chars with
  | nil => intro s _; rfl
  | cons c l ih =>
    intro s h
    rw [List.foldl_cons]
    have : hear i s c = s := by unfold hear; rw [if_neg h]
    rw [this]; exact ih s h

/-- A change of the job in service leaves the waiting jobs. -/
theorem waiting_map_service (f : Job → Job) (hf : ∀ j, (f j).inService = j.inService) (q : List Job) : (q.map (fun j
    => if j.inService then f j else j)).filter (fun j => !j.inService) = q.filter (fun j => !j.inService) := by
  induction q with
  | nil => rfl
  | cons k q ih =>
    cases hk : k.inService <;> simp [hk, hf, ih]

/-- A change of the job in service, seen through the search for it. -/
theorem service_map (f : Job → Job) (hf : ∀ j, (f j).inService = j.inService) (q : List Job) (j : Job) (h : q.find?
    (·.inService) = some j) : (q.map (fun j => if j.inService then f j else j)).find? (·.inService) = some (f j) := by
  induction q with
  | nil => cases h
  | cons k q ih =>
    cases hk : k.inService
    · rw [List.map_cons, List.find?_cons_of_neg (by simp [hk])]; rw [List.find?_cons_of_neg (by simp [hk])] at h; exact ih h
    · rw [List.find?_cons_of_pos (by simp [hk])] at h; cases h
      rw [List.map_cons, if_pos hk, List.find?_cons_of_pos (by rw [hf]; exact hk)]

/-- Up to four characters of a candidate (R188). -/
theorem hear_part (i : Seg) (s : State) (h1 : (s.port i).tx = .await) (h2 : (s.port i).cand = []) (l : List Byte)
    (hl : l.length ≤ 3) : ((0x69#8 :: l).map RxChar.good).foldl (hear i) s = setCand i (0x69#8 :: l) s := by
  induction l using List.reverseRecOn with
  | nil =>
    simp only [List.map_cons, List.map_nil, List.foldl_cons, List.foldl_nil]
    unfold hear
    rw [if_pos h1, h2]
    rfl
  | append_singleton l x ih =>
    rw [List.length_append, List.length_singleton] at hl
    rw [← List.cons_append, List.map_append, List.foldl_append, ih (by omega)]
    have e : ((setCand i (0x69#8 :: l) s).port i) = { s.port i with cand := 0x69#8 :: l } := by
      unfold setCand; rw [port_onPort, if_pos rfl]
    simp only [List.map_cons, List.map_nil, List.foldl_cons, List.foldl_nil]
    unfold hear
    rw [e]
    simp only [h1, RxChar.good, if_true]
    rw [if_pos (by omega)]
    unfold setCand; rw [onPort_onPort]; rfl

/-- Five good characters that begin a candidate bring it to its end (R188). -/
theorem hear_five (i : Seg) (s : State) (h1 : (s.port i).tx = .await) (h2 : (s.port i).cand = []) (a b c d : Byte) :
    ([0x69#8, a, b, c, d].map RxChar.good).foldl (hear i) s =
      candidateEnds i [0x69#8, a, b, c, d] (setCand i [0x69#8, a, b, c] s) := by
  change ((0x69#8 :: [a, b, c]).map RxChar.good ++ [RxChar.good d]).foldl (hear i) s = _
  rw [List.foldl_append, hear_part i s h1 h2 [a, b, c] (by simp)]
  have e : ((setCand i [0x69#8, a, b, c] s).port i) = { s.port i with cand := [0x69#8, a, b, c] } := by
    unfold setCand; rw [port_onPort, if_pos rfl]
  simp only [List.foldl_cons, List.foldl_nil]
  unfold hear
  rw [e]
  simp only [h1]
  rfl

/-- A candidate that R188 or R111 makes no valid reply to the telegram just sent. -/
theorem judgeCandidate_eq_none (sent : Telegram) (source reply high low : Byte)
    (h : byte2 (crc16 [source, reply]).toNat ≠ [high, low] ∨ source.toNat ≠ sent.destination ∨
      reply &&& 0x03#8 = 0x00#8 ∨ reply &&& 0xEC#8 ≠ 0x00#8 ∨
      (reply &&& 0x03#8 ≠ 0x02#8 ∧ reply.getLsbD 4 ≠ sent.seqBit)) :
    judgeCandidate sent source reply high low = none := by
  unfold judgeCandidate
  split
  · rename_i hc
    rcases h with h | h | h
    · exact absurd hc.1 h
    · exact absurd hc.2 h
    · have k : ∀ b : Byte, (b &&& 0x03#8 = 0x00#8 → deviceReplyKind b = none) ∧
          (b &&& 0xEC#8 ≠ 0x00#8 → deviceReplyKind b = none) ∧
          (b &&& 0x03#8 ≠ 0x02#8 → deviceReplyKind b ≠ some .busy) := by decide +kernel
      obtain ⟨k1, k2, k3⟩ := k reply
      rcases h with h | h | ⟨h, he⟩
      · rw [k1 h]
      · rw [k2 h]
      · have hb := k3 h
        revert hb
        cases deviceReplyKind reply with
        | none => intro; rfl
        | some kind => cases kind <;> intro hb <;> first | exact absurd rfl hb | exact if_neg he
  · rfl

/-- Setting the candidate to what it was changes nothing. -/
theorem setCand_setCand_self (i : Seg) (s : State) (l l' : List Byte) (h : (s.port i).cand = l') :
    setCand i l' (setCand i l s) = s := by
  unfold setCand; rw [onPort_onPort]; apply onPort_self; simp [← h]

/-- A whole candidate that is no valid reply leaves the port as it was (R111, R188). -/
theorem hear_invalid (i : Seg) (s : State) (h1 : (s.port i).tx = .await) (h2 : (s.port i).cand = [])
    (source reply high low : Byte) (sent) (hb : (s.port i).buffer = some sent)
    (h : judgeCandidate sent source reply high low = none) :
    ([0x69#8, source, reply, high, low].map RxChar.good).foldl (hear i) s = s := by
  rw [hear_five i s h1 h2 _ _ _ _]
  have e : ((setCand i [0x69#8, source, reply, high] s).port i).buffer = some sent := by
    unfold setCand; rw [port_onPort, if_pos rfl]; exact hb
  unfold candidateEnds
  simp only [e, h]
  exact setCand_setCand_self i s _ _ h2

/-- A character that is no start mark begins no candidate (R188). -/
theorem hear_no_mark (i : Seg) (s : State) (h2 : (s.port i).cand = []) (c : RxChar)
    (h : c.data ≠ 0x69#8 ∨ c.stopOk = false) : hear i s c = s := by
  unfold hear
  split
  · rw [h2]
    dsimp only
    rw [if_neg]
    rcases h with h | h <;> simp [h]
  · rfl

/-- A bad stop bit breaks a candidate, and leaves the port as it was (R188). -/
theorem hear_broken (i : Seg) (s : State) (h1 : (s.port i).tx = .await) (h2 : (s.port i).cand = []) (l : List Byte)
    (c : RxChar) (hl : l.length ≤ 3) (hc : c.stopOk = false) :
    ((0x69#8 :: l).map RxChar.good ++ [c]).foldl (hear i) s = s := by
  rw [List.foldl_append, hear_part i s h1 h2 l hl]
  have e : ((setCand i (0x69#8 :: l) s).port i) = { s.port i with cand := 0x69#8 :: l } := by
    unfold setCand; rw [port_onPort, if_pos rfl]
  simp only [List.foldl_cons, List.foldl_nil]
  unfold hear
  rw [e]
  simp only [h1, hc, if_true, Bool.false_eq_true, if_false]
  exact setCand_setCand_self i s _ _ h2

/-- A whole device reply with its check: nothing where its kind or echo does not agree, otherwise the answer of its
kind (R111, R116, R188). -/
theorem hear_reply (i : Seg) (s : State) (h1 : (s.port i).tx = .await) (h2 : (s.port i).cand = []) (b : Byte) (sent) (hb : (s.port i).buffer = some sent) (hd : sent.destination ≤ 126) :
  ((0x69#8 :: byte1 sent.destination :: b :: byte2 (crc16 [byte1 sent.destination, b]).toNat).map RxChar.good).foldl (hear i) s =
    match (match deviceReplyKind b with
    | none => none
    | some .busy => some .busy
    | some .ack => if b.getLsbD 4 = sent.seqBit then some .ack else none
    | some .reject => if b.getLsbD 4 = sent.seqBit then some .reject else none : Option DeviceReplyKind) with
    | none => s
    | some kind => windowAnswered i kind sent s := by
  have e : (0x69#8 :: byte1 sent.destination :: b :: byte2 (crc16 [byte1 sent.destination, b]).toNat) = [0x69#8, byte1 sent.destination, b, byte1 ((crc16 [byte1 sent.destination, b]).toNat / 256), byte1 (crc16 [byte1 sent.destination, b]).toNat] := rfl
  rw [e, hear_five i s h1 h2 _ _ _ _]
  unfold candidateEnds
  have e2 : setCand i [] (setCand i [0x69#8, byte1 sent.destination, b, byte1 ((crc16 [byte1 sent.destination, b]).toNat / 256)] s) = s := by
    exact setCand_setCand_self i s _ _ h2
  rw [e2]
  have e1 : ∀ l, ((setCand i l s).port i).buffer = some sent := by intro l; unfold setCand; rw [port_onPort, if_pos rfl]; exact hb
  simp only [e1]
  have : judgeCandidate sent (byte1 sent.destination) b (byte1 ((crc16 [byte1 sent.destination, b]).toNat / 256)) (byte1 (crc16 [byte1 sent.destination, b]).toNat) = (match deviceReplyKind b with
    | none => none
    | some .busy => some .busy
    | some .ack => if b.getLsbD 4 = sent.seqBit then some .ack else none
    | some .reject => if b.getLsbD 4 = sent.seqBit then some .reject else none : Option DeviceReplyKind) := by
    unfold judgeCandidate
    refine (if_pos ⟨rfl, ?_⟩).trans rfl
    simp [byte1]; omega
  rw [this] <;> rfl

/-- A valid BUSY before it is judged: the busy count advanced, and the segment answered (R118, R123). -/
theorem busy_answered (i : Seg) (j : Job) (sent : Telegram) (s : State) (hj : jobInService s i = some j) :
   let s1 := segmentAnswered i .reply sent.destination (onJob i (fun j => { j with busy := j.busy + 1 }) s)
   (s1 = { onJob i (fun j => { j with busy := j.busy + 1 }) s with
     ports := s.ports.set i { s.port i with silence := 0, health := if (s.port i).health = .suspect ∨ (s.port i).health = .down then .up else (s.port i).health }
     notices := s1.notices }) ∧ busyCount s1 i = j.busy + 1 ∧ s1.notices = (if (s.port i).health = .suspect ∨ (s.port i).health = .down then (post (.segmentState i (s.port i).health .up 0 .reply (some sent.destination)) s).notices else s.notices) ∧
     s1.port i = { s.port i with silence := 0, health := if (s.port i).health = .suspect ∨ (s.port i).health = .down then .up else (s.port i).health } ∧
     jobInService s1 i = some { j with busy := j.busy + 1 } := by
  dsimp only
  rw [segmentAnswered_eq]
  have e : (onJob i (fun j => { j with busy := j.busy + 1 }) s).port i = s.port i := rfl
  simp only [e]
  have hjs : ∀ (t : State), t.dispatch = (onJob i (fun j => { j with busy := j.busy + 1 }) s).dispatch → jobInService t i = some { j with busy := j.busy + 1 } := by
    intro t ht
    unfold jobInService State.queue
    rw [ht]
    simp only [onJob, setQueue, get_set_self]
    exact service_map (fun j => { j with busy := j.busy + 1 }) (fun _ => rfl) _ _ hj
  refine ⟨rfl, ?_, ?_, ?_, ?_⟩
  · unfold busyCount; rw [hjs _ (by rfl)]
  · split
    · exact post_notices_congr rfl rfl
    · rfl
  · simp only [State.port, get_set_self]
  · exact hjs _ rfl

end Sys2Proof.Machine
end

