-- ==== Sys2Proof/Laws/Queues.lean ====
section
/-! SUPPORT. Queues in order: what removals and insertions keep of the order, and the search for a free tag (R89 to
R92). -/

namespace Sys2Proof.Machine

/-- At most one job in service. -/
theorem inService_length {q : List Job} (h : ∀ j ∈ q.tail, j.inService = false) : (q.filter (·.inService)).length ≤ 1 := by
  cases q with
  | nil => simp
  | cons x q =>
    have : q.filter (·.inService) = [] := List.filter_eq_nil_iff.mpr (by simpa using h)
    simp only [List.filter_cons, this]; split <;> simp

/-- A removal keeps a queue in order. -/
theorem QueueOrder.removed {q' q : List Job} (hr : Removed q' q) (h : QueueOrder q) : QueueOrder q' := by
  have hw := hr.waiting_sublist
  refine ⟨le_trans hr.length_le h.capacity, ?_, h.urgency.sublist hw, h.entries.sublist (hw.map _), fun j hj => h.fresh j (hw.subset hj)⟩
  rcases hr with hr | ⟨rest, rfl, hr⟩
  · intro j hj
    have : q'.tail.Sublist q.tail := hr.tail
    exact h.service j (this.subset hj)
  · have h1 := inService_length h.service
    have hrest : ∀ j ∈ rest, j.inService = false := by
      intro j hj
      have := hr.subset hj
      simp only [waiting, List.mem_filter] at this
      simpa using this.2
    intro j hj
    generalize q.filter (·.inService) = a at *
    cases a with
    | nil => exact hrest j (List.mem_of_mem_tail hj)
    | cons x a =>
      have : a = [] := by simpa using h1
      subst this
      exact hrest j (by simpa using hj)

theorem Removed.subperm {q' q : List Job} (hr : Removed q' q) : q'.Subperm q := by
  rcases hr with hr | ⟨rest, rfl, hr⟩
  · exact hr.subperm
  · have h : (q.filter (·.inService) ++ rest).Subperm (q.filter (·.inService) ++ waiting q) :=
      ⟨_, List.Perm.refl _, (List.Sublist.refl _).append hr⟩
    exact h.trans (List.filter_append_perm (·.inService) q).subperm

theorem insertJob_perm (j : Job) (q : List Job) : (insertJob j q).Perm (j :: q) := by
  induction q with
  | nil => exact List.Perm.refl _
  | cons k q ih =>
    simp only [insertJob]
    split
    · exact (ih.cons k).trans (List.Perm.swap ..)
    · exact List.Perm.refl _

/-- An insertion keeps a queue in order (R90, R92, R93). -/
theorem queueOrder_insertJob (j : Job) (q : List Job) (hj : j.inService = false) (hf : j.stale = false ∧ j.attempts = 0 ∧ j.busy = 0)
   (hl : q.length < 16) (hn : ∀ k ∈ q, k.entry = j.entry → k.inService = true) (h : QueueOrder q) : QueueOrder (insertJob j q) := by
  have hp := insertJob_perm j q
  have hwp : (waiting (insertJob j q)).Perm (j :: waiting q) := by
    have := hp.filter (fun j => !j.inService)
    simpa [hj, waiting] using this
  refine ⟨by rw [hp.length_eq]; simp; omega, ?_, ?_, ?_, ?_⟩
  · cases q with
    | nil => simp [insertJob]
    | cons k q =>
      simp only [insertJob]
      have hs := h.service
      simp only [List.tail_cons] at hs
      split
      · intro x hx
        simp only [List.tail_cons] at hx
        rcases List.mem_cons.mp ((insertJob_perm j q).subset hx) with rfl | hx
        · exact hj
        · exact hs x hx
      · rename_i hc
        simp only [Bool.or_eq_true, not_or, Bool.not_eq_true] at hc
        intro x hx
        simp only [List.tail_cons] at hx
        rcases List.mem_cons.mp hx with rfl | hx
        · exact hc.1
        · exact hs x hx
  · have : ∀ q, (waiting q).Pairwise (fun a b => a.urgency ≤ b.urgency) → (waiting (insertJob j q)).Pairwise (fun a b => a.urgency ≤ b.urgency) := by
      intro q
      induction q with
      | nil => intro _; simp [insertJob, waiting, hj]
      | cons k q ih =>
        intro h
        simp only [insertJob]
        split
        · rename_i hc
          by_cases hk : k.inService = true
          · simp only [waiting, List.filter_cons, hk, Bool.not_true] at h ⊢
            exact ih h
          · rw [Bool.not_eq_true] at hk
            simp only [hk, Bool.false_or, decide_eq_true_eq] at hc
            simp only [waiting, List.filter_cons, hk, Bool.not_false, if_true, List.pairwise_cons] at h ⊢
            refine ⟨?_, ih h.2⟩
            intro x hx
            have hwp : (waiting (insertJob j q)).Perm (j :: waiting q) := by
              have := (insertJob_perm j q).filter (fun j => !j.inService)
              simpa [hj, waiting] using this
            rcases List.mem_cons.mp (hwp.subset hx) with rfl | hx
            · exact hc
            · exact h.1 x hx
        · rename_i hc
          simp only [Bool.or_eq_true, not_or, Bool.not_eq_true, decide_eq_false_iff_not, Nat.not_le] at hc
          have hw : waiting (j :: k :: q) = j :: waiting (k :: q) := by simp [waiting, hj]
          rw [hw, List.pairwise_cons]
          refine ⟨?_, h⟩
          have hw2 : waiting (k :: q) = k :: waiting q := by simp [waiting, hc.1]
          rw [hw2] at h ⊢
          rw [List.pairwise_cons] at h
          intro x hx
          rcases List.mem_cons.mp hx with rfl | hx
          · omega
          · have := h.1 x hx; omega
    exact this q h.urgency
  · rw [(hwp.map (·.entry)).nodup_iff, List.map_cons, List.nodup_cons]
    refine ⟨?_, h.entries⟩
    intro hm
    obtain ⟨k, hk, he⟩ := List.mem_map.mp hm
    have hk := List.mem_filter.mp hk
    have := hn k hk.1 he
    simp [this] at hk
  · intro x hx
    rcases List.mem_cons.mp (hwp.subset hx) with rfl | hx
    · exact hf
    · exact h.fresh x hx

/-- The search for a tag ends on a free one, or every value tried is taken (R91). -/
theorem freeTag_spec (held : List Word16) : ∀ (fuel : Nat) (t : Word16),
   (freeTag held fuel t ≠ noTag ∧ freeTag held fuel t ∉ held) ∨ (∀ k < fuel, t + BitVec.ofNat 16 k = noTag ∨ (t + BitVec.ofNat 16 k) ∈ held) := by
  intro fuel
  induction fuel with
  | zero => intro t; right; intro k hk; omega
  | succ n ih =>
    intro t
    simp only [freeTag]
    split
    · rename_i hc
      rcases ih (t+1) with h | h
      · exact Or.inl h
      · right
        intro k hk
        cases k with
        | zero => simpa [List.contains_iff_mem] using hc
        | succ k =>
          have := h k (by omega)
          rw [show t + BitVec.ofNat 16 (k+1) = t + 1 + BitVec.ofNat 16 k by rw [BitVec.ofNat_add]; simp only [BitVec.ofNat_eq_ofNat]; bv_omega]
          exact this
    · rename_i hc
      left
      simpa [not_or, List.contains_iff_mem] using hc

/-- Among at most 64 held tags the search finds a free one (R91). -/
theorem freeTag_free (held : List Word16) (hl : held.length ≤ 64) (t : Word16) : freeTag held 66 t ≠ noTag ∧ freeTag held 66 t ∉ held := by
  rcases freeTag_spec held 66 t with h | h
  · exact h
  · exfalso
    have hsub : ((List.range 66).map (fun k => t + BitVec.ofNat 16 k)) ⊆ noTag :: held := by
      intro x hx
      simp only [List.mem_map, List.mem_range] at hx
      obtain ⟨k, hk, rfl⟩ := hx
      rcases h k hk with h | h
      · rw [h]; exact List.mem_cons_self
      · exact List.mem_cons_of_mem _ h
    have hnd : ((List.range 66).map (fun k => t + BitVec.ofNat 16 k)).Nodup := by
      rw [List.nodup_map_iff_inj_on List.nodup_range]
      intro a ha b hb hab
      simp only [List.mem_range] at ha hb
      have h1 : BitVec.ofNat 16 a = BitVec.ofNat 16 b := by bv_omega
      have h2 := congrArg BitVec.toNat h1
      simp only [BitVec.toNat_ofNat] at h2
      omega
    have := (hnd.subperm hsub).length_le
    simp at this
    omega

end Sys2Proof.Machine
end

