-- ==== Sys2Proof/Laws/Recording.lean ====
section
/-! SUPPORT. What the recording of job ends does (R104 to R106), and the jobs that a withdraw, a sweep and a purge end
(R96, R99, R101). -/

namespace Sys2Proof.Machine

/-! ### One recording -/

theorem wants_iff (m : ReportMode) (o : JobOutcome) : m.wants o = true ↔
    m = .all ∨ (m = .failures ∧ o ∈ [.rejected, .failed, .busyLimit, .expired, .dropped, .fault]) := by
  cases m <;> cases o <;> decide

/-- The recording of an end whose entry has a sound header (R105, R106). -/
theorem recordEnd_sound (path : FaultPath) {s : State} {j : JobEnd} {h : Header} {d : Definition}
    (hh : Holds s j.entry h d) :
    recordEnd path s j = reportEnd d.report j
      (if j.stale then s else writeHeader j.entry { h with lastOutcome := some j.outcome } s) := by
  unfold recordEnd
  rw [if_pos hh.defined, hh.sound]

/-- The recording of an end whose entry holds no definition (R104, R106). -/
theorem recordEnd_bare (path : FaultPath) {s : State} {j : JobEnd} (h : (stateOf s j.entry).defined = false) :
    recordEnd path s j = recordBare s j := by
  unfold recordEnd
  rw [if_neg (by simp [h])]

/-- The recording that finds a faulty header (R105). -/
theorem recordEnd_fault (path : FaultPath) {s : State} {j : JobEnd} (hd : (stateOf s j.entry).defined = true)
    (hr : readHeader s j.entry = none) : recordEnd path s j = recordBare (quarantine j.entry .header path s) j := by
  unfold recordEnd
  rw [if_pos hd, hr]

/-- The report of an end (R106). -/
theorem reportEnd_ite (m : ReportMode) (j : JobEnd) (s : State) : reportEnd m j s =
    if m = .all ∨ (m = .failures ∧ j.outcome ∈ [.rejected, .failed, .busyLimit, .expired, .dropped, .fault])
      then post (.dispatchReport j) s else s := by
  unfold reportEnd
  by_cases h : m.wants j.outcome = true
  · rw [if_pos h, if_pos ((wants_iff m j.outcome).mp h)]
  · rw [if_neg h, if_neg (fun hc => h ((wants_iff m j.outcome).mpr hc))]

/-- Every defined entry of some ends has a sound header: no recording of them finds a fault (R105). -/
def AllSound (s : State) (l : List JobEnd) : Prop :=
  ∀ k ∈ l, (stateOf s k.entry).defined = true → (readHeader s k.entry).isSome = true

/-- A recording that finds no fault leaves the dispatch, the ports and the calendar alone, and no other header faulty. -/
theorem recordEnd_settled (path : FaultPath) {s : State} {j : JobEnd} {l : List JobEnd} (hs : AllSound s (j :: l)) :
    (recordEnd path s j).dispatch = s.dispatch ∧ (recordEnd path s j).ports = s.ports ∧
      (recordEnd path s j).cal = s.cal ∧ AllSound (recordEnd path s j) l := by
  by_cases hd : (stateOf s j.entry).defined = true
  · obtain ⟨⟨h, d⟩, hr⟩ := Option.isSome_iff_exists.mp (hs j List.mem_cons_self hd)
    rw [recordEnd_sound path ⟨hd, hr⟩]
    obtain ⟨n, hn⟩ := reportEnd_eq d.report j
      (if j.stale then s else writeHeader j.entry { h with lastOutcome := some j.outcome } s)
    rw [hn]
    split
    · exact ⟨rfl, rfl, rfl, fun k hk hdk => hs k (List.mem_cons_of_mem _ hk) hdk⟩
    · refine ⟨rfl, rfl, rfl, fun k hk hdk => ?_⟩
      change (readHeader (writeHeader j.entry { h with lastOutcome := some j.outcome } s) k.entry).isSome = true
      by_cases he : k.entry = j.entry
      · have hw := readHeader_writeHeader j.entry { h with lastOutcome := some j.outcome } s (d := d)
          (readHeader_some hr).2.1
        rw [he, hw]
        rfl
      · have hst : stateOf (writeHeader j.entry { h with lastOutcome := some j.outcome } s) k.entry =
            stateOf s k.entry := (stateOf_writeHeader ..).trans (if_neg he)
        have := hs k (List.mem_cons_of_mem _ hk) (by
          rw [← hst]
          exact hdk)
        unfold readHeader at this ⊢
        rw [header_writeHeader, if_neg he]
        exact this
  · rw [recordEnd_bare path (by simpa using hd)]
    obtain ⟨n, hn⟩ := reportEnd_eq .failures j s
    rw [show recordBare s j = reportEnd .failures j s from rfl, hn]
    exact ⟨rfl, rfl, rfl, fun k hk hdk => hs k (List.mem_cons_of_mem _ hk) hdk⟩

/-- Recordings that find no fault leave the dispatch, the ports and the calendar alone. -/
theorem recordAll_settled (path : FaultPath) (l : List JobEnd) {s : State} (hs : AllSound s l) :
    (recordAll path l s).dispatch = s.dispatch ∧ (recordAll path l s).ports = s.ports ∧
      (recordAll path l s).cal = s.cal := by
  unfold recordAll
  induction l generalizing s with
  | nil => exact ⟨rfl, rfl, rfl⟩
  | cons j l ih =>
    obtain ⟨h1, h2, h3, h4⟩ := recordEnd_settled path hs
    obtain ⟨i1, i2, i3⟩ := ih h4
    rw [List.foldl_cons]
    exact ⟨i1.trans h1, i2.trans h2, i3.trans h3⟩

/-! ### The recordings of a withdraw (R96) -/

/-- Stale ends of one entry with a sound header change the notices alone, as its report mode calls for. -/
theorem recordAll_stale_sound (path : FaultPath) (l : List JobEnd) {s : State} {e : EntryIx} {h : Header}
    {d : Definition} (hl : ∀ j ∈ l, j.entry = e ∧ j.stale = true) (hh : Holds s e h d) :
    recordAll path l s = l.foldl (fun u j => reportEnd d.report j u) s := by
  unfold recordAll
  induction l generalizing s with
  | nil => rfl
  | cons j l ih =>
    obtain ⟨he, hs⟩ := hl j List.mem_cons_self
    rw [List.foldl_cons, List.foldl_cons, recordEnd_sound path (by rw [he]; exact hh), if_pos hs]
    obtain ⟨n, hn⟩ := reportEnd_eq d.report j s
    rw [hn]
    exact ih (s := { s with notices := n }) (fun k hk => hl k (List.mem_cons_of_mem _ hk)) ⟨hh.1, hh.2⟩

/-- Ends of entries without a definition are reported as for FAILURES. -/
theorem recordAll_bare (path : FaultPath) (l : List JobEnd) {s : State}
    (hd : ∀ j ∈ l, (stateOf s j.entry).defined = false) :
    recordAll path l s = l.foldl (fun u j => reportEnd .failures j u) s := by
  unfold recordAll
  induction l generalizing s with
  | nil => rfl
  | cons j l ih =>
    rw [List.foldl_cons, List.foldl_cons, recordEnd_bare path (hd j List.mem_cons_self)]
    obtain ⟨n, hn⟩ := reportEnd_eq .failures j s
    rw [show recordBare s j = reportEnd .failures j s from rfl, hn]
    exact ih (s := { s with notices := n }) (fun k hk => hd k (List.mem_cons_of_mem _ hk))

/-- Ends of one outcome under one report mode: each is reported, or none is (R106). -/
theorem foldl_reportEnd_notices (m : ReportMode) (o : JobOutcome) (l : List JobEnd) {s : State}
    (hl : ∀ j ∈ l, j.outcome = o) :
    (l.foldl (fun u j => reportEnd m j u) s).notices = if m.wants o = true then reported l s else s.notices := by
  by_cases hw : m.wants o = true
  · rw [if_pos hw]
    refine foldl_reported l (fun u j hj => ?_)
    unfold reportEnd
    rw [if_pos (by rw [hl j hj]; exact hw)]
    simp
  · rw [if_neg hw]
    induction l generalizing s with
    | nil => rfl
    | cons j l ih =>
      rw [List.foldl_cons, show reportEnd m j s = s from by
        unfold reportEnd
        rw [if_neg (by rw [hl j List.mem_cons_self]; exact hw)]]
      exact ih (fun k hk => hl k (List.mem_cons_of_mem _ hk))

theorem removed_notices (owns : EntryIx → Bool) (s : State) :
    (markStale owns (removeSelected (fun _ j => owns j.entry) s)).notices = s.notices := by
  simp [removeSelected, removeOn, removeTo]

theorem withdraw_notices (e : EntryIx) (s : State) (m : ReportMode)
    (hr : recordAll .hostRead (withdrawnEnds e .superseded s)
        (markStale (· == e) (removeSelected (fun _ j => j.entry == e) s)) =
      (withdrawnEnds e .superseded s).foldl (fun u j => reportEnd m j u)
        (markStale (· == e) (removeSelected (fun _ j => j.entry == e) s))) :
    (withdraw (· == e) s).notices =
      if m = .all then reported (withdrawnEnds e .superseded s) s else s.notices := by
  unfold withdraw
  dsimp only
  rw [considerAll_notices, endsOf_marked, hr,
    foldl_reportEnd_notices m .superseded _ (fun j hj => (mem_withdrawnEnds hj).2.1),
    reported_congr (t := s) _ (removed_notices (· == e) s) (by simp), removed_notices (· == e) s]
  cases m <;> rfl

/-- The reports of a withdraw from an entry with a sound header (R96, R106). -/
theorem withdraw_notices_sound {e : EntryIx} {s : State} {h : Header} {d : Definition} (hh : Holds s e h d) :
    (withdraw (· == e) s).notices =
      if d.report = .all then reported (withdrawnEnds e .superseded s) s else s.notices :=
  withdraw_notices e s d.report
    (recordAll_stale_sound _ _ (fun _ hj => ⟨(mem_withdrawnEnds hj).1, (mem_withdrawnEnds hj).2.2⟩) ⟨hh.1, hh.2⟩)

/-- A withdraw from an entry without a definition reports nothing (R96, R106). -/
theorem withdraw_notices_bare {e : EntryIx} {s : State} (hd : (stateOf s e).defined = false) :
    (withdraw (· == e) s).notices = s.notices := by
  have := withdraw_notices e s .failures
    (recordAll_bare _ _ (fun j hj => by rw [(mem_withdrawnEnds hj).1]; exact hd))
  simpa using this

/-- A withdraw from entries none of which has a definition reports nothing (R46, R106). -/
theorem withdraw_all_notices_bare {owns : EntryIx → Bool} {s : State}
    (hd : ∀ e, (stateOf s e).defined = false) : (withdraw owns s).notices = s.notices := by
  have ho : ∀ j ∈ (endsOf (fun _ j => owns j.entry) .superseded s).map JobEnd.marked, j.outcome = .superseded := by
    intro j hj
    rw [endsOf_eq] at hj
    simp only [waitingEnds, List.mem_map, List.mem_flatMap] at hj
    obtain ⟨k, ⟨i, _, q, _, rfl⟩, rfl⟩ := hj
    rfl
  unfold withdraw
  dsimp only
  rw [considerAll_notices, recordAll_bare _ _ (fun j _ => by
      rw [show stateOf (markStale owns (removeSelected (fun _ j => owns j.entry) s)) j.entry = stateOf s j.entry from by
        simp [stateOf]]
      exact hd _), foldl_reportEnd_notices .failures .superseded _ ho, if_neg (by decide), removed_notices]

theorem withdrawnEnds_congr {s t : State} (e : EntryIx) (o : JobOutcome) (hd : s.dispatch = t.dispatch) :
    withdrawnEnds e o s = withdrawnEnds e o t := by
  unfold withdrawnEnds State.queue
  rw [hd]

/-- The reports of a withdraw look at the queues, the notices and the calendar alone. -/
theorem reported_withdrawn_congr {s t : State} (e : EntryIx) (o : JobOutcome) (hd : s.dispatch = t.dispatch)
    (hn : s.notices = t.notices) (hc : s.cal = t.cal) :
    reported (withdrawnEnds e o s) s = reported (withdrawnEnds e o t) t := by
  rw [withdrawnEnds_congr e o hd]
  exact reported_congr _ hn hc

/-! ### The removal of the waiting jobs that a test selects -/

theorem PerSegment.ext_get {α : Type} {p q : PerSegment α} (h : ∀ i, p.get i = q.get i) : p = q := by
  obtain ⟨a, b, c, d⟩ := p
  obtain ⟨a', b', c', d'⟩ := q
  have h0 := h 0
  have h1 := h 1
  have h2 := h 2
  have h3 := h 3
  simp only [PerSegment.get] at h0 h1 h2 h3
  simp_all

/-- The model's removal of waiting jobs, in one update (R95). -/
theorem removeSelected_eq (sel : Seg → Job → Bool) (s : State) : removeSelected sel s = withoutWaiting sel s := by
  have hk : ∀ (i : Seg) (u : State), removeOn sel i u = { u with dispatch := { u.dispatch with
      queues := u.dispatch.queues.set i ((u.queue i).filter (fun j => j.inService || !sel i j))
      highArmed := u.dispatch.highArmed.set i (u.dispatch.highArmed.get i ||
        decide (((u.queue i).filter (fun j => j.inService || !sel i j)).length < (u.queue i).length ∧
          ((u.queue i).filter (fun j => j.inService || !sel i j)).length ≤ 8)) } } := by
    intro i u
    unfold removeOn removeTo
    congr 2
    split
    · rename_i h
      have h' := h
      unfold Config.rearmMark at h'
      rw [decide_eq_true h', Bool.or_true]
    · rename_i h
      have h' := h
      unfold Config.rearmMark at h'
      rw [decide_eq_false h', Bool.or_false, show u.dispatch.highArmed.set i (u.dispatch.highArmed.get i) =
        u.dispatch.highArmed from PerSegment.ext_get (fun k => by
          rw [PerSegment.get_set]
          split
          · rename_i hik
            rw [hik]
          · rfl)]
  unfold removeSelected
  rw [hk, hk, hk, hk]
  unfold withoutWaiting
  dsimp only
  congr 2

/-! ### Offers (R81, R93, R94) -/

theorem post_eq_self (b : NoticeBody) (s : State) : post b s = { s with notices := (post b s).notices } := by
  unfold post makeNotice
  split
  · rfl
  · split <;> rfl

/-- Making a job, in one update and the take-in after it (R93, R95). -/
theorem makeJob_eq (i : Seg) (o : Offer) (s : State) : makeJob i o s = considerTakeIn i (withNewJob i o s) := by
  unfold makeJob
  congr 1
  have hq : (insertOffer i o s).queue i = insertJob (o.job (nextFreeTag s)) (s.queue i) := by simp
  unfold testHigh
  rw [hq, length_insertJob]
  have ha : (insertOffer i o s).dispatch.highArmed = s.dispatch.highArmed := rfl
  rw [ha]
  unfold withNewJob
  dsimp only
  by_cases h : (s.queue i).length = 11 ∧ s.dispatch.highArmed.get i = true
  · rw [if_pos (show (s.queue i).length + 1 = Config.highMark ∧ _ from ⟨by rw [h.1]; rfl, h.2⟩), if_pos h, if_pos h,
      post_eq_self]
    have : (post (.queueHigh i Config.highMark) (spendHigh i (insertOffer i o s))).notices =
        (post (.queueHigh i 12) s).notices := post_notices_congr rfl rfl
    rw [this]
    rfl
  · rw [if_neg (fun hc => h ⟨by have := hc.1; unfold Config.highMark at this; omega, hc.2⟩), if_neg h, if_neg h]
    rfl

/-- An offer ended at once is reported unless the report mode is NONE (R81, R106). -/
theorem reportEnd_dropped (m : ReportMode) (o : Offer) (i : Seg) (reason : DropReason) (s : State) :
    reportEnd m (o.end i reason) s = if m = .none then s else post (.dispatchReport (offerEnd i o reason)) s := by
  cases m <;> rfl

/-! ### What does not look at the arbiter's order -/

/-- A state with another order of the arbiter. -/
def withOrder (o : List Requester) (s : State) : State := { s with ctl := { s.ctl with order := o } }

theorem post_withOrder (b : NoticeBody) (o : List Requester) (s : State) :
    post b (withOrder o s) = withOrder o (post b s) := by
  unfold post makeNotice withOrder
  dsimp only
  split
  · rfl
  · split <;> rfl

theorem reportEnd_withOrder (m : ReportMode) (j : JobEnd) (o : List Requester) (s : State) :
    reportEnd m j (withOrder o s) = withOrder o (reportEnd m j s) := by
  unfold reportEnd
  split
  · exact post_withOrder ..
  · rfl

theorem considerTakeIn_withOrder (i : Seg) (o : List Requester) (s : State) :
    considerTakeIn i (withOrder o s) = withOrder o (considerTakeIn i s) := by
  have h := considerTakeIn_withLines i (withOrder o s) s
  rw [withLines_self (s := s) (t := withOrder o s) rfl rfl rfl] at h
  rw [h, considerTakeIn_eq i s]
  rfl

theorem foldl_withOrder {α : Type} {f : State → α → State} (o : List Requester)
    (hf : ∀ s a, f (withOrder o s) a = withOrder o (f s a)) (l : List α) (s : State) :
    l.foldl f (withOrder o s) = withOrder o (l.foldl f s) := by
  induction l generalizing s with
  | nil => rfl
  | cons a l ih => rw [List.foldl_cons, List.foldl_cons, hf, ih]

theorem quarantine_withOrder (e : EntryIx) (r : FaultRecord) (p : FaultPath) (o : List Requester) (s : State) :
    quarantine e r p (withOrder o s) = withOrder o (quarantine e r p s) := by
  unfold quarantine
  dsimp only
  rw [show freeGranules e (writeHeader e (bareHeader .quarantined) (withOrder o s)) =
    withOrder o (freeGranules e (writeHeader e (bareHeader .quarantined) s)) from rfl]
  generalize freeGranules e (writeHeader e (bareHeader .quarantined) s) = u
  have h1 : ∀ sel : Seg → Job → Bool, removeSelected sel (withOrder o u) = withOrder o (removeSelected sel u) := by
    intro sel
    rw [removeSelected_eq, removeSelected_eq]
    rfl
  rw [h1, show markStale (· == e) (withOrder o (removeSelected (fun _ j => j.entry == e) u)) =
      withOrder o (markStale (· == e) (removeSelected (fun _ j => j.entry == e) u)) from rfl,
    show endsOf (fun _ j => j.entry == e) .fault (withOrder o u) = endsOf (fun _ j => j.entry == e) .fault u from rfl,
    foldl_withOrder o (fun s a => reportEnd_withOrder _ a o s),
    show losing (fun _ j => j.entry == e) (withOrder o u) = losing (fun _ j => j.entry == e) u from rfl]
  unfold considerAll
  rw [foldl_withOrder o (fun s a => considerTakeIn_withOrder a o s), post_withOrder]

theorem recordEnd_withOrder (p : FaultPath) (j : JobEnd) (o : List Requester) (s : State) :
    recordEnd p (withOrder o s) j = withOrder o (recordEnd p s j) := by
  unfold recordEnd
  rw [show stateOf (withOrder o s) j.entry = stateOf s j.entry from rfl,
    show readHeader (withOrder o s) j.entry = readHeader s j.entry from rfl]
  split
  · split
    · rw [quarantine_withOrder]
      exact reportEnd_withOrder ..
    · rename_i h d _
      rw [← reportEnd_withOrder]
      congr 1
      split <;> rfl
  · exact reportEnd_withOrder ..

end Sys2Proof.Machine
end

