-- ==== Sys2Proof/Laws/ClosedLine.lean ====
section
/-! SUPPORT. The job in service through a quarantine, and the line of a closed segment: considering take-in elsewhere, quarantines and
recordings leave its port, its pending records and its job in service. -/

namespace Sys2Proof.Machine

/-- The job in service is the head of the jobs in service. -/
theorem find_service_eq_head (q : List Job) : q.find? (·.inService) = (q.filter (·.inService)).head? := by
  induction q with
  | nil => rfl
  | cons k q ih =>
    cases h : k.inService
    · rw [List.find?_cons_of_neg (by simp [h]), List.filter_cons, if_neg (by simp [h])]; exact ih
    · rw [List.find?_cons_of_pos (by simp [h]), List.filter_cons, if_pos (by simp [h])]; rfl

/-- Considering take-in leaves a job that is in service. -/
theorem jobInService_considerTakeIn (i k : Seg) (s : State) (j : Job) (h : jobInService s i = some j) : jobInService
    (considerTakeIn k s) i = some j := by
  by_cases hk : i = k
  · subst hk
    unfold considerTakeIn
    split
    · exact h
    · have hf : ((expireHeads i s).queue i).filter (·.inService) = (s.queue i).filter (·.inService) := by
        have hs := splitOld_sublist s.cal.runSecond (s.port i).cfg.ageLimit ((s.queue i).filter (fun j => !j.inService))
        simp only [expireHeads]
        rw [show (setEnded i _ (removeTo i ((s.queue i).filter (·.inService) ++ (splitOld s.cal.runSecond (s.port i).cfg.ageLimit ((s.queue i).filter (fun j => !j.inService))).2) s)).queue i = (removeTo i ((s.queue i).filter (·.inService) ++ (splitOld s.cal.runSecond (s.port i).cfg.ageLimit ((s.queue i).filter (fun j => !j.inService))).2) s).queue i from rfl]
        rw [queue_removeTo, if_pos rfl, List.filter_append]
        have : List.filter (fun x => x.inService) (splitOld s.cal.runSecond (s.port i).cfg.ageLimit ((s.queue i).filter (fun j => !j.inService))).2 = [] := by
          apply List.filter_eq_nil_iff.mpr
          intro x hx
          have := (List.mem_filter.mp (hs.subset hx)).2
          simpa using this
        rw [this, List.append_nil, List.filter_filter]; simp
      have hj : jobInService (expireHeads i s) i = some j := by
        unfold jobInService at h ⊢
        rw [find_service_eq_head, hf, ← find_service_eq_head]; exact h
      have hm : mayTakeIn (expireHeads i s) i = false := by
        unfold mayTakeIn
        have : ((expireHeads i s).queue i).any (·.inService) = true := by
          rw [List.any_eq_true]
          exact ⟨j, List.mem_of_find?_eq_some hj, by simpa using List.find?_some hj⟩
        rw [this]; simp
      have hp : jobInService (presentRecording i (expireHeads i s)) i = some j := by
        unfold presentRecording; split <;> exact hj
      dsimp only
      split
      · exact hp
      · rw [if_neg (by simp [hm])]; exact hp
  · unfold jobInService at h ⊢
    rw [considerTakeIn_queue_ne hk]; exact h

/-- The same for several segments. -/
theorem jobInService_considerAll (i : Seg) (l : List Seg) (s : State) (j : Job) (h : jobInService s i = some j) :
    jobInService (considerAll l s) i = some j := by
  unfold considerAll
  induction l generalizing s with
  | nil => exact h
  | cons k l ih => exact ih _ (jobInService_considerTakeIn i k s j h)

/-- A quarantine marks the job in service of its entry stale, and leaves it in service (R34, R96). -/
theorem jobInService_quarantine (i : Seg) (r p) (s : State) (j : Job) (h : jobInService s i = some j) : jobInService (quarantine j.entry r p s) i = some { j with stale := true } := by
  unfold quarantine
  dsimp only
  obtain ⟨n, hf⟩ := foldl_recordBare ((endsOf (fun _ k => k.entry == j.entry) .fault
      (freeGranules j.entry (writeHeader j.entry (bareHeader .quarantined) s))).map JobEnd.marked)
      (markStale (· == j.entry) (removeSelected (fun _ k => k.entry == j.entry)
        (freeGranules j.entry (writeHeader j.entry (bareHeader .quarantined) s))))
  rw [hf]
  rw [show ∀ b t, jobInService (post b t) i = jobInService t i from fun b t => by rw [post_eq_notices]; rfl]
  apply jobInService_considerAll
  have hqq : ∀ (u : State) (m : NoticeUnit), jobInService { u with notices := m } i = (u.queue i).find? (·.inService) := fun _ _ => rfl
  rw [hqq]
  rw [queue_markStale, queue_removeSelected]
  change ((List.filter _ (s.queue i)).map _).find? _ = _
  unfold jobInService at h
  generalize s.queue i = q at h
  induction q with
  | nil => cases h
  | cons k q ih =>
    cases hk : k.inService
    · rw [List.find?_cons_of_neg (by simp [hk])] at h
      rw [List.filter_cons]
      split
      · rw [List.map_cons, List.find?_cons_of_neg (by split <;> simp [hk])]; exact ih h
      · exact ih h
    · rw [List.find?_cons_of_pos (by simp [hk])] at h
      cases h
      rw [List.filter_cons, if_pos (by simp [hk]), List.map_cons, List.find?_cons_of_pos (by split <;> simp [hk])]
      simp

/-- Considering take-in changes nothing of a closed segment. -/
theorem closedLine_considerTakeIn (i k : Seg) (s : State) (hc : (s.port i).health = .closed) : (considerTakeIn k
    s).dispatch.ended.get i = s.dispatch.ended.get i ∧ (considerTakeIn k s).port i = s.port i ∧ (considerTakeIn k
    s).queue i = s.queue i := by
  by_cases hk : i = k
  · subst hk; unfold considerTakeIn; rw [if_pos hc]; exact ⟨rfl, rfl, rfl⟩
  · exact ⟨considerTakeIn_ended_ne hk s, considerTakeIn_port_ne hk s, considerTakeIn_queue_ne hk s⟩

/-- The same for several segments. -/
theorem closedLine_considerAll (i : Seg) (l : List Seg) (s : State) (hc : (s.port i).health = .closed) : (considerAll
    l s).dispatch.ended.get i = s.dispatch.ended.get i ∧ (considerAll l s).port i = s.port i := by
  unfold considerAll
  induction l generalizing s with
  | nil => exact ⟨rfl, rfl⟩
  | cons k l ih =>
    obtain ⟨h1, h2, _⟩ := closedLine_considerTakeIn i k s hc
    obtain ⟨h3, h4⟩ := ih (considerTakeIn k s) (by rw [h2]; exact hc)
    exact ⟨h3.trans h1, h4.trans h2⟩

/-- The same for its queue. -/
theorem closedQueue_considerAll (i : Seg) (l : List Seg) (s : State) (hc : (s.port i).health = .closed) :
    (considerAll l s).queue i = s.queue i := by
  unfold considerAll
  induction l generalizing s with
  | nil => rfl
  | cons k l ih =>
    obtain ⟨h1, h2, h3⟩ := closedLine_considerTakeIn i k s hc
    exact (ih (considerTakeIn k s) (by rw [h2]; exact hc)).trans h3

/-- The quarantine procedure as its acts in order (R34). -/
theorem quarantine_eq (e r p) (s : State) : ∃ (n : NoticeUnit) (l : List Seg), quarantine e r p s = post (.entryFault e r p) (considerAll l { markStale (· == e) (removeSelected (fun _ k => k.entry == e)
        (freeGranules e (writeHeader e (bareHeader .quarantined) s))) with notices := n }) := by
  unfold quarantine
  dsimp only
  obtain ⟨n, hf⟩ := foldl_recordBare ((endsOf (fun _ k => k.entry == e) .fault
      (freeGranules e (writeHeader e (bareHeader .quarantined) s))).map JobEnd.marked)
      (markStale (· == e) (removeSelected (fun _ k => k.entry == e)
        (freeGranules e (writeHeader e (bareHeader .quarantined) s))))
  rw [hf]
  exact ⟨n, _, rfl⟩

/-- A quarantine leaves the port of a closed segment and the number of its pending records. -/
theorem closedLine_quarantine (i : Seg) (e r p) (s : State) (hc : (s.port i).health = .closed) : ((quarantine e r p
    s).dispatch.ended.get i).length = (s.dispatch.ended.get i).length ∧ (quarantine e r p s).port i = s.port i := by
  obtain ⟨n, l, h⟩ := quarantine_eq e r p s
  rw [h, post_eq_notices]
  have h1 : (markStale (· == e) (removeSelected (fun _ k => k.entry == e) (freeGranules e (writeHeader e (bareHeader .quarantined) s)))).port i = s.port i := by
    unfold State.port markStale
    dsimp only
    rw [removeSelected_ports]; rfl
  have h2 : ((markStale (· == e) (removeSelected (fun _ k => k.entry == e) (freeGranules e (writeHeader e (bareHeader .quarantined) s)))).dispatch.ended.get i).length = (s.dispatch.ended.get i).length := by
    unfold markStale
    dsimp only
    rw [removeSelected_ended]
    have : ∀ (p : PerSegment (List JobEnd)) (f : List JobEnd → List JobEnd), (p.map f).get i = f (p.get i) := by intro p f; fin_cases i <;> rfl
    rw [this, List.length_map]; rfl
  generalize markStale (· == e) (removeSelected (fun _ k => k.entry == e) (freeGranules e (writeHeader e (bareHeader .quarantined) s))) = u at h1 h2
  have hcu : (State.port { u with notices := n } i).health = .closed := by rw [← h1] at hc; exact hc
  obtain ⟨h3, h4⟩ := closedLine_considerAll i l { u with notices := n } hcu
  generalize considerAll l { u with notices := n } = v at h3 h4
  refine ⟨?_, ?_⟩
  · change (v.dispatch.ended.get i).length = _
    rw [h3]; exact h2
  · change v.port i = _
    rw [h4]; exact h1

/-- A recording leaves them too (R105). -/
theorem closedLine_recordEnd (i : Seg) (p) (j : JobEnd) (s : State) (hc : (s.port i).health = .closed) : ((recordEnd
    p s j).dispatch.ended.get i).length = (s.dispatch.ended.get i).length ∧ (recordEnd p s j).port i = s.port i := by
  have hrep : ∀ m j (t : State), (reportEnd m j t).dispatch = t.dispatch ∧ (reportEnd m j t).ports = t.ports := by
    intro m j t; obtain ⟨n, hn⟩ := reportEnd_eq m j t; rw [hn]; exact ⟨rfl, rfl⟩
  unfold recordEnd
  split
  · split
    · unfold recordBare
      rw [(hrep _ _ _).1]; unfold State.port; rw [(hrep _ _ _).2]
      exact closedLine_quarantine i _ _ _ s hc
    · rw [(hrep _ _ _).1]; unfold State.port; rw [(hrep _ _ _).2]
      split <;> exact ⟨rfl, rfl⟩
  · unfold recordBare
    rw [(hrep _ _ _).1]; unfold State.port; rw [(hrep _ _ _).2]
    exact ⟨rfl, rfl⟩

/-- Recording the pending records of a closed segment leaves none (R130). -/
theorem closedLine_recordPending (i : Seg) (p) (n : Nat) : ∀ (s : State), (s.port i).health = .closed →
    (s.dispatch.ended.get i).length = n → (recordPending p i n s).dispatch.ended.get i = [] ∧ (recordPending p i n
    s).port i = s.port i := by
  induction n with
  | zero => intro s hc h; exact ⟨List.length_eq_zero_iff.mp h, rfl⟩
  | succ n ih =>
    intro s hc h
    simp only [recordPending]
    cases he : s.dispatch.ended.get i with
    | nil => rw [he] at h; cases h
    | cons j rest =>
      dsimp only
      obtain ⟨h1, h2⟩ := closedLine_recordEnd i p j (setEnded i rest s) hc
      obtain ⟨h3, h4⟩ := ih (recordEnd p (setEnded i rest s) j) (by rw [h2]; exact hc) (by rw [h1]; simp [setEnded]; rw [he] at h; simpa using h)
      exact ⟨h3, h4.trans h2⟩

/-- Recording a list of ends leaves the closed segment's port and the number of its pending records. -/
theorem closedLine_recordAll (i : Seg) (p) (l : List JobEnd) (s : State) (hc : (s.port i).health = .closed) :
    ((recordAll p l s).dispatch.ended.get i).length = (s.dispatch.ended.get i).length ∧ (recordAll p l s).port i =
    s.port i := by
  unfold recordAll
  induction l generalizing s with
  | nil => exact ⟨rfl, rfl⟩
  | cons j l ih =>
    obtain ⟨h1, h2⟩ := closedLine_recordEnd i p j s hc
    obtain ⟨h3, h4⟩ := ih (recordEnd p s j) (by rw [h2]; exact hc)
    exact ⟨h3.trans h1, h4.trans h2⟩

/-- The destination of the job in service of a segment. -/
def serviceDestination (s : State) (i : Seg) : Option Nat := (jobInService s i).map (·.destination)

/-- A change that keeps a job's service and destination keeps the destination of the job in service. -/
theorem find_service_map (q : List Job) (f : Job → Job) (hf : ∀ j, (f j).inService = j.inService ∧ (f j).destination
    = j.destination) : ((q.map f).find? (·.inService)).map (·.destination) = (q.find? (·.inService)).map
    (·.destination) := by
  induction q with
  | nil => rfl
  | cons k q ih =>
    cases h : k.inService
    · rw [List.map_cons, List.find?_cons_of_neg (by rw [(hf k).1]; simp [h]), List.find?_cons_of_neg (by simp [h])]; exact ih
    · rw [List.map_cons, List.find?_cons_of_pos (by rw [(hf k).1]; simp [h]), List.find?_cons_of_pos (by simp [h])]; simp [(hf k).2]

/-- Removing waiting jobs keeps the job in service. -/
theorem find_service_filter (q : List Job) (g : Job → Bool) : ((q.filter (fun j => j.inService || g j)).find?
    (·.inService)) = (q.find? (·.inService)) := by
  induction q with
  | nil => rfl
  | cons k q ih =>
    cases h : k.inService
    · rw [List.find?_cons_of_neg (by simp [h]), List.filter_cons]
      split
      · rw [List.find?_cons_of_neg (by simp [h])]; exact ih
      · exact ih
    · rw [List.find?_cons_of_pos (by simp [h]), List.filter_cons, if_pos (by simp [h]), List.find?_cons_of_pos (by simp [h])]

/-- A quarantine keeps the destination of the job in service of a closed segment. -/
theorem serviceDestination_quarantine (i : Seg) (e r p) (s : State) (hc : (s.port i).health = .closed) :
    serviceDestination (quarantine e r p s) i = serviceDestination s i := by
  obtain ⟨n, l, h⟩ := quarantine_eq e r p s
  rw [h, post_eq_notices]
  have h1 : (markStale (· == e) (removeSelected (fun _ k => k.entry == e) (freeGranules e (writeHeader e (bareHeader .quarantined) s)))).port i = s.port i := by
    unfold State.port markStale
    dsimp only
    rw [removeSelected_ports]; rfl
  have h2 : serviceDestination (markStale (· == e) (removeSelected (fun _ k => k.entry == e) (freeGranules e (writeHeader e (bareHeader .quarantined) s)))) i = serviceDestination s i := by
    unfold serviceDestination jobInService
    rw [queue_markStale, find_service_map _ _ (by intro j; split <;> exact ⟨rfl, rfl⟩), queue_removeSelected, find_service_filter]
    rfl
  generalize markStale (· == e) (removeSelected (fun _ k => k.entry == e) (freeGranules e (writeHeader e (bareHeader .quarantined) s))) = u at h1 h2
  have hcu : (State.port { u with notices := n } i).health = .closed := by rw [← h1] at hc; exact hc
  have h3 := closedQueue_considerAll i l { u with notices := n } hcu
  generalize considerAll l { u with notices := n } = v at h3
  change ((v.queue i).find? _).map _ = _
  rw [h3]; exact h2

/-- A recording keeps it too. -/
theorem serviceDestination_recordEnd (i : Seg) (p) (j : JobEnd) (s : State) (hc : (s.port i).health = .closed) :
    serviceDestination (recordEnd p s j) i = serviceDestination s i := by
  have hrep : ∀ m j (t : State), serviceDestination (reportEnd m j t) i = serviceDestination t i := by
    intro m j t; obtain ⟨n, hn⟩ := reportEnd_eq m j t; rw [hn]; rfl
  unfold recordEnd
  split
  · split
    · unfold recordBare; rw [hrep]; exact serviceDestination_quarantine i _ _ _ s hc
    · rw [hrep]; split <;> rfl
  · unfold recordBare; rw [hrep]

/-- So does recording the pending records. -/
theorem serviceDestination_recordPending (i : Seg) (p) (n : Nat) : ∀ (s : State), (s.port i).health = .closed →
    serviceDestination (recordPending p i n s) i = serviceDestination s i := by
  induction n with
  | zero => intro s hc; rfl
  | succ n ih =>
    intro s hc
    simp only [recordPending]
    split
    · rfl
    · rename_i j rest he
      have h2 := (closedLine_recordEnd i p j (setEnded i rest s) hc).2
      rw [ih _ (by rw [h2]; exact hc)]
      exact serviceDestination_recordEnd i p j _ hc

/-- Recording ends leaves an empty queue empty. -/
theorem queueNil_recordAll (i : Seg) (p) (l : List JobEnd) (s : State) (h : s.queue i = []) : (recordAll p l s).queue
    i = [] := by
  have := (kept_length_le i 0).recordAll p l (s := s) (by simp [h])
  exact List.length_eq_zero_iff.mp (by omega)

/-- What SEGMENT-CLOSE leaves alone (R130). -/
theorem closeSegment_keeps (i : Seg) (s : State) : (closeSegment i s).link = s.link ∧ (closeSegment i s).supply =
    s.supply ∧ (closeSegment i s).store.heap = s.store.heap ∧ (closeSegment i s).store.segRecords =
    s.store.segRecords ∧ (closeSegment i s).store.daylightRecord = s.store.daylightRecord ∧ (closeSegment i s).cal =
    s.cal ∧ (closeSegment i s).matcher = s.matcher ∧ (closeSegment i s).ctl.order = s.ctl.order := by
  have hrd : ∀ (n : Nat) (u : State), (recordPending .hostRead i n u).link = u.link ∧ (recordPending .hostRead i n u).supply = u.supply ∧ (recordPending .hostRead i n u).store.heap = u.store.heap ∧ (recordPending .hostRead i n u).store.segRecords = u.store.segRecords ∧ (recordPending .hostRead i n u).store.daylightRecord = u.store.daylightRecord ∧ (recordPending .hostRead i n u).cal = u.cal ∧ (recordPending .hostRead i n u).matcher = u.matcher ∧ (recordPending .hostRead i n u).ctl.order = u.ctl.order := by
    intro n u; simp
  unfold closeSegment
  dsimp only
  set s1 := onPort i (fun p => { p.cut with health := .closed }) s
  have h1 := hrd (s1.dispatch.ended.get i).length s1
  set s2 := recordPending .hostRead i (s1.dispatch.ended.get i).length s1
  have h2 : (abandonService i s2).link = s2.link ∧ (abandonService i s2).supply = s2.supply ∧ (abandonService i s2).store.heap = s2.store.heap ∧ (abandonService i s2).store.segRecords = s2.store.segRecords ∧ (abandonService i s2).store.daylightRecord = s2.store.daylightRecord ∧ (abandonService i s2).cal = s2.cal ∧ (abandonService i s2).matcher = s2.matcher ∧ (abandonService i s2).ctl.order = s2.ctl.order := by
    unfold abandonService; split
    · simp
    · simp
  set s3 := abandonService i s2
  have h3 : (purgeWaiting i s3).link = s3.link ∧ (purgeWaiting i s3).supply = s3.supply ∧ (purgeWaiting i s3).store.heap = s3.store.heap ∧ (purgeWaiting i s3).store.segRecords = s3.store.segRecords ∧ (purgeWaiting i s3).store.daylightRecord = s3.store.daylightRecord ∧ (purgeWaiting i s3).cal = s3.cal ∧ (purgeWaiting i s3).matcher = s3.matcher ∧ (purgeWaiting i s3).ctl.order = s3.ctl.order := by
    unfold purgeWaiting; simp
  set s4 := purgeWaiting i s3
  rw [post_eq_notices]
  exact ⟨h3.1.trans (h2.1.trans h1.1), h3.2.1.trans (h2.2.1.trans h1.2.1), h3.2.2.1.trans (h2.2.2.1.trans h1.2.2.1), h3.2.2.2.1.trans (h2.2.2.2.1.trans h1.2.2.2.1), h3.2.2.2.2.1.trans (h2.2.2.2.2.1.trans h1.2.2.2.2.1), h3.2.2.2.2.2.1.trans (h2.2.2.2.2.2.1.trans h1.2.2.2.2.2.1), h3.2.2.2.2.2.2.1.trans (h2.2.2.2.2.2.2.1.trans h1.2.2.2.2.2.2.1), h3.2.2.2.2.2.2.2.trans (h2.2.2.2.2.2.2.2.trans h1.2.2.2.2.2.2.2)⟩

/-! ### What does not look at a closed segment's line -/

/-- A state with a closed segment's port and high-water flag blotted out. -/
def blotted (i : Seg) (s : State) : State :=
  { s with
    ports := s.ports.set i { Port.start defaultSegConfig with health := .closed }
    dispatch := { s.dispatch with highArmed := s.dispatch.highArmed.set i false } }

theorem port_blotted (i k : Seg) (s : State) :
    (blotted i s).port k = if k = i then { Port.start defaultSegConfig with health := .closed } else s.port k :=
  PerSegment.get_set ..

theorem set_comm_ne {α : Type} (p : PerSegment α) {i k : Seg} (h : k ≠ i) (a b : α) :
    (p.set i a).set k b = (p.set k b).set i a := by
  refine PerSegment.ext_get (fun m => ?_)
  simp only [PerSegment.get_set]
  split
  · split
    · rename_i h1 h2
      exact absurd (h1.symm.trans h2) h
    · rfl
  · rfl

theorem set_set_same {α : Type} (p : PerSegment α) (i : Seg) (a b : α) : (p.set i a).set i b = p.set i b := by
  refine PerSegment.ext_get (fun m => ?_)
  simp only [PerSegment.get_set]
  split <;> rfl

theorem blotted_blotted (i : Seg) (s : State) : blotted i (blotted i s) = blotted i s := by
  unfold blotted
  dsimp only
  rw [set_set_same, set_set_same]

theorem post_blotted (b : NoticeBody) (i : Seg) (s : State) : post b (blotted i s) = blotted i (post b s) := by
  rw [post_eq_self b s, post_eq_self b (blotted i s), post_notices_congr (s := blotted i s) (t := s) rfl rfl]
  rfl

theorem reportEnd_blotted (m : ReportMode) (j : JobEnd) (i : Seg) (s : State) :
    reportEnd m j (blotted i s) = blotted i (reportEnd m j s) := by
  unfold reportEnd
  split
  · exact post_blotted ..
  · rfl

/-- A removal on any line, seen without the closed one. -/
theorem removeTo_blotted (i k : Seg) (q : List Job) (s : State) :
    blotted i (removeTo k q (blotted i s)) = blotted i (removeTo k q s) := by
  have hq : (blotted i s).queue k = s.queue k := rfl
  unfold removeTo
  rw [hq]
  by_cases h : q.length < (s.queue k).length ∧ q.length ≤ Config.rearmMark
  · simp only [if_pos h]
    unfold blotted
    dsimp only
    rw [set_set_same]
    congr 2
    by_cases hk : k = i
    · subst hk
      rw [set_set_same, set_set_same, set_set_same]
    · rw [← set_comm_ne _ hk, set_set_same, ← set_comm_ne _ hk]
  · simp only [if_neg h]
    unfold blotted
    dsimp only
    rw [set_set_same, set_set_same]

theorem removeSelected_blotted (i : Seg) (sel : Seg → Job → Bool) (s : State) :
    blotted i (removeSelected sel (blotted i s)) = blotted i (removeSelected sel s) := by
  have h : ∀ (k : Seg) (u v : State), blotted i u = blotted i v → blotted i (removeOn sel k u) = blotted i (removeOn sel k v) := by
    intro k u v huv
    unfold removeOn
    have hq : u.queue k = v.queue k := congrArg (fun w => w.queue k) huv
    rw [hq, ← removeTo_blotted i k _ u, huv, removeTo_blotted]
  unfold removeSelected
  exact h 3 _ _ (h 2 _ _ (h 1 _ _ (h 0 _ _ (blotted_blotted i s))))

theorem onPort_blotted {i k : Seg} (h : k ≠ i) (f : Port → Port) (s : State) :
    onPort k f (blotted i s) = blotted i (onPort k f s) := by
  have hp : (blotted i s).port k = s.port k := (port_blotted i k s).trans (if_neg h)
  rw [onPort_eq, onPort_eq, hp]
  unfold blotted
  dsimp only
  rw [set_comm_ne _ h]

/-- Take-in on any segment, seen without the closed one. -/
theorem considerTakeIn_blotted (i k : Seg) (s : State) (hc : (s.port i).health = .closed) :
    blotted i (considerTakeIn k (blotted i s)) = blotted i (considerTakeIn k s) := by
  by_cases h : k = i
  · subst h
    unfold considerTakeIn
    rw [if_pos hc, if_pos (by rw [port_blotted, if_pos rfl]), blotted_blotted]
  · have hp : (blotted i s).port k = s.port k := (port_blotted i k s).trans (if_neg h)
    have hpr : ∀ u : State, presentRecording k (blotted i u) = blotted i (presentRecording k u) := by
      intro u
      have hpu : (blotted i u).port k = u.port k := (port_blotted i k u).trans (if_neg h)
      unfold presentRecording
      rw [hpu, show (blotted i u).dispatch.ended = u.dispatch.ended from rfl]
      split
      · exact onPort_blotted h _ u
      · rfl
    have hrm : ∀ q, removeTo k q (blotted i s) = blotted i (removeTo k q s) := by
      intro q
      unfold removeTo
      rw [show (blotted i s).queue k = s.queue k from rfl]
      split
      · unfold blotted
        dsimp only
        rw [set_comm_ne _ h]
      · rfl
    have hex : expireHeads k (blotted i s) = blotted i (expireHeads k s) := by
      unfold expireHeads
      dsimp only
      rw [hp, show (blotted i s).queue k = s.queue k from rfl, show (blotted i s).cal = s.cal from rfl, hrm]
      rfl
    unfold considerTakeIn
    rw [hp]
    split
    · rw [blotted_blotted]
    · dsimp only
      rw [hex, show (blotted i (expireHeads k s)).queue k = (expireHeads k s).queue k from rfl]
      generalize expireHeads k s = u
      have hpu : (blotted i u).port k = u.port k := (port_blotted i k u).trans (if_neg h)
      split
      · rw [hpr, blotted_blotted]
      · rename_i j rest _
        have hm : mayTakeIn (blotted i u) k = mayTakeIn u k := by
          unfold mayTakeIn
          rw [hpu]
          rfl
        rw [hm]
        split
        · unfold takeHead
          rw [show setQueue k (j.taken :: (((blotted i u).queue k).filter (·.inService) ++ rest)) (blotted i u) =
            blotted i (setQueue k (j.taken :: ((u.queue k).filter (·.inService) ++ rest)) u) from rfl,
            onPort_blotted h, blotted_blotted]
        · rw [hpr, blotted_blotted]

/-- Two states that differ in a closed segment's port and high-water flag alone. -/
structure SameBut (i : Seg) (s t : State) : Prop where
  same : blotted i s = blotted i t
  closed : (s.port i).health = .closed
  closed' : (t.port i).health = .closed

theorem SameBut.refl {i : Seg} {s : State} (h : (s.port i).health = .closed) : SameBut i s s := ⟨rfl, h, h⟩

theorem SameBut.considerTakeIn {i : Seg} {s t : State} (h : SameBut i s t) (k : Seg) :
    SameBut i (considerTakeIn k s) (considerTakeIn k t) where
  same := by rw [← considerTakeIn_blotted i k s h.closed, h.same, considerTakeIn_blotted i k t h.closed']
  closed := by rw [(closedLine_considerTakeIn i k s h.closed).2.1]; exact h.closed
  closed' := by rw [(closedLine_considerTakeIn i k t h.closed').2.1]; exact h.closed'

theorem SameBut.considerAll {i : Seg} {s t : State} (h : SameBut i s t) (l : List Seg) :
    SameBut i (considerAll l s) (considerAll l t) := by
  unfold Machine.considerAll
  induction l generalizing s t with
  | nil => exact h
  | cons k l ih => exact ih (h.considerTakeIn k)

theorem SameBut.post {i : Seg} {s t : State} (h : SameBut i s t) (b : NoticeBody) : SameBut i (post b s) (post b t) where
  same := by rw [← post_blotted, h.same, post_blotted]
  closed := by rw [post_eq_self]; exact h.closed
  closed' := by rw [post_eq_self]; exact h.closed'

theorem SameBut.reportEnd {i : Seg} {s t : State} (h : SameBut i s t) (m : ReportMode) (j : JobEnd) :
    SameBut i (reportEnd m j s) (reportEnd m j t) := by
  unfold Machine.reportEnd
  split
  · exact h.post _
  · exact h

theorem SameBut.removeTo {i : Seg} {s t : State} (h : SameBut i s t) (k : Seg) (q : List Job) :
    SameBut i (removeTo k q s) (removeTo k q t) where
  same := by rw [← removeTo_blotted i k q s, h.same, removeTo_blotted]
  closed := h.closed
  closed' := h.closed'

theorem SameBut.queue {i : Seg} {s t : State} (h : SameBut i s t) (k : Seg) : s.queue k = t.queue k :=
  congrArg (fun w => w.queue k) h.same

theorem SameBut.writeHeader {i : Seg} {s t : State} (h : SameBut i s t) (e : EntryIx) (hd : Header) :
    SameBut i (writeHeader e hd s) (writeHeader e hd t) where
  same := congrArg (Machine.writeHeader e hd) h.same
  closed := h.closed
  closed' := h.closed'

theorem SameBut.quarantine {i : Seg} {s t : State} (h : SameBut i s t) (e : EntryIx) (r : FaultRecord) (p : FaultPath) :
    SameBut i (quarantine e r p s) (quarantine e r p t) := by
  have h1 : SameBut i (freeGranules e (Machine.writeHeader e (bareHeader .quarantined) s))
      (freeGranules e (Machine.writeHeader e (bareHeader .quarantined) t)) :=
    ⟨congrArg (fun w => freeGranules e (Machine.writeHeader e (bareHeader .quarantined) w)) h.same, h.closed, h.closed'⟩
  unfold Machine.quarantine
  dsimp only
  generalize freeGranules e (Machine.writeHeader e (bareHeader .quarantined) s) = u at *
  generalize freeGranules e (Machine.writeHeader e (bareHeader .quarantined) t) = v at *
  have hends : ∀ sel o, endsOf sel o u = endsOf sel o v := fun sel o => by
    unfold endsOf selected
    simp only [h1.queue]
  have hlos : ∀ sel, losing sel u = losing sel v := fun sel => by
    unfold losing selected
    simp only [h1.queue]
  have h2 : ∀ sel, SameBut i (removeSelected sel u) (removeSelected sel v) := fun sel =>
    ⟨by rw [← removeSelected_blotted, h1.same, removeSelected_blotted], by
      rw [removeSelected_eq]; exact h1.closed, by rw [removeSelected_eq]; exact h1.closed'⟩
  have h3 : SameBut i (markStale (· == e) (removeSelected (fun _ j => j.entry == e) u))
      (markStale (· == e) (removeSelected (fun _ j => j.entry == e) v)) :=
    ⟨by
      have := congrArg (markStale (· == e)) (h2 (fun _ j => j.entry == e)).same
      exact this, (h2 (fun _ j => j.entry == e)).closed, (h2 (fun _ j => j.entry == e)).closed'⟩
  rw [hends, hlos]
  refine SameBut.post (SameBut.considerAll ?_ _) _
  generalize (endsOf (fun _ j => j.entry == e) JobOutcome.fault v).map JobEnd.marked = l
  generalize markStale (· == e) (removeSelected (fun _ j => j.entry == e) u) = a at *
  generalize markStale (· == e) (removeSelected (fun _ j => j.entry == e) v) = b at *
  induction l generalizing a b with
  | nil => exact h3
  | cons j l ih => exact ih _ _ (h3.reportEnd .failures j)

theorem SameBut.recordEnd {i : Seg} {s t : State} (h : SameBut i s t) (p : FaultPath) (j : JobEnd) :
    SameBut i (recordEnd p s j) (recordEnd p t j) := by
  have h1 : stateOf (blotted i s) j.entry = stateOf (blotted i t) j.entry := by rw [h.same]
  have h2 : readHeader (blotted i s) j.entry = readHeader (blotted i t) j.entry := by rw [h.same]
  change stateOf s j.entry = stateOf t j.entry at h1
  change readHeader s j.entry = readHeader t j.entry at h2
  unfold Machine.recordEnd
  rw [h1, h2]
  split
  · split
    · exact (h.quarantine ..).reportEnd ..
    · refine SameBut.reportEnd ?_ _ _
      split
      · exact h
      · exact h.writeHeader ..
  · exact h.reportEnd ..

theorem SameBut.recordAll {i : Seg} {s t : State} (h : SameBut i s t) (p : FaultPath) (l : List JobEnd) :
    SameBut i (recordAll p l s) (recordAll p l t) := by
  unfold Machine.recordAll
  induction l generalizing s t with
  | nil => exact h
  | cons j l ih => exact ih (h.recordEnd p j)

end Sys2Proof.Machine
end

