-- ==== Sys2Proof/Laws/LinkWindow.lean ====
section
/-! SUPPORT. The bounds of the Host Link Unit through each of its operations. -/

namespace Sys2Proof.Machine

/-- The Host Link Unit of a state is within its bounds. -/
def LinkWithin (s : State) : Prop := LinkBounds s.link

/-- It depends on the link alone. -/
theorem linkWithin_of {s t : State} (h : LinkWithin s) (e : t.link = s.link) : LinkWithin t := by unfold LinkWithin; rw [e]; exact h

/-- Marking a reply built keeps the SEQs. -/
theorem markBuilt_seq (l : List Request) : (markBuilt l).map (·.seq) = l.map (·.seq) := by
  induction l with
  | nil => rfl
  | cons r l ih => simp only [markBuilt]; split <;> simp [ih]

/-- And the number of requests. -/
theorem markBuilt_length (l : List Request) : (markBuilt l).length = l.length := by
  simpa using congrArg List.length (markBuilt_seq l)

/-- It adds the SEQ of the request in hand to those built. -/
theorem markBuilt_perm (l : List Request) (r : Request) (h : l.find? (fun r => !r.built) = some r) :
   (((markBuilt l).filter (·.built)).map (·.seq)).Perm (((l.filter (·.built)).map (·.seq)) ++ [r.seq]) := by
  induction l with
  | nil => simp at h
  | cons x l ih =>
    simp only [List.find?_cons] at h
    simp only [markBuilt]
    split at h
    · rename_i hb
      simp only [Option.some.injEq] at h; subst h
      simp only [Bool.not_eq_true', ] at hb
      simp only [hb, Bool.false_eq_true, if_false, List.filter_cons, if_true, List.map_cons]
      exact (List.perm_append_singleton _ _).symm
    · rename_i hb
      simp only [Bool.not_eq_false'] at hb
      simp only [hb, if_true, List.filter_cons, List.map_cons, List.cons_append]
      exact (ih h).cons _

/-- A count stays at or below its ceiling. -/
theorem countUp_le (n : Nat) : countUp n ≤ 65535 := by unfold countUp Config.countCeiling; omega

/-- The start-up values are within the bounds. -/
theorem linkBounds_start (sp : LinkSpeed) : LinkBounds (HostLink.start sp) := by
  constructor <;> simp [HostLink.start, HostLink.waitingSeqs, HostLink.repliesOut]

/-- Choosing the next frame keeps the bounds (R147). -/
theorem linkWithin_kickTx (s : State) (h : LinkWithin s) : LinkWithin (kickTx s) := by
  unfold kickTx
  split
  · exact h
  · rename_i htx
    split
    · exact h
    · split
      · rename_i r rs hr
        have := h.oneReply
        have hi := h.immediate
        unfold HostLink.waitingSeqs HostLink.repliesOut at this
        rw [htx, hr] at this
        refine ⟨h.requests, h.distinct, ?_, h.cache, h.cacheDistinct, ?_, h.discards⟩
        · simpa [HostLink.waitingSeqs, HostLink.repliesOut] using this
        · rw [hr] at hi; simp only [List.countP_cons] at hi; show List.countP _ rs ≤ 4; omega
      · split
        · split
          · have := h.oneReply
            unfold HostLink.waitingSeqs HostLink.repliesOut at this
            rw [htx] at this
            refine ⟨h.requests, h.distinct, ?_, h.cache, h.cacheDistinct, h.immediate, h.discards⟩
            simpa [HostLink.waitingSeqs, HostLink.repliesOut] using this
          · exact h
        · exact h

/-- So does answering the request in hand (R143). -/
theorem linkWithin_replyInHand (body) (s : State) (h : LinkWithin s) : LinkWithin (replyInHand body s) := by
  unfold replyInHand
  split
  · exact h
  · rename_i r hr
    refine ⟨?_, ?_, ?_, h.cache, h.cacheDistinct, ?_, h.discards⟩
    · simpa [markBuilt_length] using h.requests
    · simpa [markBuilt_seq] using h.distinct
    · refine List.Perm.trans ?_ (markBuilt_perm _ r hr).symm
      have := (h.oneReply).append_right [r.seq]
      simpa [HostLink.waitingSeqs, HostLink.repliesOut] using this
    · simpa using h.immediate

/-- Leaving out one SEQ keeps the SEQs distinct. -/
theorem nodup_filter_seq {l : List Request} (hd : (l.map (·.seq)).Nodup) (x : Byte) :
   (l.filter (fun q => q.seq != x)).map (·.seq) = (l.map (·.seq)).erase x := by
  rw [hd.erase_eq_filter, List.filter_map]; rfl

/-- So does the end of a reply, with its cache entry (R140, R145). -/
theorem linkWithin_replySent (r : Reply) (s : State) (ht : s.link.tx = some (.reply r)) (h : LinkWithin s) :
    LinkWithin (replySent r s) := by
  unfold replySent
  have h1 := h.oneReply
  unfold HostLink.waitingSeqs HostLink.repliesOut at h1
  rw [ht] at h1
  split
  · rename_i hi
    refine ⟨h.requests, h.distinct, ?_, h.cache, h.cacheDistinct, h.immediate, h.discards⟩
    simpa [HostLink.waitingSeqs, HostLink.repliesOut, idleTx, hi] using h1
  · rename_i hi
    refine ⟨?_, ?_, ?_, ?_, ?_, h.immediate, h.discards⟩
    · exact le_trans (List.length_filter_le ..) h.requests
    · exact h.distinct.sublist ((List.filter_sublist).map _)
    · simp only [Bool.not_eq_true] at hi
      simp only [List.cons_append, List.nil_append, List.filter_cons, hi, Bool.not_false, if_true, List.map_cons] at h1
      have hd : ((s.link.requests.filter (·.built)).map (·.seq)).Nodup := h.distinct.sublist ((List.filter_sublist).map _)
      have h2 := h1.erase r.seq
      rw [List.erase_cons_head] at h2
      simp only [HostLink.waitingSeqs, HostLink.repliesOut, List.nil_append]
      refine h2.trans ?_
      rw [← nodup_filter_seq hd]
      rw [List.filter_comm]
    · show (cacheReply r s.link.cache).length ≤ 4
      unfold cacheReply Config.cacheCapacity
      have := h.cache
      have := List.length_filter_le (fun c : CacheEntry => c.seq != r.seq) s.link.cache
      dsimp only
      split <;> simp <;> omega
    · show ((cacheReply r s.link.cache).map (·.seq)).Nodup
      unfold cacheReply
      have hc : ((s.link.cache.filter (fun c => c.seq != r.seq)).map (·.seq)).Nodup := h.cacheDistinct.sublist ((List.filter_sublist).map _)
      have hn : r.seq ∉ (s.link.cache.filter (fun c => c.seq != r.seq)).map (·.seq) := by simp
      have key : ∀ l : List CacheEntry, l.Sublist (s.link.cache.filter (fun c => c.seq != r.seq)) → ((l ++ [(⟨r.seq, r.kind, r.body⟩ : CacheEntry)]).map (fun c => CacheEntry.seq c)).Nodup := by
        intro l hl
        rw [List.map_append, List.map_cons, List.map_nil, List.nodup_append]
        refine ⟨hc.sublist (hl.map _), by simp, ?_⟩
        intro a ha b hb
        simp only [List.mem_singleton] at hb
        subst hb
        rintro rfl
        exact hn ((hl.map _).subset ha)
      dsimp only
      split
      · exact key _ (List.Sublist.refl _)
      · exact key _ (List.drop_sublist _ _)

/-- So does an immediate answer (R141). -/
theorem linkWithin_answerAtOnce (r : Reply) (hr : r.immediate = true) (s : State) (h : LinkWithin s) : LinkWithin
    (answerAtOnce r s) := by
  unfold answerAtOnce Config.immediateCapacity
  split
  · exact ⟨h.requests, h.distinct, h.oneReply, h.cache, h.cacheDistinct, h.immediate, countUp_le _⟩
  · rename_i hl
    refine ⟨h.requests, h.distinct, ?_, h.cache, h.cacheDistinct, ?_, h.discards⟩
    · have := h.oneReply
      simpa [HostLink.waitingSeqs, HostLink.repliesOut, hr] using this
    · simp [hr]; omega

/-- So does PART-RESET, which answers every request (R183). -/
theorem linkWithin_beginReset (r s) (hr : inHand s = some r) (h : LinkWithin s) : LinkWithin (beginReset r s) := by
  refine ⟨?_, ?_, ?_, h.cache, h.cacheDistinct, ?_, h.discards⟩
  · simpa [beginReset] using h.requests
  · have := h.distinct
    simpa [beginReset, Function.comp_def] using this
  · have h1 := h.oneReply
    unfold HostLink.waitingSeqs HostLink.repliesOut at h1
    have h2 : (beginReset r s).link.waitingSeqs = s.link.waitingSeqs ++ ((behindInHand s.link.requests).map (·.seq) ++ [r.seq]) := by
      simp [beginReset, HostLink.waitingSeqs, HostLink.repliesOut, resetReplies, List.filter_append, List.filter_map, Function.comp_def]
    rw [h2]
    have h3 : s.link.requests.filter (fun r => !r.built) = r :: behindInHand s.link.requests := by
      unfold behindInHand inHand at *
      rw [← List.head?_filter] at hr
      generalize s.link.requests.filter (fun r => !r.built) = l at *
      cases l with
      | nil => simp at hr
      | cons x l => simp at hr; subst hr; simp
    have h4 : ((beginReset r s).link.requests.filter (·.built)).map (·.seq) = s.link.requests.map (·.seq) := by
      simp only [beginReset]
      rw [List.filter_eq_self.mpr (by simp)]
      simp [Function.comp_def]
    rw [h4]
    have h5 : (s.link.requests.map (·.seq)).Perm (((s.link.requests.filter (·.built)).map (·.seq)) ++ (s.link.requests.filter (fun r => !r.built)).map (·.seq)) := by
      rw [← List.map_append]
      exact (List.filter_append_perm (fun r : Request => r.built) s.link.requests).symm.map _
    refine List.Perm.trans ?_ h5.symm
    rw [h3]
    refine h.oneReply.append ?_
    simpa using (List.perm_append_singleton r.seq ((behindInHand s.link.requests).map (·.seq)))
  · have := h.immediate
    simpa [beginReset, resetReplies, List.countP_map, Function.comp_def] using this

end Sys2Proof.Machine
end

