-- ==== Sys2Proof/Laws/MapRuns.lean ====
section
/-! SUPPORT. Searches of the allocation map (R32, R42), the map and the headers together, and the arbiter's order. -/

namespace Sys2Proof.Machine

/-- The run that first fit finds lies in the heap. -/
theorem firstFit_bound (n : Nat) (l : List (Option EntryIx)) (pos start len r : Nat)
    (hs : start + len = pos ∨ len = 0) (h : firstFit n pos start len l = some r) (hn : 1 ≤ n) : r + n ≤ pos +
        l.length := by
  induction l generalizing pos start len with
  | nil => simp [firstFit] at h
  | cons x l ih =>
    cases x with
    | none =>
      simp only [firstFit] at h
      split at h
      · simp only [Option.some.injEq] at h
        simp only [List.length_cons]
        split at h <;> omega
      · have := ih (pos+1) _ (len+1) (by split <;> omega) h
        simp only [List.length_cons]; omega
    | some e =>
      simp only [firstFit] at h
      have := ih (pos+1) (pos+1) 0 (by omega) h
      simp only [List.length_cons]; omega

/-- The top run begins in the heap. -/
theorem topStart_bound (l : List (Option EntryIx)) (pos best : Nat) (h : best ≤ pos) : topStart pos best l ≤ pos +
    l.length := by
  induction l generalizing pos best with
  | nil => simpa [topStart] using h
  | cons x l ih =>
    cases x with
    | none => simp only [topStart, List.length_cons]; have := ih (pos+1) best (by omega); omega
    | some e => simp only [topStart, List.length_cons]; have := ih (pos+1) (pos+1) (by omega); omega

/-- The run allocated lies in the heap. -/
theorem allocate_bound {c : StoreControl} {n r : Nat} (hn : 1 ≤ n) (h : allocate c n = some r) : r + n ≤ 2048 := by
  unfold allocate at h
  split at h
  · split at h
    · rename_i ht
      simp only [Option.some.injEq] at h
      unfold topRun at ht
      have := topStart_bound c.map.toList 0 0 (by omega)
      simp at this
      omega
    · cases h
  · have := firstFit_bound n _ 0 0 0 r (by omega) h hn
    simpa using this

/-- The record found starts at or above the frontier. -/
theorem lowestFrom_ge (f : Nat) (l : List (Option EntryIx)) (pos g : Nat) (e : EntryIx) (h : lowestFrom f pos l =
    some (g, e)) : f ≤ g := by
  induction l generalizing pos with
  | nil => simp [lowestFrom] at h
  | cons x l ih =>
    cases x with
    | none => exact ih _ (by simpa [lowestFrom] using h)
    | some e' =>
      simp only [lowestFrom] at h
      split at h
      · simp at h; omega
      · exact ih _ h

/-- First fit: below its answer, or everywhere where it has none, each run of n granules has one that is allocated
(R32). -/
theorem firstFit_spec (n : Nat) (hn : 1 ≤ n) : ∀ (l : List (Option EntryIx)) (pos start len : Nat), (len = 0 ∨ start
    + len = pos) → len < n →
   (∀ r, firstFit n pos start len l = some r → (∀ k, (if len = 0 then pos else start) ≤ k → k < r → ∃ g, k ≤ g ∧ g <
       k + n ∧ pos ≤ g ∧ ∃ hg : g - pos < l.length, l[g-pos] ≠ none)) ∧
   (firstFit n pos start len l = none → (∀ k, (if len = 0 then pos else start) ≤ k → k + n ≤ pos + l.length → ∃ g, k
       ≤ g ∧ g < k + n ∧ pos ≤ g ∧ ∃ hg : g - pos < l.length, l[g-pos] ≠ none)) := by
  intro l
  induction l with
  | nil =>
    intro pos start len h hlen
    refine ⟨by simp [firstFit], ?_⟩
    intro _ k hk hkn
    simp at hkn
    split at hk <;> omega
  | cons x l ih =>
    intro pos start len h hlen
    cases x with
    | none =>
      simp only [firstFit]
      split
      · refine ⟨?_, by simp⟩
        intro r hr k hk hkr
        simp at hr
        omega
      · rename_i hc
        have := ih (pos+1) (if len = 0 then pos else start) (len+1) (by right; split <;> omega) (by omega)
        simp only [Nat.add_eq_zero_iff, one_ne_zero, and_false, if_false] at this
        refine ⟨?_, ?_⟩
        · intro r hr k hk hkr
          obtain ⟨g, h1, h2, h3, h4, h5⟩ := this.1 r hr k hk hkr
          refine ⟨g, h1, h2, by omega, by simp only [List.length_cons]; omega, ?_⟩
          have he : g - pos = (g - (pos+1)) + 1 := by omega
          simp only [he, List.getElem_cons_succ]; exact h5
        · intro hr k hk hkr
          obtain ⟨g, h1, h2, h3, h4, h5⟩ := this.2 hr k hk (by simp at hkr; omega)
          refine ⟨g, h1, h2, by omega, by simp only [List.length_cons]; omega, ?_⟩
          have he : g - pos = (g - (pos+1)) + 1 := by omega
          simp only [he, List.getElem_cons_succ]; exact h5
    | some e =>
      simp only [firstFit]
      have := ih (pos+1) (pos+1) 0 (by simp) (by omega)
      simp only [if_true] at this
      have base : ∀ k, (if len = 0 then pos else start) ≤ k → k ≤ pos → ∃ g, k ≤ g ∧ g < k + n ∧ pos ≤ g ∧ ∃ hg : g - pos < (some e :: l).length, (some e :: l)[g-pos] ≠ none := by
        intro k h1 h2
        refine ⟨pos, h2, by split at h1 <;> omega, by omega, by simp, by simp⟩
      refine ⟨?_, ?_⟩
      · intro r hr k hk hkr
        by_cases hkp : k ≤ pos
        · exact base k hk hkp
        · obtain ⟨g, h1, h2, h3, h4, h5⟩ := this.1 r hr k (by omega) hkr
          refine ⟨g, h1, h2, by omega, by simp only [List.length_cons]; omega, ?_⟩
          have he : g - pos = (g - (pos+1)) + 1 := by omega
          simp only [he, List.getElem_cons_succ]; exact h5
      · intro hr k hk hkr
        by_cases hkp : k ≤ pos
        · exact base k hk hkp
        · obtain ⟨g, h1, h2, h3, h4, h5⟩ := this.2 hr k (by omega) (by simp at hkr; omega)
          refine ⟨g, h1, h2, by omega, by simp only [List.length_cons]; omega, ?_⟩
          have he : g - pos = (g - (pos+1)) + 1 := by omega
          simp only [he, List.getElem_cons_succ]; exact h5

/-- The size of the largest FREE run: a run of that size stands in the list, or ends where the list begins, and no run is
longer (R37, R45). `cur` is the FREE run that ends just before the list, `best` the largest before. -/
theorem largestRun_spec : ∀ (l : List (Option EntryIx)) (cur best : Nat),
    (largestRun cur best l = best ∨
      (∃ k, k + largestRun cur best l ≤ l.length ∧
        ∀ g (hg : g < l.length), k ≤ g → g < k + largestRun cur best l → l[g] = none) ∨
      ∃ n ≤ l.length, largestRun cur best l = cur + n ∧ ∀ g (hg : g < l.length), g < n → l[g] = none) ∧
    best ≤ largestRun cur best l ∧
    (∀ n, n ≤ l.length → (∀ g (hg : g < l.length), g < n → l[g] = none) → cur + n ≤ largestRun cur best l) ∧
    ∀ k n, k + n ≤ l.length → (∀ g (hg : g < l.length), k ≤ g → g < k + n → l[g] = none) →
      n ≤ largestRun cur best l := by
  intro l
  induction l with
  | nil =>
    intro cur best
    simp only [largestRun, List.length_nil]
    refine ⟨?_, le_max_right _ _, fun n hn _ => by omega, fun k n hn _ => by omega⟩
    rcases le_total cur best with h | h
    · left
      omega
    · right
      right
      exact ⟨0, le_refl _, by omega, fun g hg => absurd hg (by simp)⟩
  | cons x l ih =>
    intro cur best
    cases x with
    | none =>
      simp only [largestRun]
      obtain ⟨h1, h2, h3, h4⟩ := ih (cur + 1) best
      have hp : ∀ n, n ≤ (none :: l : List (Option EntryIx)).length →
          (∀ g (hg : g < (none :: l : List (Option EntryIx)).length), g < n →
            (none :: l : List (Option EntryIx))[g] = none) → cur + n ≤ largestRun (cur + 1) best l := by
        intro n hn hg
        cases n with
        | zero =>
          have := h3 0 (by omega) (fun g _ hg => absurd hg (by omega))
          omega
        | succ n =>
          have := h3 n (by simpa using hn) (fun g hg' hgn => by
            have := hg (g + 1) (by simpa using hg') (by omega)
            simpa using this)
          omega
      refine ⟨?_, h2, hp, ?_⟩
      · rcases h1 with h1 | ⟨k, hk, hg⟩ | ⟨n, hn, he, hg⟩
        · exact Or.inl h1
        · refine Or.inr (Or.inl ⟨k + 1, by simp only [List.length_cons]; omega, ?_⟩)
          intro g hg' h5 h6
          cases g with
          | zero => omega
          | succ g => exact hg g (by simpa using hg') (by omega) (by omega)
        · refine Or.inr (Or.inr ⟨n + 1, by simp only [List.length_cons]; omega, by omega, ?_⟩)
          intro g hg' h5
          cases g with
          | zero => rfl
          | succ g => exact hg g (by simpa using hg') (by omega)
      · intro k n hn hg
        cases k with
        | zero =>
          have := hp n (by omega) (fun g hg' hgn => hg g hg' (by omega) (by omega))
          omega
        | succ k =>
          exact h4 k n (by simp only [List.length_cons] at hn; omega) (fun g hg' h5 h6 => by
            have := hg (g + 1) (by simpa using hg') (by omega) (by omega)
            simpa using this)
    | some e =>
      simp only [largestRun]
      obtain ⟨h1, h2, h3, h4⟩ := ih 0 (max cur best)
      refine ⟨?_, by omega, ?_, ?_⟩
      · rcases h1 with h1 | ⟨k, hk, hg⟩ | ⟨n, hn, he, hg⟩
        · rcases le_total cur best with h | h
          · left
            omega
          · right
            right
            exact ⟨0, by omega, by omega, fun g _ hg => absurd hg (by omega)⟩
        · refine Or.inr (Or.inl ⟨k + 1, by simp only [List.length_cons]; omega, ?_⟩)
          intro g hg' h5 h6
          cases g with
          | zero => omega
          | succ g => exact hg g (by simpa using hg') (by omega) (by omega)
        · refine Or.inr (Or.inl ⟨1, by simp only [List.length_cons]; omega, ?_⟩)
          intro g hg' h5 h6
          cases g with
          | zero => omega
          | succ g => exact hg g (by simpa using hg') (by omega)
      · intro n hn hg
        cases n with
        | zero => omega
        | succ n =>
          have := hg 0 (by simp) (by omega)
          simp at this
      · intro k n hn hg
        cases k with
        | zero =>
          cases n with
          | zero => omega
          | succ n =>
            have := hg 0 (by simp) (by omega) (by omega)
            simp at this
        | succ k =>
          exact h4 k n (by simp only [List.length_cons] at hn; omega) (fun g hg' h5 h6 => by
            have := hg (g + 1) (by simpa using hg') (by omega) (by omega)
            simpa using this)

/-- The top run starts after the highest allocated granule (R32). -/
theorem topStart_spec (l : List (Option EntryIx)) : ∀ pos best top, best ≤ pos → (best ≤ top) → top ≤ pos + l.length
    → (∀ k (hk : k < l.length), top ≤ pos + k → l[k] = none) →
   (top = best ∨ ∃ k, ∃ hk : k < l.length, pos + k + 1 = top ∧ l[k] ≠ none) → topStart pos best l = top := by
  induction l with
  | nil =>
    intro pos best top _ _ _ _ h
    rcases h with h | ⟨k, hk, _⟩
    · simp [topStart, h]
    · simp at hk
  | cons x l ih =>
    intro pos best top hb hbt ht hn h
    have hn' : ∀ k (hk : k < l.length), top ≤ pos + 1 + k → l[k] = none := fun k hk h1 => by
      have := hn (k+1) (by simpa using hk) (by omega); simpa using this
    cases x with
    | none =>
      simp only [topStart]
      apply ih (pos+1) best top (by omega) hbt (by simp at ht; omega) hn'
      rcases h with h | ⟨k, hk, h1, h2⟩
      · exact Or.inl h
      · cases k with
        | zero => simp at h2
        | succ k => exact Or.inr ⟨k, by simpa using hk, by omega, by simpa using h2⟩
    | some e =>
      simp only [topStart]
      have htop : pos < top := by
        by_contra hc
        have := hn 0 (by simp) (by omega)
        simp at this
      apply ih (pos+1) (pos+1) top (by omega) (by omega) (by simp at ht; omega) hn'
      rcases h with h | ⟨k, hk, h1, h2⟩
      · omega
      · cases k with
        | zero => left; omega
        | succ k => exact Or.inr ⟨k, by simpa using hk, by omega, by simpa using h2⟩

/-- An element of the map, by its place. -/
theorem map_toList_get (m : Vector (Option EntryIx) 2048) (k : Nat) (hk : k < m.toList.length) : m.toList[k] = m.get
    ⟨k, by simpa using hk⟩ := by
  simp [Vector.get_eq_getElem]

/-- No record is found where no granule at or above the frontier is allocated (R43). -/
theorem lowestFrom_none {f : Nat} {l : List (Option EntryIx)} : ∀ pos, (∀ k (hk : k < l.length), f ≤ pos + k → l[k] =
    none) → lowestFrom f pos l = none := by
  induction l with
  | nil => intro _ _; rfl
  | cons x l ih =>
    intro pos h
    have hi := ih (pos+1) (fun k hk hf => by
      have := h (k+1) (by simpa using hk) (by omega); simpa using this)
    cases x with
    | none => simpa [lowestFrom] using hi
    | some e =>
      simp only [lowestFrom]
      rw [if_neg, hi]
      intro hf
      have := h 0 (by simp) (by omega)
      simp at this

/-- The first allocated granule at or above the frontier is found (R42). -/
theorem lowestFrom_some {f : Nat} {l : List (Option EntryIx)} {e : EntryIx} : ∀ pos g (hg : g < l.length), l[g] =
    some e → f ≤ pos + g → (∀ k (hk : k < l.length), f ≤ pos + k → k < g → l[k] = none) → lowestFrom f pos l = some
    (pos + g, e) := by
  induction l with
  | nil => intro pos g hg; simp at hg
  | cons x l ih =>
    intro pos g hg he hf h
    cases g with
    | zero =>
      simp at he; subst he
      simp only [lowestFrom]; rw [if_pos (by omega)]; rfl
    | succ g =>
      have hi := ih (pos+1) g (by simpa using hg) (by simpa using he) (by omega) (fun k hk hf hkg => by
        have := h (k+1) (by simpa using hk) (by omega) (by omega); simpa using this)
      have hp : pos + 1 + g = pos + (g+1) := by omega
      rw [hp] at hi
      cases x with
      | none => simpa [lowestFrom] using hi
      | some e' =>
        simp only [lowestFrom]
        rw [if_neg, hi]
        intro hf'
        have := h 0 (by simp) (by omega) (by omega)
        simp at this

/-- The same on the map of a state. -/
theorem lowestFrom_map {s : State} {e : EntryIx} {g : Fin 2048} (hm : s.ctl.map.get g = some e) (hf : s.ctl.frontier
    ≤ g.val)
   (hno : ∀ k : Fin 2048, s.ctl.frontier ≤ k.val → k.val < g.val → s.ctl.map.get k = none) : lowestFrom
       s.ctl.frontier 0 s.ctl.map.toList = some (g.val, e) := by
  have := lowestFrom_some (l := s.ctl.map.toList) (f := s.ctl.frontier) (e := e) 0 g.val (by simp) (by rw [map_toList_get]; exact hm) (by omega) (fun k hk h1 h2 => by
    rw [map_toList_get]; exact hno ⟨k, by simpa using hk⟩ (by simpa using h1) h2)
  simpa using this

/-- Where no record starts at or above the frontier, a compaction step finds none (R42, R43). -/
theorem nextRecord_none {c : StoreControl}
    (h : ∀ g : Fin 2048, c.frontier ≤ g.val →
      c.map.get g = none ∨ ∃ k : Fin 2048, k.val + 1 = g.val ∧ c.map.get k = c.map.get g) : nextRecord c = none := by
  unfold nextRecord
  split
  · rfl
  · rename_i ha
    apply lowestFrom_none
    intro k hk hf
    rw [map_toList_get]
    simp only [Nat.zero_add] at hf
    have hk' : k < 2048 := by simpa using hk
    show c.map.get ⟨k, hk'⟩ = none
    clear hk
    induction k with
    | zero =>
      rcases h ⟨0, hk'⟩ hf with h0 | ⟨j, hj, _⟩
      · exact h0
      · simp at hj
    | succ n ih =>
      rcases h ⟨n + 1, hk'⟩ hf with h0 | ⟨j, hj, he⟩
      · exact h0
      · rw [show j = ⟨n, by omega⟩ from Fin.ext (by simpa using hj)] at he
        rcases Nat.lt_or_ge n c.frontier with hlt | hge
        · have hfr : c.frontier = n + 1 := by omega
          rw [← he]
          by_contra hne
          apply ha
          obtain ⟨a, hx⟩ := Option.ne_none_iff_exists'.mp hne
          unfold acrossFrontier
          rw [hfr]
          have h1 : c.map.toList[n]? = some (some a) := by
            rw [List.getElem?_eq_getElem (by simp; omega), map_toList_get, hx]
          have h2 : c.map.toList[n + 1]? = some (some a) := by
            rw [List.getElem?_eq_getElem (by simpa using hk'), map_toList_get, ← he, hx]
          simp [h1, h2]
        · rw [← he]
          exact ih hge (by omega)

/-- A record that starts at or above the frontier, with every granule between FREE, is the one found (R42). -/
theorem nextRecord_start {s : State} {e : EntryIx} {g : Fin 2048} (hm : s.ctl.map.get g = some e)
    (hf : s.ctl.frontier ≤ g.val)
    (hno : ∀ k : Fin 2048, s.ctl.frontier ≤ k.val → k.val < g.val → s.ctl.map.get k = none)
    (hs : ∀ k : Fin 2048, k.val + 1 = g.val → s.ctl.map.get k ≠ some e) : nextRecord s.ctl = some (g.val, e) := by
  unfold nextRecord
  rw [if_neg, lowestFrom_map hm hf hno]
  unfold acrossFrontier
  cases hfr : s.ctl.frontier with
  | zero => simp
  | succ f =>
    have h1 : s.ctl.map.toList[f]? = some (s.ctl.map.get ⟨f, by omega⟩) := by
      rw [List.getElem?_eq_getElem (by simp; omega), map_toList_get]
    have h2 : s.ctl.map.toList[f + 1]? = some (s.ctl.map.get ⟨f + 1, by omega⟩) := by
      rw [List.getElem?_eq_getElem (by simp; omega), map_toList_get]
    simp only [h1, h2]
    by_cases hg : f + 1 = g.val
    · have : (⟨f + 1, by omega⟩ : Fin 2048) = g := Fin.ext hg
      rw [this, hm]
      have := hs ⟨f, by omega⟩ hg
      cases hx : s.ctl.map.get ⟨f, by omega⟩ with
      | none => simp
      | some a =>
        simp only [beq_iff_eq]
        rintro rfl
        exact this hx
    · have := hno ⟨f + 1, by omega⟩ (by simp [hfr]) (by simp; omega)
      rw [this]
      cases s.ctl.map.get ⟨f, by omega⟩ <;> simp

/-- A header without a body reference, with its granules freed, keeps the agreement (R30). -/
theorem mapAgrees_clear {s : State} (h : MapAgrees s) (e hd) (hb : hd.body = none) : MapAgrees (freeGranules e
    (writeHeader e hd s)) := by
  intro k
  have hk := h k
  have hh : ((freeGranules e (writeHeader e hd s)).store.headers.get k).header.body = if k = e then none else (s.store.headers.get k).header.body := by
    change ((writeHeader e hd s).store.headers.get k).header.body = _
    rw [header_writeHeader]; split <;> simp [freshHeader, hb]
  rw [hh]
  have hm : ∀ g, (freeGranules e (writeHeader e hd s)).ctl.map.get g = if s.ctl.map.get g = some e then none else s.ctl.map.get g := fun g => get_freeInMap _ _ _
  by_cases hke : k = e
  · subst hke
    simp only [if_true]
    refine ⟨by simp, fun g => ?_⟩
    rw [hm]; split <;> simp_all
  · simp only [hke, if_false]
    refine ⟨hk.1, fun g => ?_⟩
    rw [hm]
    split
    · rename_i h1
      have := hk.2 g
      rw [h1] at this
      rw [← this]
      simp [Ne.symm hke]
    · exact hk.2 g

/-- A header whose new run replaces its old one in the map keeps the agreement (R38, R42). -/
theorem mapAgrees_give {s : State} (h : MapAgrees s) (e : EntryIx) (hd : Header) (start len : Nat) (t : State)
   (hin : (⟨start, len⟩ : BodyRef).inHeap = true)
   (ht : t.store.headers = (writeHeader e { hd with body := some ⟨start, len⟩ } s).store.headers)
   (hmap : t.ctl.map = giveInMap e start (granulesFor len) (freeInMap e s.ctl.map))
   (hrun : ∀ g : Fin 2048, start ≤ g.val → g.val < start + granulesFor len → s.ctl.map.get g = none ∨ s.ctl.map.get g = some e) :
   MapAgrees t := by
  intro k
  have hk := h k
  have hh : (t.store.headers.get k).header.body = if k = e then some ⟨start, len⟩ else (s.store.headers.get k).header.body := by
    rw [ht, header_writeHeader]; split <;> simp [freshHeader]
  rw [hh, hmap]
  by_cases hke : k = e
  · subst hke
    simp only [if_true]
    refine ⟨by simp [hin], fun g => ?_⟩
    rw [get_giveInMap, get_freeInMap]
    split
    · simp_all
    · rename_i hn
      have hne : ¬ ∃ r, some (⟨start, len⟩ : BodyRef) = some r ∧ r.first ≤ g.val ∧ g.val < r.first + granulesFor r.length := by
        rintro ⟨r, hr, h2⟩
        cases hr
        exact hn h2
      split
      · simp only [reduceCtorEq, false_iff]; exact hne
      · rename_i h3
        simp only [h3, false_iff]; exact hne
  · simp only [hke, if_false]
    refine ⟨hk.1, fun g => ?_⟩
    rw [get_giveInMap, get_freeInMap, ← hk.2 g]
    split
    · rename_i hg
      have := hrun g hg.1 hg.2
      simp only [Option.some.injEq, Ne.symm hke, false_iff]
      rcases this with h1 | h1 <;> rw [h1] <;> simp [Ne.symm hke]
    · split
      · rename_i h1; rw [h1]; simp [Ne.symm hke]
      · exact Iff.rfl

theorem initialOrder_nodup : initialOrder.Nodup := by decide

theorem mem_initialOrder (r : Requester) : r ∈ initialOrder := by
  cases r with
  | fetch i => revert i; decide
  | _ => decide

/-- A grant keeps the order a permutation (R27). -/
theorem perm_grant {l : List Requester} (h : l.Perm initialOrder) (r : Requester) :
    (l.filter (· != r) ++ [r]).Perm initialOrder := by
  refine List.Perm.trans ?_ h
  have hn : l.Nodup := h.nodup_iff.mpr initialOrder_nodup
  have hm : r ∈ l := h.mem_iff.mpr (mem_initialOrder r)
  have h1 : l.filter (· != r) = l.erase r := (hn.erase_eq_filter r).symm
  rw [h1]
  exact (List.perm_append_singleton _ _).trans (List.perm_cons_erase hm).symm

/-- The compactor is granted only while it runs (R41). -/
theorem compacting_of_granted {s : State} (h : granted s .compactor = true) : s.ctl.compacting = true := by
  unfold granted at h
  rw [Bool.and_eq_true, beq_iff_eq] at h
  have := List.find?_some h.2
  exact this

/-- A granted compaction step. -/
theorem exec_compactionStep {s : State} (h : granted s .compactor = true) : exec .compactionStep s = .next (kickTx
    (compactStep (grant .compactor s))) := by
  unfold exec; dsimp only
  unfold execCompactionStep
  rw [if_pos]; simp [compacting_of_granted h, h]

end Sys2Proof.Machine
end

