-- ==== Sys2Proof/Laws/NoticeMarks.lean ====
section
/-! SUPPORT. The Notice Unit's window through each of its operations. -/

namespace Sys2Proof.Machine

/-- It depends on the notices and the host-absent flag alone. -/
theorem noticesSound_of {s t : State} (h : NoticesSound s) (e1 : t.notices = s.notices) (e2 : t.link.hostAbsent =
    s.link.hostAbsent) : NoticesSound t := by
  unfold NoticesSound; rw [e1, e2]; exact h

/-- Making a notice keeps the window (R158). -/
theorem noticeWindow_make (b) (s : State) (hl : s.notices.queue.length < 32) (hg : s.notices.gapCount = 0) (h :
    NoticeWindow s.notices) : NoticeWindow (makeNotice b s).notices := by
  refine ⟨?_, ?_, ?_, ?_, ?_, h.resends, h.lost, ?_, h.timer⟩
  · simp [makeNotice]; omega
  · intro k hk
    simp only [makeNotice, List.length_append, List.length_cons, List.length_nil, Nat.zero_add] at hk ⊢
    rw [List.getElem_append]
    split
    · rename_i hk'
      rw [h.serials k hk']
      rw [show s.notices.queue.length + 1 - k = (s.notices.queue.length - k) + 1 by omega, BitVec.ofNat_add]
      simp only [BitVec.ofNat_eq_ofNat]
      bv_omega
    · rename_i hk'
      have : k = s.notices.queue.length := by omega
      subst this
      simp
  · have := h.inFlight
    simpa [makeNotice, NoticeUnit.inFlight, List.filter_append] using this
  · show (s.notices.queue ++ _).Pairwise _
    rw [List.pairwise_append]
    refine ⟨h.older, by simp, ?_⟩
    intro a _ b hb
    simp at hb; subst hb; simp
  · intro q hq
    simp only [makeNotice, List.mem_append, List.mem_singleton] at hq
    rcases hq with hq | rfl
    · exact h.marks q hq
    · simp
  · intro hne; exact absurd hg hne

/-- So does posting one. -/
theorem noticeWindow_post (b) (s : State) (h : NoticeWindow s.notices) : NoticeWindow (post b s).notices := by
  unfold post Config.noticeCapacity
  split
  · exact h
  · split
    · rename_i hl
      refine ⟨h.capacity, h.serials, h.inFlight, h.older, h.marks, h.resends, ?_, ?_, h.timer⟩
      · show countUp _ ≤ _; unfold countUp Config.countCeiling; omega
      · intro _; have := h.capacity; show s.notices.queue.length = 32; omega
    · rename_i hl
      refine noticeWindow_make b s (by omega) ?_ h
      by_contra hne
      have := h.full hne
      omega

/-- The serials in the queue are distinct. -/
theorem serial_injective {n : NoticeUnit} (h : NoticeWindow n) {j k : Nat} (hj : j < n.queue.length) (hk : k <
    n.queue.length)
   (he : n.queue[j].notice.serial = n.queue[k].notice.serial) : j = k := by
  rw [h.serials j hj, h.serials k hk] at he
  have := h.capacity
  have h1 : BitVec.ofNat 16 (n.queue.length - j) = BitVec.ofNat 16 (n.queue.length - k) := by bv_omega
  have h2 := congrArg BitVec.toNat h1
  simp only [BitVec.toNat_ofNat] at h2
  omega

/-- A change of marks keeps the serials. -/
theorem serials_map {n : NoticeUnit} (h : NoticeWindow n) (f : QueuedNotice → QueuedNotice) (hf : ∀ q, (f q).notice =
    q.notice) :
  ∀ k (hk : k < (n.queue.map f).length), ((n.queue.map f)[k]).notice.serial = n.nextSerial - BitVec.ofNat 16
      ((n.queue.map f).length - k) := by
  intro k hk
  simp only [List.length_map] at hk ⊢
  simp only [List.getElem_map, hf]
  exact h.serials k hk

/-- Marking for resending keeps the window (R163). -/
theorem noticeWindow_markAll {n : NoticeUnit} (h : NoticeWindow n) : NoticeWindow n.markAll := by
  have hf : ∀ q : QueuedNotice, (if q.inFlight then { q with resend := true } else q).inFlight = q.inFlight := by intro q; split <;> rfl
  refine ⟨by simpa [NoticeUnit.markAll] using h.capacity, ?_, ?_, ?_, ?_, h.resends, h.lost, by simpa [NoticeUnit.markAll] using h.full, h.timer⟩
  · exact serials_map h _ (by intro q; split <;> rfl)
  · have := h.inFlight
    unfold NoticeUnit.inFlight at *
    simp only [NoticeUnit.markAll, List.filter_map, List.length_map, Function.comp_def, hf]
    exact this
  · show (List.map _ _).Pairwise _
    rw [List.pairwise_map]
    simp only [hf]
    exact h.older
  · intro q hq
    simp only [NoticeUnit.markAll, List.mem_map] at hq
    obtain ⟨p, hp, rfl⟩ := hq
    split
    · simp_all
    · exact h.marks p hp

/-- So does sending a marked notice again (R160). -/
theorem noticeWindow_begun_again {n : NoticeUnit} (h : NoticeWindow n) {q : QueuedNotice} (hq : q ∈ n.queue)
   (hold : ∀ a ∈ n.queue, a.notice.serial ≠ q.notice.serial → True)
   (hpre : q.inFlight = true ∨ (n.inFlight.length < 8 ∧ n.queue.find? (fun q => !q.inFlight) = some q)) :
       NoticeWindow (n.begun q.notice.serial) := by
  obtain ⟨i, hi, rfl⟩ := List.getElem_of_mem hq
  have hlen : (n.begun (n.queue[i]).notice.serial).queue.length = n.queue.length := by simp [NoticeUnit.begun]
  have hget : ∀ k (hk : k < n.queue.length), (n.begun (n.queue[i]).notice.serial).queue[k]'(by rw [hlen]; exact hk) = if k = i then { n.queue[k] with inFlight := true, resend := false } else n.queue[k] := by
    intro k hk
    simp only [NoticeUnit.begun, List.getElem_map]
    by_cases hki : k = i
    · subst hki; simp
    · rw [if_neg hki, if_neg]
      intro he; exact hki (serial_injective h hk hi he)
  have heq : (n.begun (n.queue[i]).notice.serial).queue = n.queue.set i { n.queue[i] with inFlight := true, resend := false } := by
    apply List.ext_getElem (by simp [hlen])
    intro k h1 h2
    rw [hget k (by rw [← hlen]; exact h1), List.getElem_set]
    by_cases hki : k = i
    · subst hki; simp
    · simp [hki, Ne.symm hki]
  refine ⟨by rw [hlen]; exact h.capacity, ?_, ?_, ?_, ?_, h.resends, h.lost, fun hne => by rw [hlen]; exact h.full hne, h.timer⟩
  · exact serials_map h _ (by intro q; split <;> rfl)
  · rcases hpre with hp | ⟨hp, hf⟩
    · have : (n.begun (n.queue[i]).notice.serial).inFlight.length = n.inFlight.length := by
        unfold NoticeUnit.inFlight
        rw [heq, ← List.countP_eq_length_filter, ← List.countP_eq_length_filter, List.countP_set hi]
        simp [hp]
        have : 0 < n.queue.countP (·.inFlight) := List.countP_pos_iff.mpr ⟨_, hq, hp⟩
        omega
      rw [this]; exact h.inFlight
    · unfold NoticeUnit.inFlight at *
      rw [heq, ← List.countP_eq_length_filter, List.countP_set hi]
      rw [← List.countP_eq_length_filter] at hp
      simp; omega
  · rw [List.pairwise_iff_getElem]
    intro a b ha hb hab hb2
    rw [hget a (by rw [← hlen]; exact ha)]
    rw [hget b (by rw [← hlen]; exact hb)] at hb2
    have hold := (List.pairwise_iff_getElem.mp h.older) a b (by rw [← hlen]; exact ha) (by rw [← hlen]; exact hb) hab
    split
    · rfl
    · split at hb2
      · rename_i hbi; subst hbi
        rcases hpre with hp | ⟨_, hf⟩
        · exact hold hp
        · rw [List.find?_eq_some_iff_getElem] at hf
          obtain ⟨_, j, hj, hjq, hall⟩ := hf
          have hji : j = b := by
            apply serial_injective h hj hi
            rw [hjq]
          have := hall a (by omega)
          simpa using this
      · exact hold hb2
  · intro q hq2
    rw [heq] at hq2
    rcases List.mem_or_eq_of_mem_set hq2 with hq2 | rfl
    · exact h.marks q hq2
    · simp

/-- Choosing the next frame keeps the notices sound (R147, R160). -/
theorem noticesSound_kickTx (s : State) (h : NoticesSound s) : NoticesSound (kickTx s) := by
  unfold kickTx
  split
  · exact h
  · split
    · exact h
    · split
      · exact h
      · split
        · split
          · rename_i n hn
            refine ⟨?_, h.2⟩
            show NoticeWindow (s.notices.begun n.serial)
            unfold NoticeUnit.offer at hn
            split at hn
            · cases hn
            · split at hn
              · rename_i q hq
                cases hn
                have := List.find?_some hq
                simp only [Bool.and_eq_true] at this
                exact noticeWindow_begun_again h.1 (List.mem_of_find?_eq_some hq) (fun _ _ _ => trivial) (Or.inl this.1)
              · split at hn
                · rename_i hl
                  rw [Option.map_eq_some_iff] at hn
                  obtain ⟨q, hq, rfl⟩ := hn
                  exact noticeWindow_begun_again h.1 (List.mem_of_find?_eq_some hq) (fun _ _ _ => trivial) (Or.inr ⟨hl, hq⟩)
                · cases hn
          · exact h
        · exact h

/-- What an acknowledgement leaves is a suffix of the queue. -/
theorem dropThrough_suffix (x : Word16) (l : List QueuedNotice) : ∃ m, l = m ++ dropThrough x l ∧ (x ∈ l.map
    (·.notice.serial) → m ≠ []) := by
  induction l with
  | nil => exact ⟨[], rfl, by simp⟩
  | cons q l ih =>
    simp only [dropThrough]
    split
    · exact ⟨[q], rfl, by simp⟩
    · obtain ⟨m, h1, h2⟩ := ih
      exact ⟨q :: m, by rw [List.cons_append, ← h1], by simp⟩

/-- A suffix keeps the window. -/
theorem noticeWindow_suffix {n : NoticeUnit} (h : NoticeWindow n) (m l : List QueuedNotice) (he : n.queue = m ++ l) (t : Bool) (ht : n.hostAbsent = true → t = false) :
   NoticeWindow { n with queue := l, resendCount := 0, timer := t, gapCount := 0 } := by
  refine ⟨?_, ?_, ?_, ?_, ?_, by simp, by simp, by simp, ht⟩
  · have := h.capacity; rw [he] at this; simp at this; show l.length ≤ 32; omega
  · intro k hk
    have := h.serials (m.length + k) (by rw [he]; simp; exact hk)
    simp only [he, List.length_append] at this
    rw [List.getElem_append_right (by omega)] at this
    simp only [Nat.add_sub_cancel_left] at this
    rw [show m.length + l.length - (m.length + k) = l.length - k by omega] at this
    exact this
  · have := h.inFlight
    unfold NoticeUnit.inFlight at *
    rw [he, List.filter_append, List.length_append] at this
    show (l.filter _).length ≤ 8
    omega
  · have := h.older; rw [he] at this
    exact this.sublist (List.sublist_append_right _ _)
  · intro q hq
    exact h.marks q (by rw [he]; exact List.mem_append_right _ hq)

/-- NOTICE-ACK keeps the notices sound (R162). -/
theorem noticesSound_ack (x : Word16) (s : State) (hc : (inFlightSerials s).contains x = true) (h : NoticesSound s) :
    NoticesSound (noticeAckOp x s).1 := by
  obtain ⟨m, hm, hne⟩ := dropThrough_suffix x s.notices.queue
  have hx : x ∈ s.notices.queue.map (·.notice.serial) := by
    simp only [List.contains_iff_mem, inFlightSerials, NoticeUnit.inFlight, List.mem_map, List.mem_filter] at hc
    obtain ⟨q, ⟨hq, _⟩, rfl⟩ := hc
    exact List.mem_map.mpr ⟨q, hq, rfl⟩
  have hlt : (dropThrough x s.notices.queue).length < 32 := by
    have h1 := h.1.capacity
    have h2 := congrArg List.length hm
    rw [List.length_append] at h2
    have : 0 < m.length := List.length_pos_iff.mpr (hne hx)
    omega
  have ht : s.notices.hostAbsent = true → (!s.notices.hostAbsent && (dropThrough x s.notices.queue).any (·.inFlight)) = false := by
    intro h1; rw [h1]; rfl
  have h0 := noticeWindow_suffix h.1 m _ hm _ ht
  simp only [noticeAckOp, makeGap]
  split
  · rename_i hg
    refine ⟨?_, h.2⟩
    simp only [hg]
    exact h0
  · refine ⟨?_, h.2⟩
    exact noticeWindow_make (.gap s.notices.gapCount) { s with notices := { s.notices with queue := dropThrough x s.notices.queue, resendCount := 0, timer := (!s.notices.hostAbsent && (dropThrough x s.notices.queue).any (·.inFlight)), gapCount := 0 } } hlt rfl h0

/-- The start-up values are a window (R168). -/
theorem noticeWindow_start : NoticeWindow NoticeUnit.start := by
  constructor <;> simp [NoticeUnit.start, NoticeUnit.inFlight]

/-- A post changes the Notice Unit alone. -/
theorem post_eq (b) (s : State) : ∃ n, post b s = { s with notices := n } := by
  unfold post; split; exact ⟨_, rfl⟩; split <;> exact ⟨_, rfl⟩

/-- Choosing the next frame keeps the notices as such, the calendar and the pass. -/
theorem kickTx_notices (s : State) : (kickTx s).notices.queue.map (·.notice) = s.notices.queue.map (·.notice) ∧
    (kickTx s).cal = s.cal ∧ (kickTx s).matcher = s.matcher := by
  unfold kickTx
  split
  · simp
  · split
    · simp
    · split
      · simp
      · split
        · split
          · refine ⟨?_, rfl, rfl⟩
            simp only [NoticeUnit.begun, List.map_map]
            apply List.map_congr_left; intro q _; simp; split <;> rfl
          · simp
        · simp

/-- A post keeps the first notice. -/
theorem head_post (q : QueuedNotice) (b) (s : State) (h : s.notices.queue.head? = some q) : (post b
    s).notices.queue.head? = some q := by
  unfold post
  split; exact h; split; exact h
  unfold makeNotice
  dsimp only
  cases hq : s.notices.queue with
  | nil => rw [hq] at h; cases h
  | cons a l => rw [hq] at h; exact h

/-- A post makes an unsent notice. -/
theorem unsent_post (b) (s : State) (h : ∀ x ∈ s.notices.queue, x.inFlight = false) : ∀ x ∈ (post b s).notices.queue,
    x.inFlight = false := by
  unfold post
  split; exact h; split; exact h
  unfold makeNotice
  intro x hx
  rcases List.mem_append.mp hx with hx | hx
  · exact h x hx
  · simp at hx; rw [hx]

end Sys2Proof.Machine
end

