-- ==== Sys2Proof/Laws/Passes.lean ====
section
/-! SUPPORT. The Matcher's granted steps, what a sweep and a purge keep, and the heads that take-in finds too old. -/

namespace Sys2Proof.Machine

/-- A granted scan step, its sweep made (R73). -/
theorem exec_scanStep {s : State} {p : Pass} (h : s.matcher = some p) (hp : p.sweep = false) (hg : granted s .matcher = true) :
   exec .scanStep s = .next (kickTx { scanEntry p.stamp p.cursor (grant .matcher s) with matcher := if p.cursor = 255 then none else some { p with cursor := p.cursor + 1 } }) := by
  simp only [exec, execScanStep, h, hp, hg, Pass.advanced]; simp

/-- No act in a sweep makes a waiting job of a segment older than a limit (R99). -/
theorem kept_age (i : Seg) (now : RunSecond) (lim : Nat) : Kept (fun s => ∀ j ∈ s.queue i, j.inService = false → (now
    - j.created).toNat ≤ lim) where
  post b s h := by simpa using h
  rewrite _ _ _ _ h := h
  clear _ _ _ _ h := h
  setEnded _ _ _ h := h
  removeTo k q s hq h := by
    rw [queue_removeTo]; split
    · rename_i hk; subst hk; intro j hj; exact h j (hq.mem hj)
    · exact h
  markStale owns s _ h := by
    rw [queue_markStale]
    intro j hj hs
    obtain ⟨k, hk, rfl⟩ := List.mem_map.mp hj
    split at hs <;> split <;> exact h k hk (by simpa using hs)
  takeHead k j rest s hw _ h := by
    rw [queue_takeHead]; split
    · rename_i hk; subst hk
      intro x hx hs
      rcases List.mem_cons.mp hx with rfl | hx
      · cases hs
      · rcases List.mem_append.mp hx with hx | hx
        · exact h x (List.mem_filter.mp hx).1 hs
        · have : x ∈ waiting (s.queue i) := by rw [hw]; exact List.mem_cons_of_mem _ hx
          exact h x (List.mem_filter.mp this).1 hs
    · exact h
  presentLine _ _ h := h

/-- The heads too old, and the rest (R98). -/
theorem splitOld_eq (now : RunSecond) (limit : Nat) (l : List Job) : splitOld now limit l = (l.takeWhile (fun j =>
    j.tooOld now limit), l.dropWhile (fun j => j.tooOld now limit)) := by
  induction l with
  | nil => rfl
  | cons j l ih =>
    simp only [splitOld, List.takeWhile_cons, List.dropWhile_cons, ih]
    split <;> simp_all

/-- No act in a purge puts a waiting job into a queue without one (R101). -/
theorem kept_serving (i : Seg) :
    Kept (fun s => ∀ j ∈ s.queue i, j.inService = true) where
  post b s h := by simpa using h
  rewrite e hd s _ h := h
  clear e hd s _ h := h
  setEnded k l s h := h
  removeTo k q s hq h := by
    rw [queue_removeTo]
    split
    · rename_i hk
      subst hk
      exact fun j hj => h j (hq.mem hj)
    · exact h
  markStale owns s _ h := by
    intro j hj
    rw [queue_markStale, List.mem_map] at hj
    obtain ⟨k, hk, rfl⟩ := hj
    split
    · exact h k hk
    · exact h k hk
  takeHead k j rest s hw _ h := by
    rw [queue_takeHead]
    split
    · rename_i hk
      subst hk
      intro x hx
      have hmem : ∀ y ∈ j :: rest, y ∈ s.queue i := by
        intro y hy
        rw [← hw] at hy
        exact (List.mem_filter.mp hy).1
      rcases List.mem_cons.mp hx with rfl | hx
      · rfl
      · rcases List.mem_append.mp hx with hx | hx
        · exact h x (List.mem_filter.mp hx).1
        · exact h x (hmem x (List.mem_cons_of_mem _ hx))
    · exact h
  presentLine k s h := h

end Sys2Proof.Machine
end

