-- ==== Sys2Proof/Laws/QueueMoves.lean ====
section
/-! SUPPORT. The order of the dispatch queues through each of their operations, and the allocator of tags. -/

namespace Sys2Proof.Machine

/-- Soundness depends on the queues alone. -/
theorem queuesSound_of {s t : State} (h : QueuesSound s) (e : t.dispatch.queues = s.dispatch.queues) : QueuesSound t
    := by
  have hq : ∀ i, t.queue i = s.queue i := fun i => by unfold State.queue; rw [e]
  have ht : heldTags t = heldTags s := by unfold heldTags; simp only [hq]
  exact ⟨fun i => by rw [hq]; exact h.order i, by rw [ht]; exact h.tags, by rw [ht]; exact h.noTag⟩

/-- The tags held, queue by queue. -/
theorem heldTags_eq (s : State) : heldTags s = (s.queue 0).map (·.tag) ++ ((s.queue 1).map (·.tag) ++ ((s.queue
    2).map (·.tag) ++ (s.queue 3).map (·.tag))) := by
  simp [heldTags, Seg.all]

/-- Fewer jobs in each queue are fewer tags held. -/
theorem subperm_flatMap (f g : Seg → List Word16) (h : ∀ i, (f i).Subperm (g i)) : ∀ l : List Seg, (l.flatMap
    f).Subperm (l.flatMap g) := by
  intro l
  induction l with
  | nil => exact List.Subperm.refl _
  | cons a l ih => simp only [List.flatMap_cons]; exact (h a).append ih

/-- Queues in order with fewer jobs are sound. -/
theorem queuesSound_of_fewer {s t : State} (h : QueuesSound s) (ho : ∀ i, QueueOrder (t.queue i))
  (hs : ∀ i, ((t.queue i).map (·.tag)).Subperm ((s.queue i).map (·.tag))) : QueuesSound t := by
  have := subperm_flatMap (fun i => (t.queue i).map (·.tag)) (fun i => (s.queue i).map (·.tag)) hs Seg.all
  refine ⟨ho, ?_, fun hm => h.noTag (this.subset hm)⟩
  obtain ⟨l, hl1, hl2⟩ := this
  exact hl1.nodup_iff.mp (h.tags.sublist hl2)

theorem waiting_append (a b : List Job) : waiting (a ++ b) = waiting a ++ waiting b := List.filter_append ..

/-- At most one job is in service. -/
theorem service_length {q : List Job} (h : ∀ j ∈ q.tail, j.inService = false) : (q.filter (·.inService)).length ≤ 1
    := by
  cases q with
  | nil => simp
  | cons x q =>
    have : q.filter (·.inService) = [] := List.filter_eq_nil_iff.mpr (by simpa using h)
    simp only [List.filter_cons, this]; split <;> simp

/-- Removing waiting jobs keeps the order. -/
theorem queueOrder_removed {q' q : List Job} (hr : Removed q' q) (h : QueueOrder q) : QueueOrder q' := by
  have hw := hr.waiting_sublist
  refine ⟨le_trans hr.length_le h.capacity, ?_, h.urgency.sublist hw, h.entries.sublist (hw.map _), fun j hj => h.fresh j (hw.subset hj)⟩
  rcases hr with hr | ⟨rest, rfl, hr⟩
  · intro j hj
    have : q'.tail.Sublist q.tail := hr.tail
    exact h.service j (this.subset hj)
  · have h1 := service_length h.service
    have hrest : ∀ j ∈ rest, j.inService = false := by
      intro j hj
      have := hr.subset hj
      simp only [waiting, List.mem_filter] at this
      simpa using this.2
    intro j hj
    generalize q.filter (·.inService) = a at *
    cases a with
    | nil => exact hrest j (List.mem_of_mem_tail hj)
    | cons x a =>
      have : a = [] := by simpa using h1
      subst this
      exact hrest j (by simpa using hj)

/-- What is left is among what was there. -/
theorem removed_subperm {q' q : List Job} (hr : Removed q' q) : q'.Subperm q := by
  rcases hr with hr | ⟨rest, rfl, hr⟩
  · exact hr.subperm
  · exact (List.Sublist.append (List.Sublist.refl _) hr).subperm.trans (List.filter_append_perm (·.inService) q).subperm

/-- It is the first such value from the allocator's on (R91). -/
theorem freeTag_first (held : List Word16) : ∀ (fuel : Nat) (t : Word16),
   freeTag held fuel t ≠ noTag ∧ freeTag held fuel t ∉ held → ∃ n < fuel+1, freeTag held fuel t = t + BitVec.ofNat 16
       n ∧ ∀ k < n, t + BitVec.ofNat 16 k = noTag ∨ t + BitVec.ofNat 16 k ∈ held := by
  intro fuel
  induction fuel with
  | zero => intro t _; exact ⟨0, by omega, by simp [freeTag], by intro k hk; omega⟩
  | succ n ih =>
    intro t
    simp only [freeTag]
    split
    · rename_i hc
      intro h
      obtain ⟨m, hm, he, hk⟩ := ih (t+1) h
      have hs : ∀ k, t + BitVec.ofNat 16 (k+1) = t + 1 + BitVec.ofNat 16 k := by
        intro k; rw [BitVec.ofNat_add]; simp only [BitVec.ofNat_eq_ofNat]; bv_omega
      refine ⟨m+1, by omega, by rw [he, hs], ?_⟩
      intro k hk'
      cases k with
      | zero => simpa [List.contains_iff_mem] using hc
      | succ k => rw [hs]; exact hk k (by omega)
    · intro _; exact ⟨0, by omega, by simp, by intro k hk; omega⟩

/-- At most 64 tags are held. -/
theorem heldTags_length {s : State} (h : QueuesSound s) : (heldTags s).length ≤ 64 := by
  rw [heldTags_eq]
  have h0 := (h.order 0).capacity
  have h1 := (h.order 1).capacity
  have h2 := (h.order 2).capacity
  have h3 := (h.order 3).capacity
  simp only [List.length_append, List.length_map]
  omega

/-- An offer that makes a job keeps the queues sound (R93). -/
theorem queuesSound_insert (i : Seg) (o : Offer) (s : State) (hr : Room QueuesSound i s) (hn : ∀ j ∈ s.queue i,
    j.entry = o.entry → j.inService = true)
   (h : QueuesSound s) : QueuesSound (insertOffer i o s) := by
  have hl : (s.queue i).length < 16 := hr (fun t ht => (ht.order i).capacity)
  have ht := freeTag_free (heldTags s) (heldTags_length h) s.dispatch.nextTag
  have hq : ∀ k, (insertOffer i o s).queue k = if k = i then insertJob (o.job (nextFreeTag s)) (s.queue i) else s.queue k := by
    intro k
    simp only [insertOffer, State.queue, PerSegment.get_set]
  have hp : (heldTags (insertOffer i o s)).Perm (nextFreeTag s :: heldTags s) := by
    have hi : ∀ k, ((insertOffer i o s).queue k).map (·.tag) = if k = i then (insertJob (o.job (nextFreeTag s)) (s.queue i)).map (·.tag) else (s.queue k).map (·.tag) := by
      intro k; rw [hq]; split <;> rfl
    have hip : ((insertJob (o.job (nextFreeTag s)) (s.queue i)).map (·.tag)).Perm (nextFreeTag s :: (s.queue i).map (·.tag)) := (insertJob_perm _ _).map _
    rw [heldTags_eq, heldTags_eq]
    simp only [hi]
    have hc : i = 0 ∨ i = 1 ∨ i = 2 ∨ i = 3 := by fin_cases i <;> simp
    rcases hc with rfl | rfl | rfl | rfl <;> simp only [Fin.isValue, Fin.reduceEq, if_false, if_true]
    · exact hip.append_right _
    · exact ((hip.append_right _).append_left _).trans List.perm_middle
    · refine (((hip.append_right _).append_left _).append_left _).trans ?_
      exact (List.perm_middle.append_left _).trans List.perm_middle
    · refine (((hip.append_left _).append_left _).append_left _).trans ?_
      exact ((List.perm_middle.append_left _).append_left _).trans ((List.perm_middle.append_left _).trans List.perm_middle)
  refine ⟨?_, ?_, ?_⟩
  · intro k
    rw [hq]
    split
    · exact queueOrder_insertJob _ _ rfl ⟨rfl, rfl, rfl⟩ hl hn (h.order i)
    · exact h.order k
  · rw [hp.nodup_iff, List.nodup_cons]
    exact ⟨ht.2, h.tags⟩
  · intro hm
    rcases List.mem_cons.mp (hp.subset hm) with he | he
    · exact ht.1 he.symm
    · exact h.noTag he

/-- A change of counts and stale marks that leaves the waiting jobs keeps them sound. -/
theorem queuesSound_map (s t : State) (h : QueuesSound s) (f : Job → Job) (hf : ∀ j, ∃ st a b, f j = { j with stale := st, attempts := a, busy := b })
   (hq : ∀ i, t.queue i = (s.queue i).map f ∨ t.queue i = s.queue i) (hw : ∀ i, ∀ j ∈ s.queue i, j.inService = false → t.queue i = (s.queue i).map f → f j = j) : QueuesSound t := by
  have htag : ∀ j, (f j).tag = j.tag := by intro j; obtain ⟨a, b, c, he⟩ := hf j; rw [he]
  have hins : ∀ j, (f j).inService = j.inService := by intro j; obtain ⟨a, b, c, he⟩ := hf j; rw [he]
  refine queuesSound_of_fewer h ?_ ?_
  · intro i
    rcases hq i with he | he
    · have ho := h.order i
      have hwe : waiting (t.queue i) = waiting (s.queue i) := by
        rw [he]
        unfold waiting
        rw [List.filter_map]
        have : ((fun j => !j.inService) ∘ f) = (fun j : Job => !j.inService) := by funext j; simp [hins]
        rw [this]
        conv_rhs => rw [← List.map_id (List.filter (fun j : Job => !j.inService) (s.queue i))]
        apply List.map_congr_left
        intro j hj
        have := List.mem_filter.mp hj
        exact hw i j this.1 (by simpa using this.2) he
      refine ⟨by rw [he, List.length_map]; exact ho.capacity, ?_, by rw [hwe]; exact ho.urgency, by rw [hwe]; exact ho.entries, by rw [hwe]; exact ho.fresh⟩
      rw [he, ← List.map_tail]
      intro j hj
      obtain ⟨k, hk, rfl⟩ := List.mem_map.mp hj
      rw [hins]; exact ho.service k hk
    · rw [he]; exact h.order i
  · intro i
    rcases hq i with he | he
    · rw [he, List.map_map]
      have : ((fun j : Job => j.tag) ∘ f) = (fun j => j.tag) := by funext j; simp [htag]
      rw [this]
    · rw [he]

/-- So does take-in (R97). -/
theorem queuesSound_takeHead (i j rest s) (hw : waiting (s.queue i) = j :: rest) (hm : mayTakeIn s i = true) (h :
    QueuesSound s) : QueuesSound (takeHead i j rest s) := by
  have hns : (s.queue i).any (·.inService) = false := by
    unfold mayTakeIn at hm
    simp only [Bool.and_eq_true, Bool.not_eq_true'] at hm
    exact hm.2
  have hf : (s.queue i).filter (·.inService) = [] := by
    rw [List.filter_eq_nil_iff]; intro x hx
    rw [List.any_eq_false] at hns
    exact hns x hx
  have hfe : waiting (s.queue i) = s.queue i := by
    unfold waiting
    rw [List.filter_eq_self]; intro x hx
    rw [List.any_eq_false] at hns
    simpa using hns x hx
  rw [hfe] at hw
  have hq : ∀ k, (takeHead i j rest s).queue k = if k = i then j.taken :: rest else s.queue k := by
    intro k; rw [queue_takeHead, hf]; rfl
  have ho := h.order i
  have hrest : waiting rest = rest := by
    have := hfe; rw [hw] at this
    unfold waiting at *
    simp only [List.filter_cons] at this
    split at this
    · exact List.tail_eq_of_cons_eq this
    · have := congrArg List.length this
      have h2 := List.length_filter_le (fun j : Job => !j.inService) rest
      simp at this; omega
  refine queuesSound_of_fewer h ?_ ?_
  · intro k
    rw [hq]
    split
    · have hw2 : waiting (j.taken :: rest) = rest := by
        rw [show j.taken :: rest = [j.taken] ++ rest from rfl, waiting_append, hrest]; simp [waiting, Job.taken]
      have hsub : rest.Sublist (waiting (s.queue i)) := by rw [hfe, hw]; exact List.sublist_cons_self _ _
      refine ⟨by have := ho.capacity; rw [hw] at this; simpa using this, ?_, ?_, ?_, ?_⟩
      · intro x hx
        exact ho.service x (by rw [hw]; exact hx)
      · rw [hw2]; exact ho.urgency.sublist hsub
      · rw [hw2]; exact ho.entries.sublist (hsub.map _)
      · rw [hw2]; exact fun x hx => ho.fresh x (hsub.subset hx)
    · exact h.order k
  · intro k
    rw [hq]
    split
    · rename_i hk; subst hk; rw [hw]; exact List.Subperm.refl _
    · exact List.Subperm.refl _

/-- The start-up values are sound (R107). -/
theorem queuesSound_start (s : State) (h : s.dispatch = DispatchUnit.start) : QueuesSound s := by
  have hq : ∀ i, s.queue i = [] := by intro i; unfold State.queue; rw [h]; match i with
    | 0 => rfl
    | 1 => rfl
    | 2 => rfl
    | 3 => rfl
  refine ⟨fun i => ?_, ?_, ?_⟩
  · rw [hq]; constructor <;> simp [waiting]
  · rw [heldTags_eq]; simp [hq]
  · rw [heldTags_eq]; simp [hq]

end Sys2Proof.Machine
end

