-- ==== Sys2Proof/Laws/Reception.lean ====
section
/-! SUPPORT. The receiver on whole frames (R136 to R139), and the fields of the notice requests. -/

namespace Sys2Proof.Machine

/-- A character changes nothing of the supplies. -/
theorem supply_receive (s : State) (c) : (receive s c).supply = s.supply := by
  have hf : ∀ k u, (frameArrives k u).supply = u.supply := by
    intro k u
    unfold frameArrives; split
    · rw [kickTx_supply]; unfold meetFrame answerAtOnce; split; rfl; split; (split <;> rfl); (split; (split <;> rfl); rfl)
    · rfl
  unfold receive
  split <;> (split <;> first | rfl | (split <;> rfl) | (rw [hf]))

/-- Nor do several. -/
theorem supply_receive_all (s : State) (l : List RxChar) : (l.foldl receive s).supply = s.supply := by
  induction l generalizing s with
  | nil => rfl
  | cons c l ih => rw [List.foldl_cons, ih, supply_receive]

/-- The characters of a frame's contents are kept in order, up to its check (R136). -/
theorem receive_collects (body : List Byte) : ∀ (s : State) (len : Byte) (kept : List Byte), s.link.rx = .collect len
    kept → body ≠ [] → kept.length + body.length = len.toNat →
    (body.map RxChar.good).foldl receive s = setRx (.check len (kept ++ body) none) s := by
  induction body with
  | nil => intro s len kept _ h; exact absurd rfl h
  | cons b l ih =>
    intro s len kept hrx _ hl
    rw [List.map_cons, List.foldl_cons]
    simp only [List.length_cons] at hl
    have h1 : receive s (RxChar.good b) = if kept.length + 1 < len.toNat then setRx (.collect len (kept ++ [b])) s
      else setRx (.check len (kept ++ [b]) none) s := by
      unfold receive; rw [hrx]; rfl
    rw [h1]
    cases l with
    | nil => simp only [List.length_nil] at hl; rw [if_neg (by omega)]; rfl
    | cons c l =>
      simp only [List.length_cons] at hl
      rw [if_pos (by omega)]
      rw [ih (setRx (.collect len (kept ++ [b])) s) len (kept ++ [b]) rfl (by simp) (by simp; omega)]
      simp [setRx]

/-- A well-formed frame in HUNT brings its SEQ, KIND and BODY to the tests of R139. -/
theorem receive_frame (s : State) (seq kind : Byte) (body : List Byte) (h1 : s.link.rx = .hunt) (hb : body.length ≤
    252) :
   ((frameBytes seq kind body).map RxChar.good).foldl receive s = frameArrives (seq :: kind :: body) (setRx (.check
       (byte1 (body.length + 2)) (seq :: kind :: body) (some (byte1 ((crc16 (byte1 (body.length + 2) :: seq :: kind
       :: body)).toNat / 256)))) s) := by
  have hlen : (byte1 (body.length + 2)).toNat = body.length + 2 := by simp [byte1]; omega
  have e : frameBytes seq kind body = 0xA5#8 :: byte1 (body.length + 2) :: ((seq :: kind :: body) ++ [byte1 ((crc16 (byte1 (body.length + 2) :: seq :: kind :: body)).toNat / 256), byte1 (crc16 (byte1 (body.length + 2) :: seq :: kind :: body)).toNat]) := rfl
  rw [e]
  generalize hc : crc16 (byte1 (body.length + 2) :: seq :: kind :: body) = crc
  rw [List.map_cons, List.map_cons, List.foldl_cons, List.foldl_cons, List.map_append, List.foldl_append]
  have s1 : receive s (RxChar.good 0xA5#8) = setRx .length s := by unfold receive; rw [h1]; rfl
  have s2 : receive (setRx .length s) (RxChar.good (byte1 (body.length + 2))) = setRx (.collect (byte1 (body.length + 2)) []) s := by
    unfold receive
    change (if true && decide _ then _ else _) = _
    rw [if_pos (by simp only [RxChar.good, hlen, Bool.true_and, decide_eq_true_eq]; omega)]
    rfl
  rw [s1, s2]
  rw [receive_collects (seq :: kind :: body) (setRx (.collect (byte1 (body.length + 2)) []) s) (byte1 (body.length + 2)) [] rfl (by simp) (by rw [hlen]; simp)]
  rw [List.nil_append]
  simp only [List.map_cons, List.map_nil, List.foldl_cons, List.foldl_nil]
  have s3 : receive (setRx (.check (byte1 (body.length + 2)) (seq :: kind :: body) none) (setRx (.collect (byte1 (body.length + 2)) []) s)) (RxChar.good (byte1 (crc.toNat / 256))) = setRx (.check (byte1 (body.length + 2)) (seq :: kind :: body) (some (byte1 (crc.toNat / 256)))) s := rfl
  rw [s3]
  conv_lhs => unfold receive
  dsimp only [setRx]
  rw [if_pos]
  rw [hc]; simp [RxChar.good, byte2]

/-- A 16-bit value read back from its two bytes. -/
theorem natAt_byte2 (w : Word16) : BitVec.ofNat 16 (natAt (byte2 w.toNat) 0 2) = w := by
    have : natAt (byte2 w.toNat) 0 2 = w.toNat := by
      unfold natAt byte2 natOfBytes byte1
      simp
      have := w.isLt
      omega
    rw [this]; simp

/-- NOTICE-MASK's test of a set (R167). -/
theorem parseMask_byte2 (w : Word16) : parseMask (byte2 w.toNat) = if w &&& 0xFF01#16 = 0#16 then .ok w else .error
    (.badField 1) := by
  have hb : BitVec.ofNat 16 (natAt (byte2 w.toNat) 0 2) = w := by
    have : natAt (byte2 w.toNat) 0 2 = w.toNat := by
      unfold natAt byte2 natOfBytes byte1
      simp
      have := w.isLt
      omega
    rw [this]; simp
  unfold parseMask
  rw [if_pos (show (byte2 w.toNat).length = 2 from rfl)]
  dsimp only
  rw [hb]
  unfold tested firstFault
  by_cases h : w &&& 0xFF01#16 = 0#16
  · simp [h, firstFault]
  · simp [h]

/-- The notices after the one acknowledged (R162). -/
theorem dropThrough_append (w : Word16) (a b : List QueuedNotice) (q : QueuedNotice) (hq : q.notice.serial = w) (ha :
    ∀ x ∈ a, x.notice.serial ≠ w) : dropThrough w (a ++ q :: b) = b := by
  induction a with
  | nil => simp [dropThrough, hq]
  | cons x a ih =>
    rw [List.cons_append]; unfold dropThrough
    rw [if_neg (ha x List.mem_cons_self)]
    exact ih (fun y hy => ha y (List.mem_cons_of_mem _ hy))

end Sys2Proof.Machine
end

