-- ==== Sys2Proof/Laws/Requests.lean ====
section
/-! SUPPORT. Store requests that change nothing, and those that find a faulty record. -/

namespace Sys2Proof.Machine

/-- A store request whose operation finds a fault quarantines its entry and answers DATA-FAULT (R35). -/
theorem serve_dataFault {s : State} {e : EntryIx} {rec : FaultRecord} {r : Request} {kind : Byte} {op : EntryIx →
    State → State × List Byte} (hs : ServingStore s r kind) (hb : r.body = [byte1 e.val])
   (hop : op e (grant .commandInterpreter s) = dataFault e rec (grant .commandInterpreter s)) :
   ∃ t, serve kind true parseIndex op s = t ∧ t.link = s.link.answered r [0x08#8, byte1 e.val, byte1 rec.code] ∧
      Quarantined s t e rec .hostRead ∧ t.matcher = s.matcher ∧ OrderAfter s t .commandInterpreter := by
  refine ⟨_, serve_store_eq (op := op) hs (parseIndex_byte1 hb) (by rw [hop]; unfold dataFault; simp) (by rw [hop]; unfold dataFault; simp), ?_⟩
  rw [hop]; unfold dataFault; dsimp only
  refine ⟨rfl, ((quarantined_quarantine e rec .hostRead _).of_grant).link _, by simp, ?_⟩
  change (quarantine e rec .hostRead (grant .commandInterpreter s)).ctl.order = _
  simp [grant]

/-- A store request whose operation changes nothing answers, and the grant is made (R144). -/
theorem serve_unchanged {s : State} {α} {a : α} {parse} {r : Request} {kind : Byte} {op : α → State → State × List Byte} {b : List Byte} (hs : ServingStore s r kind) (hp : parse r.body = .ok a)
   (hop : op a (grant .commandInterpreter s) = (grant .commandInterpreter s, b)) :
   serve kind true parse op s = { grant .commandInterpreter s with link := s.link.answered r b } := by
  have := serve_store_eq (op := op) hs hp (by rw [hop]; rfl) (by rw [hop]; rfl)
  rw [hop] at this; exact this

/-- Field tests that all hold refuse nothing (R144). -/
theorem firstFault_eq_none {l : List (Nat × Bool)} : firstFault l = none ↔ ∀ x ∈ l, x.2 = true := by
  induction l with
  | nil => simp [firstFault]
  | cons a l ih =>
    obtain ⟨n, ok⟩ := a
    cases ok <;> simp [firstFault, ih]

/-- The first field test that fails decides (R144). -/
theorem firstFault_first {before after : List (Nat × Bool)} {n : Nat} (h : ∀ x ∈ before, x.2 = true) :
    firstFault (before ++ (n, false) :: after) = some n := by
  induction before with
  | nil => rfl
  | cons a l ih =>
    obtain ⟨k, ok⟩ := a
    have hk : ok = true := h (k, ok) List.mem_cons_self
    subst hk
    exact ih (fun x hx => h x (List.mem_cons_of_mem _ hx))

end Sys2Proof.Machine
end

