-- ==== Sys2Proof/Laws/StartUp.lean ====
section
/-! SUPPORT. The start-up: what a record operation leaves alone, the tests of the integrity pass in the spec's terms, what the
whole pass leaves of the body references, the allocation map built from them, and the notices (R172 to R180). -/

namespace Sys2Proof.Machine

/-- No store operation is granted out of service (R27, R182). -/
theorem not_granted (s : State) (q) (h : s.supply.phase ≠ .inService) : granted s q = false := by
  unfold granted State.inService
  have : (s.supply.phase == Phase.inService) = false := by simpa using h
  rw [this]; rfl

/-- A record operation of a start-up writes no heap byte. -/
theorem heap_runStartUnit (s : State) (u) : (runStartUnit s u).store.heap = s.store.heap := by
  have hq : ∀ e r t, (startQuarantine e r t).store.heap = t.store.heap := fun _ _ _ => rfl
  have hrc : ∀ n t, (replaceConfig n t).store.heap = t.store.heap := by intro n t; cases n <;> rfl
  cases u <;> simp only [runStartUnit] <;> try rfl
  · split; rfl; exact hrc _ _
  · split; rfl; exact hrc _ _
  · unfold testEntry; dsimp only
    split; rfl
    split
    · split; rfl; split; rfl; exact hq _ _ _
    · exact hq _ _ _

/-- It leaves the phase, the cause, the straps and the power-lost mark. -/
theorem supply_runStartUnit (s : State) (u) : (runStartUnit s u).supply.phase = s.supply.phase ∧ (runStartUnit s
    u).supply.cause = s.supply.cause ∧ (runStartUnit s u).supply.ls1 = s.supply.ls1 ∧ (runStartUnit s u).supply.ls0 =
    s.supply.ls0 ∧ (runStartUnit s u).supply.powerLost = s.supply.powerLost := by
  cases u <;> simp only [runStartUnit] <;> try exact ⟨trivial, trivial, trivial, trivial, trivial⟩
  · split <;> exact ⟨rfl, rfl, rfl, rfl, rfl⟩
  · split <;> exact ⟨rfl, rfl, rfl, rfl, rfl⟩
  · unfold testEntry; dsimp only
    split; exact ⟨rfl, rfl, rfl, rfl, rfl⟩
    split
    · split; exact ⟨rfl, rfl, rfl, rfl, rfl⟩; split <;> exact ⟨rfl, rfl, rfl, rfl, rfl⟩
    · exact ⟨rfl, rfl, rfl, rfl, rfl⟩

/-- So do several. -/
theorem runStart_keeps (n : Nat) (s : State) : (runStart n s).store.heap = s.store.heap ∧ (runStart n s).supply.phase
    = s.supply.phase ∧ (runStart n s).supply.cause = s.supply.cause ∧ (runStart n s).supply.ls1 = s.supply.ls1 ∧
    (runStart n s).supply.ls0 = s.supply.ls0 ∧ (runStart n s).supply.powerLost = s.supply.powerLost := by
  unfold runStart
  dsimp only
  generalize ((startUnits s.supply.cause).drop s.supply.startDone).take n = l
  generalize l.length = k
  have : ∀ (l : List StartUnit) (s : State), (l.foldl runStartUnit s).store.heap = s.store.heap ∧ (l.foldl runStartUnit s).supply.phase = s.supply.phase ∧ (l.foldl runStartUnit s).supply.cause = s.supply.cause ∧ (l.foldl runStartUnit s).supply.ls1 = s.supply.ls1 ∧ (l.foldl runStartUnit s).supply.ls0 = s.supply.ls0 ∧ (l.foldl runStartUnit s).supply.powerLost = s.supply.powerLost := by
    intro l
    induction l with
    | nil => intro s; exact ⟨rfl, rfl, rfl, rfl, rfl, rfl⟩
    | cons u l ih =>
      intro s
      rw [List.foldl_cons]
      obtain ⟨a, b, c, d, e, f⟩ := ih (runStartUnit s u)
      obtain ⟨b', c', d', e', f'⟩ := supply_runStartUnit s u
      exact ⟨a.trans (heap_runStartUnit s u), b.trans b', c.trans c', d.trans d', e.trans e', f.trans f'⟩
  exact this l s

/-! ### The record operations, and the tests of the integrity pass -/

/-- The record operations of a start-up sequence (R172 to R176). -/
theorem startUnits_eq (cause : StartCause) : startUnits cause = startSequence cause := by
  unfold startUnits startSequence Seg.all
  dsimp only
  rw [List.map_map, List.map_map]
  simp only [List.map_cons, List.map_nil, List.append_assoc]
  rfl

theorem optIn_iff (lo hi : Nat) (o : Option Nat) : optIn lo hi o = true ↔ AnyOrIn lo hi o := by
  cases o <;> simp [optIn, AnyOrIn]

theorem impossibleDay_iff (d : DayField) (m : Option Nat) (hd : ∀ n, d = .day n → n ≤ 31) : impossibleDay d m = false ↔
    (m = some 2 → d ≠ .day 30 ∧ d ≠ .day 31) ∧ (m ∈ [some 4, some 6, some 9, some 11] → d ≠ .day 31) := by
  cases d with
  | any => simp [impossibleDay]
  | last => simp [impossibleDay]
  | day n =>
    have hn := hd n rfl
    cases m with
    | none => simp [impossibleDay]
    | some m =>
      simp only [impossibleDay, Bool.or_eq_false_iff, Bool.and_eq_false_iff, beq_eq_false_iff_ne, decide_eq_false_iff_not,
        Option.some.injEq, DayField.day.injEq, ne_eq, List.mem_cons, List.not_mem_nil, or_false]
      omega

theorem pattern_ok_iff (p : Pattern) : p.ok = true ↔ PatternInRange p := by
  unfold Pattern.ok
  simp only [Bool.and_eq_true, optIn_iff, Bool.not_eq_true']
  constructor
  · rintro ⟨⟨⟨⟨⟨⟨a, b⟩, c⟩, d⟩, e⟩, f⟩, g⟩
    have e' : ∀ n, p.day = .day n → 1 ≤ n ∧ n ≤ 31 := fun n hn => by
      rw [hn] at e
      simpa using e
    have h := (impossibleDay_iff _ _ (fun n hn => (e' n hn).2)).mp g
    exact ⟨a, b, c, by simpa using d, e', f, h.1, h.2⟩
  · rintro ⟨a, b, c, d, e, f, g, h⟩
    refine ⟨⟨⟨⟨⟨⟨a, b⟩, c⟩, by simpa using d⟩, ?_⟩, f⟩, (impossibleDay_iff _ _ (fun n hn => (e n hn).2)).mpr ⟨g, h⟩⟩
    split
    · rename_i n hn
      simpa using e n hn
    · rfl

theorem fireFieldsOk_iff (armed : Bool) (count remaining : Option Nat) : fireFieldsOk armed count remaining = true ↔
    ((count = none ∧ remaining = none) ∨
      ∃ n k, count = some n ∧ remaining = some k ∧ 1 ≤ n ∧ n ≤ 65534 ∧ k ≤ 65534 ∧ (armed = true → 1 ≤ k)) := by
  unfold fireFieldsOk
  cases count <;> cases remaining <;> simp
  cases armed <;> simp <;> omega

theorem definition_ok_iff (armed : Bool) (d : Definition) : d.ok armed = true ↔ DefinitionInRange (armed = true) d := by
  unfold Definition.ok
  simp only [Bool.and_eq_true, decide_eq_true_eq, fireFieldsOk_iff]
  constructor
  · rintro ⟨⟨⟨a, b1, b2, b3, b4⟩, c⟩, e⟩
    refine ⟨fun p po hs => ?_, fun p f r hs => ?_, b1, ⟨b2, b3⟩, b4, c, e⟩
    · rw [hs] at a
      exact (pattern_ok_iff p).mp a
    · rw [hs] at a
      simpa [Schedule.ok] using a
  · rintro ⟨a, a', b1, ⟨b2, b3⟩, b4, c, e⟩
    refine ⟨⟨⟨?_, b1, b2, b3, b4⟩, c⟩, e⟩
    cases hs : d.schedule with
    | calendar p po => exact (pattern_ok_iff p).mpr (a p po hs)
    | interval p f r => simpa [Schedule.ok] using a' p f r hs

theorem lastMatchOk_iff (l : Option LastMatch) :
    lastMatchOk l = true ↔ ∀ r f, l = some (.reading r f) → r.inRange = true := by
  unfold lastMatchOk
  split
  · simp
  · rename_i h
    simp only [true_iff]
    exact fun r f hh => absurd hh (h r f)

/-- The header tests of the integrity pass (R175). -/
theorem passes_iff (sh : StoredHeader) (he : sh.header.state ≠ .named .empty) : sh.passes = true ↔ HeaderPasses sh := by
  obtain ⟨⟨st, defn, body, lo, lm⟩, ck⟩ := sh
  unfold StoredHeader.passes HeaderPasses
  rw [Bool.and_eq_true, beq_iff_eq]
  refine and_congr Iff.rfl ?_
  dsimp only at he ⊢
  have ha := fun d => definition_ok_iff true d
  have hn := fun d => definition_ok_iff false d
  simp only [Bool.false_eq_true] at hn
  cases st with
  | illegal v => simp
  | named st =>
    cases st <;> cases defn <;> simp_all [lastMatchOk_iff, bareHeader] <;> exact fun _ => hn _

theorem granulesFor_pos (n : Nat) : 1 ≤ granulesFor n := by
  unfold granulesFor
  omega

/-- Two runs have a granule in common (R176). -/
theorem overlaps_iff (a b : BodyRef) : a.overlaps b = true ↔ RunsMeet b a := by
  have h1 := granulesFor_pos a.length
  have h2 := granulesFor_pos b.length
  unfold BodyRef.overlaps RunsMeet
  rw [decide_eq_true_eq]
  constructor
  · intro h
    exact ⟨max a.first b.first, ⟨by omega, by omega⟩, by omega, by omega⟩
  · rintro ⟨g, ⟨_, _⟩, _, _⟩
    omega

theorem RunsMeet.symm {a b : BodyRef} (h : RunsMeet a b) : RunsMeet b a := by
  obtain ⟨g, h1, h2⟩ := h
  exact ⟨g, h2, h1⟩

/-- A body reference that the integrity pass takes (R176). -/
theorem refTests_iff (s : State) (e : EntryIx) (b : BodyRef) :
    (b.inHeap && !s.supply.claims.any b.overlaps && recordSound s.store.heap e b) = true ↔
      1 ≤ b.length ∧ b.length ≤ 240 ∧ b.first + granulesFor b.length ≤ 2048 ∧
        (∀ c ∈ s.supply.claims, ¬ RunsMeet c b) ∧ recordSound s.store.heap e b = true := by
  have hin : b.inHeap = true ↔ 1 ≤ b.length ∧ b.length ≤ 240 ∧ b.first + granulesFor b.length ≤ 2048 := by
    simp only [BodyRef.inHeap, Config.granules]
    exact decide_eq_true_iff
  simp only [Bool.and_eq_true, Bool.not_eq_true', List.any_eq_false, hin, overlaps_iff]
  tauto

/-- The tests of a segment's configuration record (R174, Table 2-5). -/
theorem segConfigTests_iff (c : SegConfig) : firstFault (segConfigTests c) = none ↔
    c.lineSpeed ≤ 3 ∧ (5 ≤ c.window ∧ c.window ≤ 200) ∧ c.retryLimit ≤ 7 ∧ (10 ≤ c.backoff ∧ c.backoff ≤ 1000) ∧
      c.busyLimit ≤ 15 ∧ c.ageLimit ≤ 3600 ∧ 1 ≤ c.probeInterval ∧ c.probeInterval ≤ 60 := by
  rw [firstFault_eq_none]
  simp [segConfigTests]

/-- The tests of the daylight record (R64, R174). -/
theorem daylightTests_iff (r : DaylightRule) : firstFault (daylightTests r) = none ↔
    (r.forward.monthOk = true ∧ r.forward.weekOk = true ∧ r.forward.weekdayOk = true) ∧
      (r.back.monthOk = true ∧ r.back.weekOk = true ∧ r.back.weekdayOk = true) ∧
      (1 ≤ r.forward.hour ∧ r.forward.hour ≤ 22) ∧ (1 ≤ r.back.hour ∧ r.back.hour ≤ 23) ∧
      sameTransitionDate r.forward r.back = false := by
  rw [firstFault_eq_none]
  simp [daylightTests]
  tauto

/-! ### The whole integrity pass (R174 to R177) -/

/-- What the pass has left when it has examined the entries below `n`: their references sound, apart, and claimed. -/
structure PassedBelow (n : Nat) (s : State) : Prop where
  bare : ∀ e, (s.store.headers.get e).header.state = .named .empty → (s.store.headers.get e).header.body = none
  taken : ∀ e r, e.val < n → (s.store.headers.get e).header.body = some r →
    (s.store.headers.get e).header.state ∈ [.named .draft, .named .armed, .named .retired] ∧
      (1 ≤ r.length ∧ r.length ≤ 240 ∧ r.first + granulesFor r.length ≤ 2048) ∧ r ∈ s.supply.claims
  apart : ∀ e k r q, e.val < n → k.val < n → e ≠ k → (s.store.headers.get e).header.body = some r →
    (s.store.headers.get k).header.body = some q → ¬ RunsMeet r q

theorem header_putHeader (e k : EntryIx) (h : Header) (p : ProgramStore) :
    (putHeader e h p).headers.get k = if k = e then freshHeader h else p.headers.get k := by
  simp only [putHeader, Vector.get_eq_getElem, Vector.getElem_set]
  by_cases hk : k = e
  · subst hk
    simp
  · have : ¬ (e.val = k.val) := fun hh => hk (Fin.ext hh.symm)
    simp [hk, this]

theorem below_of_ne {n : Nat} {k e : EntryIx} (h : k.val < n + 1) (he : e.val = n) (hne : k ≠ e) : k.val < n := by
  have : k.val ≠ n := fun x => hne (Fin.ext (x.trans he.symm))
  omega

/-- A fault found: the entry holds no reference, and the rest is as it was (R177). -/
theorem PassedBelow.quarantined {n : Nat} {s : State} (h : PassedBelow n s) (e : EntryIx) (he : e.val = n)
    (record : FaultRecord) : PassedBelow (n + 1) (startQuarantine e record s) := by
  have hb : ((startQuarantine e record s).store.headers.get e).header.body = none := by
    change ((putHeader e (bareHeader .quarantined) s.store).headers.get e).header.body = none
    rw [header_putHeader, if_pos rfl]
    rfl
  have ho : ∀ k, k ≠ e → (startQuarantine e record s).store.headers.get k = s.store.headers.get k := by
    intro k hk
    exact (header_putHeader e k _ s.store).trans (if_neg hk)
  have hne : ∀ k r, ((startQuarantine e record s).store.headers.get k).header.body = some r → k ≠ e := by
    rintro k r hk rfl
    rw [hb] at hk
    cases hk
  refine ⟨fun k hk => ?_, fun k r hk hr => ?_, fun a b r q ha hb' hab hr hq => ?_⟩
  · by_cases hke : k = e
    · rw [hke]
      exact hb
    · rw [ho k hke] at hk ⊢
      exact h.bare k hk
  · have hke := hne k r hr
    rw [ho k hke] at hr ⊢
    exact h.taken k r (below_of_ne hk he hke) hr
  · have hae := hne a r hr
    have hbe := hne b q hq
    rw [ho a hae] at hr
    rw [ho b hbe] at hq
    exact h.apart a b r q (below_of_ne ha he hae) (below_of_ne hb' he hbe) hab hr hq

/-- An entry without a reference is passed by. -/
theorem PassedBelow.without {n : Nat} {s : State} (h : PassedBelow n s) (e : EntryIx) (he : e.val = n)
    (hb : (s.store.headers.get e).header.body = none) : PassedBelow (n + 1) s := by
  have hne : ∀ k r, (s.store.headers.get k).header.body = some r → k.val ≠ n := by
    rintro k r hr hk
    rw [Fin.ext (hk.trans he.symm), hb] at hr
    cases hr
  refine ⟨h.bare, fun k r hk hr => ?_, fun a b r q ha hb' hab hr hq => ?_⟩
  · exact h.taken k r (by have := hne k r hr; omega) hr
  · exact h.apart a b r q (by have := hne a r hr; omega) (by have := hne b q hq; omega) hab hr hq

/-- The examination of one entry (R175, R176). -/
theorem PassedBelow.testEntry {n : Nat} {s : State} (h : PassedBelow n s) (e : EntryIx) (he : e.val = n) :
    PassedBelow (n + 1) (testEntry e s) := by
  unfold Machine.testEntry
  dsimp only
  split
  · rename_i hst
    exact h.without e he (h.bare e hst)
  · rename_i hst
    split
    · rename_i hp
      rw [passes_iff _ hst] at hp
      split
      · rename_i hb
        exact h.without e he hb
      · rename_i r hb
        split
        · rename_i ht
          obtain ⟨t1, t2, t3, t4, _⟩ := (refTests_iff s e r).mp ht
          have hstate : (s.store.headers.get e).header.state ∈ [.named .draft, .named .armed, .named .retired] := by
            rcases hp.2 with hq | ⟨d, hq, _⟩
            · rw [hq.2.2.1] at hb
              cases hb
            · simpa using hq
          refine ⟨h.bare, fun k q hk hq => ?_, fun a b p q ha hb' hab hp' hq => ?_⟩
          · by_cases hke : k = e
            · subst hke
              have : q = r := Option.some.inj (hq.symm.trans hb)
              subst this
              exact ⟨hstate, ⟨t1, t2, t3⟩, by simp⟩
            · obtain ⟨c1, c2, c3⟩ := h.taken k q (below_of_ne hk he hke) hq
              exact ⟨c1, c2, List.mem_append_left _ c3⟩
          · by_cases hae : a = e
            · subst hae
              have : p = r := Option.some.inj (hp'.symm.trans hb)
              subst this
              have hbn : b.val < n := below_of_ne hb' he (Ne.symm hab)
              exact fun hm => t4 q (h.taken b q hbn hq).2.2 hm.symm
            · have han : a.val < n := below_of_ne ha he hae
              by_cases hbe : b = e
              · subst hbe
                have : q = r := Option.some.inj (hq.symm.trans hb)
                subst this
                exact t4 p (h.taken a p han hp').2.2
              · exact h.apart a b p q han (below_of_ne hb' he hbe) hab hp' hq
        · exact h.quarantined e he .body
    · exact h.quarantined e he .header

/-- The examination of the entries, in index order. -/
theorem PassedBelow.tested {s : State} (h : PassedBelow 0 s) (n : Nat) (hn : n ≤ 256) :
    PassedBelow n (((List.range n).map (fun n => StartUnit.testEntry (Fin.ofNat 256 n))).foldl runStartUnit s) := by
  induction n with
  | zero => exact h
  | succ n ih =>
    rw [List.range_succ, List.map_append, List.foldl_append]
    exact (ih (by omega)).testEntry _ (Nat.mod_eq_of_lt (by omega))

theorem PassedBelow.referencesSound {s : State} (h : PassedBelow 256 s) : ReferencesSound s.store where
  owners e r hr := (h.taken e r e.isLt hr).1
  inHeap e r hr := (h.taken e r e.isLt hr).2.1
  apart e k r q hek hr hq := h.apart e k r q e.isLt k.isLt hek hr hq

/-- The examination of the configuration records leaves the headers and the claims. -/
theorem configTests_keep (s : State) :
    let t := [StartUnit.testSegment 0, .testSegment 1, .testSegment 2, .testSegment 3, .testDaylight].foldl runStartUnit s
    t.store.headers = s.store.headers ∧ t.supply.claims = s.supply.claims ∧ t.cal = s.cal ∧
      t.supply.backupLost = s.supply.backupLost := by
  have hs : ∀ (i : Seg) (u : State), (runStartUnit u (.testSegment i)).store.headers = u.store.headers ∧
      (runStartUnit u (.testSegment i)).supply.claims = u.supply.claims ∧ (runStartUnit u (.testSegment i)).cal = u.cal ∧
      (runStartUnit u (.testSegment i)).supply.backupLost = u.supply.backupLost := by
    intro i u
    simp only [runStartUnit]
    split <;> exact ⟨rfl, rfl, rfl, rfl⟩
  have hd : ∀ u : State, (runStartUnit u .testDaylight).store.headers = u.store.headers ∧
      (runStartUnit u .testDaylight).supply.claims = u.supply.claims ∧ (runStartUnit u .testDaylight).cal = u.cal ∧
      (runStartUnit u .testDaylight).supply.backupLost = u.supply.backupLost := by
    intro u
    simp only [runStartUnit]
    split <;> exact ⟨rfl, rfl, rfl, rfl⟩
  simp only [List.foldl_cons, List.foldl_nil, hs, hd, and_self]

/-! ### The allocation map (R31, R178) -/

/-- The map built from sound references shows as an entry's exactly its run. -/
theorem get_mapOf {p : ProgramStore} (h : ReferencesSound p) (g : Fin 2048) (e : EntryIx) :
    (mapOf p).get g = some e ↔ ∃ r, (p.headers.get e).header.body = some r ∧ r.first ≤ g.val ∧
      g.val < r.first + granulesFor r.length := by
  have key : ∀ l : List EntryIx, (l.foldl (claimRun p) (Vector.replicate 2048 none)).get g = some e ↔
      e ∈ l ∧ ∃ r, (p.headers.get e).header.body = some r ∧ r.first ≤ g.val ∧
        g.val < r.first + granulesFor r.length := by
    intro l
    induction l using List.reverseRecOn with
    | nil => simp [Vector.get_eq_getElem]
    | append_singleton l k ih =>
      rw [List.foldl_append, List.foldl_cons, List.foldl_nil]
      generalize l.foldl (claimRun p) (Vector.replicate 2048 none) = m at *
      rw [List.mem_append, List.mem_singleton]
      unfold claimRun
      dsimp only
      cases hb : (p.headers.get k).header.body with
      | none =>
        dsimp only
        rw [ih]
        constructor
        · exact fun hh => ⟨Or.inl hh.1, hh.2⟩
        · rintro ⟨hm | rfl, hr⟩
          · exact ⟨hm, hr⟩
          · obtain ⟨r, hr, _⟩ := hr
            rw [hb] at hr
            cases hr
      | some q =>
        have hd : (p.headers.get k).header.state.entryState.defined = true := by
          have := h.owners k q hb
          simp only [List.mem_cons, List.not_mem_nil, or_false] at this
          rcases this with h1 | h1 | h1 <;> rw [h1] <;> rfl
        dsimp only
        rw [if_pos hd, get_giveInMap]
        by_cases hg : q.first ≤ g.val ∧ g.val < q.first + granulesFor q.length
        · rw [if_pos hg]
          constructor
          · rintro hk
            cases hk
            exact ⟨Or.inr rfl, q, hb, hg⟩
          · rintro ⟨_, r, hr, h1, h2⟩
            by_cases hek : e = k
            · rw [hek]
            · exact absurd ⟨g.val, ⟨h1, h2⟩, hg⟩ (h.apart e k r q hek hr hb)
        · rw [if_neg hg, ih]
          constructor
          · exact fun hh => ⟨Or.inl hh.1, hh.2⟩
          · rintro ⟨hm | rfl, hr⟩
            · exact ⟨hm, hr⟩
            · obtain ⟨r, hr, h1⟩ := hr
              rw [hb] at hr
              cases hr
              exact absurd h1 hg
  have hall : ∀ e : EntryIx, e ∈ (List.range 256).map entryIx := by
    intro e
    exact List.mem_map.mpr ⟨e.val, List.mem_range.mpr e.isLt, Fin.ext (Nat.mod_eq_of_lt e.isLt)⟩
  unfold mapOf
  rw [key]
  exact and_iff_right (hall e)

/-- The map as the volatile initialisation leaves it. -/
theorem volatileInit_map (s : State) : (volatileInit s).ctl.map = mapOf s.store := by simp only [volatileInit]

/-! ### The whole sequence -/

/-- Some record operations leave the heap's bytes, the phase, the cause and the straps. -/
theorem foldl_runStartUnit_keeps (l : List StartUnit) (s : State) :
    (l.foldl runStartUnit s).store.heap = s.store.heap ∧ (l.foldl runStartUnit s).supply.phase = s.supply.phase ∧
      (l.foldl runStartUnit s).supply.cause = s.supply.cause ∧ (l.foldl runStartUnit s).supply.ls1 = s.supply.ls1 ∧
      (l.foldl runStartUnit s).supply.ls0 = s.supply.ls0 := by
  induction l generalizing s with
  | nil => exact ⟨rfl, rfl, rfl, rfl, rfl⟩
  | cons u l ih =>
    rw [List.foldl_cons]
    obtain ⟨a, b, c, d, e⟩ := ih (runStartUnit s u)
    obtain ⟨b', c', d', e', _⟩ := supply_runStartUnit s u
    exact ⟨a.trans (heap_runStartUnit s u), b.trans b', c.trans c', d.trans d', e.trans e'⟩

/-- The cold initialisation's headers (R173). -/
theorem coldHeaders_spec (s : State) (n : Nat) (hn : n ≤ 256) :
    let t := ((List.range n).map (fun n => StartUnit.coldHeader (Fin.ofNat 256 n))).foldl runStartUnit s
    (∀ e : EntryIx, t.store.headers.get e =
        if e.val < n then freshHeader (bareHeader .empty) else s.store.headers.get e) ∧
      t.supply = s.supply ∧ t.cal = s.cal := by
  induction n with
  | zero => simp
  | succ n ih =>
    have ih := ih (by omega)
    dsimp only at ih ⊢
    rw [List.range_succ, List.map_append, List.foldl_append]
    generalize ((List.range n).map (fun n => StartUnit.coldHeader (Fin.ofNat 256 n))).foldl runStartUnit s = t at *
    have hv : (Fin.ofNat 256 n).val = n := Nat.mod_eq_of_lt (by omega)
    refine ⟨fun e => ?_, ih.2.1, ih.2.2⟩
    change (putHeader (Fin.ofNat 256 n) (bareHeader .empty) t.store).headers.get e = _
    rw [header_putHeader]
    by_cases he : e = Fin.ofNat 256 n
    · rw [if_pos he, if_pos (by rw [he, hv]; omega)]
    · have : e.val ≠ n := fun h => he (Fin.ext (by rw [hv]; exact h))
      rw [if_neg he, ih.1]
      by_cases h : e.val < n
      · rw [if_pos h, if_pos (by omega)]
      · rw [if_neg h, if_neg (by omega)]

/-- The examination of EMPTY entries changes nothing (R175). -/
theorem testEntries_empty (s : State) (n : Nat) (h : ∀ e, (s.store.headers.get e).header.state = .named .empty) :
    ((List.range n).map (fun n => StartUnit.testEntry (Fin.ofNat 256 n))).foldl runStartUnit s = s := by
  induction n with
  | zero => rfl
  | succ n ih =>
    rw [List.range_succ, List.map_append, List.foldl_append, ih]
    change testEntry _ s = s
    unfold testEntry
    dsimp only
    rw [if_pos (h _)]

/-- The examination of records that hold their defaults changes nothing (R174). -/
theorem configTests_default (s : State) (hs : s.store.segRecords = .same (freshSegConfig defaultSegConfig))
    (hd : s.store.daylightRecord = freshDaylight defaultDaylight) :
    [StartUnit.testSegment 0, .testSegment 1, .testSegment 2, .testSegment 3, .testDaylight].foldl runStartUnit s = s := by
  have h1 : ∀ i, runStartUnit s (.testSegment i) = s := by
    intro i
    have : s.store.segRecords.get i = freshSegConfig defaultSegConfig := by
      rw [hs]
      fin_cases i <;> rfl
    simp only [runStartUnit]
    rw [if_pos]
    rw [this]
    exact ⟨by simp only [freshSegConfig], by decide⟩
  have h2 : runStartUnit s .testDaylight = s := by
    simp only [runStartUnit]
    rw [if_pos]
    rw [hd]
    exact ⟨by simp only [freshDaylight], by decide⟩
  simp only [List.foldl_cons, List.foldl_nil, h1, h2]

/-- A whole cold start's record operations (R173). -/
theorem coldSequence_spec (s : State) :
    let t := (startSequence .cold).foldl runStartUnit s
    (∀ e, t.store.headers.get e = freshHeader (bareHeader .empty)) ∧
      (∀ i, t.store.segRecords.get i = freshSegConfig defaultSegConfig) ∧
      t.store.daylightRecord = freshDaylight defaultDaylight ∧ t.supply.backupLost = false ∧
      t.cal = { Calendar.cold with runSecond := s.cal.runSecond } := by
  unfold startSequence
  rw [if_pos rfl, List.foldl_append, List.foldl_append, List.foldl_append]
  obtain ⟨h1, h2, h3⟩ := coldHeaders_spec s 256 (le_refl _)
  generalize ((List.range 256).map (fun n => StartUnit.coldHeader (Fin.ofNat 256 n))).foldl runStartUnit s = t at *
  have h4 : [StartUnit.coldSegment 0, .coldSegment 1, .coldSegment 2, .coldSegment 3, .coldDaylight, .coldCalendar,
      .coldLatch].foldl runStartUnit t = { t with
        store := { t.store with
          segRecords := .same (freshSegConfig defaultSegConfig), daylightRecord := freshDaylight defaultDaylight }
        cal := { Calendar.cold with runSecond := t.cal.runSecond }
        supply := { t.supply with backupLost := false } } := by
    simp only [List.foldl_cons, List.foldl_nil, runStartUnit]
    rfl
  have he : ∀ e : EntryIx, t.store.headers.get e = freshHeader (bareHeader .empty) := by
    intro e
    rw [h1 e, if_pos e.isLt]
  rw [h4, configTests_default _ rfl rfl, testEntries_empty]
  · refine ⟨he, fun i => ?_, rfl, rfl, ?_⟩
    · fin_cases i <;> rfl
    · rw [h3]
  · intro e
    change (t.store.headers.get e).header.state = _
    rw [he]
    rfl

/-- A whole sequence leaves sound references (R176, R178). -/
theorem referencesSound_sequence (cause : StartCause) (s : State)
    (hb : ∀ e, (s.store.headers.get e).header.state = .named .empty → (s.store.headers.get e).header.body = none) :
    ReferencesSound ((startSequence cause).foldl runStartUnit s).store := by
  by_cases h : cause = .cold
  · subst h
    obtain ⟨h1, _⟩ := coldSequence_spec s
    generalize (startSequence .cold).foldl runStartUnit s = t at *
    have hn : ∀ e r, (t.store.headers.get e).header.body = some r → False := by
      intro e r hr
      rw [h1] at hr
      cases hr
    exact ⟨fun e r hr => (hn e r hr).elim, fun e r hr => (hn e r hr).elim, fun e _ r _ _ hr => (hn e r hr).elim⟩
  · unfold startSequence
    rw [if_neg h, List.nil_append, List.foldl_append]
    obtain ⟨k1, _⟩ := configTests_keep s
    refine (PassedBelow.tested ⟨?_, fun _ _ h => absurd h (by omega), fun _ _ _ _ h => absurd h (by omega)⟩ 256
      (le_refl _)).referencesSound
    rw [k1]
    exact hb

/-! ### The notices of a start-up (R180) -/

/-- The Notice Unit when notices of some bodies have been posted at one moment from the start-up values, none sent. -/
def noticesPosted (stamp : Stamp) (l : List NoticeBody) : NoticeUnit :=
  { queue := (l.take 32).zipIdx.map (fun x => ⟨⟨BitVec.ofNat 16 x.2, stamp, x.1⟩, false, false⟩)
    nextSerial := BitVec.ofNat 16 (min 32 l.length)
    timer := false
    resendCount := 0
    gapCount := min 65535 (l.length - 32)
    mask := 0
    hostAbsent := false }

/-- One more post. -/
theorem post_noticesPosted (b : NoticeBody) (l : List NoticeBody) (s : State)
    (h : s.notices = noticesPosted (stampNow s) l) :
    post b s = { s with notices := noticesPosted (stampNow s) (l ++ [b]) } := by
  have hlen : s.notices.queue.length = min 32 l.length := by
    rw [h]
    simp [noticesPosted]
  unfold post
  rw [if_neg (by rw [h]; simp [noticesPosted])]
  by_cases hl : 32 ≤ l.length
  · have e1 : (l ++ [b]).take 32 = l.take 32 := List.take_append_of_le_length hl
    have e2 : min 32 (l ++ [b]).length = min 32 l.length := by simp; omega
    have e3 : min 65535 ((l ++ [b]).length - 32) = min 65535 (min 65535 (l.length - 32) + 1) := by simp; omega
    rw [if_pos (by rw [hlen]; unfold Config.noticeCapacity; omega), h]
    unfold noticesPosted countUp Config.countCeiling
    rw [e1, e2, e3]
  · rw [if_neg (by rw [hlen]; unfold Config.noticeCapacity; omega)]
    unfold makeNotice
    rw [h]
    unfold noticesPosted
    dsimp only
    congr 2
    · rw [List.take_of_length_le (by omega), List.take_of_length_le (by simp; omega), List.zipIdx_append,
        List.map_append, Nat.min_eq_right (by omega)]
      simp
    · rw [List.length_append, Nat.min_eq_right (by omega), Nat.min_eq_right (by simp; omega), BitVec.ofNat_add]
      rfl
    · rw [List.length_append]
      simp
      omega

/-- The deferred notices, in the order of the fault items. -/
theorem foldl_postFaultItem (f : List FaultItem) (l : List NoticeBody) (s : State)
    (h : s.notices = noticesPosted (stampNow s) l) :
    f.foldl postFaultItem s = { s with notices := noticesPosted (stampNow s) (l ++ f.map faultNotice) } := by
  induction f generalizing l s with
  | nil => simp [← h]
  | cons x f ih =>
    have hx : postFaultItem s x = post (faultNotice x) s := by cases x <;> rfl
    rw [List.foldl_cons, hx, post_noticesPosted _ l s h, ih (l ++ [faultNotice x]) _ rfl]
    simp [stampNow]

end Sys2Proof.Machine
end

