-- ==== Sys2Proof/WellFormed.lean ====
section
/-! DEFINITION. Which commands are well formed: an event of a receiver brings at least one character, and a start-up
makes no more record operations than its sequence has. A meaning is total on every command; these checks say which
commands name an event of the part. -/

namespace Sys2Proof

/-- The number of record operations of the longest start-up sequence: 256 headers, five configuration records, the
calendar and the latch written by a cold initialisation (R173), then five configuration records (R174) and 256
entries (R175) examined. -/
def longestStartUp : Nat := 256 + 5 + 1 + 1 + 5 + 256

/-- A start-up's operand names a number of record operations that its sequence can make. -/
def StartInput.wellFormed (i : StartInput) : Bool := i.work ≤ longestStartUp

/-- The check of one command. -/
def Instr.wellFormed : Instr → Bool
  | .entryDefine | .entryArm | .entryDisarm | .entryDelete | .entryRead | .entryMap | .entryFire => true
  | .bodyLoad | .bodyRead | .bodyDrop | .storeCompact | .storeStatus | .storeErase => true
  | .clockSet | .clockRead | .clockRule => true
  | .queueRead | .queuePurge | .dispatchHold | .dispatchRelease => true
  | .segmentConfig | .segmentOpen | .segmentClose | .segmentHold | .segmentRelease | .segmentStatus => true
  | .linkEcho | .partStatus | .partReset | .noticeAck | .noticeMask | .unknownKindRequest => true
  | .frameArrival chars => !chars.isEmpty
  | .frameDiscard chars => !chars.isEmpty
  | .interCharacterTimerExpiry => true
  | .replyTransmitEnd start => start.wellFormed
  | .noticeFrameEnd | .resendTimerExpiry => true
  | .updateEvent | .expirySweep | .scanStep | .compactionStep => true
  | .fetch _ | .recordingOperation _ | .sendStartAfterGap _ | .telegramSendEnd _ => true
  | .deviceReply _ chars => !chars.isEmpty
  | .responseWindowExpiry _ | .backoffExpiry _ | .probeTimerExpiry _ => true
  | .mainSupplyFail => true
  | .mainSupplyReturn start => start.wellFormed
  | .nrstAssert => true
  | .nrstRelease start => start.wellFormed
  | .backupLost | .startUpSequenceEnd => true

end Sys2Proof
end

