-- ==== Sys2Proof/Tests/Slice0.lean ====
section
/-! SUPPORT. Tests of the model on small states: the check of a well-formed command, the worked examples of the spec, and
for each statement a state and operands that meet its hypotheses. -/

namespace Sys2Proof.Tests

set_option Elab.async false

open Sys2Proof Sys2Proof.Machine

/-! ### Well-formed commands -/

theorem test_no_characters_refused :
    (Instr.frameArrival []).wellFormed = false ∧ (Instr.frameDiscard []).wellFormed = false ∧
      (Instr.deviceReply 3 []).wellFormed = false := by decide

theorem test_too_much_start_work_refused :
    (Instr.replyTransmitEnd ⟨false, false, 525⟩).wellFormed = false ∧
      (Instr.mainSupplyReturn ⟨false, false, 525⟩).wellFormed = false ∧
      (Instr.nrstRelease ⟨true, true, 525⟩).wellFormed = false := by decide

theorem test_events_accepted :
    (Instr.nrstRelease ⟨true, true, 524⟩).wellFormed = true ∧ (Instr.frameArrival [⟨0xA5#8, true⟩]).wellFormed = true ∧
      Instr.scanStep.wellFormed = true := by decide

/-- No row of the table has bits. -/
theorem test_no_word_decodes (nbits w : Nat) : decodeTableWord nbits w = none := rfl

/-! ### Worked examples -/

/-- The check of the nine characters 1 to 9 (R186). -/
theorem test_check_of_digits :
    crc16 [0x31#8, 0x32#8, 0x33#8, 0x34#8, 0x35#8, 0x36#8, 0x37#8, 0x38#8, 0x39#8] = 0x29B1#16 := by decide +kernel

/-- 29 February 2024 is a Thursday, and 31 December 2199 a Tuesday (R55). -/
theorem test_weekdays : weekdayOf 2024 2 29 = 4 ∧ weekdayOf 2199 12 31 = 2 := by decide +kernel

/-- The last Sundays of March and October 2024 are the 31st and the 27th (3.4.1). -/
theorem test_transition_days : transitionDay ⟨3, 5, 7, 2⟩ 2024 = 31 ∧ transitionDay ⟨10, 5, 7, 3⟩ 2024 = 27 := by
  decide +kernel

/-! ### Small states -/

/-- A definition of kind CALENDAR: 07:30:00 on weekdays, to destination 14 of segment 2. -/
def daily : Definition :=
  ⟨.calendar ⟨some 0, some 30, some 7, 0x1F#7, .any, none⟩ .once, 2, 14, 1, some 2, some 2, false, .failures, 0⟩

/-- A definition of kind INTERVAL: every 10 s, to destination 126 of segment 0. -/
def ticking (remaining : Nat) : Definition := ⟨.interval 10 5 remaining, 0, 126, 3, none, none, false, .all, 0⟩

/-- A header of a state and a definition. -/
def headerOf (st : EntryState) (d : Definition) : Header := ⟨.named st, some d, none, none, none⟩

/-- A state with one stored header, and the list as it is. -/
def put (e : EntryIx) (h : StoredHeader) (s : State) : State :=
  { s with
    store := { s.store with headers := s.store.headers.set e h }
    ctl := { s.ctl with states := s.ctl.states.set e h.header.state.entryState } }

/-- A header whose check does not agree. -/
def spoiled (st : EntryState) : StoredHeader := ⟨headerOf st daily, headerCheck (headerOf st daily) ^^^ 1#16⟩

/-- A request as it stands in the queue. -/
def request (kind : Byte) (body : List Byte) : Request := ⟨7#8, kind, body, false⟩

/-- A state with one request in hand. -/
def asked (kind : Byte) (body : List Byte) (s : State) : State :=
  { s with link := { s.link with requests := [request kind body] } }

/-- A state in which an entry owns granule 0, with the record of the body 55H there, or none. -/
def withRecord (e : EntryIx) (st : EntryState) (d : Definition) (good : Bool) (s : State) : State :=
  let s := put e (freshHeader { headerOf st d with body := some ⟨0, 1⟩ }) s
  { s with
    store := { s.store with heap := if good then Memory.writeBytes [] 0 (bodyRecord e [0x55#8]) else [] }
    ctl := { s.ctl with map := s.ctl.map.set 0 (some e) } }

/-- A job. -/
def jobOf (tag : Word16) (e : EntryIx) (destination urgency : Nat) (inService : Bool) : Job :=
  ⟨tag, e, destination, urgency, .manual, none, 0, false, inService, 0, 0⟩

/-- A port changed, and its queue set. -/
def lineWith (i : Seg) (f : Port → Port) (q : List Job) (s : State) : State := setQueue i q (onPort i f s)

/-- A pass at an entry. -/
def passAt (e : EntryIx) (sweep : Bool) (r : Reading) : Pass := ⟨⟨r, .normal, true, 9⟩, e, sweep⟩

/-- Wednesday 2024-07-10, 07:30:00. -/
def dueTime : Reading := ⟨2024, 7, 10, 7, 30, 0⟩

/-- A state in a phase. -/
def inPhase (p : Phase) (s : State) : State := { s with supply := { s.supply with phase := p } }

/-! ### Hypotheses that are met: the machine and its requests -/

/-- With a command pending, the state after reset still meets every invariant, and its step answers a next state. -/
def waiting1 : State := { State.reset with pending := [.nrstRelease ⟨true, true, 0⟩] }

theorem witness_StepKeepsHeapCanonical : HeapCanonical waiting1 ∧ ∃ t, step waiting1 = .next t := ⟨by unfold HeapCanonical; decide, _, rfl⟩

theorem witness_StepKeepsLinkBounds : LinkBounds waiting1.link ∧ ∃ t, step waiting1 = .next t :=
  ⟨⟨by decide, by decide, by decide, by decide, by decide, by decide, by decide⟩, _, rfl⟩

theorem witness_StepKeepsNotices : NoticesSound waiting1 ∧ ∃ t, step waiting1 = .next t :=
  ⟨⟨⟨by decide, by decide, by decide, by decide, by decide, by decide, by decide, by decide, by decide⟩, rfl⟩, _, rfl⟩

theorem queuesSound_reset : QueuesSound State.reset := by
  refine ⟨fun i => ?_, by decide, by decide⟩
  rw [show State.reset.queue i = [] from by fin_cases i <;> rfl]
  exact ⟨by decide, by decide, by decide, by decide, by decide⟩

theorem witness_StepKeepsQueues : QueuesSound waiting1 ∧ ∃ t, step waiting1 = .next t :=
  ⟨⟨queuesSound_reset.order, queuesSound_reset.tags, queuesSound_reset.noTag⟩, _, rfl⟩

theorem witness_StepKeepsArbiter : ArbiterSound waiting1 ∧ ∃ t, step waiting1 = .next t := ⟨List.Perm.refl _, _, rfl⟩

theorem listAgrees_reset : ListAgrees State.reset := by
  intro e
  simp [stateOf, State.reset, StoreControl.start, ProgramStore.cold, freshHeader, bareHeader, StoredState.entryState,
    Vector.get]

theorem witness_StepKeepsStateList : (waiting1.supply.running → ListAgrees waiting1) ∧
    ∃ t, step waiting1 = .next t ∧ t.supply.running := ⟨fun _ => listAgrees_reset, _, rfl, .inl rfl⟩

theorem mapAgrees_reset : MapAgrees State.reset := by
  intro e
  simp [State.reset, StoreControl.start, ProgramStore.cold, freshHeader, bareHeader, Vector.get]

theorem witness_StepKeepsMap : waiting1.supply.running ∧ MapAgrees waiting1 ∧
    ∃ t, step waiting1 = .next t ∧ t.supply.running := ⟨.inl rfl, mapAgrees_reset, _, rfl, .inl rfl⟩

/-- Each of tests 1 to 3 refuses some request: a KIND of no request, a length, a field. -/
theorem witness_RefusedRequestActsOnLinkOnly :
    inHand (asked 0xFF#8 [] State.reset) = some (request 0xFF#8 []) ∧
    requestError State.reset (request 0xFF#8 []) = some .unknownKind ∧
    requestError State.reset (request 0x02#8 []) = some .badLength ∧
    requestError State.reset (request 0x2A#8 [4#8]) = some (.badField 1) := by decide +kernel

/-- A request waits for the Matcher, which stands higher. -/
theorem witness_ArbiterGrantsHighestPending :
    let s := asked 0x02#8 [0#8] (grant .commandInterpreter { State.reset with matcher := some (passAt 0 true dueTime) })
    s.supply.phase = .inService ∧ inHand s = some (request 0x02#8 [0#8]) ∧ storeReady 0x02#8 [0#8] = true ∧
      granted s .commandInterpreter = false ∧ granted s .matcher = true := by decide +kernel

/-! ### Entry requests -/

/-- A CALENDAR definition of entry 40, to be made DRAFT, or ARMED with its body kept. -/
def defineBody (flags : Byte) : List Byte :=
  [40#8, flags, 0#8, 0#8, 30#8, 7#8, 0x1F#8, 0xFF#8, 0xFF#8, 0#8, 2#8, 14#8, 1#8, 0#8, 2#8, 0#8, 1#8]

theorem witness_DefineWritesEntry_new :
    ServingStore (asked 0x01#8 (defineBody 0#8) State.reset) (request 0x01#8 (defineBody 0#8)) 0x01#8 ∧
    parseDefine (defineBody 0#8) = .ok ⟨40, false, false, daily⟩ ∧
    ServingStore (asked 0x01#8 (defineBody 3#8) State.reset) (request 0x01#8 (defineBody 3#8)) 0x01#8 ∧
    parseDefine (defineBody 3#8) = .ok ⟨40, true, true, daily⟩ ∧
    (stateOf (asked 0x01#8 (defineBody 3#8) State.reset) 40).defined = false := by
  refine ⟨⟨⟨?_, ?_, ?_⟩, ?_⟩, ?_, ⟨⟨?_, ?_, ?_⟩, ?_⟩, ?_, ?_⟩ <;> decide +kernel

theorem witness_DefineWritesEntry_kept :
    let s := asked 0x01#8 (defineBody 3#8) (withRecord 40 .armed daily true State.reset)
    let h : Header := { headerOf .armed daily with body := some ⟨0, 1⟩ }
    ServingStore s (request 0x01#8 (defineBody 3#8)) 0x01#8 ∧ Holds s 40 h daily ∧ daily.segment = 2 := by
  refine ⟨⟨⟨?_, ?_, ?_⟩, ?_⟩, ⟨?_, ?_⟩, ?_⟩ <;> decide +kernel

/-- The first and the last entry, of the two kinds. -/
theorem witness_ArmReloadsCounts :
    (let s := asked 0x02#8 [0#8] (put 0 (freshHeader (headerOf .armed (ticking 3))) State.reset);
      ServingStore s (request 0x02#8 [0#8]) 0x02#8 ∧ Holds s 0 (headerOf .armed (ticking 3)) (ticking 3)) ∧
    (let s := asked 0x02#8 [0xFF#8] (put 255 (freshHeader (headerOf .retired daily)) State.reset);
      ServingStore s (request 0x02#8 [0xFF#8]) 0x02#8 ∧ Holds s 255 (headerOf .retired daily) daily) := by
  refine ⟨⟨⟨⟨?_, ?_, ?_⟩, ?_⟩, ?_, ?_⟩, ⟨⟨?_, ?_, ?_⟩, ?_⟩, ?_, ?_⟩ <;> decide +kernel

theorem witness_DisarmMakesDraft :
    let s := put 2 (freshHeader (headerOf .retired daily)) (put 1 (freshHeader (headerOf .draft daily))
      (put 3 (freshHeader (bareHeader .quarantined)) (put 0 (freshHeader (headerOf .armed daily)) State.reset)))
    ServingStore (asked 0x03#8 [0#8] s) (request 0x03#8 [0#8]) 0x03#8 ∧ stateOf s 0 = .armed ∧
      readHeader s 0 = some (headerOf .armed daily, daily) ∧ stateOf s 1 = .draft ∧ stateOf s 2 = .retired ∧
      stateOf s 3 = .quarantined := by
  refine ⟨⟨⟨?_, ?_, ?_⟩, ?_⟩, ?_, ?_, ?_, ?_, ?_⟩ <;> decide +kernel

theorem witness_DeleteEmptiesEntry :
    let s := asked 0x04#8 [9#8] (put 9 (spoiled .armed) State.reset)
    ServingStore s (request 0x04#8 [9#8]) 0x04#8 ∧ stateOf s 9 ≠ .empty ∧ stateOf State.reset 9 = .empty := by
  refine ⟨⟨⟨?_, ?_, ?_⟩, ?_⟩, ?_, ?_⟩ <;> decide +kernel

theorem witness_StoreSnapshots :
    let s := put 9 (freshHeader (headerOf .draft daily)) State.reset
    ServingStore (asked 0x05#8 [9#8] s) (request 0x05#8 [9#8]) 0x05#8 ∧ Holds s 9 (headerOf .draft daily) daily ∧
    (stateOf s 8).defined = false ∧ ServingStore (asked 0x06#8 [] s) (request 0x06#8 []) 0x06#8 ∧
    ServingStore (asked 0x14#8 [] s) (request 0x14#8 []) 0x14#8 := by
  refine ⟨⟨⟨?_, ?_, ?_⟩, ?_⟩, ⟨?_, ?_⟩, ?_, ⟨⟨?_, ?_, ?_⟩, ?_⟩, ⟨⟨?_, ?_, ?_⟩, ?_⟩⟩ <;> decide +kernel

/-- Headers of each kind of schedule, bare, and with a body, an outcome and a last match. -/
theorem witness_StoreSnapshots_header :
    (∀ d ∈ [daily, ticking 3], (headerOf .draft d).state = .named .draft ∧ (headerOf .draft d).defn = some d) ∧
    (let h : Header := { headerOf .retired daily with
        body := some ⟨2047, 1⟩, lastOutcome := some .abandoned, lastMatch := some (.reading dueTime .normal) };
      h.state = .named .retired ∧ h.defn = some daily ∧ (headerBytes h).length = 30) := by decide +kernel

/-- A DRAFT, an ARMED and a RETIRED entry whose header is faulty, named by each of the requests. -/
theorem witness_HeaderFaultQuarantines :
    ∀ k ∈ [0x02#8, 0x03#8, 0x05#8, 0x07#8, 0x11#8, 0x12#8], ∀ st ∈ [EntryState.draft, .armed, .retired],
      let s := asked k [40#8] (put 40 (spoiled st) State.reset)
      ServingStore s (request k [40#8]) k ∧ (stateOf s 40).defined = true ∧ stateOf s 40 = st ∧ readHeader s 40 = none := by
  intro k hk st hs
  refine ⟨⟨⟨?_, ?_, rfl⟩, ?_⟩, ?_, ?_, ?_⟩ <;> (revert st; revert k; decide +kernel)

/-- BODY-LOAD with the shortest and the longest body, and ENTRY-DEFINE with keep-body set. -/
theorem witness_HeaderFaultQuarantines_written :
    ∀ st ∈ [EntryState.draft, .armed, .retired],
      let s := put 40 (spoiled st) State.reset
      (∀ n ∈ [1, 240], let body := 40#8 :: List.replicate n 0xAA#8;
        ServingStore (asked 0x10#8 body s) (request 0x10#8 body) 0x10#8) ∧
      ServingStore (asked 0x01#8 (defineBody 2#8) s) (request 0x01#8 (defineBody 2#8)) 0x01#8 ∧
      parseDefine (defineBody 2#8) = .ok ⟨40, false, true, daily⟩ ∧ (stateOf s 40).defined = true ∧
      readHeader s 40 = none := by
  intro st hs
  refine ⟨fun n hn => ⟨⟨?_, ?_, rfl⟩, ?_⟩, ⟨⟨?_, ?_, rfl⟩, ?_⟩, ?_, ?_, ?_⟩
  all_goals first | decide +kernel | (revert st; decide +kernel) |
    (revert n; revert st; decide +kernel)

theorem witness_StoreRefusalsChangeNothing_state :
    (∀ k ∈ [0x02#8, 0x07#8, 0x03#8, 0x11#8, 0x12#8], ServingStore (asked k [0#8] State.reset) (request k [0#8]) k) ∧
    ServingStore (asked 0x10#8 [0#8, 1#8] State.reset) (request 0x10#8 [0#8, 1#8]) 0x10#8 ∧
    stateOf State.reset 0 = .empty := by
  refine ⟨fun k hk => ⟨⟨?_, ?_, rfl⟩, ?_⟩, ⟨⟨?_, ?_, ?_⟩, ?_⟩, ?_⟩ <;> first | decide +kernel | (revert k; decide +kernel)

/-- A heap of which entry 1 owns every granule but those from 100 to 113 has no 15 in a row, and 14 as the largest run; while
the compactor runs there is no top run. -/
def crowded (compacting : Bool) : State :=
  let s := put 0 (freshHeader (headerOf .draft daily)) State.reset
  { s with ctl := { s.ctl with
      compacting := compacting
      map := (List.range 14).foldl (fun m k => m.set! (100 + k) none) (Vector.replicate 2048 (some 1)) } }

theorem witness_StoreRefusalsChangeNothing_space :
    ServingStore (asked 0x10#8 (0#8 :: List.replicate 240 0xAA#8) (crowded false))
      (request 0x10#8 (0#8 :: List.replicate 240 0xAA#8)) 0x10#8 ∧
    Holds (crowded false) 0 (headerOf .draft daily) daily ∧
    allocate (crowded false).ctl (granulesFor 240) = none ∧ allocate (crowded true).ctl (granulesFor 1) = none := by
  refine ⟨⟨⟨?_, ?_, ?_⟩, ?_⟩, ⟨?_, ?_⟩, ?_, ?_⟩ <;> decide +kernel

theorem witness_StoreRefusalsChangeNothing_conflict :
    ServingStore (asked 0x13#8 [] (crowded true)) (request 0x13#8 []) 0x13#8 ∧
    ServingStore (asked 0x15#8 [] (crowded true)) (request 0x15#8 []) 0x15#8 ∧
    (crowded true).ctl.compacting = true := by
  refine ⟨⟨⟨?_, ?_, ?_⟩, ?_⟩, ⟨⟨?_, ?_, ?_⟩, ?_⟩, ?_⟩ <;> decide +kernel

/-! ### Offers -/

/-- A waiting job of each of the entries 100 to 100 + n - 1. -/
def others (n urgency : Nat) : List Job :=
  (List.range n).map (fun k => jobOf (BitVec.ofNat 16 k) (entryIx (100 + k)) 5 urgency false)

/-- Entry 40 asked to fire, with segment 2 of a health and a queue. -/
def firing (health : Health) (q : List Job) : State :=
  lineWith 2 (fun p => { p with health := health }) q
    (asked 0x07#8 [40#8] (put 40 (freshHeader (headerOf .armed daily)) State.reset))

theorem witness_firing : ∀ p ∈ [(Health.closed, []), (.up, others 16 1), (.up, others 11 2), (.up, others 15 2)],
    ServingStore (firing p.1 p.2) (request 0x07#8 [40#8]) 0x07#8 ∧
      Holds (firing p.1 p.2) 40 (headerOf .armed daily) daily := by
  intro p hp
  refine ⟨⟨⟨rfl, rfl, rfl⟩, ?_⟩, ⟨?_, ?_⟩⟩ <;> (revert p; decide +kernel)

theorem witness_FireWithoutJob :
    ((firing .closed []).port 2).health = .closed ∧
    (let s := firing .up (others 16 1);
      (s.port 2).health ≠ .closed ∧ 16 ≤ (s.queue 2).length ∧
      (∀ j ∈ s.queue 2, j.entry = 40 → j.inService = true) ∧ (s.queue 2).getLast?.map (·.urgency) = some 1) ∧
    ((firing .down [jobOf 3 40 14 1 true, jobOf 4 40 14 1 false]).queue 2).find?
      (fun j => !j.inService && j.entry == 40) = some (jobOf 4 40 14 1 false) := by decide +kernel

/-- Room for a first job, for the job that reaches the high-water mark, and for the last. -/
theorem witness_FireQueuesJob :
    ∀ n ∈ [0, 11, 15], let s := firing .up (others n 2);
      (s.port 2).health ≠ .closed ∧ (∀ j ∈ s.queue 2, j.entry = 40 → j.inService = true) ∧
        (s.queue 2).length < 16 := by decide +kernel

/-- A full queue whose last job is less urgent, and waits. -/
theorem witness_FireQueuesJob_displaced :
    let s := firing .up (others 16 3)
    let victim := jobOf 15 115 5 3 false
    ServingStore s (request 0x07#8 [40#8]) 0x07#8 ∧ Holds s 40 (headerOf .armed daily) daily ∧
      (s.port 2).health ≠ .closed ∧ (∀ j ∈ s.queue 2, j.entry = 40 → j.inService = true) ∧ (s.queue 2).length = 16 ∧
      (s.queue 2).getLast? = some victim ∧ victim.inService = false ∧ daily.urgency < victim.urgency := by
  refine ⟨⟨⟨?_, ?_, ?_⟩, ?_⟩, ⟨?_, ?_⟩, ?_, ?_, ?_, ?_, ?_, ?_⟩ <;> decide +kernel

/-- An offer of entry 40 with urgency 1: on a closed segment, beside a waiting job of the entry, with room, at a full queue
whose last job is less urgent, and at one whose last job is in service or no less urgent. -/
theorem witness_OfferDispositions :
    (State.reset.port 2).health = .closed ∧ ((firing .up []).port 2).health ≠ .closed ∧
    ((firing .up [jobOf 3 40 14 1 false]).queue 2).find? (fun j => !j.inService && j.entry == 40) =
      some (jobOf 3 40 14 1 false) ∧
    (∀ q ∈ [others 15 3, others 16 3, others 16 1], q.find? (fun j => !j.inService && j.entry == 40) = none) ∧
    (others 15 3).length < 16 ∧ 16 ≤ (others 16 3).length ∧
    (others 16 3).getLast? = some (jobOf 15 115 5 3 false) ∧ 1 < (jobOf 15 115 5 3 false).urgency ∧
    (others 16 1).getLast? = some (jobOf 15 115 5 1 false) ∧
    (∃ s : State, QueuesSound s) ∧ QueueOrder [] ∧ (jobOf 0 40 14 1 false).inService = false := by
  refine ⟨?_, ?_, ?_, ?_, ?_, ?_, ?_, ?_, ?_, ⟨_, queuesSound_reset⟩, ⟨?_, ?_, ?_, ?_, ?_⟩, ?_⟩ <;> decide +kernel

/-! ### The store and the heap -/

/-- The shortest and the longest body. -/
theorem witness_BodyLoadPlacesRecord :
    ∀ n ∈ [1, 240], let body := 0#8 :: List.replicate n 0xAA#8;
      let s := asked 0x10#8 body (put 0 (freshHeader (headerOf .draft daily)) State.reset);
      (s.supply.phase = .inService ∧ inHand s = some (request 0x10#8 body) ∧
        granted s .commandInterpreter = true) ∧ HeapCanonical s ∧ (stateOf s 0).defined = true ∧
        readHeader s 0 = some (headerOf .draft daily, daily) ∧ allocate s.ctl (granulesFor n) = some 0 := by
  unfold HeapCanonical
  decide +kernel

/-- A record for the foot of the top run: on an empty heap, above one record, and with none left. -/
theorem witness_AllocationIsFirstFit :
    allocate State.reset.ctl 1 = some 0 ∧
    (let c := { State.reset.ctl with compacting := true, map := State.reset.ctl.map.set 6 (some 1) };
      allocate c 1 = some 7 ∧ allocate c 2041 = some 7 ∧ allocate c 2042 = none) := by decide +kernel

/-- The free run of 14 granules in a heap with no top run; and a heap whose one record, at granule 100, leaves a top run of
1947 granules, the largest. -/
theorem witness_AllocationIsFirstFit_sizes :
    (∀ k : Fin 14, (crowded false).ctl.map.get (Fin.ofNat 2048 (100 + k.val)) = none) ∧
    (crowded false).ctl.map.get 2047 ≠ none ∧ topRun (crowded false).ctl.map = 0 ∧
    (let m := State.reset.ctl.map.set 100 (some 1);
      m.get 100 ≠ none ∧ largestRun 0 0 m.toList = 1947 ∧ topRun m = 1947) := by
  refine ⟨?_, ?_, ?_, ?_⟩ <;> decide +kernel

theorem witness_BodyReadAndDrop_record :
    ∀ k ∈ [0x11#8, 0x12#8], ∀ good ∈ [true, false],
      let s := asked k [40#8] (withRecord 40 .armed daily good State.reset)
      ServingStore s (request k [40#8]) k ∧ Holds s 40 { headerOf .armed daily with body := some ⟨0, 1⟩ } daily ∧
        recordSound s.store.heap 40 ⟨0, 1⟩ = good := by
  intro k hk good hg
  refine ⟨⟨⟨?_, ?_, rfl⟩, ?_⟩, ⟨?_, ?_⟩, ?_⟩ <;> (revert hk hg; revert good; revert k; decide +kernel)

theorem witness_BodyReadAndDrop_absent :
    stateOf (put 40 (freshHeader (bareHeader .quarantined)) State.reset) 40 = .quarantined ∧
    Holds (put 40 (freshHeader (headerOf .draft daily)) State.reset) 40 (headerOf .draft daily) daily := by
  refine ⟨?_, ?_, ?_⟩ <;> decide +kernel

/-- A state in which the compactor is granted, at a frontier, with the granule 5 of entry 40. -/
def compacting (frontier : Nat) : State :=
  let s := put 40 (freshHeader { headerOf .armed daily with body := some ⟨5, 1⟩ }) State.reset
  { s with
    store := { s.store with heap := Memory.writeBytes [] 80 (bodyRecord 40 [0x55#8]) }
    ctl := { s.ctl with map := s.ctl.map.set 5 (some 40), compacting := true, frontier := frontier } }

theorem get_replicate_set {n : Nat} {α : Type} (a b : α) (k : Nat) (hk : k < n) (g : Fin n) (h : k ≠ g.val) :
    ((Vector.replicate n a).set k b hk).get g = a := by
  show ((Vector.replicate n a).set k b hk)[g.val] = a
  rw [Vector.getElem_set_ne hk g.isLt h, Vector.getElem_replicate]

theorem compacting_free {f : Nat} (g : Fin 2048) (h : 5 ≠ g.val) : (compacting f).ctl.map.get g = none :=
  get_replicate_set none (some 40) 5 (by decide) g h

theorem witness_CompactionStartsAndEnds :
    (let s := asked 0x13#8 [] State.reset;
      ServingStore s (request 0x13#8 []) 0x13#8 ∧ s.ctl.compacting = false ∧ MapAgrees s) ∧
    (granted (compacting 5) .compactor = true ∧ (compacting 5).ctl.map.get 5 = some 40 ∧
      ∀ k : Fin 2048, k.val + 1 = 5 → (compacting 5).ctl.map.get k ≠ some 40) ∧
    granted (compacting 6) .compactor = true ∧ (∀ g : Fin 2048, 6 ≤ g.val → (compacting 6).ctl.map.get g = none) := by
  refine ⟨⟨⟨⟨?_, ?_, ?_⟩, ?_⟩, ?_, mapAgrees_reset⟩, ⟨?_, ?_, fun k hk => ?_⟩, ?_, fun g hg => compacting_free g (by omega)⟩
  case refine_8 => rw [compacting_free k (by omega)]; decide
  all_goals decide +kernel

/-- The compactor granted with the frontier inside the record of an entry, at granules 2 to 5, and no other record. -/
def straddled : State :=
  { State.reset with ctl := { State.reset.ctl with
      map := (((State.reset.ctl.map.set 2 (some 40)).set 3 (some 40)).set 4 (some 40)).set 5 (some 40)
      compacting := true
      frontier := 4 } }

/-- A record that lies across the frontier: none starts at or above it. -/
theorem witness_CompactionStartsAndEnds_straddling :
    granted straddled .compactor = true ∧ ∀ g : Fin 2048, straddled.ctl.frontier ≤ g.val →
      straddled.ctl.map.get g = none ∨
        ∃ k : Fin 2048, k.val + 1 = g.val ∧ straddled.ctl.map.get k = straddled.ctl.map.get g := by
  refine ⟨by decide +kernel, fun g (hg : 4 ≤ g.val) => ?_⟩
  by_cases h4 : g = 4
  · subst h4; exact .inr ⟨3, rfl, by decide +kernel⟩
  by_cases h5 : g = 5
  · subst h5; exact .inr ⟨4, rfl, by decide +kernel⟩
  refine .inl ?_
  have n4 : g.val ≠ 4 := fun h => h4 (Fin.ext h)
  have n5 : g.val ≠ 5 := fun h => h5 (Fin.ext h)
  show straddled.ctl.map[g.val] = none
  simp only [straddled]
  rw [Vector.getElem_set_ne, Vector.getElem_set_ne, Vector.getElem_set_ne, Vector.getElem_set_ne]
  · exact Vector.getElem_replicate ..
  all_goals omega

theorem witness_CompactionMovesRecord_none_between :
    ∀ k : Fin 2048, 0 ≤ k.val → k.val < 5 → (compacting 0).ctl.map.get k = none :=
  fun k _ h => compacting_free k (by omega)

theorem witness_CompactionMovesRecord :
    granted (compacting 0) .compactor = true ∧ (compacting 0).ctl.map.get 5 = some 40 ∧
    Memory.wf (compacting 0).store.heap = true ∧
    readHeader (compacting 0) 40 = some ({ headerOf .armed daily with body := some ⟨5, 1⟩ }, daily) ∧
    recordSound (compacting 0).store.heap 40 ⟨5, 1⟩ = true ∧ recordSound [] 40 ⟨5, 1⟩ = false ∧
    readHeader (put 40 (spoiled .armed) (compacting 0)) 40 = none := by decide +kernel

theorem witness_EraseEmptiesStore :
    ServingStore (asked 0x15#8 [] State.reset) (request 0x15#8 []) 0x15#8 ∧ State.reset.ctl.compacting = false := by
  refine ⟨⟨⟨?_, ?_, ?_⟩, ?_⟩, ?_⟩ <;> decide +kernel

/-- Nine jobs in a queue whose high-water flag is spent, one of them in service: the count falls to 1. -/
theorem witness_EraseEmptiesStore_queue :
    let s := lineWith 1 (fun p => { p with health := .up }) (jobOf 99 7 5 0 true :: others 8 1)
      { State.reset with dispatch := { State.reset.dispatch with highArmed := .same false } }
    let s := setEnded 1 [(jobOf 0 40 14 1 true).end 1 .failed none] (asked 0x15#8 [] s)
    ServingStore s (request 0x15#8 []) 0x15#8 ∧ (s.queue 1).length = 9 ∧
      ((s.queue 1).filter (·.inService)).length = 1 ∧ s.dispatch.highArmed.get 1 = false ∧
      (s.port 1).health ≠ .closed ∧ s.dispatch.ended.get 1 ≠ [] ∧ (s.port 1).fetchOp = .none := by
  refine ⟨⟨⟨?_, ?_, ?_⟩, ?_⟩, ?_, ?_, ?_, ?_, ?_, ?_⟩ <;> decide +kernel

/-! ### Configuration and the calendar -/

theorem witness_ConfigurationRequests :
    (let b := [24#8, 2#8, 29#8, 23#8, 59#8, 59#8];
      Serving (asked 0x18#8 b State.reset) (request 0x18#8 b) 0x18#8 ∧
        parseClockSet State.reset.cal.rule b = .ok ⟨⟨2024, 2, 29, 23, 59, 59⟩, none⟩) ∧
    (let b := [1#8, 3#8, 5#8, 7#8, 22#8, 10#8, 1#8, 1#8, 23#8];
      ServingStore (asked 0x1A#8 b State.reset) (request 0x1A#8 b) 0x1A#8 ∧
        parseClockRule b = .ok ⟨true, ⟨3, 5, 7, 22⟩, ⟨10, 1, 1, 23⟩⟩) ∧
    (let b := [3#8, 0#8, 200#8, 7#8, 0x03#8, 0xE8#8, 15#8, 0x0E#8, 0x10#8, 60#8, 1#8];
      ServingStore (asked 0x28#8 b State.reset) (request 0x28#8 b) 0x28#8 ∧
        parseSegConfig b = .ok (3, ⟨0, 200, 7, 1000, 15, 3600, 60, true⟩)) := by
  refine ⟨⟨⟨?_, ?_, ?_⟩, ?_⟩, ⟨⟨⟨?_, ?_, ?_⟩, ?_⟩, ?_⟩, ⟨⟨⟨?_, ?_, ?_⟩, ?_⟩, ?_⟩⟩ <;> decide +kernel

/-- The daylight rule of the example of 3.4.1. -/
def european : DaylightRule := { defaultDaylight with enabled := true }

/-- The second before each transition of 2024, an ordinary second, and the phases without service. -/
theorem witness_UpdateEventAdvances :
    (updateReading european true .normal ⟨2024, 3, 31, 1, 59, 59⟩).shift = some (.forward, ⟨2024, 3, 31, 2, 0, 0⟩) ∧
    (updateReading european true .first ⟨2024, 10, 27, 2, 59, 59⟩).shift = some (.back, ⟨2024, 10, 27, 3, 0, 0⟩) ∧
    State.reset.supply.phase = .inService ∧ (updateReading european true .normal dueTime).shift = none ∧
    (inPhase .unpowered State.reset).supply.phase = .unpowered ∧ State.reset.supply.vbakLow = false ∧
    (inPhase .starting State.reset).supply.phase ≠ .inService := by decide +kernel

/-- UNPOWERED with VBAK below retention level. -/
theorem witness_UpdateEventAdvances_vbakLow :
    let s : State := { State.reset with supply := { State.reset.supply with phase := .unpowered, vbakLow := true } }
    s.supply.phase = .unpowered ∧ s.supply.vbakLow = true := by decide

theorem witness_EndOfRange :
    let s : State := { State.reset with cal := { State.reset.cal with reading := ⟨2199, 12, 31, 23, 59, 59⟩ } }
    s.cal.reading = ⟨2199, 12, 31, 23, 59, 59⟩ ∧ s.supply.phase = .inService ∧
      (inPhase .held s).supply.phase ≠ .inService ∧ (inPhase .held s).supply.vbakLow = false := by decide

theorem witness_DaylightTransitions :
    atTransition european.forward (Reading.next ⟨2024, 3, 31, 1, 59, 59⟩) = true ∧
    atTransition european.back (Reading.next ⟨2024, 10, 27, 2, 59, 59⟩) = true ∧
    inRepeatedHour european (updateReading european true .second ⟨2024, 10, 27, 2, 0, 0⟩).reading = true ∧
    atTransition european.forward dueTime.next = false ∧ atTransition european.back dueTime.next = false ∧
    inRepeatedHour european dueTime.next = false := by decide +kernel

/-- The fourth Sunday of February 2024 is the 25th, the last one too; the first Monday of July 2024 is the 1st. -/
theorem witness_DaylightTransitions_date :
    transitionDay ⟨2, 4, 7, 1⟩ 2024 = 25 ∧ transitionDay ⟨2, 5, 7, 1⟩ 2024 = 25 ∧ transitionDay ⟨7, 1, 1, 1⟩ 2024 = 1 := by
  decide +kernel

theorem witness_CalendarAdvancesOneSecond :
    Reading.inRange ⟨2199, 12, 31, 23, 59, 58⟩ = true ∧ Reading.inRange ⟨2024, 2, 28, 23, 59, 59⟩ = true ∧
    State.reset.cal.reading.inRange = true ∧ State.reset.cal.rule.forward.hour ≤ 22 ∧
    State.reset.cal.rule.back.hour ≤ 23 ∧ (∃ t, exec .updateEvent State.reset = .next t) :=
  ⟨by decide, by decide, by decide, by decide, by decide, _, rfl⟩

/-- 29 February 2024 satisfies the day field LAST, and the 28th does not. -/
theorem witness_PatternSatisfaction :
    let p : Pattern := ⟨none, none, none, 0x7F#7, .last, some 2⟩
    p.satisfiedBy ⟨2024, 2, 29, 0, 0, 0⟩ = true ∧ p.satisfiedBy ⟨2024, 2, 28, 0, 0, 0⟩ = false := by decide +kernel

/-! ### The scan pass -/

/-- The Matcher granted at an entry whose header is as given. -/
def scanning (e : EntryIx) (h : StoredHeader) : State :=
  { put e h State.reset with matcher := some (passAt e false dueTime) }

theorem witness_ScanStepWithoutMatch :
    granted (scanning 255 (freshHeader (bareHeader .quarantined))) .matcher = true ∧
    (stateOf (scanning 255 (freshHeader (bareHeader .quarantined))) 255).defined = false ∧
    Holds (scanning 0 (freshHeader (headerOf .retired daily))) 0 (headerOf .retired daily) daily ∧
    Holds (scanning 0 (freshHeader (headerOf .armed (ticking 2)))) 0 (headerOf .armed (ticking 2)) (ticking 2) ∧
    (stateOf (scanning 0 (spoiled .draft)) 0).defined = true ∧ readHeader (scanning 0 (spoiled .draft)) 0 = none := by
  refine ⟨?_, ?_, ⟨?_, ?_⟩, ⟨?_, ?_⟩, ?_, ?_⟩ <;> decide +kernel

/-- An ARMED CALENDAR entry that does not match: at another minute. -/
theorem witness_ScanStepWithoutMatch_calendar :
    let s := scanning 0 (freshHeader (headerOf .armed daily))
    Holds s 0 (headerOf .armed daily) daily ∧ stateOf s 0 = .armed ∧
      Pattern.satisfiedBy ⟨some 0, some 30, some 7, 0x1F#7, .any, none⟩ { dueTime with minute := 31 } = false := by
  refine ⟨⟨?_, ?_⟩, ?_, ?_⟩ <;> decide +kernel

theorem witness_ScanMatchWritesHeader :
    (let s := scanning 0 (freshHeader (headerOf .armed daily));
      granted s .matcher = true ∧ Holds s 0 (headerOf .armed daily) daily ∧ stateOf s 0 = .armed ∧
      Pattern.satisfiedBy ⟨some 0, some 30, some 7, 0x1F#7, .any, none⟩ dueTime = true) ∧
    (let s := scanning 255 (freshHeader (headerOf .armed (ticking 1)));
      granted s .matcher = true ∧ Holds s 255 (headerOf .armed (ticking 1)) (ticking 1) ∧ stateOf s 255 = .armed) := by
  refine ⟨⟨?_, ⟨?_, ?_⟩, ?_, ?_⟩, ?_, ⟨?_, ?_⟩, ?_⟩ <;> decide +kernel

/-- The sweep at run-second 401, the age limit at 300: segment 1 has a job in service and a waiting one 301 seconds old,
which leaves, and a waiting one 300 seconds old, which stays; its header is sound. -/
def sweeping : State :=
  let s := lineWith 1 (fun p => { p with health := .up })
    [{ jobOf 0 1 5 0 true with created := 9 }, { jobOf 1 2 5 0 false with created := 100 },
     { jobOf 2 3 5 0 false with created := 101 }] (put 2 (freshHeader (headerOf .armed daily)) State.reset)
  { s with
    matcher := some { passAt 0 true dueTime with stamp := ⟨dueTime, .normal, true, 401⟩ }
    cal := { s.cal with runSecond := 401 } }

theorem witness_SweepExpiresOldJobs :
    sweeping.matcher = some { passAt 0 true dueTime with stamp := ⟨dueTime, .normal, true, 401⟩ } ∧
    granted sweeping .matcher = true ∧ sweeping.cal.runSecond = 401 ∧ (sweeping.port 1).cfg.ageLimit = 300 ∧
    (stateOf sweeping 2).defined = true ∧ (readHeader sweeping 2).isSome = true ∧
    (sweeping.queue 1).map (fun j => (401 - j.created).toNat) = [392, 301, 300] ∧
    (sweeping.queue 1).map (·.inService) = [true, false, false] := by decide +kernel

/-! ### Immediate requests, holds, purge -/

theorem witness_ImmediateSnapshots :
    ∀ r ∈ [(0x19#8, []), (0x20#8, [0#8]), (0x2D#8, [3#8]), (0x30#8, List.replicate 251 9#8), (0x30#8, []),
        (0x31#8, [0#8]), (0x31#8, [1#8])],
      Serving (asked r.1 r.2 State.reset) (request r.1 r.2) r.1 := by
  intro r hr
  refine ⟨?_, ?_, rfl⟩ <;> (revert r; decide +kernel)

/-- A segment with a job in service and one with none. -/
theorem witness_ImmediateSnapshots_service :
    jobInService State.reset 1 = none ∧
    jobInService (lineWith 1 id [jobOf 3 40 5 0 true] State.reset) 1 = some (jobOf 3 40 5 0 true) := by decide +kernel

theorem witness_HoldFlags :
    ∀ r ∈ [(0x22#8, []), (0x23#8, []), (0x2B#8, [0#8]), (0x2C#8, [3#8])],
      Serving (asked r.1 r.2 State.reset) (request r.1 r.2) r.1 := by
  intro r hr
  refine ⟨?_, ?_, rfl⟩ <;> (revert r; decide +kernel)

/-- A head that may go into service, one that is too old, and one that a job in service keeps waiting. -/
theorem witness_TakeInConsidered :
    (State.reset.port 0).health = .closed ∧
    (let s := lineWith 1 (fun p => { p with health := .suspect }) (others 1 0) State.reset;
      (s.port 1).health ≠ .closed ∧ mayTakeIn s 1 = true ∧ (s.queue 1).filter (fun j => !j.inService) = others 1 0) ∧
    (jobOf 0 1 5 0 false).tooOld 301 300 = true ∧ (jobOf 0 1 5 0 false).tooOld 300 300 = false ∧
    mayTakeIn (lineWith 1 (fun p => { p with health := .up }) [jobOf 0 1 5 0 true] State.reset) 1 = false := by
  decide +kernel

theorem witness_PurgeEmptiesQueues :
    (ServingStore (asked 0x21#8 [0xFF#8] State.reset) (request 0x21#8 [0xFF#8]) 0x21#8 ∧
      parsePurge [0xFF#8] = .ok Seg.all) ∧
    (ServingStore (asked 0x21#8 [3#8] State.reset) (request 0x21#8 [3#8]) 0x21#8 ∧ parsePurge [3#8] = .ok [3]) := by
  refine ⟨⟨⟨⟨?_, ?_, ?_⟩, ?_⟩, ?_⟩, ⟨⟨?_, ?_, ?_⟩, ?_⟩, ?_⟩ <;> decide +kernel

/-- A purge of segment 3 with a job in service and waiting ones there, and a queue that is not named. -/
theorem witness_PurgeEmptiesQueues_kept :
    let s := asked 0x21#8 [3#8] (setQueue 2 (others 2 1) (setQueue 3 (jobOf 9 40 5 0 true :: others 3 1) State.reset))
    ServingStore s (request 0x21#8 [3#8]) 0x21#8 ∧ parsePurge [3#8] = .ok [3] ∧
    (∀ i ∈ [(3 : Seg)], ∀ j ∈ s.queue i, j.inService = false → (stateOf s j.entry).defined = true →
      (readHeader s j.entry).isSome = true) ∧ (s.queue 3).length = 4 ∧ (s.queue 2).length = 2 := by
  refine ⟨⟨⟨?_, ?_, ?_⟩, ?_⟩, ?_, ?_, ?_, ?_⟩ <;> decide +kernel

/-! ### Segments -/

theorem witness_SegmentOpenResetsPort :
    (let s := asked 0x29#8 [3#8] State.reset;
      ServingStore s (request 0x29#8 [3#8]) 0x29#8 ∧ (s.port 3).health = .closed) ∧
    ((onPort 3 (fun p => { p with health := .down }) State.reset).port 3).health ≠ .closed := by
  refine ⟨⟨⟨⟨?_, ?_, ?_⟩, ?_⟩, ?_⟩, ?_⟩ <;> decide +kernel

theorem witness_SegmentCloseEndsJobs :
    let s := asked 0x2A#8 [1#8] (lineWith 1 (fun p => { p with health := .up, tx := .send, de := true })
      [jobOf 0 40 126 0 true, jobOf 1 41 1 2 false] State.reset)
    ServingStore s (request 0x2A#8 [1#8]) 0x2A#8 ∧ (s.port 1).health ≠ .closed ∧
      (jobInService s 1).map (·.destination) = some 126 ∧ (State.reset.port 1).health = .closed := by
  refine ⟨⟨⟨?_, ?_, ?_⟩, ?_⟩, ?_, ?_, ?_⟩ <;> decide +kernel

/-- A close with a record pending. -/
theorem witness_SegmentCloseEndsJobs_pending :
    let s := asked 0x2A#8 [1#8] (lineWith 1 (fun p => { p with health := .suspect, fetchOp := .record })
      [jobOf 1 41 1 2 false] (setEnded 1 [(jobOf 0 40 1 0 true).end 1 .failed none] State.reset))
    ServingStore s (request 0x2A#8 [1#8]) 0x2A#8 ∧ (s.port 1).health ≠ .closed ∧ (s.dispatch.ended.get 1).length = 1 := by
  refine ⟨⟨⟨?_, ?_, ?_⟩, ?_⟩, ?_, ?_⟩ <;> decide +kernel

/-- A port with its fetch presented for a job of entry 40. -/
def fetching (stale : Bool) (s : State) : State :=
  lineWith 2 (fun p => { p with health := .up, tx := .fetch, fetchOp := .fetch })
    [{ jobOf 0 40 127 1 true with stale := stale }] s

theorem witness_FetchSendsTelegram :
    (let s := fetching false (withRecord 40 .armed daily true State.reset);
      (s.port 2).fetchOp = .fetch ∧ granted s (.fetch 2) = true ∧ s.dispatch.ended.get 2 = [] ∧
      (s.port 2).cfgPending = false ∧ jobInService s 2 = some (jobOf 0 40 127 1 true) ∧
      readHeader s 40 = some ({ headerOf .armed daily with body := some ⟨0, 1⟩ }, daily) ∧
      recordSound s.store.heap 40 ⟨0, 1⟩ = true) ∧
    readHeader (fetching false (put 40 (freshHeader (headerOf .retired daily)) State.reset)) 40 =
      some (headerOf .retired daily, daily) := by decide +kernel

theorem witness_FetchSendsTelegram_pending :
    let s := onPort 2 (fun p => { p with cfgPending := true }) (fetching false State.reset)
    let stored := s.store.segRecords.get 2
    (s.port 2).fetchOp = .fetch ∧ granted s (.fetch 2) = true ∧ (s.port 2).cfgPending = true ∧
      stored.check = segConfigCheck stored.config ∧
      (⟨defaultSegConfig, 0#16⟩ : StoredSegConfig).check ≠ segConfigCheck defaultSegConfig := by decide +kernel

theorem witness_FetchEndsJob :
    (let s := fetching true State.reset;
      (s.port 2).fetchOp = .fetch ∧ granted s (.fetch 2) = true ∧ s.dispatch.ended.get 2 = [] ∧
      (jobInService s 2).map (·.stale) = some true) ∧
    (jobInService (fetching false State.reset) 2).map (·.stale) = some false ∧
    readHeader (fetching false (put 40 (spoiled .armed) State.reset)) 40 = none ∧
    recordSound (fetching false (withRecord 40 .armed daily false State.reset)).store.heap 40 ⟨0, 1⟩ = false := by
  decide +kernel

/-- A port with its recording presented, for an end of entry 40 and, it may be, another. -/
def recording (op : FetchOp) (more : List JobEnd) (s : State) : State :=
  setEnded 2 ((jobOf 0 40 14 1 true).end 2 .failed none :: more) (onPort 2 (fun p => { p with fetchOp := op }) s)

theorem witness_RecordingWritesOutcome :
    (let s := recording .record [] (put 40 (freshHeader (headerOf .armed daily)) State.reset);
      (s.port 2).fetchOp = .record ∧ granted s (.fetch 2) = true ∧ (s.dispatch.ended.get 2).length = 1 ∧
      Holds s 40 (headerOf .armed daily) daily) ∧
    (stateOf (recording .record [] State.reset) 40).defined = false ∧
    (let s := recording .fetch [(jobOf 1 41 14 1 false).end 2 .expired none] State.reset;
      (s.port 2).fetchOp = .fetch ∧ granted s (.fetch 2) = true ∧ (s.dispatch.ended.get 2).length = 2) := by
  refine ⟨⟨?_, ?_, ?_, ⟨?_, ?_⟩⟩, ?_, ?_⟩ <;> decide +kernel

/-- The recording of an end whose entry's header is faulty, and of one whose header is sound, before another. -/
theorem witness_RecordingWritesOutcome_line :
    (let s := recording .record [] (put 40 (spoiled .armed) State.reset);
      (stateOf s 40).defined = true ∧ readHeader s 40 = none ∧ (s.port 2).fetchOp = .record ∧
        granted s (.fetch 2) = true) ∧
    (∀ op ∈ [FetchOp.fetch, .record],
      let last := (jobOf 1 41 14 1 false).end 2 .expired none;
      let s := recording op [last] (put 40 (freshHeader (headerOf .armed daily)) State.reset);
      (s.port 2).fetchOp = op ∧ granted s (.fetch 2) = true ∧
        s.dispatch.ended.get 2 = (jobOf 0 40 14 1 true).end 2 .failed none :: [last] ∧
        (readHeader s 40).isSome = true) := by decide +kernel

/-- A port in a transmitter state, with a job in service; in SEND its telegram is on the line. -/
def sending (tx : TxState) (destination : Nat) : State :=
  lineWith 0 (fun p => { p with
    health := .up, tx := tx, de := tx == .send, buffer := some ⟨destination, false, true, false, []⟩ })
    [{ jobOf 0 40 destination 1 true with attempts := 4 }] State.reset

/-- A telegram that waits for the gap; one on the line, to a device and to all; a probe; and a port outside SEND. -/
theorem witness_TelegramOnLine :
    (let p := (onPort 0 (fun p => { p with gap := true, de := false }) (sending .send 126)).port 0;
      p.gap = true ∧ p.tx = .send ∧ p.de = false) ∧
    (∀ d ∈ [126, 127], let s := sending .send d;
      (s.port 0).tx = .send ∧ (s.port 0).de = true ∧ (s.port 0).probe = false ∧
      (jobInService s 0).map (·.destination) = some d ∧ (s.port 0).buffer = some ⟨d, false, true, false, []⟩) ∧
    (let p := (onPort 0 (fun p => { p with probe := true }) (sending .send 126)).port 0;
      p.tx = .send ∧ p.de = true ∧ p.probe = true) ∧
    ((sending .await 126).port 0).tx ≠ .send := by decide +kernel

/-- The characters of a telegram of no body to device 126, on the line: ten bits each, at 19 200 bps. -/
theorem test_lineOutput :
    (match ((sending .send 126).port 0).lineOutput with
      | .idle => none
      | .sends speed bits => some (speed, bits.length, bits.take 10)) =
    some (1, 60, [.start, .data false, .data true, .data true, .data false, .data true, .data false, .data false,
      .data true, .stop]) := by decide +kernel

/-- The first and the last destination. -/
theorem witness_DeviceReplyTaken :
    (State.reset.port 0).tx ≠ .await ∧
    ∀ d ∈ [1, 126], let s := sending .await d;
      (s.port 0).tx = .await ∧ (s.port 0).cand = [] ∧ (s.port 0).probe = false ∧
      (s.port 0).buffer = some ⟨d, false, true, false, []⟩ ∧ (jobInService s 0).map (·.busy) = some 0 ∧
      0 + 1 ≤ (s.port 0).cfg.busyLimit := by decide +kernel

/-- A port in a job's window and one in a probe's, and candidates that each test makes invalid: the check, the source, kind 0,
an unused bit, and the echo of an ACK and of a REJECT. A BUSY of either echo is no such candidate. -/
theorem witness_DeviceReplyTaken_ignored :
    ((sending .await 126).port 0).tx = .await ∧ ((sending .await 126).port 0).cand = [] ∧
    ((sending .await 126).port 0).buffer = some ⟨126, false, true, false, []⟩ ∧
    byte2 (crc16 [126#8, 0x11#8]).toNat ≠ [0#8, 0#8] ∧ (125#8).toNat ≠ 126 ∧ 0x10#8 &&& 0x03#8 = 0x00#8 ∧
    (∀ b ∈ [0x05#8, 0x09#8, 0x21#8, 0x41#8, 0x81#8], b &&& 0xEC#8 ≠ 0x00#8) ∧
    (∀ b ∈ [0x01#8, 0x03#8], b &&& 0x03#8 ≠ 0x02#8 ∧ b.getLsbD 4 ≠ true) ∧
    (∀ b ∈ [0x02#8, 0x12#8], b &&& 0x03#8 = 0x02#8 ∧ b &&& 0xEC#8 = 0x00#8) := by decide +kernel

/-- At the retry limit of 3 and above it. -/
theorem witness_WindowExpiryJudged :
    let s := sending .await 126
    (s.port 0).tx = .await ∧ (s.port 0).probe = false ∧ (jobInService s 0).map (·.attempts) = some 4 ∧
      (s.port 0).cfg.retryLimit = 3 ∧
      (jobInService (onJob 0 (fun j => { j with attempts := 3 }) s) 0).map (·.attempts) = some 3 := by decide +kernel

/-- A port of a segment that is DOWN, its probe to come or its probe's window open. -/
def probing (tx : TxState) : State :=
  onPort 0 (fun p => { p with
    health := .down, silence := 6, tx := tx, probe := tx == .await, probeTarget := some 126, probeTimer := tx == .idle
    buffer := if tx = .await then some ⟨126, true, false, false, []⟩ else none }) State.reset

theorem witness_PortTimers :
    ((sending .backoff 1).port 0).tx = .backoff ∧
    (let p := (probing .idle).port 0;
      p.probeTarget = some 126 ∧ p.probeTimer = true ∧ p.health = .down ∧ p.tx = .idle) ∧
    (let p := (probing .await).port 0;
      p.tx = .await ∧ p.cand = [] ∧ p.probe = true ∧ p.health = .down ∧
        p.buffer = some ⟨126, true, false, false, []⟩) := by decide +kernel

/-! ### The host link -/

/-- A state with a receiver state. -/
def receiving (rx : Receiver) : State := { State.reset with link := { State.reset.link with rx := rx } }

theorem witness_FrameReception :
    State.reset.supply.phase = .inService ∧ State.reset.link.rx = .hunt ∧ (List.replicate 252 0#8).length ≤ 252 ∧
    (receiving .length).link.rx = .length ∧ (254#8).toNat ≤ 254 ∧
    (receiving (.check 2#8 [1#8, 0x30#8] (some 0#8))).link.rx = .check 2#8 [1#8, 0x30#8] (some 0#8) ∧
    byte2 (crc16 [2#8, 1#8, 0x30#8]).toNat ≠ [0#8, 0#8] ∧
    (inPhase .resetting State.reset).supply.phase ≠ .inService := by decide +kernel

/-- The dispositions of a frame: queued before, cached, no room, taken. -/
theorem witness_FrameReception_tests :
    (asked 0x30#8 [] State.reset).link.requests.any (fun r => r.seq == 7#8) = true ∧
    [(⟨9#8, 0x30#8, [0#8]⟩ : CacheEntry)].find? (fun c => c.seq == 9#8 && c.kind == 0x30#8) =
      some ⟨9#8, 0x30#8, [0#8]⟩ ∧
    4 ≤ ([1#8, 2#8, 3#8, 4#8].map (fun q => (⟨q, 0x30#8, [], true⟩ : Request))).length ∧
    State.reset.link.requests.length < 4 := by decide +kernel

/-- A reply, an immediate answer and a notice on TXD; an idle transmitter with a notice to send again. -/
theorem witness_TransmissionEnds :
    (∀ immediate ∈ [false, true], let r : Reply := ⟨7#8, 0x30#8, [0#8], immediate⟩;
      let s : State := { State.reset with link := { State.reset.link with tx := some (.reply r) } };
      s.link.tx = some (.reply r) ∧ s.supply.phase ≠ .resetting) ∧
    State.reset.link.tx = some (.notice startedNotice) ∧
    (let s : State := { State.reset with
        link := { State.reset.link with tx := none }
        notices := State.reset.notices.markAll };
      s.link.tx = none ∧ s.link.replies = [] ∧ immediateInHand s = false ∧ s.notices.hostAbsent = false ∧
        s.notices.queue = [] ++ ⟨startedNotice, true, true⟩ :: []) := by decide +kernel

/-- Notices sent and in flight, by their serials. -/
def inFlightOf (n : Nat) : List QueuedNotice :=
  (List.range n).map (fun k => ⟨{ startedNotice with serial := BitVec.ofNat 16 k }, true, false⟩)

/-- An unsent notice, with 7 in flight and with 8. -/
def unsent (n : Nat) : State :=
  { State.reset with
    link := { State.reset.link with tx := none }
    notices := { State.reset.notices with
      queue := inFlightOf n ++ [⟨{ startedNotice with serial := 99 }, false, false⟩] } }

theorem witness_TransmissionEnds_unsent :
    (let s := unsent 7;
      s.supply.phase = .inService ∧ s.link.tx = none ∧ s.link.replies = [] ∧ immediateInHand s = false ∧
      s.notices.hostAbsent = false ∧ s.notices.inFlight.length < 8 ∧
      (∀ x ∈ s.notices.queue, x.inFlight = false ∨ x.resend = false) ∧ ∀ x ∈ inFlightOf 7, x.inFlight = true) ∧
    (let s := unsent 8;
      s.link.replies = [] ∧ 8 ≤ s.notices.inFlight.length ∧
        ∀ x ∈ s.notices.queue, x.inFlight = false ∨ x.resend = false) ∧
    immediateInHand (asked 0x30#8 [] (unsent 7)) = true := by decide +kernel

/-- On TXD after reset, with nothing in transmission, and with a reply. -/
theorem witness_TransmissionEnds_line :
    State.reset.link.tx = some (.notice startedNotice) ∧ (unsent 7).link.tx = none ∧
    ∀ kind ∈ [0x01#8, 0x39#8, 0x08#8], let r : Reply := ⟨7#8, kind, [0#8], true⟩;
      ({ State.reset.link with tx := some (.reply r) } : HostLink).tx = some (.reply r) := by decide +kernel

/-- The frame of a reply to LINK-ECHO of no data, and its first character on TXD, at 19 200 bps. -/
theorem test_txdOutput :
    TxFrame.bytes (.reply ⟨7#8, 0x30#8, [0#8], true⟩) = [0xA5#8, 0x03#8, 0x07#8, 0xB0#8, 0x00#8, 0x84#8, 0x81#8] ∧
    TxFrame.bytes (.reply ⟨9#8, 0x08#8, [1#8], false⟩) = [0xA5#8, 0x03#8, 0x09#8, 0xBF#8, 0x01#8, 0x9F#8, 0x9F#8] ∧
    (match State.reset.link.lineOutput with
      | .idle => none
      | .sends speed bits => some (speed, bits.length, bits.take 10)) =
    some (State.reset.link.speed.code, 10 * (4 + 12 + 5 + 2), [.start, .data true, .data false, .data true, .data false,
      .data false, .data true, .data false, .data true, .stop]) := by decide +kernel

theorem witness_PostingOfNotices :
    State.reset.notices.mask.getLsbD (NoticeBody.queueHigh 0 12).code = false ∧
    State.reset.notices.queue.length < 32 ∧
    (0x0080#16).getLsbD (NoticeBody.queueHigh 0 12).code = true ∧
    32 ≤ (List.replicate 32 (⟨startedNotice, false, false⟩ : QueuedNotice)).length := by decide +kernel

theorem witness_NoticeWindowEvents :
    (let s : State := { State.reset with notices := { State.reset.notices with timer := true, resendCount := 4 } };
      s.notices.timer = true ∧ s.notices.resendCount < 5) ∧
    (let s := asked 0x38#8 [0#8, 0#8] State.reset;
      Serving s (request 0x38#8 [0#8, 0#8]) 0x38#8 ∧
        s.notices.queue = [] ++ ⟨startedNotice, true, false⟩ :: []) ∧
    Serving (asked 0x39#8 [0#8, 0xFE#8] State.reset) (request 0x39#8 [0#8, 0xFE#8]) 0x39#8 ∧
    0x00FE#16 &&& 0xFF01#16 = 0#16 := by
  refine ⟨?_, ⟨⟨?_, ?_, ?_⟩, ?_⟩, ⟨?_, ?_, ?_⟩, ?_⟩ <;> decide +kernel

/-- The fifth resend without an answer, and an acknowledgement after notices were lost. -/
theorem witness_NoticeWindowEvents_bounds :
    (let s : State := { State.reset with notices := { State.reset.notices with timer := true, resendCount := 5 } };
      s.notices.timer = true ∧ s.notices.resendCount = 5) ∧
    (let body := [0#8, 1#8];
      let s := asked 0x38#8 body { State.reset with notices := { State.reset.notices with
        queue := inFlightOf 3, gapCount := 65535, timer := true } };
      Serving s (request 0x38#8 body) 0x38#8 ∧ s.notices.gapCount ≠ 0 ∧
        s.notices.queue = [⟨startedNotice, true, false⟩] ++
          ⟨{ startedNotice with serial := 1 }, true, false⟩ :: [⟨{ startedNotice with serial := 2 }, true, false⟩]) := by
  refine ⟨by decide, ⟨?_, ?_, ?_⟩, ?_, ?_⟩ <;> decide +kernel

/-! ### The part -/

theorem witness_PartResetAnswersAll :
    let before : List Request := [⟨6#8, 0x30#8, [], true⟩]
    let behind : List Request := [⟨8#8, 0x31#8, [0#8], false⟩]
    let s : State := { State.reset with
      link := { State.reset.link with requests := before ++ request 0x32#8 [] :: behind } }
    Serving s (request 0x32#8 []) 0x32#8 ∧ s.link.requests = before ++ request 0x32#8 [] :: behind ∧
      (∀ q ∈ before, q.built = true) ∧ ∀ q ∈ request 0x32#8 [] :: behind, q.built = false := by
  refine ⟨⟨?_, ?_, ?_⟩, ?_, ?_, ?_⟩ <;> decide +kernel

theorem witness_StopsLoseVolatileState :
    State.reset.supply.phase ≠ .unpowered ∧ State.reset.supply.phase ≠ .held ∧
    (inPhase .unpowered State.reset).supply.phase = .unpowered ∧ (inPhase .held State.reset).supply.phase = .held ∧
    State.reset.supply.phase ≠ .starting := by decide

theorem witness_StartUpBegins :
    (inPhase .unpowered State.reset).supply.nrst = true ∧ (inPhase .held State.reset).supply.phase = .held ∧
    (let s : State := inPhase .resetting { State.reset with
        link := { State.reset.link with tx := some (.reply ⟨7#8, 0x32#8, [0#8, 0#8], false⟩) } };
      s.supply.phase = .resetting ∧ s.link.replies = [] ∧ s.link.tx = some (.reply ⟨7#8, 0x32#8, [0#8, 0#8], false⟩)) ∧
    (put 0 (spoiled .armed) State.reset).store.headers.get 0 = spoiled .armed ∧ (spoiled .armed).passes = false ∧
    (freshHeader (headerOf .armed daily)).passes = true ∧ segConfigCheck defaultSegConfig ≠ 0#16 := by decide +kernel

/-- The end of the last reply of a PART-RESET, its request in the queue and four replies cached, one of the same SEQ or none. -/
theorem witness_StartUpBegins_replied :
    ∀ q ∈ [7#8, 6#8],
      let r : Reply := ⟨7#8, 0x32#8, [0#8, 0#8], false⟩
      let s : State := inPhase .resetting { State.reset with link := { State.reset.link with
        tx := some (.reply r)
        requests := [⟨7#8, 0x32#8, [], true⟩]
        cache := [1#8, 2#8, 3#8, q].map (fun n => ⟨n, 0x30#8, [0#8]⟩) } }
      s.supply.phase = .resetting ∧ s.link.replies = [] ∧ s.link.tx = some (.reply r) ∧ r.immediate = false ∧
        (s.link.cache.filter (fun c => c.seq != r.seq)).length = if q = 7#8 then 3 else 4 := by decide

/-- Of an entry's body reference: a sound record unclaimed, and one that another entry has claimed. -/
theorem witness_StartUpBegins_body :
    (freshHeader { headerOf .armed daily with body := some ⟨0, 1⟩ }).passes = true ∧
    BodyRef.inHeap ⟨0, 1⟩ = true ∧ recordSound (withRecord 40 .armed daily true State.reset).store.heap 40 ⟨0, 1⟩ = true ∧
    BodyRef.overlaps ⟨0, 12⟩ ⟨0, 1⟩ = true := by decide +kernel

/-- Headers that pass and that do not, a daylight record that does not pass, a configuration that does not. -/
theorem witness_StartUpBegins_tests :
    HeaderPasses (freshHeader (headerOf .armed daily)) ∧ ¬ HeaderPasses (spoiled .armed) ∧
    HeaderPasses (freshHeader (bareHeader .quarantined)) ∧
    (let bad : DaylightRule := { defaultDaylight with back := { defaultDaylight.forward with hour := 3 } };
      bad.forward.month = bad.back.month ∧ bad.forward.week = bad.back.week ∧ bad.forward.weekday = bad.back.weekday) ∧
    (let bad : SegConfig := { defaultSegConfig with window := 201 }; ¬ bad.window ≤ 200) := by
  refine ⟨(passes_iff _ ?_).mp ?_, fun h => ?_, (passes_iff _ ?_).mp ?_, ?_, ?_⟩
  case refine_3 => exact absurd ((passes_iff _ (by decide)).mpr h) (by decide +kernel)
  all_goals decide +kernel

/-- The last record operation of a start-up, and a run that a body meets by its last granule alone. -/
theorem witness_StartUpBegins_claims :
    RunsMeet ⟨0, 240⟩ ⟨15, 1⟩ ∧ ¬ RunsMeet ⟨0, 240⟩ ⟨16, 1⟩ ∧ (startSequence .cold).length = 524 := by
  refine ⟨(overlaps_iff _ _).mp ?_, fun h => absurd ((overlaps_iff ⟨16, 1⟩ ⟨0, 240⟩).mpr h) ?_, ?_⟩ <;> decide +kernel

/-- A cold start and a warm one, before the first of its record operations. -/
theorem witness_ServiceBegins :
    ∀ cause ∈ [StartCause.cold, .powerOn, .pin, .request],
      let s : State := { State.reset with supply := { State.reset.supply with phase := .starting, cause := cause } }
      s.supply.phase = .starting ∧ s.supply.cause = cause ∧ s.supply.startDone = 0 ∧
        (∀ e, (s.store.headers.get e).header.state = .named .empty → (s.store.headers.get e).header.body = none) ∧
        ReferencesSound ((startSequence cause).foldl runStartUnit s).store := by
  intro cause _
  have h (e : EntryIx) : (State.reset.store.headers.get e).header.body = none := by
    simp [State.reset, ProgramStore.cold, freshHeader, bareHeader, Vector.get]
  exact ⟨rfl, rfl, rfl, fun e _ => h e, referencesSound_sequence _ _ (fun e _ => h e)⟩

/-! ### What tests 1 to 3 refuse -/

/-- A request refused by each of tests 1 to 3, in State.reset, at the values where the clauses meet; and requests that all
three let through. -/
theorem witness_RequestTests :
    ∀ x : Byte × List Byte × Option ReqError, x ∈ [
      (0x08#8, [], some .unknownKind), (0x3A#8, [], some .unknownKind),
      (0x02#8, [], some .badLength), (0x13#8, [0#8], some .badLength), (0x10#8, [0#8], some .badLength),
      (0x10#8, List.replicate 242 0#8, some .badLength), (0x18#8, [], some .badLength), (0x1A#8, [], some .badLength),
      (0x28#8, [], some .badLength), (0x30#8, List.replicate 252 0#8, some .badLength), (0x39#8, [0#8], some .badLength),
      (0x01#8, [40#8, 0#8, 0#8], some .badLength), (0x01#8, List.replicate 16 0#8, some .badLength),
      (0x01#8, List.replicate 17 1#8, some .badLength), (0x01#8, List.replicate 18 2#8, some .badLength),
      (0x02#8, [0xFF#8], none), (0x13#8, [], none), (0x10#8, [0#8, 0#8], none), (0x30#8, [], none),
      (0x32#8, [9#8], none), (0x29#8, [3#8], none), (0x29#8, [4#8], some (.badField 1)),
      (0x21#8, [0xFF#8], none), (0x21#8, [0xFE#8], some (.badField 1)), (0x31#8, [2#8], some (.badField 1)),
      (0x38#8, [0#8, 0#8], none), (0x38#8, [0#8, 1#8], some (.badField 1)), (0x39#8, [0#8, 0xFE#8], none),
      (0x39#8, [0#8, 1#8], some (.badField 1)), (0x39#8, [1#8, 0#8], some (.badField 1))] →
    requestError State.reset (request x.1 x.2.1) = x.2.2 := by decide +kernel

theorem witness_RequestTests_configuration :
    ∀ x : Byte × List Byte × Option ReqError, x ∈ [
      (0x28#8, [3#8, 0#8, 200#8, 7#8, 0x03#8, 0xE8#8, 15#8, 0x0E#8, 0x10#8, 60#8, 2#8], some (.badField 9)),
      (0x28#8, [3#8, 0#8, 201#8, 7#8, 0x03#8, 0xE9#8, 15#8, 0x0E#8, 0x10#8, 60#8, 2#8], some (.badField 3)),
      (0x1A#8, [1#8, 3#8, 5#8, 7#8, 22#8, 3#8, 5#8, 7#8, 23#8], some (.badField 8)),
      (0x1A#8, [1#8, 3#8, 5#8, 7#8, 23#8, 3#8, 5#8, 7#8, 23#8], some (.badField 5)),
      (0x18#8, [199#8, 0x0C#8, 31#8, 23#8, 59#8, 59#8], none),
      (0x18#8, [24#8, 2#8, 30#8, 23#8, 59#8, 59#8], some (.badField 4)),
      (0x18#8, [24#8, 0x12#8, 29#8, 23#8, 59#8, 59#8], some (.badField 7)),
      (0x01#8, defineBody 3#8, none), (0x01#8, defineBody 4#8, some (.badField 3)),
      (0x01#8, List.replicate 16 2#8, some (.badField 4))] →
    requestError State.reset (request x.1 x.2.1) = x.2.2 := by decide +kernel

/-- A body of each kind that has fields of its own, and what it carries. -/
theorem witness_RequestTests_carried :
    parseDefine (defineBody 3#8) = .ok ⟨40, true, true, daily⟩ ∧
    parseDefine [40#8, 0#8, 1#8, 0#8, 0#8, 10#8, 0#8, 0#8, 5#8, 0#8, 126#8, 3#8, 0xFF#8, 0xFF#8, 0#8, 2#8] =
      .ok ⟨40, false, false, ticking 5⟩ ∧
    parseClockSet State.reset.cal.rule [24#8, 2#8, 29#8, 23#8, 59#8, 59#8] = .ok ⟨⟨2024, 2, 29, 23, 59, 59⟩, none⟩ ∧
    parseClockRule [1#8, 3#8, 5#8, 7#8, 22#8, 10#8, 1#8, 1#8, 23#8] = .ok ⟨true, ⟨3, 5, 7, 22⟩, ⟨10, 1, 1, 23⟩⟩ ∧
    parseSegConfig [3#8, 0#8, 200#8, 7#8, 0x03#8, 0xE8#8, 15#8, 0x0E#8, 0x10#8, 60#8, 1#8] =
      .ok (3, ⟨0, 200, 7, 1000, 15, 3600, 60, true⟩) ∧
    parsePurge [0xFF#8] = .ok [0, 1, 2, 3] ∧ parsePurge [3#8] = .ok [3] := by
  refine ⟨?_, ?_, ?_, ?_, ?_, ?_, ?_⟩ <;> decide +kernel

end Sys2Proof.Tests
end

section
/-! The entry state list agrees with the headers, through every step and every start-up (R2, R178). -/

namespace Sys2Proof.Machine

/-- The invariant of the entry state list: it agrees with the headers while the volatile state stands. -/
def ListStands (s : State) : Prop := s.supply.running → ListAgrees s

theorem Supply.running.phase_ne {p : Supply} (h : p.running) : p.phase ≠ .starting ∧ p.phase ≠ .unpowered := by
  rcases h with h | h <;> rw [h] <;> decide

/-- The invariant looks at the headers, the list and the phase alone. -/
theorem ListStands.of_same {s t : State} (h : ListStands s) (hp : t.supply = s.supply)
    (hl : t.ctl.states = s.ctl.states) (hh : t.store.headers = s.store.headers) : ListStands t := by
  intro hr e
  rw [stateOf, hl, hh]
  exact h (hp ▸ hr) e

/-- The list takes the state of a header in the operation that writes it (R2). -/
theorem ListStands.writeHeader {s : State} (h : ListStands s) (e : EntryIx) (hd : Header) :
    ListStands (writeHeader e hd s) := by
  intro hr k
  rw [stateOf_writeHeader, header_writeHeader]
  split
  · rfl
  · exact h hr k

/-- An erased store has EMPTY headers and a list of EMPTY states (R46). -/
theorem ListStands.eraseStore (s : State) : ListStands (eraseStore s) := by
  intro _ e
  simp [stateOf, Machine.eraseStore, Vector.get_eq_getElem, freshHeader, bareHeader, StoredState.entryState]

/-- The pass's end builds the list from the headers, and the start of service changes neither (R178, R181). -/
theorem listAgrees_beginService (s : State) : ListAgrees (beginService (volatileInit s)) := by
  intro e
  rw [stateOf, beginService_ctl, beginService_store]
  exact get_statesOf s.store e

/-- Every elementary update of a command keeps the invariant: those that write a header write the list with it, and
those that leave the volatile state behind leave the part out of service. -/
theorem kept_listStands : KeptByCommands ListStands where
  post _ _ h := h.of_same (by simp) (by simp) (by simp)
  rewrite e hd _ _ h := h.writeHeader e hd
  clear e hd _ _ h := h.writeHeader e hd
  setEnded _ _ _ h := h
  removeTo _ _ _ _ h := h
  markStale _ _ _ h := h
  takeHead _ _ _ _ _ _ h := h
  presentLine _ _ h := h
  spendHigh _ _ h := h
  insert _ _ _ _ _ h := h
  onPort _ _ _ h := h
  onJob _ _ _ _ h := h
  putSegRecord _ _ _ h := h
  pending _ _ h := h
  grant _ _ h := h
  reply _ _ h := h.of_same (by simp) (by simp) (by simp)
  kick _ h := h.of_same (by simp) (by simp) (by simp)
  cal _ _ h := h
  daylight _ _ h := h
  place e hd _ start body s _ _ _ _ h :=
    ListStands.writeHeader (s := { s with store := { s.store with
      heap := Memory.writeBytes s.store.heap (16 * start) (bodyRecord e body) } }) h e
      { hd with body := some ⟨start, body.length⟩ }
  erase s _ := ListStands.eraseStore s
  compactor _ _ _ _ h := h
  move e hd _ r s _ _ _ _ _ h :=
    ListStands.writeHeader (s := { s with store := { s.store with
      heap := Memory.writeBytes s.store.heap (16 * s.ctl.frontier)
        (Memory.readBytes s.store.heap (16 * r.first) (r.length + 4)) } }) h e
      { hd with body := some { r with first := s.ctl.frontier } }
  hold _ _ h := h
  segHold _ _ _ h := h
  clearDiscards _ h := h
  reset _ _ _ hp h := fun _ => h (Or.inl hp)
  ack _ _ _ h := h.of_same (by simp) (by simp) (by simp)
  mask _ _ h := h
  rx _ _ h := h
  discard _ h := h
  present _ h := h
  meet _ _ _ _ h := h.of_same (by simp) (by simp) (by simp)
  replySent _ _ _ h := h.of_same (by simp) (by simp) (by simp)
  noticeSent _ _ _ h := h.of_same (by simp [idleTx]) (by simp [idleTx]) (by simp [idleTx])
  timer _ _ h := h.of_same (by simp) (by simp) (by simp)
  matcher _ _ h := h
  supply _ _ hr h := fun hp => h (hr hp)
  stop _ _ hp _ := fun hr => absurd hr hp
  startUnit u s hp _ := fun hr => absurd ((runStartUnit_phase s u).trans hp) hr.phase_ne.1
  lost _ _ _ hp _ := fun hr => absurd hp hr.phase_ne.2
  service s _ _ := fun _ => listAgrees_beginService s

/-- Settles O10: every elementary update of a command keeps the agreement of the list with the headers. -/
theorem stepKeepsStateList : Obligations.StepKeepsStateList :=
  fun _ _ h hs => kept_listStands.step h hs

end Sys2Proof.Machine
end

section
/-! The requests on program entries (1.4) and what they leave of the store: the requests that change nothing, those that
write one header, those that withdraw the entry's jobs, and those that find a faulty header. -/

namespace Sys2Proof.Machine

/-! ### Requests that change nothing -/

/-- A grant changes no header and no state of the list. -/
theorem Holds.grant {s : State} {e : EntryIx} {h : Header} {d : Definition} (hh : Holds s e h d) (q : Requester) :
    Holds (grant q s) e h d := ⟨hh.defined, hh.sound⟩

/-- A BODY-LOAD body: an index, and 1 to 240 bytes (R37). -/
theorem parseBodyLoad_byte1 {body bytes : List Byte} {e : EntryIx} (hb : body = byte1 e.val :: bytes)
    (h1 : 1 ≤ bytes.length) (h2 : bytes.length ≤ 240) : parseBodyLoad body = .ok (e, bytes) := by
  subst hb
  simp [parseBodyLoad, entryIx_byte1, h1, h2]

section Unchanged

variable {s : State} {e : EntryIx}

theorem armOp_undefined (h : (stateOf s e).defined = false) : armOp e s = (s, [0x05#8, byte1 (stateOf s e).code]) := by
  simp [armOp, h, wrongStateBytes]

theorem fireOp_undefined (h : (stateOf s e).defined = false) :
    fireOp e s = (s, [0x05#8, byte1 (stateOf s e).code]) := by
  simp [fireOp, h, wrongStateBytes]

theorem loadOp_undefined (bytes : List Byte) (h : (stateOf s e).defined = false) :
    loadOp (e, bytes) s = (s, [0x05#8, byte1 (stateOf s e).code]) := by
  simp [loadOp, h, wrongStateBytes]

theorem readOp_undefined (h : (stateOf s e).defined = false) :
    readOp e s = (s, [0x00#8, byte1 e.val, byte1 (stateOf s e).code]) := by
  simp [readOp, h, doneBytes]

theorem readOp_holds {h : Header} {d : Definition} (hh : Holds s e h d) :
    readOp e s = (s, 0x00#8 :: byte1 e.val :: headerBytes h) := by
  simp [readOp, hh.defined, hh.sound, doneBytes, entryReadBytes]

theorem disarmOp_empty (h : stateOf s e = .empty) : disarmOp e s = (s, [0x05#8, 0x00#8]) := by
  unfold disarmOp
  rw [h]
  rfl

theorem disarmOp_unarmed (h : stateOf s e = .draft ∨ stateOf s e = .retired ∨ stateOf s e = .quarantined) :
    disarmOp e s = (s, [0x00#8, byte1 (stateOf s e).code]) := by
  unfold disarmOp
  rcases h with h | h | h <;> rw [h] <;> rfl

theorem bodyReadOp_empty (h : stateOf s e = .empty) : bodyReadOp e s = (s, [0x05#8, 0x00#8]) := by
  unfold bodyReadOp
  rw [h]
  rfl

theorem dropOp_empty (h : stateOf s e = .empty) : dropOp e s = (s, [0x05#8, 0x00#8]) := by
  unfold dropOp
  rw [h]
  rfl

theorem deleteOp_empty (h : stateOf s e = .empty) : deleteOp e s = (s, [0x00#8, 0x00#8]) := by
  unfold deleteOp
  rw [if_pos h]
  rfl

/-- BODY-LOAD without a run answers what it needs and the largest run it could use (R37). -/
theorem loadOp_noRun {h : Header} {d : Definition} (bytes : List Byte) (hh : Holds s e h d)
    (ha : allocate s.ctl (granulesFor bytes.length) = none) :
    loadOp (e, bytes) s = (s, 0x07#8 :: byte1 (granulesFor bytes.length) ::
      byte2 (if s.ctl.compacting then topRun s.ctl.map else largestRun 0 0 s.ctl.map.toList)) := by
  simp only [loadOp, hh.defined, hh.sound, ha, if_true]
  rfl

theorem compactOp_running (u : Unit) (h : s.ctl.compacting = true) : compactOp u s = (s, [0x06#8]) := by
  unfold compactOp
  rw [if_pos h]
  rfl

theorem eraseOp_running (u : Unit) (h : s.ctl.compacting = true) : eraseOp u s = (s, [0x06#8]) := by
  unfold eraseOp
  rw [if_pos h]
  rfl

end Unchanged

/-- A store request on an entry index whose operation changes nothing. -/
theorem serve_index_unchanged {s : State} {r : Request} {e : EntryIx} {kind : Byte}
    {op : EntryIx → State → State × List Byte} {b : List Byte} (hs : ServingStore s r kind) (hb : r.body = [byte1 e.val])
    (hop : op e (grant .commandInterpreter s) = (grant .commandInterpreter s, b)) :
    (Host.Outcome.next (serve kind true parseIndex op s) : Host.Outcome State Fault Refusal) =
      .next { grant .commandInterpreter s with link := s.link.answered r b } := by
  rw [serve_unchanged hs (parseIndex_byte1 hb) hop]

/-- Settles O20: each of the refusing operations answers its state unchanged, so that only the grant and the reply are
left. -/
theorem storeRefusalsChangeNothing : Obligations.StoreRefusalsChangeNothing := by
  refine ⟨fun s r e c hc hs hb hd => ?_, fun s r e c hc hs hb he => ?_, fun s r e bytes hs hb h1 h2 => ⟨fun hd => ?_,
    fun h d hh ha => ?_⟩, fun s r c hc hs hb hrun => ?_⟩
  · simp only [List.mem_cons, Prod.mk.injEq, List.not_mem_nil, or_false] at hc
    rcases hc with ⟨rfl, hk⟩ | ⟨rfl, hk⟩ <;> rw [hk] at hs
    · exact serve_index_unchanged hs hb (armOp_undefined hd)
    · exact serve_index_unchanged hs hb (fireOp_undefined hd)
  · simp only [List.mem_cons, Prod.mk.injEq, List.not_mem_nil, or_false] at hc
    rcases hc with ⟨rfl, hk⟩ | ⟨rfl, hk⟩ | ⟨rfl, hk⟩ <;> rw [hk] at hs
    · exact serve_index_unchanged hs hb (disarmOp_empty he)
    · exact serve_index_unchanged hs hb (bodyReadOp_empty he)
    · exact serve_index_unchanged hs hb (dropOp_empty he)
  · exact congrArg _ (serve_unchanged hs (parseBodyLoad_byte1 hb h1 h2) (loadOp_undefined bytes hd))
  · exact congrArg _ (serve_unchanged hs (parseBodyLoad_byte1 hb h1 h2) (loadOp_noRun bytes (hh.grant _) ha))
  · simp only [List.mem_cons, Prod.mk.injEq, List.not_mem_nil, or_false] at hc
    rcases hc with ⟨rfl, hk⟩ | ⟨rfl, hk⟩ <;> rw [hk] at hs
    · exact congrArg _ (serve_unchanged hs (parseNone_nil hb) (compactOp_running () hrun))
    · exact congrArg _ (serve_unchanged hs (parseNone_nil hb) (eraseOp_running () hrun))

/-! ### What ENTRY-READ carries of a header (10.3, Table 10-6) -/

theorem anyByte_eq (o : Option Nat) : anyByte o = (o.map byte1).getD 0xFF#8 := by
  cases o <;> rfl

theorem fireBytes_eq (o : Option Nat) : fireBytes o = (o.map byte2).getD [0xFF#8, 0xFF#8] := by
  cases o <;> rfl

theorem reportCode_eq (m : ReportMode) :
    byte1 m.code = if m = .none then 0x00#8 else if m = .failures then 0x01#8 else 0x02#8 := by
  cases m <;> rfl

/-- Settles O18: the three operations answer from their state and leave it, and a header's bytes are those of its fields,
one after another. -/
theorem storeSnapshots : Obligations.StoreSnapshots := by
  refine ⟨fun s r e hs hb => ⟨fun h d hh => ?_, fun hd => ?_⟩, fun s r hs hb => ?_, fun s r hs hb => ?_, ?_⟩
  · exact serve_index_unchanged hs hb (readOp_holds (hh.grant _))
  · exact serve_index_unchanged hs hb (readOp_undefined hd)
  · exact congrArg _ (serve_unchanged hs (parseNone_nil hb) rfl)
  · exact congrArg _ (serve_unchanged hs (parseNone_nil hb) rfl)
  · intro h d st hst hd
    dsimp only
    simp only [headerBytes, hst, hd, StoredState.code, definitionBytes, historyBytes, fireBytes_eq, reportCode_eq,
      List.append_assoc, List.cons_append, List.nil_append]
    congr 2
    · cases d.schedule with
      | interval period first remaining => rfl
      | calendar p policy =>
        simp only [scheduleBytes, anyByte_eq]
        cases p.day <;> cases policy <;> rfl
    · cases h.body <;> cases h.lastOutcome <;> rcases h.lastMatch with _ | _ | _ <;> rfl

/-! ### Requests that write one header -/

/-- A store request on an entry index whose operation writes the entry's header and nothing else. -/
theorem serve_index_writes {s : State} {r : Request} {e : EntryIx} {kind : Byte}
    {op : EntryIx → State → State × List Byte} {hd : Header} {b : List Byte} (hs : ServingStore s r kind)
    (hb : r.body = [byte1 e.val])
    (hop : op e (grant .commandInterpreter s) = (writeHeader e hd (grant .commandInterpreter s), b)) :
    (Host.Outcome.next (serve kind true parseIndex op s) : Host.Outcome State Fault Refusal) =
      .next { writeHeader e hd (grant .commandInterpreter s) with link := s.link.answered r b } := by
  have h := serve_store_eq (op := op) hs (parseIndex_byte1 hb) (by rw [hop]; rfl) (by rw [hop]; rfl)
  rw [h, hop]

theorem armOp_holds {s : State} {e : EntryIx} {h : Header} {d : Definition} (hh : Holds s e h d) :
    armOp e s = (writeHeader e { h with state := .named .armed, defn := some d.rearmed } s,
      0x00#8 :: 0x02#8 :: fireBytes d.fireCount) := by
  simp only [armOp, hh.defined, hh.sound, if_true]
  rfl

/-- Settles O15: on a sound header the operation is one header write. -/
theorem armReloadsCounts : Obligations.ArmReloadsCounts := by
  intro s r e h d hs hb hh
  refine ⟨serve_index_writes hs hb (armOp_holds (hh.grant _)), rfl, fun p f k hk => ?_, fun p f hk => ?_⟩
  · simp [Definition.rearmed, hk, Schedule.rearmed]
  · simp [Definition.rearmed, hk, Schedule.rearmed]

theorem disarmOp_armed {s : State} {e : EntryIx} {h : Header} {d : Definition} (ha : stateOf s e = .armed)
    (hr : readHeader s e = some (h, d)) :
    disarmOp e s = (writeHeader e { h with state := .named .draft } s, [0x00#8, 0x01#8]) := by
  unfold disarmOp
  rw [ha, hr]
  rfl

/-- Settles O16: one header write in ARMED, none elsewhere. -/
theorem disarmMakesDraft : Obligations.DisarmMakesDraft := by
  intro s r e hs hb
  exact ⟨fun h d ha hr => serve_index_writes hs hb (disarmOp_armed ha hr),
    fun hst => serve_index_unchanged hs hb (disarmOp_unarmed hst)⟩

/-! ### Requests that find a faulty header -/

/-- A store request whose operation meets a faulty header: quarantine, DATA-FAULT, and nothing else (R3, R35). -/
theorem serve_headerFault {s : State} {α : Type} {a : α} {e : EntryIx} {r : Request} {kind : Byte}
    {parse : List Byte → Except ReqError α} {op : α → State → State × List Byte} (hs : ServingStore s r kind)
    (hp : parse r.body = .ok a)
    (hop : op a (grant .commandInterpreter s) = dataFault e .header (grant .commandInterpreter s)) :
    ∃ t, (Host.Outcome.next (serve kind true parse op s) : Host.Outcome State Fault Refusal) = .next t ∧
      t.link = s.link.answered r [0x08#8, byte1 e.val, 0x00#8] ∧
      Quarantined s t e .header .hostRead ∧ t.matcher = s.matcher ∧ OrderAfter s t .commandInterpreter := by
  have hserve := serve_store_eq (op := op) hs hp (by rw [hop]; simp [dataFault]) (by rw [hop]; simp [dataFault])
  rw [hop] at hserve
  refine ⟨_, congrArg _ hserve, rfl, (quarantined_quarantine e .header .hostRead _).of_grant.link _,
    by simp [dataFault], ?_⟩
  simp [OrderAfter, dataFault, grant]

theorem defined_iff {st : EntryState} : st.defined = true ↔ st = .draft ∨ st = .armed ∨ st = .retired := by
  cases st <;> decide

section HeaderFault

variable {s : State} {e : EntryIx}

theorem armOp_fault (hd : (stateOf s e).defined = true) (hr : readHeader s e = none) :
    armOp e s = dataFault e .header s := by
  simp [armOp, hd, hr]

theorem readOp_fault (hd : (stateOf s e).defined = true) (hr : readHeader s e = none) :
    readOp e s = dataFault e .header s := by
  simp [readOp, hd, hr]

theorem fireOp_fault (hd : (stateOf s e).defined = true) (hr : readHeader s e = none) :
    fireOp e s = dataFault e .header s := by
  simp [fireOp, hd, hr]

theorem loadOp_fault (bytes : List Byte) (hd : (stateOf s e).defined = true) (hr : readHeader s e = none) :
    loadOp (e, bytes) s = dataFault e .header s := by
  simp [loadOp, hd, hr]

theorem disarmOp_fault (ha : stateOf s e = .armed) (hr : readHeader s e = none) :
    disarmOp e s = dataFault e .header s := by
  simp [disarmOp, ha, hr]

theorem bodyReadOp_fault (hd : (stateOf s e).defined = true) (hr : readHeader s e = none) :
    bodyReadOp e s = dataFault e .header s := by
  rcases defined_iff.mp hd with h | h | h <;> simp only [bodyReadOp, h, hr]

theorem dropOp_fault (hd : (stateOf s e).defined = true) (hr : readHeader s e = none) :
    dropOp e s = dataFault e .header s := by
  rcases defined_iff.mp hd with h | h | h <;> simp only [dropOp, h, hr]

theorem defineOp_fault {q : DefineReq} (hk : q.keepBody = true) (hd : (stateOf s q.index).defined = true)
    (hr : readHeader s q.index = none) : defineOp q s = dataFault q.index .header s := by
  simp [defineOp, hk, hd, hr]

end HeaderFault

/-- Settles O19: each of the operations is DATA-FAULT's on a faulty header. -/
theorem headerFaultQuarantines : Obligations.HeaderFaultQuarantines := by
  rintro s r e c (⟨hc, hb, harm⟩ | ⟨rfl, hk, bytes, hb, h1, h2⟩ | ⟨rfl, hk, q, hq, rfl, hkeep⟩) hs hd hr
  · simp only [List.mem_cons, Prod.mk.injEq, List.not_mem_nil, or_false] at hc
    rcases hc with ⟨rfl, hk⟩ | ⟨rfl, hk⟩ | ⟨rfl, hk⟩ | ⟨rfl, hk⟩ | ⟨rfl, hk⟩ | ⟨rfl, hk⟩ <;> rw [hk] at hs
    · exact serve_headerFault hs (parseIndex_byte1 hb) (armOp_fault hd hr)
    · exact serve_headerFault hs (parseIndex_byte1 hb) (disarmOp_fault (harm rfl) hr)
    · exact serve_headerFault hs (parseIndex_byte1 hb) (readOp_fault hd hr)
    · exact serve_headerFault hs (parseIndex_byte1 hb) (fireOp_fault hd hr)
    · exact serve_headerFault hs (parseIndex_byte1 hb) (bodyReadOp_fault hd hr)
    · exact serve_headerFault hs (parseIndex_byte1 hb) (dropOp_fault hd hr)
  · rw [hk] at hs
    exact serve_headerFault hs (parseBodyLoad_byte1 hb h1 h2) (loadOp_fault bytes hd hr)
  · rw [hk] at hs
    exact serve_headerFault hs hq (defineOp_fault hkeep hd hr)

/-! ### Requests that withdraw the entry's jobs -/

/-- Between `s` and `u`, at a grant of the Command Interpreter, entry `e`'s header and map elements may have changed, and
nothing else of the part but the arbiter's order. -/
structure EntryWritten (s u : State) (e : EntryIx) : Prop where
  headers : ∀ k, k ≠ e → u.store.headers.get k = s.store.headers.get k
  states : ∀ k, k ≠ e → stateOf u k = stateOf s k
  rest : u = { s with
    store := { s.store with headers := u.store.headers }
    ctl := { u.ctl with compacting := s.ctl.compacting, frontier := s.ctl.frontier, moved := s.ctl.moved } }
  order : OrderAfter s u .commandInterpreter

theorem entryWritten_writeHeader (e : EntryIx) (h : Header) (s : State) :
    EntryWritten s (writeHeader e h (grant .commandInterpreter s)) e where
  headers k hk := by rw [header_writeHeader, if_neg hk]; rfl
  states k hk := by rw [stateOf_writeHeader, if_neg hk]; rfl
  rest := rfl
  order := rfl

theorem EntryWritten.freeGranules {s u : State} {e : EntryIx} (h : EntryWritten s u e) :
    EntryWritten s (freeGranules e u) e where
  headers := h.headers
  states := h.states
  rest := by
    rw [h.rest]
    rfl
  order := h.order

/-- A store request that writes an entry and withdraws its jobs: the store is as written, and the rest is the withdraw's
(R13, R96). -/
theorem serve_withdraws {s u : State} {α : Type} {a : α} {e : EntryIx} {r : Request} {kind : Byte} {b : List Byte}
    {parse : List Byte → Except ReqError α} {op : α → State → State × List Byte} (hs : ServingStore s r kind)
    (hp : parse r.body = .ok a) (hop : op a (grant .commandInterpreter s) = (withdraw (· == e) u, b))
    (hw : EntryWritten s u e) (hsound : (stateOf u e).defined = true → (readHeader u e).isSome = true) :
    ∃ t, (Host.Outcome.next (serve kind true parse op s) : Host.Outcome State Fault Refusal) = .next t ∧
      t.link = s.link.answered r b ∧ t.store = u.store ∧ t.ctl = u.ctl ∧ t.matcher = s.matcher ∧
      JobsWithdrawn s t e ∧ t.notices = (withdraw (· == e) u).notices ∧ EntryFrame s t e ∧
      OrderAfter s t .commandInterpreter := by
  have hsound' : ∀ k, (k == e) = true → (stateOf u k).defined = true → (readHeader u k).isSome = true := by
    intro k hk
    rw [beq_iff_eq] at hk
    rw [hk]
    exact hsound
  have hrest := hw.rest
  have hlink : u.link = s.link := by rw [hrest]
  have hsupply : u.supply = s.supply := by rw [hrest]
  have hserve := serve_store_eq (op := op) hs hp (by rw [hop]; simp [hlink]) (by rw [hop]; simp [hsupply])
  rw [hop] at hserve
  refine ⟨_, congrArg _ hserve, rfl, withdraw_store hsound', withdraw_ctl hsound', ?_, ?_, rfl, ?_, ?_⟩
  · rw [show u = _ from hrest]
    exact withdraw_matcher ..
  · refine ((jobsWithdrawn_withdraw hsound).of_same ?_ ?_ ?_).link _ <;> rw [hrest]
  · refine (entryFrame_withdraw hsound hw.headers hw.states ?_ ?_ ?_ ?_ ?_ ?_ ?_ ?_ ?_ ?_ ?_).link _ <;> rw [hrest]
  · exact (withdraw_ctl_order ..).trans hw.order

/-- Settles O17: the header written is EMPTY, whose jobs' ends are recorded without a header read. -/
theorem deleteEmptiesEntry : Obligations.DeleteEmptiesEntry := by
  intro s r e hs hb
  refine ⟨fun he => serve_index_unchanged hs hb (deleteOp_empty he), fun he => ?_⟩
  have hop : deleteOp e (grant .commandInterpreter s) =
      (withdraw (· == e) (freeGranules e (writeHeader e (bareHeader .empty) (grant .commandInterpreter s))),
        [0x00#8, byte1 (ownedCount s.ctl.map e)]) := by
    unfold deleteOp
    exact if_neg he
  have hst : stateOf (freeGranules e (writeHeader e (bareHeader .empty) (grant .commandInterpreter s))) e = .empty :=
    (stateOf_writeHeader ..).trans (if_pos rfl)
  have hnot : (stateOf (freeGranules e (writeHeader e (bareHeader .empty) (grant .commandInterpreter s))) e).defined =
      false := by
    rw [hst]
    rfl
  obtain ⟨t, ht, hl, hstore, hctl, hm, hj, hn, hf, ho⟩ := serve_withdraws hs (parseIndex_byte1 hb) hop
    (entryWritten_writeHeader ..).freeGranules (fun hd => by rw [hnot] at hd; cases hd)
  refine ⟨t, ht, hl, ?_, ?_, fun g => ?_, ?_, hm, hj, ?_, hf, ho⟩
  · rw [hstore]
    exact (header_writeHeader ..).trans (if_pos rfl)
  · rw [stateOf, hctl]
    exact hst
  · rw [hctl]
    exact get_freeInMap e _ g
  · rw [hstore]
    rfl
  · rw [hn]
    exact withdraw_notices_bare hnot

/-! ### ENTRY-DEFINE -/

theorem tested_ok {α : Type} {l : List (Nat × Bool)} {a b : α} (h : tested l a = .ok b) : a = b := by
  unfold tested at h
  split at h
  · cases h
  · exact Except.ok.inj h

/-- What a well-formed ENTRY-DEFINE carries: an INTERVAL schedule's remaining is its first offset (R17). -/
theorem parseDefine_ok {body : List Byte} {q : DefineReq} (h : parseDefine body = .ok q) :
    ∃ k sch, q = defineReq body k sch ∧ ∀ p f n, sch = .interval p f n → n = f := by
  unfold parseDefine at h
  split at h
  · cases h
  · split at h
    · split at h
      · exact ⟨_, _, (tested_ok h).symm, fun p f n hs => by cases hs⟩
      · cases h
    · split at h
      · exact ⟨_, _, (tested_ok h).symm, fun p f n hs => by cases hs; rfl⟩
      · cases h
    · split at h <;> cases h

/-- The state that ENTRY-DEFINE writes, before the withdraw (R17, R18). -/
def definedState (q : DefineReq) (kept : Option BodyRef) (s : State) : State :=
  if kept.isSome then writeHeader q.index (q.header kept) s
  else freeGranules q.index (writeHeader q.index (q.header kept) s)

theorem definedCode_eq (arm : Bool) :
    byte1 (if arm then EntryState.armed else EntryState.draft).code = if arm then 0x02#8 else 0x01#8 := by
  cases arm <;> rfl

theorem bodyDispositionByte_eq (kept : Option BodyRef) (owned : Nat) : byte1 (bodyDispositionCode kept owned) =
    if kept.isSome then 0x01#8 else if owned = 0 then 0x00#8 else 0x02#8 := by
  unfold bodyDispositionCode
  cases kept <;> by_cases h : owned = 0 <;> simp [h] <;> rfl

theorem storeDefinition_eq (q : DefineReq) (kept : Option BodyRef) (s : State) :
    storeDefinition q kept s = (withdraw (· == q.index) (definedState q kept s),
      [0x00#8, if q.arm then 0x02#8 else 0x01#8,
        if kept.isSome then 0x01#8 else if ownedCount s.ctl.map q.index = 0 then 0x00#8 else 0x02#8]) := by
  rw [← definedCode_eq, ← bodyDispositionByte_eq]
  rfl

/-- ENTRY-DEFINE without keep-body, or of an entry with no definition (R17). -/
theorem defineOp_new {q : DefineReq} {s : State} (h : q.keepBody = false ∨ (stateOf s q.index).defined = false) :
    defineOp q s = storeDefinition q none s := by
  unfold defineOp
  rcases h with h | h <;> simp [h]

/-- ENTRY-DEFINE with keep-body of an entry with a sound header (R18). -/
theorem defineOp_keep {q : DefineReq} {s : State} {h : Header} {d : Definition} (hk : q.keepBody = true)
    (hh : Holds s q.index h d) :
    defineOp q s = storeDefinition q (if d.segment = q.defn.segment then h.body else none) s := by
  simp [defineOp, hk, hh.defined, hh.sound]

section Defined

variable (q : DefineReq) (kept : Option BodyRef) (s : State)

theorem header_definedState :
    (definedState q kept s).store.headers.get q.index = freshHeader (q.header kept) := by
  unfold definedState
  split <;> exact (header_writeHeader ..).trans (if_pos rfl)

theorem stateOf_definedState : stateOf (definedState q kept s) q.index = if q.arm then .armed else .draft := by
  unfold definedState
  split <;> exact (stateOf_writeHeader ..).trans (if_pos rfl)

theorem holds_definedState : Holds (definedState q kept s) q.index (q.header kept) q.defn where
  defined := by
    rw [stateOf_definedState]
    cases q.arm <;> rfl
  sound := by
    unfold definedState
    split <;> exact readHeader_writeHeader q.index (q.header kept) s rfl

theorem entryWritten_definedState :
    EntryWritten s (definedState q kept (grant .commandInterpreter s)) q.index := by
  unfold definedState
  split
  · exact entryWritten_writeHeader ..
  · exact (entryWritten_writeHeader ..).freeGranules

theorem map_definedState :
    (definedState q kept s).ctl.map = if kept.isSome then s.ctl.map else freeInMap q.index s.ctl.map := by
  unfold definedState
  split <;> rfl

end Defined

/-- Settles O14: the new header is sound, so the withdraw reports by its report mode. -/
theorem defineWritesEntry : Obligations.DefineWritesEntry := by
  intro s r q hs hq
  obtain ⟨k, sch, hqk, hsch⟩ := parseDefine_ok hq
  refine ⟨by rw [hqk]; rfl, by rw [hqk]; rfl, fun p f n hn => hsch p f n (by rw [hqk] at hn; exact hn), ?_⟩
  intro kept hkept
  have hop : defineOp q (grant .commandInterpreter s) = storeDefinition q kept (grant .commandInterpreter s) := by
    rcases hkept with ⟨rfl, hnew⟩ | ⟨h, d, hk, hh, rfl⟩
    · exact defineOp_new hnew
    · exact defineOp_keep hk (hh.grant _)
  rw [storeDefinition_eq] at hop
  have hholds := holds_definedState q kept (grant .commandInterpreter s)
  have hw := entryWritten_definedState q kept s
  obtain ⟨t, ht, hl, hstore, hctl, hm, hj, hn, hf, ho⟩ :=
    serve_withdraws hs hq hop hw (fun _ => by rw [hholds.sound]; rfl)
  refine ⟨t, ht, hl, ?_, ?_, ?_, ?_, hm, hj, ?_, hf, ho⟩
  · rw [hstore]
    exact header_definedState ..
  · rw [stateOf, hctl]
    exact stateOf_definedState ..
  · rw [hctl, map_definedState]
    split
    · rfl
    · intro g
      rw [hctl, map_definedState, if_neg (by assumption)]
      exact get_freeInMap q.index _ g
  · rw [hstore, hw.rest]
  · rw [hn, withdraw_notices_sound hholds, reported_withdrawn_congr (t := s) q.index .superseded]
    all_goals rw [hw.rest]

end Sys2Proof.Machine
end

section
/-! When a reading satisfies a pattern, and the last day of a month (R5, R52). -/

namespace Sys2Proof.Machine

theorem anyOr_iff (f : Option Nat) (n : Nat) : anyOr f n = true ↔ f = none ∨ f = some n := by
  cases f <;> simp [anyOr]

theorem dayAgrees_iff (f : DayField) (r : Reading) :
    f.agrees r = true ↔ f = .any ∨ f = .day r.day ∨ (f = .last ∧ r.day = lastDay r.year r.month) := by
  cases f with
  | any => simp [DayField.agrees]
  | last => simp [DayField.agrees]
  | day n =>
    simp only [DayField.agrees, beq_iff_eq, reduceCtorEq, DayField.day.injEq, false_and, false_or, or_false]
    exact eq_comm

theorem leapYear_iff (y : Nat) : leapYear y = true ↔ (y % 4 = 0 ∧ y % 100 ≠ 0) ∨ y % 400 = 0 := by
  simp [leapYear]

theorem lastDay_february (y : Nat) : lastDay y 2 = if leapYear y then 29 else 28 := rfl

/-- The months but February, by their length. -/
theorem lastDay_not_february (y : Nat) :
    (∀ m ∈ [1, 3, 5, 7, 8, 10, 12], lastDay y m = 31) ∧ ∀ m ∈ [4, 6, 9, 11], lastDay y m = 30 := by
  constructor <;> simp [lastDay]

/-- Settles O35: field by field, and month by month. -/
theorem patternSatisfaction : Obligations.PatternSatisfaction := by
  refine ⟨fun p r => ?_, fun y m _ _ => ⟨(lastDay_not_february y).1 m, (lastDay_not_february y).2 m, ?_, ?_⟩⟩
  · simp only [Pattern.satisfiedBy, Bool.and_eq_true, anyOr_iff, dayAgrees_iff]
    constructor
    · rintro ⟨⟨⟨⟨⟨hs, hm⟩, hh⟩, hw⟩, hd⟩, hmo⟩
      exact ⟨hs, hm, hh, hmo, hw, hd⟩
    · rintro ⟨hs, hm, hh, hmo, hw, hd⟩
      exact ⟨⟨⟨⟨⟨hs, hm⟩, hh⟩, hw⟩, hd⟩, hmo⟩
  · rintro rfl hy
    rw [lastDay_february, if_pos ((leapYear_iff y).mpr hy)]
  · rintro rfl hy
    rw [lastDay_february, if_neg (fun h => hy ((leapYear_iff y).mp h))]

end Sys2Proof.Machine
end

section
/-! The end of the start-up sequence: what the volatile initialisation and the first notices leave (R178 to R181). -/

namespace Sys2Proof.Machine

/-! ### The first notice goes on TXD (R160, R181) -/

/-- The transmitter of a part in service with no request and no reply begins the notice that is offered (R147). -/
theorem kickTx_offered {s : State} {n : Notice} (ht : s.link.tx = none) (hr : s.link.replies = [])
    (hq : s.link.requests = []) (hp : s.supply.phase = .inService) (hn : s.notices.offer = some n) :
    kickTx s = { s with link := { s.link with tx := some (.notice n) }, notices := s.notices.begun n.serial } := by
  have hi : immediateInHand s = false := by simp [immediateInHand, inHand, hq]
  simp [kickTx, ht, hr, hp, State.inService, hi, hn]

/-- None of the notices posted at the start has been sent, so the first of them is offered. -/
theorem offer_noticesPosted (stamp : Stamp) (b : NoticeBody) (l : List NoticeBody) :
    (noticesPosted stamp (b :: l)).offer = some ⟨0, stamp, b⟩ := by
  have hm : (noticesPosted stamp (b :: l)).queue.find? (fun q => q.inFlight && q.resend) = none := by
    simp [noticesPosted]
  have hf : (noticesPosted stamp (b :: l)).inFlight = [] := by
    rw [NoticeUnit.inFlight, List.filter_eq_nil_iff]
    intro q hq
    obtain ⟨x, _, rfl⟩ := List.mem_map.mp hq
    exact Bool.false_ne_true
  unfold NoticeUnit.offer
  rw [hm, hf]
  rfl

/-- The serials of 32 notices are distinct: only the first of them has serial 0. -/
theorem serial_eq_zero_iff {n : Nat} (h : n < 32) : BitVec.ofNat 16 n = 0#16 ↔ n = 0 := by
  rw [← BitVec.toNat_inj, BitVec.toNat_ofNat, BitVec.toNat_ofNat, Nat.mod_eq_of_lt (by omega)]

/-- The notices posted at the start, the first of them begun. -/
theorem begun_noticesPosted (stamp : Stamp) (l : List NoticeBody) : (noticesPosted stamp l).begun 0 =
    { noticesPosted stamp l with
      queue := (l.take 32).zipIdx.map (fun x => ⟨⟨BitVec.ofNat 16 x.2, stamp, x.1⟩, x.2 == 0, false⟩) } := by
  unfold NoticeUnit.begun
  congr 1
  simp only [noticesPosted, List.map_map]
  refine List.map_congr_left fun x hx => ?_
  have hlt : x.2 < 32 := by
    have := List.snd_lt_of_mem_zipIdx hx
    simp at this
    omega
  simp only [Function.comp_apply, BitVec.ofNat_eq_ofNat, serial_eq_zero_iff hlt]
  by_cases h : x.2 = 0 <;> simp [h]

/-! ### The start of service -/

/-- The notices of a start-up: STARTED with its counts, then the deferred ones (R180). -/
def startBodies (u : State) : List NoticeBody :=
  .started u.supply.cause u.supply.entriesQuarantined u.supply.recordsReplaced u.cal.valid ::
    u.supply.faults.map faultNotice

/-- The Supply Monitor in service, the accounts of the start-up cleared (R181). -/
def Supply.serving (p : Supply) : Supply :=
  { p with
    phase := .inService, faults := [], entriesQuarantined := 0, recordsReplaced := 0, claims := [], startDone := 0 }

/-- The volatile initialisation, the notices and the start of service, in one update (R179 to R181). -/
theorem beginService_volatileInit (u : State) : beginService (volatileInit u) =
    { volatileInit u with
      link := { HostLink.start (LinkSpeed.ofStraps u.supply.ls1 u.supply.ls0) with
        tx := some (.notice ⟨0, stampNow (volatileInit u),
          .started u.supply.cause u.supply.entriesQuarantined u.supply.recordsReplaced u.cal.valid⟩) }
      notices := (noticesPosted (stampNow (volatileInit u)) (startBodies u)).begun 0
      supply := u.supply.serving } := by
  unfold beginService
  dsimp only
  rw [post_noticesPosted _ [] (volatileInit u) rfl, foldl_postFaultItem _ _ _ rfl]
  rw [kickTx_offered (n := ⟨0, stampNow (volatileInit u),
    .started u.supply.cause u.supply.entriesQuarantined u.supply.recordsReplaced u.cal.valid⟩) rfl rfl rfl rfl
    (offer_noticesPosted ..)]
  rfl

/-- The fold that agrees with a rule newly taken (R69, R179). -/
theorem foldUnder_eq (rule : DaylightRule) (f : Fold) (r : Reading) :
    foldUnder rule f r = if f ≠ .normal ∧ inRepeatedHour rule r = true then f else .normal := by
  unfold foldUnder
  by_cases h : f = .normal <;> simp [h]

/-- Record operations up to the sequence's end are all that are left of it (R172). -/
theorem runStart_all (s : State) : ∃ k, runStart (startUnits s.supply.cause).length s =
    let done := ((startSequence s.supply.cause).drop s.supply.startDone).foldl runStartUnit s
    { done with supply := { done.supply with startDone := k } } := by
  unfold runStart
  rw [List.take_of_length_le (by simp), startUnits_eq]
  exact ⟨_, rfl⟩

/-- The list and the map that the pass's end builds agree with sound references (R30, R178). -/
theorem mapAgrees_mapOf {t : State} (hm : t.ctl.map = mapOf t.store) (h : ReferencesSound t.store) : MapAgrees t := by
  intro e
  refine ⟨fun r hr => decide_eq_true (h.inHeap e r hr), fun g => ?_⟩
  rw [hm]
  exact get_mapOf h g e

/-- A store without a reference has an empty map (R31). -/
theorem get_mapOf_bare {p : ProgramStore} (hb : ∀ e, (p.headers.get e).header.body = none) (g : Fin 2048) :
    (mapOf p).get g = none := by
  have hno : ∀ {e r}, (p.headers.get e).header.body ≠ some r := by
    intro e r
    rw [hb e]
    exact (Option.some_ne_none r).symm
  have hs : ReferencesSound p :=
    ⟨fun _ _ hr => absurd hr hno, fun _ _ hr => absurd hr hno, fun _ _ _ _ _ hr => absurd hr hno⟩
  cases hg : (mapOf p).get g with
  | none => rfl
  | some e =>
    obtain ⟨r, hr, _⟩ := (get_mapOf hs g e).mp hg
    exact absurd hr hno

/-- What a whole start-up sequence, or the rest of one, leaves to the start of service (R172 to R178). -/
structure SequenceDone (s done : State) : Prop where
  heap : done.store.heap = s.store.heap
  cause : done.supply.cause = s.supply.cause
  ls1 : done.supply.ls1 = s.supply.ls1
  ls0 : done.supply.ls0 = s.supply.ls0
  references : s.supply.startDone = 0 →
    (∀ e, (s.store.headers.get e).header.state = .named .empty → (s.store.headers.get e).header.body = none) →
    ReferencesSound done.store
  cold : s.supply.cause = .cold → s.supply.startDone = 0 →
    (∀ e, done.store.headers.get e = freshHeader (bareHeader .empty)) ∧
      (∀ i, done.store.segRecords.get i = freshSegConfig defaultSegConfig) ∧
      done.store.daylightRecord = freshDaylight defaultDaylight ∧ done.supply.backupLost = false ∧
      done.cal = { Calendar.cold with runSecond := s.cal.runSecond }

theorem sequenceDone (s : State) :
    SequenceDone s (((startSequence s.supply.cause).drop s.supply.startDone).foldl runStartUnit s) := by
  obtain ⟨hheap, -, hcause, hls1, hls0⟩ :=
    foldl_runStartUnit_keeps ((startSequence s.supply.cause).drop s.supply.startDone) s
  refine ⟨hheap, hcause, hls1, hls0, fun h0 hb => ?_, fun hc h0 => ?_⟩
  · rw [h0, List.drop_zero]
    exact referencesSound_sequence _ s hb
  · rw [hc, h0, List.drop_zero]
    exact coldSequence_spec s

/-- Settles O59: the record operations that are left, then the volatile initialisation and the start of service as one
update of the state that they leave. -/
theorem serviceBegins : Obligations.ServiceBegins := by
  intro s hp done
  have hdone : SequenceDone s done := sequenceDone s
  have hexec : ∃ k, exec .startUpSequenceEnd s =
      .next (beginService (volatileInit { done with supply := { done.supply with startDone := k } })) := by
    obtain ⟨k, hk⟩ := runStart_all s
    refine ⟨k, ?_⟩
    change Host.Outcome.next (if s.supply.phase = .starting then _ else s) = _
    rw [if_pos hp, hk]
  clear_value done
  obtain ⟨k, hexec⟩ := hexec
  intro rule fold stamp bodies
  have hstamp : stampNow (volatileInit { done with supply := { done.supply with startDone := k } }) = stamp :=
    congrArg (fun f => Stamp.mk done.cal.reading f done.cal.valid 0) (foldUnder_eq ..)
  have hbodies : startBodies { done with supply := { done.supply with startDone := k } } = bodies := by
    simp only [startBodies, hdone.cause, bodies]
  refine ⟨_, hexec, ?_⟩
  rw [beginService_volatileInit, hstamp, hbodies, begun_noticesPosted]
  refine ⟨rfl, rfl, rfl, hdone.cause, ?_, rfl, rfl, rfl, rfl, rfl, rfl, rfl, rfl, ?_, rfl, rfl, rfl, rfl, ?_, ?_,
    hdone.heap, rfl, ?_, hdone.references, ?_⟩
  · simp only [hdone.cause, hdone.ls1, hdone.ls0]
  · simp only [volatileInit, foldUnder_eq]
    rfl
  · exact get_statesOf done.store
  · exact fun i => PerSegment.get_map ..
  · exact fun h => mapAgrees_mapOf (volatileInit_map { done with supply := { done.supply with startDone := k } }) h
  · intro hc h0
    obtain ⟨hheaders, hconfigs, hdaylight, hlatch, hcal⟩ := hdone.cold hc h0
    refine ⟨hlatch, hheaders, hconfigs, hdaylight, fun g => ?_, congrArg Calendar.reading hcal, ?_,
      congrArg Calendar.valid hcal⟩
    · exact (congrArg (·.get g) (volatileInit_map { done with supply := { done.supply with startDone := k } })).trans
        (get_mapOf_bare (fun e => by rw [hheaders]; rfl) g)
    · change foldUnder _ done.cal.fold _ = _
      rw [congrArg Calendar.fold hcal]
      rfl

end Sys2Proof.Machine
end

section
/-! The arbiter's order through every step and every start-up (R27), and the allocation map's agreement with the body
references through every step that leaves the volatile state standing (R30). -/

namespace Sys2Proof.Machine

/-! ### The arbiter's order (R27) -/

theorem ArbiterSound.of_order {s t : State} (h : ArbiterSound s) (ho : t.ctl.order = s.ctl.order) : ArbiterSound t := by
  rw [ArbiterSound, ho]
  exact h

/-- A grant rotates the order, a stop and a start-up set it to the initial order, and no other update touches it. -/
theorem kept_arbiterSound : KeptByCommands ArbiterSound where
  post _ _ h := h.of_order (by simp)
  rewrite _ _ _ _ h := h
  clear _ _ _ _ h := h
  setEnded _ _ _ h := h
  removeTo _ _ _ _ h := h
  markStale _ _ _ h := h
  takeHead _ _ _ _ _ _ h := h
  presentLine _ _ h := h
  spendHigh _ _ h := h
  insert _ _ _ _ _ h := h
  onPort _ _ _ h := h
  onJob _ _ _ _ h := h
  putSegRecord _ _ _ h := h
  pending _ _ h := h
  grant r _ h := perm_grant h r
  reply _ _ h := h.of_order (by simp)
  kick _ h := h.of_order (by simp)
  cal _ _ h := h
  daylight _ _ h := h
  place _ _ _ _ _ _ _ _ _ _ h := h
  erase _ h := h
  compactor _ _ _ _ h := h
  move _ _ _ _ _ _ _ _ _ _ h := h
  hold _ _ h := h
  segHold _ _ _ h := h
  clearDiscards _ h := h
  reset _ _ _ _ h := h
  ack _ _ _ h := h.of_order (by simp)
  mask _ _ h := h
  rx _ _ h := h
  discard _ h := h
  present _ h := h
  meet _ _ _ _ h := h.of_order (by simp)
  replySent _ _ _ h := h.of_order (by simp)
  noticeSent _ _ _ h := h.of_order (by simp [idleTx])
  timer _ _ h := h.of_order (by simp)
  matcher _ _ h := h
  supply _ _ _ h := h
  stop _ _ _ _ := List.Perm.refl _
  startUnit u s _ h := h.of_order (congrArg StoreControl.order (runStartUnit_ctl s u))
  lost _ _ _ _ h := h
  service s _ _ := by
    rw [ArbiterSound, beginService_ctl]
    exact List.Perm.refl _

/-- Settles O9: every elementary update of a command keeps the order a permutation of the seven requesters. -/
theorem stepKeepsArbiter : Obligations.StepKeepsArbiter :=
  fun _ _ h hs => kept_arbiterSound.step h hs

/-! ### The allocation map (R30) -/

/-- The invariant of the allocation map: it shows the body references while the volatile state stands. -/
def MapStands (s : State) : Prop := s.supply.running → MapAgrees s

/-- The agreement looks at the body references and the map alone. -/
theorem MapAgrees.of_bodies {s t : State} (h : MapAgrees s) (hm : t.ctl.map = s.ctl.map)
    (hb : ∀ e, (t.store.headers.get e).header.body = (s.store.headers.get e).header.body) : MapAgrees t := by
  intro e
  rw [hb, hm]
  exact h e

theorem MapStands.of_same {s t : State} (h : MapStands s) (hp : t.supply = s.supply) (hm : t.ctl.map = s.ctl.map)
    (hh : t.store.headers = s.store.headers) : MapStands t :=
  fun hr => (h (hp ▸ hr)).of_bodies hm (fun _ => by rw [hh])

/-- A header write that keeps the body reference keeps the agreement. -/
theorem mapAgrees_rewrite {s : State} {e : EntryIx} {hd : Header} (h : MapAgrees s)
    (hb : hd.body = (s.store.headers.get e).header.body) : MapAgrees (writeHeader e hd s) := by
  refine h.of_bodies rfl (fun k => ?_)
  rw [header_writeHeader]
  split
  · next hk => rw [hk, ← hb, freshHeader]
  · rfl

/-- A reference of a body of 1 to 240 bytes whose run lies in the heap (R29, R176). -/
theorem BodyRef.inHeap_iff {r : BodyRef} :
    r.inHeap = true ↔ 1 ≤ r.length ∧ r.length ≤ 240 ∧ r.first + granulesFor r.length ≤ 2048 := by
  rw [BodyRef.inHeap, Config.granules]
  exact decide_eq_true_iff

/-- A record placed in the run allocated for it: that run was FREE (R38). -/
theorem mapAgrees_placeBody {s : State} (h : MapAgrees s) (e : EntryIx) (hd : Header) {start : Nat} {body : List Byte}
    (ha : allocate s.ctl (granulesFor body.length) = some start) (h1 : 1 ≤ body.length) (h2 : body.length ≤ 240) :
    MapAgrees (placeBody e hd start body s) := by
  obtain ⟨hin, hfree⟩ := allocate_run (granulesFor_pos _) ha
  exact mapAgrees_give h e hd start body.length _ (BodyRef.inHeap_iff.mpr ⟨h1, h2, hin⟩) rfl rfl
    (fun g hg hg' => Or.inl (hfree g hg hg'))

/-- The granules from the frontier up to where the lowest record above it is to end are FREE or that record's own
(R42). -/
theorem free_or_own_below_record {s : State} (h : MapAgrees s) {e : EntryIx} {r : BodyRef}
    (hb : (s.store.headers.get e).header.body = some r)
    (hl : lowestFrom s.ctl.frontier 0 s.ctl.map.toList = some (r.first, e)) (g : Fin 2048)
    (hg : s.ctl.frontier ≤ g.val) (hg' : g.val < s.ctl.frontier + granulesFor r.length) :
    s.ctl.map.get g = none ∨ s.ctl.map.get g = some e := by
  obtain ⟨hf, -, -, hfree⟩ := lowestFrom_run hl
  by_cases hlow : g.val < r.first
  · have hnone := hfree g.val (by simp) (by omega) (by omega)
    rw [map_toList_get] at hnone
    exact Or.inl hnone
  · exact Or.inr (((h e).2 g).mpr ⟨r, hb, by omega, by omega⟩)

/-- A record moved down to the frontier (R42). -/
theorem mapAgrees_moveRecord {s : State} (h : MapAgrees s) {e : EntryIx} {hd : Header} {d : Definition} {r : BodyRef}
    (hr : readHeader s e = some (hd, d)) (hb : hd.body = some r)
    (hl : lowestFrom s.ctl.frontier 0 s.ctl.map.toList = some (r.first, e)) : MapAgrees (moveRecord e hd r s) := by
  have hbody : (s.store.headers.get e).header.body = some r := by rw [(readHeader_some hr).1, hb]
  have hf := (lowestFrom_run hl).1
  have hin : (⟨s.ctl.frontier, r.length⟩ : BodyRef).inHeap = true := by
    obtain ⟨h1, h2, h3⟩ := BodyRef.inHeap_iff.mp ((h e).1 r hbody)
    exact BodyRef.inHeap_iff.mpr ⟨h1, h2, by dsimp only; omega⟩
  exact mapAgrees_give h e hd s.ctl.frontier r.length _ hin rfl rfl (free_or_own_below_record h hbody hl)

theorem header_eraseStore (e : EntryIx) (s : State) :
    (eraseStore s).store.headers.get e = freshHeader (bareHeader .empty) := by
  simp [eraseStore, Vector.get_eq_getElem]

theorem map_eraseStore (g : Fin 2048) (s : State) : (eraseStore s).ctl.map.get g = none := by
  simp [eraseStore, Vector.get_eq_getElem]

/-- An erased store holds no reference and its map is FREE (R46). -/
theorem mapAgrees_eraseStore (s : State) : MapAgrees (eraseStore s) := by
  intro e
  simp [header_eraseStore, map_eraseStore, freshHeader, bareHeader]

/-- Every elementary update of a command in service keeps the invariant. The start of service is not one of them: a
start-up that was cut short need not leave the references apart (R178). -/
theorem kept_mapStands : KeptInService MapStands where
  post _ _ h := h.of_same (by simp) (by simp) (by simp)
  rewrite _ _ _ hb h := fun hr => mapAgrees_rewrite (h hr) hb
  clear e hd _ hb h := fun hr => mapAgrees_clear (h hr) e hd hb
  setEnded _ _ _ h := h
  removeTo _ _ _ _ h := h
  markStale _ _ _ h := h
  takeHead _ _ _ _ _ _ h := h
  presentLine _ _ h := h
  spendHigh _ _ h := h
  insert _ _ _ _ _ h := h
  onPort _ _ _ h := h
  onJob _ _ _ _ h := h
  putSegRecord _ _ _ h := h
  pending _ _ h := h
  grant _ _ h := h
  reply _ _ h := h.of_same (by simp) (by simp) (by simp)
  kick _ h := h.of_same (by simp) (by simp) (by simp)
  cal _ _ h := h
  daylight _ _ h := h
  place e hd _ _ _ _ _ ha h1 h2 h := fun hr => mapAgrees_placeBody (h hr) e hd ha h1 h2
  erase s _ := fun _ => mapAgrees_eraseStore s
  compactor _ _ _ _ h := h
  move _ _ _ _ _ hrd hb hl _ _ h := fun hr => mapAgrees_moveRecord (h hr) hrd hb hl
  hold _ _ h := h
  segHold _ _ _ h := h
  clearDiscards _ h := h
  reset _ _ _ hp h := fun _ => h (Or.inl hp)
  ack _ _ _ h := h.of_same (by simp) (by simp) (by simp)
  mask _ _ h := h
  rx _ _ h := h
  discard _ h := h
  present _ h := h
  meet _ _ _ _ h := h.of_same (by simp) (by simp) (by simp)
  replySent _ _ _ h := h.of_same (by simp) (by simp) (by simp)
  noticeSent _ _ _ h := h.of_same (by simp [idleTx]) (by simp [idleTx]) (by simp [idleTx])
  timer _ _ h := h.of_same (by simp) (by simp) (by simp)
  matcher _ _ h := h
  supply _ _ hr h := fun hp => h (hr hp)
  stop _ _ hp _ := fun hr => absurd hr hp
  startUnit u s hp _ := fun hr => absurd ((runStartUnit_phase s u).trans hp) hr.phase_ne.1
  lost _ _ _ hp _ := fun hr => absurd hp hr.phase_ne.2

/-- Settles O11: while the volatile state stands no start-up ends, and every other elementary update keeps the
agreement. -/
theorem stepKeepsMap : Obligations.StepKeepsMap :=
  fun _ _ hr h hs => kept_mapStands.step hr.phase_ne.1 (fun _ => h) hs

end Sys2Proof.Machine
end

section
/-! Where a record is placed, the sizes that are reported, and the compactor (R32, R37, R41 to R43, R45). -/

namespace Sys2Proof.Machine

/-! ### Free runs of the map and the searches for them (R32) -/

/-- The `n` granules from `k` on lie in the heap and are FREE. -/
def FreeRun (m : Vector (Option EntryIx) 2048) (k n : Nat) : Prop :=
  k + n ≤ 2048 ∧ ∀ g : Fin 2048, k ≤ g.val → g.val < k + n → m.get g = none

theorem freeRun_iff {m : Vector (Option EntryIx) 2048} {k n : Nat} : FreeRun m k n ↔
    k + n ≤ m.toList.length ∧ ∀ g (hg : g < m.toList.length), k ≤ g → g < k + n → m.toList[g] = none := by
  rw [FreeRun]
  refine and_congr (by rw [Vector.length_toList]) ⟨fun h g hg h1 h2 => ?_, fun h g h1 h2 => ?_⟩
  · rw [map_toList_get]
    exact h ⟨g, by simpa using hg⟩ h1 h2
  · have hf := h g.val (by simp) h1 h2
    rwa [map_toList_get] at hf

/-- The largest run is the length of some FREE run (R37, R45). -/
theorem freeRun_largestRun (m : Vector (Option EntryIx) 2048) : ∃ k, FreeRun m k (largestRun 0 0 m.toList) := by
  obtain ⟨hrun, -, -, -⟩ := largestRun_spec m.toList 0 0
  rcases hrun with hzero | ⟨k, hk, hfree⟩ | ⟨n, hn, hlen, hfree⟩
  · exact ⟨0, by omega, fun g _ hg => by omega⟩
  · exact ⟨k, freeRun_iff.mpr ⟨hk, fun g hg => hfree g hg⟩⟩
  · exact ⟨0, freeRun_iff.mpr ⟨by omega, fun g hg _ h2 => hfree g hg (by omega)⟩⟩

/-- No FREE run is longer than the largest (R37, R45). -/
theorem FreeRun.le_largestRun {m : Vector (Option EntryIx) 2048} {k n : Nat} (h : FreeRun m k n) :
    n ≤ largestRun 0 0 m.toList := by
  obtain ⟨hk, hfree⟩ := freeRun_iff.mp h
  obtain ⟨-, -, -, hmax⟩ := largestRun_spec m.toList 0 0
  exact hmax k n hk hfree

/-- `top` is one above the highest allocated granule, 0 in an empty heap (R32). -/
structure TopOf (m : Vector (Option EntryIx) 2048) (top : Nat) : Prop where
  inHeap : top ≤ 2048
  free : ∀ g : Fin 2048, top ≤ g.val → m.get g = none
  foot : top = 0 ∨ ∃ g : Fin 2048, g.val + 1 = top ∧ m.get g ≠ none

theorem TopOf.topStart_eq {m : Vector (Option EntryIx) 2048} {top : Nat} (h : TopOf m top) :
    topStart 0 0 m.toList = top := by
  refine topStart_spec m.toList 0 0 top (le_refl _) (Nat.zero_le _) (by simpa using h.inHeap) (fun k hk htop => ?_) ?_
  · rw [map_toList_get]
    exact h.free ⟨k, by simpa using hk⟩ (by simpa using htop)
  · rcases h.foot with h0 | ⟨g, hg, hne⟩
    · exact Or.inl h0
    · exact Or.inr ⟨g.val, by simp, by omega, by rwa [map_toList_get]⟩

theorem TopOf.topRun_eq {m : Vector (Option EntryIx) 2048} {top : Nat} (h : TopOf m top) : topRun m = 2048 - top := by
  rw [topRun, h.topStart_eq]

/-- While the compactor runs, a record goes to the foot of the top run (R32). -/
theorem TopOf.allocate_eq {c : StoreControl} {top : Nat} (h : TopOf c.map top) (hc : c.compacting = true) (n : Nat) :
    allocate c n = if n ≤ 2048 - top then some top else none := by
  rw [allocate, if_pos hc, h.topRun_eq, h.topStart_eq]

theorem allocate_stopped {c : StoreControl} (hc : c.compacting = false) (n : Nat) :
    allocate c n = firstFit n 0 0 0 c.map.toList := by
  simp [allocate, hc]

/-- An allocated granule of the list within a run shows that the run is not FREE. -/
theorem not_freeRun_of_allocated {m : Vector (Option EntryIx) 2048} {k n : Nat}
    (h : ∃ g, k ≤ g ∧ g < k + n ∧ 0 ≤ g ∧ ∃ hg : g - 0 < m.toList.length, m.toList[g - 0] ≠ none) :
    ¬ FreeRun m k n := by
  obtain ⟨g, h1, h2, -, hg, hne⟩ := h
  exact fun hf => hne ((freeRun_iff.mp hf).2 g hg h1 h2)

/-- First fit answers the lowest granule at which `n` granules are FREE (R32). -/
theorem firstFit_lowest {m : Vector (Option EntryIx) 2048} {n k : Nat} (hn : 1 ≤ n)
    (h : firstFit n 0 0 0 m.toList = some k) : FreeRun m k n ∧ ∀ k' < k, ¬ FreeRun m k' n := by
  obtain ⟨hin, hfree⟩ := firstFit_run (Or.inr rfl) h
  obtain ⟨hlow, -⟩ := firstFit_spec n hn m.toList 0 0 0 (Or.inl rfl) hn
  refine ⟨freeRun_iff.mpr ⟨by simpa using hin hn, fun g hg h1 h2 => hfree g hg (by omega) (by omega)⟩, ?_⟩
  exact fun k' hk' => not_freeRun_of_allocated (hlow k h k' (by simp) hk')

/-- First fit answers none only where no `n` granules are FREE (R32). -/
theorem firstFit_none {m : Vector (Option EntryIx) 2048} {n : Nat} (hn : 1 ≤ n)
    (h : firstFit n 0 0 0 m.toList = none) (k : Nat) : ¬ FreeRun m k n := by
  obtain ⟨-, hall⟩ := firstFit_spec n hn m.toList 0 0 0 (Or.inl rfl) hn
  intro hf
  exact not_freeRun_of_allocated (hall h k (by simp) (by simpa using hf.1)) hf

/-- Settles O25: the searches of the map, each said by the runs that it finds. -/
theorem allocationIsFirstFit : Obligations.AllocationIsFirstFit := by
  refine ⟨fun m => ⟨freeRun_largestRun m, fun k n h => FreeRun.le_largestRun h, fun top h1 h2 h3 =>
    (TopOf.mk h1 h2 h3).topRun_eq⟩, fun c n hn => ⟨fun hc => ?_, fun hc top h1 h2 h3 =>
    (TopOf.mk h1 h2 h3).allocate_eq hc n⟩⟩
  rw [allocate_stopped hc]
  exact ⟨fun k hk => firstFit_lowest hn hk, fun h k => firstFit_none hn h k⟩

/-! ### The start of a compaction (R41) -/

theorem ownedCount_ne_zero {m : Vector (Option EntryIx) 2048} {e : EntryIx} :
    ownedCount m e ≠ 0 ↔ ∃ g, m.get g = some e := by
  rw [ownedCount, ← Nat.pos_iff_ne_zero, List.countP_pos_iff]
  constructor
  · rintro ⟨x, hx, he⟩
    obtain ⟨k, hk, rfl⟩ := List.getElem_of_mem hx
    rw [map_toList_get] at he
    exact ⟨_, by simpa using he⟩
  · rintro ⟨g, hg⟩
    refine ⟨some e, ?_, by simp⟩
    rw [← hg, ← map_toList_get m g.val (by simp)]
    exact List.getElem_mem _

/-- The map shows granules of an entry where its header holds a body reference, and nowhere else (R30). -/
theorem MapAgrees.ownedCount_ne_zero_iff {s : State} (h : MapAgrees s) (e : EntryIx) :
    ownedCount s.ctl.map e ≠ 0 ↔ (s.store.headers.get e).header.body.isSome = true := by
  obtain ⟨hin, hrun⟩ := h e
  rw [ownedCount_ne_zero, Option.isSome_iff_exists]
  constructor
  · rintro ⟨g, hg⟩
    obtain ⟨r, hr, -⟩ := (hrun g).mp hg
    exact ⟨r, hr⟩
  · rintro ⟨r, hr⟩
    have hpos := granulesFor_pos r.length
    obtain ⟨-, -, hend⟩ := BodyRef.inHeap_iff.mp (hin r hr)
    exact ⟨⟨r.first, by omega⟩, (hrun _).mpr ⟨r, hr, le_refl _, by dsimp only; omega⟩⟩

/-- The records that the map shows are the entries with a body reference (R30, R41). -/
theorem MapAgrees.recordsAllocated_eq {s : State} (h : MapAgrees s) : recordsAllocated s.ctl.map =
    ((List.range 256).map entryIx).countP (fun e => (s.store.headers.get e).header.body.isSome) := by
  refine List.countP_congr fun e _ => ?_
  rw [bne_iff_ne]
  exact h.ownedCount_ne_zero_iff e

theorem compactOp_stopped (u : Unit) {s : State} (hc : s.ctl.compacting = false) : compactOp u s =
    ({ s with ctl := { s.ctl with compacting := true, frontier := 0, moved := 0 } },
      0x00#8 :: byte2 (recordsAllocated s.ctl.map)) := by
  unfold compactOp
  rw [hc]
  rfl

/-- STORE-COMPACT with the compactor stopped (R41). -/
theorem exec_storeCompact {s : State} {r : Request} (hs : ServingStore s r 0x13#8) (hb : r.body = [])
    (hc : s.ctl.compacting = false) : exec .storeCompact s = .next { grant .commandInterpreter s with
      ctl := { (grant .commandInterpreter s).ctl with compacting := true, frontier := 0, moved := 0 }
      link := s.link.answered r (0x00#8 :: byte2 (recordsAllocated s.ctl.map)) } := by
  have hop := compactOp_stopped () (s := grant .commandInterpreter s) hc
  have hserve := serve_store_eq (op := compactOp) hs (parseNone_nil hb) (by rw [hop]; rfl) (by rw [hop]; rfl)
  rw [hop] at hserve
  exact congrArg Host.Outcome.next hserve

/-! ### The compaction step, by the record that it finds (R42, R43) -/

theorem compactStep_end {s : State} (h : nextRecord s.ctl = none) : compactStep s =
    post (.compactionEnd s.ctl.moved (topRun s.ctl.map)) { s with ctl := { s.ctl with compacting := false } } := by
  rw [compactStep, h]

theorem compactStep_passes {s : State} {e : EntryIx} (h : nextRecord s.ctl = some (s.ctl.frontier, e)) :
    compactStep s = { s with ctl := { s.ctl with frontier := s.ctl.frontier + ownedCount s.ctl.map e } } := by
  rw [compactStep, h]
  exact if_pos rfl

theorem compactStep_above {s : State} {start : Nat} {e : EntryIx} (h : nextRecord s.ctl = some (start, e))
    (hf : start ≠ s.ctl.frontier) : compactStep s = compactRecord start e s := by
  rw [compactStep, h]
  exact if_neg hf

/-- The empty heap's top run begins at granule 0 (R32). -/
theorem topOf_empty : TopOf (Vector.replicate 2048 none) 0 where
  inHeap := Nat.zero_le _
  free g _ := by simp [Vector.get_eq_getElem]
  foot := Or.inl rfl

/-- Settles O27: STORE-COMPACT's operation, and the two branches of a step that move nothing. -/
theorem compactionStartsAndEnds : Obligations.CompactionStartsAndEnds := by
  refine ⟨fun s r hs hb hc hm => ?_, fun s g e hg hf hm hstart => ?_, fun s hg hnone => ?_, topOf_empty.topRun_eq⟩
  · rw [exec_storeCompact hs hb hc, hm.recordsAllocated_eq]
  · have hnext : nextRecord (grant .compactor s).ctl = some ((grant .compactor s).ctl.frontier, e) := by
      rw [show (grant .compactor s).ctl.frontier = g.val from hf.symm]
      exact nextRecord_start (s := grant .compactor s) hm (le_of_eq hf.symm)
        (fun k h1 h2 => absurd h1 (by simp only [grant_ctl_frontier]; omega)) hstart
    rw [exec_compactionStep hg, compactStep_passes hnext]
    rfl
  · rw [exec_compactionStep hg, compactStep_end (s := grant .compactor s) (nextRecord_none hnone)]
    rfl

/-! ### The bytes of a record that is placed or moved (R29) -/

theorem HeapCanonical.rising {s : State} (h : HeapCanonical s) : s.store.heap.Pairwise (fun x y => x.1 < y.1) :=
  ((Memory.wf_iff _).mp h).1

/-- A record written leaves every byte outside it. -/
theorem read_outside_record {m : Memory} (hm : m.Pairwise (fun x y => x.1 < y.1)) (e : EntryIx) {body : List Byte}
    {start a : Nat} (ha : a < 16 * start ∨ 16 * start + body.length + 4 ≤ a) :
    Memory.read (Memory.writeBytes m (16 * start) (bodyRecord e body)) a = Memory.read m a := by
  rw [Memory.read_writeBytes hm, bodyRecord_length, if_neg (by omega)]

/-- A sound record is its owner's record of its body, in the heap (R29). -/
theorem recordSound_bytes {m : Memory} {e : EntryIx} {r : BodyRef} (h : recordSound m e r = true) :
    (1 ≤ r.length ∧ r.length ≤ 240 ∧ r.first + granulesFor r.length ≤ 2048) ∧
      Memory.readBytes m (16 * r.first) (r.length + 4) = bodyRecord e (recordBody m r) := by
  rw [recordSound, Bool.and_eq_true, beq_iff_eq] at h
  exact ⟨BodyRef.inHeap_iff.mp h.1, h.2⟩

theorem recordBody_length (m : Memory) (r : BodyRef) : (recordBody m r).length = r.length :=
  Memory.readBytes_length ..

/-- A sound record copied to another place in the heap: the same body stands sound there, and every byte outside the copy is
as it was (R42). -/
theorem record_copied {m : Memory} (hm : m.Pairwise (fun x y => x.1 < y.1)) {e : EntryIx} {r : BodyRef}
    (hs : recordSound m e r = true) {start : Nat} (hstart : start ≤ r.first) :
    let m' := Memory.writeBytes m (16 * start) (Memory.readBytes m (16 * r.first) (r.length + 4))
    recordSound m' e ⟨start, r.length⟩ = true ∧ recordBody m' ⟨start, r.length⟩ = recordBody m r ∧
      ∀ a, a < 16 * start ∨ 16 * start + r.length + 4 ≤ a → Memory.read m' a = Memory.read m a := by
  obtain ⟨⟨h1, h2, h3⟩, hbytes⟩ := recordSound_bytes hs
  rw [hbytes]
  obtain ⟨first, length⟩ := r
  have hlen : (recordBody m ⟨first, length⟩).length = length := recordBody_length ..
  generalize recordBody m ⟨first, length⟩ = body at hlen
  subst hlen
  dsimp only at h1 h2 h3 hstart
  exact ⟨recordSound_written hm e body start h1 h2 (by omega), recordBody_written hm e body start,
    fun a ha => read_outside_record hm e ha⟩

/-! ### The move of a record, or the quarantine of its owner (R42) -/

theorem compactRecord_moves {s : State} {start : Nat} {e : EntryIx} {h : Header} {d : Definition} {b : BodyRef}
    (hr : readHeader s e = some (h, d)) (hb : h.body = some b) (hfirst : b.first = start)
    (hs : recordSound s.store.heap e b = true) : compactRecord start e s = moveRecord e h b s := by
  simp only [compactRecord, hr, hb]
  exact if_pos ⟨hfirst, hs⟩

theorem compactRecord_headerFault {s : State} (start : Nat) {e : EntryIx} (hr : readHeader s e = none) :
    compactRecord start e s = quarantine e .header .compaction s := by
  simp only [compactRecord, hr]

theorem compactRecord_bodyFault {s : State} (start : Nat) {e : EntryIx} {h : Header} {d : Definition} {b : BodyRef}
    (hr : readHeader s e = some (h, d)) (hb : h.body = some b) (hs : recordSound s.store.heap e b = false) :
    compactRecord start e s = quarantine e .body .compaction s := by
  simp only [compactRecord, hr, hb]
  exact if_neg (by simp [hs])

/-- A granted compaction step whose record starts above the frontier (R42). -/
theorem exec_compactionStep_above {s : State} {e : EntryIx} {g : Fin 2048} (hg : granted s .compactor = true)
    (hm : s.ctl.map.get g = some e) (hf : s.ctl.frontier < g.val)
    (hfree : ∀ k : Fin 2048, s.ctl.frontier ≤ k.val → k.val < g.val → s.ctl.map.get k = none) :
    exec .compactionStep s = .next (kickTx (compactRecord g.val e (grant .compactor s))) := by
  have hstart : ∀ k : Fin 2048, k.val + 1 = g.val → s.ctl.map.get k ≠ some e := by
    intro k hk
    rw [hfree k (by omega) (by omega)]
    exact (Option.some_ne_none e).symm
  rw [exec_compactionStep hg, compactStep_above (s := grant .compactor s)
    (nextRecord_start (s := grant .compactor s) hm hf.le hfree hstart) (by simpa using hf.ne')]

/-- Settles O28: the move is a copy of the record's bytes, one header write and one run of the map; the fault is a
quarantine. -/
theorem compactionMovesRecord : Obligations.CompactionMovesRecord := by
  intro s e g hg hm hf hfree
  have hexec := exec_compactionStep_above hg hm hf hfree
  refine ⟨fun h d b hc hr hb hfirst hs => ?_, fun record hfault => ?_⟩
  · rw [compactRecord_moves (s := grant .compactor s) hr hb hfirst hs] at hexec
    obtain ⟨hsound, hbody, hread⟩ := record_copied hc.rising hs (start := s.ctl.frontier) (by omega)
    refine ⟨_, hexec, (header_writeHeader ..).trans (if_pos rfl), (stateOf_writeHeader ..).trans (if_pos rfl), hsound,
      hbody, hread, fun k => ?_, rfl, rfl, rfl, rfl, fun k hk => ⟨(header_writeHeader ..).trans (if_neg hk),
      (stateOf_writeHeader ..).trans (if_neg hk)⟩, rfl, rfl, rfl⟩
    exact (get_giveInMap ..).trans (by rw [get_freeInMap]; rfl)
  · have hq : compactRecord g.val e (grant .compactor s) = quarantine e record .compaction (grant .compactor s) := by
      rcases hfault with ⟨rfl, hr⟩ | ⟨rfl, h, d, b, hr, hb, hs⟩
      · exact compactRecord_headerFault _ hr
      · exact compactRecord_bodyFault _ hr hb hs
    rw [hq] at hexec
    exact ⟨_, hexec, (quarantined_quarantine e record .compaction _).of_grant, by simp, by simp,
      by simp [OrderAfter, grant]⟩

end Sys2Proof.Machine
end

section
/-! The requests on an entry's body: BODY-LOAD, BODY-READ and BODY-DROP (R38 to R40). -/

namespace Sys2Proof.Machine

/-! ### BODY-READ (R39) -/

theorem bodyReadOp_record {s : State} {e : EntryIx} {h : Header} {d : Definition} {b : BodyRef} (hh : Holds s e h d)
    (hb : h.body = some b) (hs : recordSound s.store.heap e b = true) :
    bodyReadOp e s = (s, 0x00#8 :: byte1 b.length :: (byte2 b.first ++ recordBody s.store.heap b)) := by
  rcases defined_iff.mp hh.defined with hst | hst | hst <;> simp only [bodyReadOp, hst, hh.sound, hb, hs, if_true] <;> rfl

theorem bodyReadOp_faulty {s : State} {e : EntryIx} {h : Header} {d : Definition} {b : BodyRef} (hh : Holds s e h d)
    (hb : h.body = some b) (hs : recordSound s.store.heap e b = false) : bodyReadOp e s = dataFault e .body s := by
  rcases defined_iff.mp hh.defined with hst | hst | hst <;>
    simp only [bodyReadOp, hst, hh.sound, hb, hs, Bool.false_eq_true, if_false]

/-- An entry that has no body to read or to drop: it is QUARANTINED, or its header holds no reference (R39, R40). -/
def NoBody (s : State) (e : EntryIx) : Prop :=
  stateOf s e = .quarantined ∨ ∃ h d, Holds s e h d ∧ h.body = none

theorem NoBody.grant {s : State} {e : EntryIx} (hn : NoBody s e) (q : Requester) : NoBody (grant q s) e :=
  hn.imp id fun ⟨h, d, hh, hb⟩ => ⟨h, d, hh.grant q, hb⟩

theorem bodyReadOp_absent {s : State} {e : EntryIx} (hn : NoBody s e) :
    bodyReadOp e s = (s, [0x00#8, 0x00#8, 0x00#8, 0x00#8]) := by
  rcases hn with hst | ⟨h, d, hh, hb⟩
  · simp only [bodyReadOp, hst]
    rfl
  · rcases defined_iff.mp hh.defined with hst | hst | hst <;> simp only [bodyReadOp, hst, hh.sound, hb] <;> rfl

/-! ### BODY-DROP (R40) -/

theorem dropOp_absent {s : State} {e : EntryIx} (hn : NoBody s e) : dropOp e s = (s, [0x00#8, 0x00#8]) := by
  rcases hn with hst | ⟨h, d, hh, hb⟩
  · simp only [dropOp, hst]
    rfl
  · rcases defined_iff.mp hh.defined with hst | hst | hst <;> simp [dropOp, hst, hh.sound, hb, doneBytes]

theorem dropOp_record {s : State} {e : EntryIx} {h : Header} {d : Definition} (hh : Holds s e h d)
    (hb : h.body.isSome = true) :
    dropOp e s = (withdraw (· == e) (freeGranules e (writeHeader e { h with body := none } s)),
      [0x00#8, byte1 (ownedCount s.ctl.map e)]) := by
  rcases defined_iff.mp hh.defined with hst | hst | hst <;> simp only [dropOp, hst, hh.sound, hb, if_true] <;> rfl

/-! ### A new header for an entry that holds a definition -/

/-- A header of entry `e` written with the definition that it held reads back sound. -/
theorem readHeader_rewritten {s : State} {e : EntryIx} {h h' : Header} {d : Definition} (hh : Holds s e h d)
    (hd : h'.defn = h.defn) (u : State) : readHeader (writeHeader e h' u) e = some (h', d) :=
  readHeader_writeHeader e h' u (hd.trans (readHeader_some hh.sound).2.1)

/-- Where the list agrees with the header, an entry whose header is written with the state and the definition that it held
still holds that definition. -/
theorem holds_rewritten {s t u : State} {e : EntryIx} {h h' : Header} {d : Definition} (hh : Holds s e h d)
    (hst : h.state.entryState = stateOf s e) (hs : h'.state = h.state) (hd : h'.defn = h.defn)
    (hheaders : t.store.headers = (writeHeader e h' u).store.headers)
    (hstates : t.ctl.states = (writeHeader e h' u).ctl.states) : Holds t e h' d where
  defined := by
    have ht : stateOf t e = h'.state.entryState := by
      rw [stateOf, hstates]
      exact (stateOf_writeHeader ..).trans (if_pos rfl)
    rw [ht, hs, hst]
    exact hh.defined
  sound := by
    rw [readHeader, hheaders]
    exact readHeader_rewritten hh hd u

/-- The reports of a withdraw after an entry was written: by the report mode of its header (R96, R106). -/
theorem withdraw_notices_rewritten {s u : State} {e : EntryIx} {h : Header} {d : Definition} (hh : Holds u e h d)
    (hd : u.dispatch = s.dispatch) (hn : u.notices = s.notices) (hc : u.cal = s.cal) :
    (withdraw (· == e) u).notices =
      if d.report = .all then reported (withdrawnEnds e .superseded s) s else s.notices := by
  rw [withdraw_notices_sound hh, reported_withdrawn_congr e .superseded hd hn hc, hn]

/-- Settles O26: the five operations, each by the state and the record that it finds. -/
theorem bodyReadAndDrop : Obligations.BodyReadAndDrop := by
  refine ⟨fun s r e hs hb => ⟨fun h d b hh hbody hsound => ?_, fun hn => ?_, fun h d b hh hbody hfault => ?_⟩,
    fun s r e hs hb => ⟨fun h d hh hsome => ?_, fun hn => ?_⟩⟩
  · exact serve_index_unchanged hs hb (bodyReadOp_record (hh.grant _) hbody hsound)
  · exact serve_index_unchanged hs hb (bodyReadOp_absent (NoBody.grant hn _))
  · obtain ⟨t, ht, hl, hq, hm, ho⟩ := serve_dataFault hs hb (bodyReadOp_faulty (hh.grant _) hbody hfault)
    exact ⟨t, congrArg _ ht, hl, hq, hm, ho⟩
  · have hw := (entryWritten_writeHeader e { h with body := none } s).freeGranules
    obtain ⟨t, ht, hl, hstore, hctl, hm, hj, hn, hf, ho⟩ := serve_withdraws hs (parseIndex_byte1 hb)
      (dropOp_record (hh.grant _) hsome) hw (fun _ => Option.isSome_iff_exists.mpr ⟨_, readHeader_rewritten (h' := { h with body := none }) hh rfl _⟩)
    refine ⟨t, ht, hl, ?_, ?_, fun g => ?_, by rw [hstore]; rfl, hm, hj, fun hst => ?_, hf, ho⟩
    · rw [hstore]
      exact (header_writeHeader ..).trans (if_pos rfl)
    · rw [stateOf, hctl]
      exact (stateOf_writeHeader ..).trans (if_pos rfl)
    · rw [hctl]
      exact get_freeInMap e _ g
    · rw [hn]
      exact withdraw_notices_rewritten (holds_rewritten (h' := { h with body := none })
        (u := grant .commandInterpreter s) hh hst rfl rfl rfl rfl) rfl rfl rfl
  · exact serve_index_unchanged hs hb (dropOp_absent (NoBody.grant hn _))

/-! ### BODY-LOAD (R38) -/

/-- The state with some bytes as the heap's. -/
def withHeap (m : Memory) (s : State) : State := { s with store := { s.store with heap := m } }

/-- A new body record changes the heap and, of the rest, its entry's header and map elements alone. -/
theorem entryWritten_placeBody (e : EntryIx) (h : Header) (start : Nat) (body : List Byte) (s : State) :
    EntryWritten (withHeap (Memory.writeBytes s.store.heap (16 * start) (bodyRecord e body)) s)
      (placeBody e h start body (grant .commandInterpreter s)) e where
  headers _ hk := (header_writeHeader ..).trans (if_neg hk)
  states _ hk := (stateOf_writeHeader ..).trans (if_neg hk)
  rest := rfl
  order := rfl

theorem loadOp_places {s : State} {e : EntryIx} {h : Header} {d : Definition} {bytes : List Byte} {start : Nat}
    (hh : Holds s e h d) (ha : allocate s.ctl (granulesFor bytes.length) = some start) :
    loadOp (e, bytes) s = (withdraw (· == e) (placeBody e h start bytes s),
      0x00#8 :: (byte2 start ++ [byte1 (granulesFor bytes.length), if h.body.isSome then 0x01#8 else 0x00#8])) := by
  simp only [loadOp, hh.defined, hh.sound, ha, if_true]
  cases h.body <;> rfl

/-- A store request that writes the heap and an entry, and withdraws the entry's jobs (R13, R96). -/
theorem serve_withdraws_heap {s u : State} {α : Type} {a : α} {e : EntryIx} {r : Request} {kind : Byte} {b : List Byte}
    {m : Memory} {parse : List Byte → Except ReqError α} {op : α → State → State × List Byte}
    (hs : ServingStore s r kind) (hp : parse r.body = .ok a)
    (hop : op a (grant .commandInterpreter s) = (withdraw (· == e) u, b)) (hw : EntryWritten (withHeap m s) u e)
    (hsound : (stateOf u e).defined = true → (readHeader u e).isSome = true) :
    ∃ t, (Host.Outcome.next (serve kind true parse op s) : Host.Outcome State Fault Refusal) = .next t ∧
      t.link = s.link.answered r b ∧ t.store = u.store ∧ t.ctl = u.ctl ∧ t.matcher = s.matcher ∧
      JobsWithdrawn s t e ∧ t.notices = (withdraw (· == e) u).notices ∧ EntryFrame s t e ∧
      OrderAfter s t .commandInterpreter := by
  have hs' : ServingStore (withHeap m s) r kind := ⟨⟨hs.inService, hs.inHand, hs.kind⟩, hs.granted⟩
  have hlink : u.link = s.link := by rw [hw.rest]; rfl
  have hsupply : u.supply = s.supply := by rw [hw.rest]; rfl
  have hserve : serve kind true parse op s = serve kind true parse (fun _ _ => (withdraw (· == e) u, b)) (withHeap m s) := by
    rw [serve_store_eq hs hp (by rw [hop]; simp [hlink]) (by rw [hop]; simp [hsupply]), hop,
      serve_store_eq hs' hp (by simp [hlink, withHeap]) (by simp [hsupply, withHeap])]
    rfl
  obtain ⟨t, ht, hl, hstore, hctl, hm, hj, hn, hf, ho⟩ :=
    serve_withdraws (op := fun _ _ => (withdraw (· == e) u, b)) hs' hp rfl hw hsound
  exact ⟨t, by rw [hserve, ht], hl, hstore, hctl, hm, hj.of_same rfl rfl rfl, hn, { hf with }, ho⟩

/-- Settles O24: the record's bytes, the header and the run are placed, and the rest is the withdraw's. -/
theorem bodyLoadPlacesRecord : Obligations.BodyLoadPlacesRecord := by
  intro s r e bytes h d start hs hc hb h1 h2 hh ha
  have hrising := hc.rising
  obtain ⟨hin, -⟩ := allocate_run (granulesFor_pos _) ha
  have hw := entryWritten_placeBody e h start bytes s
  have hread := readHeader_rewritten (h' := { h with body := some ⟨start, bytes.length⟩ }) hh rfl
  obtain ⟨t, ht, hl, hstore, hctl, hm, hj, hn, hf, ho⟩ := serve_withdraws_heap hs (parseBodyLoad_byte1 hb h1 h2)
    (loadOp_places (hh.grant _) ha) hw (fun _ => Option.isSome_iff_exists.mpr ⟨_, hread _⟩)
  have hheap : t.store.heap = Memory.writeBytes s.store.heap (16 * start) (bodyRecord e bytes) := by
    rw [hstore]
    rfl
  refine ⟨t, ht, hl, ?_, ?_, ?_, ?_, fun a ha => ?_, fun g => ?_, hm, hj, fun hst => ?_, hf, ho⟩
  · rw [hstore]
    exact (header_writeHeader ..).trans (if_pos rfl)
  · rw [stateOf, hctl]
    exact (stateOf_writeHeader ..).trans (if_pos rfl)
  · rw [hheap]
    exact recordSound_written hrising e bytes start h1 h2 hin
  · rw [hheap]
    exact recordBody_written hrising e bytes start
  · rw [hheap]
    exact read_outside_record hrising e ha
  · rw [hctl]
    exact (get_giveInMap ..).trans (congrArg _ (get_freeInMap ..))
  · rw [hn]
    exact withdraw_notices_rewritten (holds_rewritten (h' := { h with body := some ⟨start, bytes.length⟩ })
      (u := grant .commandInterpreter s) hh hst rfl rfl rfl rfl) rfl rfl rfl

end Sys2Proof.Machine
end

section
/-! STORE-ERASE: what it leaves of the queues, the pending records, the high-water flags and the ports (R46, R95, R96,
R104). -/

namespace Sys2Proof.Machine

theorem PerSegment.set_get {α : Type} (p : PerSegment α) (i : Seg) : p.set i (p.get i) = p := by
  refine PerSegment.ext_get fun k => ?_
  rw [PerSegment.get_set]
  split
  · next hk => rw [hk]
  · rfl

/-! ### Take-in on a line without a waiting job (R97, R98, R104) -/

theorem removeTo_self (i : Seg) (s : State) : removeTo i (s.queue i) s = s := by
  rw [removeTo, if_neg (by omega), State.queue, PerSegment.set_get]

theorem setEnded_self (i : Seg) (s : State) : setEnded i (s.dispatch.ended.get i) s = s := by
  rw [setEnded, PerSegment.set_get]

/-- No job expires where none waits. -/
theorem expireHeads_drained {i : Seg} {s : State} (h : ∀ j ∈ s.queue i, j.inService = true) : expireHeads i s = s := by
  have hserved : (s.queue i).filter (·.inService) = s.queue i := List.filter_eq_self.mpr h
  have hnone : (s.queue i).filter (fun j => !j.inService) = [] :=
    List.filter_eq_nil_iff.mpr fun j hj => by simp [h j hj]
  simp only [expireHeads, hserved, hnone, splitOld, List.map_nil, List.append_nil, removeTo_self, setEnded_self]

/-- Take-in on a line without a waiting job presents a pending record, and nothing else (R104). -/
theorem considerTakeIn_drained {i : Seg} {s : State} (h : ∀ j ∈ s.queue i, j.inService = true) :
    considerTakeIn i s = if (s.port i).health = .closed then s else presentRecording i s := by
  have hnone : (s.queue i).filter (fun j => !j.inService) = [] :=
    List.filter_eq_nil_iff.mpr fun j hj => by simp [h j hj]
  simp only [considerTakeIn, expireHeads_drained h, hnone]

/-- What take-in leaves of a line without a waiting job. -/
theorem line_considerTakeIn_drained {i : Seg} {s : State} (h : ∀ j ∈ s.queue i, j.inService = true) :
    (considerTakeIn i s).queue i = s.queue i ∧
      (considerTakeIn i s).dispatch.ended.get i = s.dispatch.ended.get i ∧
      (considerTakeIn i s).port i = { s.port i with
        fetchOp := if (s.port i).health ≠ .closed ∧ s.dispatch.ended.get i ≠ [] ∧ (s.port i).fetchOp = .none then .record
          else (s.port i).fetchOp } := by
  rw [considerTakeIn_drained h]
  split
  · next hc => exact ⟨rfl, rfl, by rw [if_neg (fun hh => hh.1 hc)]⟩
  · next hc =>
    unfold presentRecording
    split
    · next hr => exact ⟨rfl, rfl, by rw [port_onPort, if_pos rfl, if_pos ⟨hc, hr⟩]⟩
    · next hr => exact ⟨rfl, rfl, by rw [if_neg (fun hh => hr hh.2)]⟩

/-! ### The withdraw of every entry's jobs (R46, R96) -/

/-- The jobs in service of every queue, and every pending record, marked stale; the waiting jobs gone. -/
def allStale (s : State) : State := markStale (fun _ => true) (removeSelected (fun _ _ => true) s)

theorem queue_allStale (i : Seg) (s : State) :
    (allStale s).queue i = ((s.queue i).filter (·.inService)).map (fun j => { j with stale := true }) := by
  simp [allStale, queue_removeSelected]

theorem ended_allStale (i : Seg) (s : State) :
    (allStale s).dispatch.ended.get i = (s.dispatch.ended.get i).map (fun j => { j with stale := true }) := by
  simp [allStale, markStale, removeSelected_ended]

theorem port_allStale (i : Seg) (s : State) : (allStale s).port i = s.port i := by
  rw [State.port, allStale, markStale_ports, removeSelected_ports, State.port]

theorem inService_allStale {i : Seg} {s : State} : ∀ j ∈ (allStale s).queue i, j.inService = true := by
  intro j hj
  rw [queue_allStale] at hj
  obtain ⟨k, hk, rfl⟩ := List.mem_map.mp hj
  exact (List.mem_filter.mp hk).2

/-- A segment loses a job where its queue becomes shorter. -/
theorem mem_losing_all {i : Seg} {s : State} :
    i ∈ losing (fun _ _ => true) s ↔ ((allStale s).queue i).length < (s.queue i).length := by
  rw [mem_losing, queue_allStale, List.length_map, List.length_filter_lt_length_iff_exists]
  simp

section NoDefinition

variable {s : State} (hs : ∀ e, (stateOf s e).defined = false)
include hs

/-- Where no entry has a definition, the recording of the withdrawn changes the notices alone, and then take-in is
considered. -/
theorem withdrawAll_eq : ∃ n, withdraw (fun _ => true) s =
    considerAll (losing (fun _ _ => true) s) { allStale s with notices := n } :=
  withdraw_eq fun e _ hd => by rw [hs e] at hd; cases hd

/-- What the withdraw of every entry's jobs leaves of a segment's line. -/
theorem line_withdrawAll (i : Seg) :
    (withdraw (fun _ => true) s).queue i = ((s.queue i).filter (·.inService)).map (fun j => { j with stale := true }) ∧
      (withdraw (fun _ => true) s).dispatch.ended.get i =
        (s.dispatch.ended.get i).map (fun j => { j with stale := true }) ∧
      (withdraw (fun _ => true) s).port i = { s.port i with
        fetchOp := if ((withdraw (fun _ => true) s).queue i).length < (s.queue i).length ∧
          (s.port i).health ≠ .closed ∧ s.dispatch.ended.get i ≠ [] ∧ (s.port i).fetchOp = .none then .record
          else (s.port i).fetchOp } := by
  obtain ⟨n, hn⟩ := withdrawAll_eq hs
  have hline := sameLine_considerAll (nodup_losing (fun _ _ => true) s) i { allStale s with notices := n }
  rw [← hn] at hline
  have hport : State.port { allStale s with notices := n } i = s.port i := port_allStale i s
  have hended : (allStale s).dispatch.ended.get i ≠ [] ↔ s.dispatch.ended.get i ≠ [] := by simp [ended_allStale]
  by_cases hl : i ∈ losing (fun _ _ => true) s
  · rw [if_pos hl] at hline
    obtain ⟨hq, he, hp⟩ := line_considerTakeIn_drained (s := { allStale s with notices := n })
      (inService_allStale (s := s))
    have hqueue : (withdraw (fun _ => true) s).queue i = (allStale s).queue i := hline.queue.trans hq
    refine ⟨hqueue.trans (queue_allStale i s), hline.ended.trans (he.trans (ended_allStale i s)),
      hline.port.trans (hp.trans ?_)⟩
    simp only [hport, hended, hqueue, mem_losing_all.mp hl, true_and]
  · rw [if_neg hl] at hline
    have hqueue : (withdraw (fun _ => true) s).queue i = (allStale s).queue i := hline.queue
    refine ⟨hqueue.trans (queue_allStale i s), hline.ended.trans (ended_allStale i s),
      hline.port.trans (hport.trans ?_)⟩
    rw [hqueue, if_neg (fun hh => hl (mem_losing_all.mpr hh.1))]

end NoDefinition

/-! ### The request (R46) -/

theorem eraseOp_stopped (u : Unit) {s : State} (hc : s.ctl.compacting = false) : eraseOp u s =
    (withdraw (fun _ => true) (eraseStore s), 0x00#8 :: byte2 (256 - entriesIn s.ctl.states .empty)) := by
  unfold eraseOp
  rw [hc]
  rfl

theorem stateOf_eraseStore (e : EntryIx) (s : State) : stateOf (eraseStore s) e = .empty := by
  simp [stateOf, eraseStore, Vector.get_eq_getElem]

/-- An erased store holds no definition. -/
theorem undefined_eraseStore (s : State) (e : EntryIx) : (stateOf (eraseStore s) e).defined = false := by
  rw [stateOf_eraseStore]
  rfl

/-- Settles O29: the store is erased, and the withdraw of every entry's jobs finds no header to read and no failure to
report. -/
theorem eraseEmptiesStore : Obligations.EraseEmptiesStore := by
  intro s r hs hb hc
  have hop := eraseOp_stopped () (s := grant .commandInterpreter s) hc
  have hserve := serve_store_eq (op := eraseOp) hs (parseNone_nil hb) (by rw [hop]; simp [eraseStore])
    (by rw [hop]; simp [eraseStore])
  rw [hop] at hserve
  have hbare := undefined_eraseStore (grant .commandInterpreter s)
  have hread : ∀ e, (fun _ => true) e = true → (stateOf (eraseStore (grant .commandInterpreter s)) e).defined = true →
      (readHeader (eraseStore (grant .commandInterpreter s)) e).isSome = true :=
    fun e _ hd => by rw [hbare e] at hd; cases hd
  have hstore := withdraw_store hread
  have hctl := withdraw_ctl hread
  have hline := line_withdrawAll hbare
  have hholds := (kept_holds s.dispatch.hold s.dispatch.segHold).withdraw (fun _ => true)
    (s := eraseStore (grant .commandInterpreter s)) ⟨rfl, rfl⟩
  refine ⟨_, congrArg Host.Outcome.next hserve, rfl, fun e => ⟨?_, ?_⟩, fun g => ?_, fun i => (hline i).1,
    fun i => ?_, fun i => (hline i).2.1, ?_, hholds.1, hholds.2, ?_, ?_, ?_, ?_, ?_, ?_, ?_, ?_, fun i => (hline i).2.2, ?_, ?_, ?_, ?_, ?_⟩
  · exact (congrArg (·.headers.get e) hstore).trans (header_eraseStore ..)
  · exact (congrArg (·.states.get e) hctl).trans (stateOf_eraseStore ..)
  · exact (congrArg (·.map.get g) hctl).trans (map_eraseStore ..)
  · exact ((kept_rearmed i (eraseStore (grant .commandInterpreter s))).withdraw (fun _ => true) (Rearmed.refl ..)).2
  · exact (kept_nextTag s.dispatch.nextTag).withdraw (fun _ => true) rfl
  · exact congrArg (·.heap) hstore
  · exact congrArg (·.segRecords) hstore
  · exact congrArg (·.daylightRecord) hstore
  · exact (congrArg (·.compacting) hctl).trans hc
  · exact congrArg (·.order) hctl
  · exact withdraw_cal ..
  · exact withdraw_matcher ..
  · exact withdraw_supply ..
  · exact withdraw_all_notices_bare hbare
  · exact congrArg (·.frontier) hctl
  · exact congrArg (·.moved) hctl
  · exact withdraw_free ..
  · exact withdraw_pending ..

end Sys2Proof.Machine
end

section
/-! The candidate of an update event and the second that it counts (R52 to R55). -/

namespace Sys2Proof.Machine

/-- The second of the day that a reading names. -/
def Reading.secondOfDay (r : Reading) : Nat := r.hour * 3600 + r.minute * 60 + r.second

/-- The last second of a day. -/
def Reading.BeforeMidnight (r : Reading) : Prop := r.hour = 23 ∧ r.minute = 59 ∧ r.second = 59

/-- One date as another. -/
def Reading.SameDate (a b : Reading) : Prop := a.year = b.year ∧ a.month = b.month ∧ a.day = b.day

theorem inRange_iff (r : Reading) : r.inRange = true ↔
    2000 ≤ r.year ∧ r.year ≤ 2199 ∧ 1 ≤ r.month ∧ r.month ≤ 12 ∧ 1 ≤ r.day ∧ r.day ≤ lastDay r.year r.month ∧
      r.hour ≤ 23 ∧ r.minute ≤ 59 ∧ r.second ≤ 59 := by
  simp [Reading.inRange]

/-! ### The candidate (R53) -/

theorem next_beforeMidnight {r : Reading} (h : r.BeforeMidnight) : r.next = r.nextDay := by
  obtain ⟨hh, hm, hs⟩ := h
  simp [Reading.next, hh, hm, hs]

/-- Within a day the carries stop at the hour: the date stays, and the second of the day is the next. -/
theorem next_within_day {r : Reading} (hr : r.inRange = true) (h : ¬ r.BeforeMidnight) :
    r.next.SameDate r ∧ r.next.inRange = true ∧ r.next.secondOfDay = r.secondOfDay + 1 := by
  rw [inRange_iff] at hr ⊢
  unfold Reading.BeforeMidnight at h
  unfold Reading.next Reading.secondOfDay
  split
  · exact ⟨⟨rfl, rfl, rfl⟩, by dsimp only; omega, by dsimp only; omega⟩
  · split
    · exact ⟨⟨rfl, rfl, rfl⟩, by dsimp only; omega, by dsimp only; omega⟩
    · split
      · exact ⟨⟨rfl, rfl, rfl⟩, by dsimp only; omega, by dsimp only; omega⟩
      · exact absurd ⟨by omega, by omega, by omega⟩ h

/-- The seconds of some days and of a reading's part of a day. -/
theorem seconds_eq (days : Nat) (r : Reading) :
    days * 86400 + r.hour * 3600 + r.minute * 60 + r.second = days * 86400 + r.secondOfDay := by
  unfold Reading.secondOfDay
  omega

theorem secondOfDay_nextDay (r : Reading) : r.nextDay.secondOfDay = 0 := by
  unfold Reading.nextDay
  split
  · simp [Reading.secondOfDay]
  · split <;> simp [Reading.secondOfDay]

theorem secondOfDay_beforeMidnight {r : Reading} (h : r.BeforeMidnight) : r.secondOfDay = 86399 := by
  obtain ⟨hh, hm, hs⟩ := h
  simp [Reading.secondOfDay, hh, hm, hs]

/-- Midnight after a day that is not the last of the range begins the next day (R53, R54). -/
theorem next_midnight {r : Reading} (hr : r.inRange = true) (hl : r ≠ lastReading) (h : r.BeforeMidnight) :
    r.next.inRange = true ∧ r.next.secondOfDay = 0 ∧
      daysFrom2000 r.next.year r.next.month r.next.day = daysFrom2000 r.year r.month r.day + 1 := by
  rw [next_beforeMidnight h]
  have hday : ¬ (r.year = 2199 ∧ r.month = 12 ∧ r.day = 31) := by
    obtain ⟨hh, hm, hs⟩ := h
    rintro ⟨hy, hmo, hd⟩
    exact hl (by cases r; simp_all [lastReading])
  obtain ⟨hin, hdays⟩ := nextDay_spec r hr hday
  exact ⟨hin, secondOfDay_nextDay r, hdays⟩

theorem next_inRange {r : Reading} (hr : r.inRange = true) (hl : r ≠ lastReading) : r.next.inRange = true := by
  by_cases h : r.BeforeMidnight
  · exact (next_midnight hr hl h).1
  · exact (next_within_day hr h).2.1

/-! ### The date and the weekday (R55) -/

theorem daysFrom2000_sameDate {a b : Reading} (h : a.SameDate b) :
    daysFrom2000 a.year a.month a.day = daysFrom2000 b.year b.month b.day := by
  obtain ⟨hy, hm, hd⟩ := h
  rw [hy, hm, hd]

theorem weekday_sameDate {a b : Reading} (h : a.SameDate b) : a.weekday = b.weekday := by
  unfold Reading.weekday weekdayOf
  rw [daysFrom2000_sameDate h]

/-- One day later is one weekday later, Monday after Sunday. -/
theorem weekday_dayLater {a b : Reading}
    (h : daysFrom2000 a.year a.month a.day = daysFrom2000 b.year b.month b.day + 1) :
    a.weekday = b.weekday % 7 + 1 := by
  unfold Reading.weekday weekdayOf
  omega

end Sys2Proof.Machine
end

section
/-! An update event's reading and fold (R54, R58 to R62), and what the event makes of the state (R50, R51, R57, R63). -/

namespace Sys2Proof.Machine

/-! ### The dates and moments of the transitions (R58 to R60) -/

theorem atTransition_iff (t : Transition) (x : Reading) : atTransition t x = true ↔
    x.month = t.month ∧ x.day = transitionDay t x.year ∧ x.hour = t.hour ∧ x.minute = 0 ∧ x.second = 0 := by
  simp [atTransition, onTransitionDate, and_assoc]

theorem inRepeatedHour_iff (rule : DaylightRule) (x : Reading) : inRepeatedHour rule x = true ↔
    rule.enabled = true ∧ x.month = rule.back.month ∧ x.day = transitionDay rule.back x.year ∧
      x.hour + 1 = rule.back.hour := by
  simp [inRepeatedHour, onTransitionDate, and_assoc]

/-- Both transitions need the clock valid and daylight enabled. -/
theorem no_transition_off {rule : DaylightRule} {valid : Bool} (h : valid = false ∨ rule.enabled = false) (fold : Fold)
    (c : Reading) : forwardApplies rule valid c = false ∧ backApplies rule valid fold c = false := by
  rcases h with h | h <;> simp [forwardApplies, backApplies, h]

section On
variable {rule : DaylightRule} {valid : Bool} (hv : valid = true) (he : rule.enabled = true)
include hv he

theorem forwardApplies_on (c : Reading) : forwardApplies rule valid c = atTransition rule.forward c := by
  simp [forwardApplies, hv, he]

theorem backApplies_on (fold : Fold) (c : Reading) : backApplies rule valid fold c = true ↔
    atTransition rule.back c = true ∧ fold ≠ .second ∧ ¬ atTransition rule.forward c = true := by
  simp only [backApplies, forwardApplies_on hv he, Bool.and_eq_true, bne_iff_ne, Bool.not_eq_true', Bool.not_eq_true]
  tauto

/-! ### The fold after an update (R61, R62) -/

theorem foldAfter_back (fold : Fold) (new : Reading) : foldAfter rule valid fold true new = .second := by
  simp [foldAfter, hv, he]

/-- Without the back transition the fold follows the repeated hour, in which SECOND stays. -/
theorem foldAfter_notBack (fold : Fold) (new : Reading) :
    (inRepeatedHour rule new = true → fold = .second → foldAfter rule valid fold false new = .second) ∧
      (inRepeatedHour rule new = true → fold ≠ .second → foldAfter rule valid fold false new = .first) ∧
      (inRepeatedHour rule new = false → foldAfter rule valid fold false new = .normal) := by
  refine ⟨fun h hs => ?_, fun h hs => ?_, fun h => ?_⟩
  · simp [foldAfter, hv, he, h, hs]
  · simp [foldAfter, hv, he, h, hs]
  · simp [foldAfter, h]

end On

theorem foldAfter_off {rule : DaylightRule} {valid : Bool} (h : valid = false ∨ rule.enabled = false) (fold : Fold)
    (b : Bool) (new : Reading) : foldAfter rule valid fold b new = .normal := by
  rcases h with h | h <;> simp [foldAfter, h]

/-! ### The four ways of an update (R51, R53, R54, R59, R60) -/

theorem updateReading_lastReading (rule : DaylightRule) (valid : Bool) (fold : Fold) :
    updateReading rule valid fold lastReading = ⟨firstReading, .normal, false, none⟩ := if_pos rfl

section Update
variable {rule : DaylightRule} {valid : Bool} {fold : Fold} {r : Reading} (hl : r ≠ lastReading)
include hl

theorem updateReading_forward (hf : forwardApplies rule valid r.next = true) :
    updateReading rule valid fold r =
      let new := { r.next with hour := r.next.hour + 1 }
      ⟨new, foldAfter rule valid fold false new, valid, some (.forward, r.next)⟩ := by
  simp [updateReading, hl, hf]

theorem updateReading_back (hf : forwardApplies rule valid r.next = false)
    (hb : backApplies rule valid fold r.next = true) :
    updateReading rule valid fold r =
      let new := { r.next with hour := r.next.hour - 1 }
      ⟨new, foldAfter rule valid fold true new, valid, some (.back, r.next)⟩ := by
  simp [updateReading, hl, hf, hb]

theorem updateReading_ordinary (hf : forwardApplies rule valid r.next = false)
    (hb : backApplies rule valid fold r.next = false) :
    updateReading rule valid fold r = ⟨r.next, foldAfter rule valid fold false r.next, valid, none⟩ := by
  simp [updateReading, hl, hf, hb]

theorem updateReading_valid : (updateReading rule valid fold r).valid = valid := by
  cases hf : forwardApplies rule valid r.next with
  | true => rw [updateReading_forward hl hf]
  | false =>
    cases hb : backApplies rule valid fold r.next with
    | true => rw [updateReading_back hl hf hb]
    | false => rw [updateReading_ordinary hl hf hb]

theorem updateReading_off (h : valid = false ∨ rule.enabled = false) :
    updateReading rule valid fold r = ⟨r.next, .normal, valid, none⟩ := by
  obtain ⟨hf, hb⟩ := no_transition_off h fold r.next
  rw [updateReading_ordinary hl hf hb, foldAfter_off h]

end Update

/-- No transition carries a reading out of its day, where the rule's hours leave room for the hour that is added. -/
theorem updateReading_inRange {rule : DaylightRule} (valid : Bool) (fold : Fold) {r : Reading} (hr : r.inRange = true)
    (hhour : rule.forward.hour ≤ 22) : (updateReading rule valid fold r).reading.inRange = true := by
  by_cases hl : r = lastReading
  · subst hl
    rw [updateReading_lastReading]
    rfl
  have hc := next_inRange hr hl
  cases hf : forwardApplies rule valid r.next with
  | true =>
    rw [updateReading_forward hl hf]
    have hat : atTransition rule.forward r.next = true := by
      simp only [forwardApplies, Bool.and_eq_true] at hf
      exact hf.2
    obtain ⟨-, -, hh, -, -⟩ := (atTransition_iff _ _).mp hat
    exact inRange_withHour _ _ hc (by omega)
  | false =>
    cases hb : backApplies rule valid fold r.next with
    | true =>
      rw [updateReading_back hl hf hb]
      obtain ⟨-, -, -, -, -, -, hh, -, -⟩ := (inRange_iff _).mp hc
      exact inRange_withHour _ _ hc (by omega)
    | false =>
      rw [updateReading_ordinary hl hf hb]
      exact hc

/-! ### UPDATE_EVENT by the phase and VBAK (R50, R51) -/

theorem exec_updateEvent_inService {s : State} (h : s.supply.phase = .inService) :
    exec .updateEvent s = .next (kickTx (countSecond (shiftNow s) (advanceCalendar s))) := by
  simp [exec, execUpdateEvent, State.inService, h]

theorem exec_updateEvent_outOfService {s : State} (h : s.supply.phase ≠ .inService)
    (hv : ¬ (s.supply.phase = .unpowered ∧ s.supply.vbakLow = true)) :
    exec .updateEvent s = .next (advanceCalendar s) := by
  simp only [exec, execUpdateEvent, State.inService, Bool.and_eq_true, beq_iff_eq, if_neg hv, if_neg h]

theorem exec_updateEvent_vbakLow {s : State} (h : s.supply.phase = .unpowered) (hv : s.supply.vbakLow = true) :
    exec .updateEvent s = .next s := by
  simp [exec, execUpdateEvent, h, hv]

/-! ### What the event leaves in the calendar, the pass and the notices -/

theorem postShift_cal (shift : Option (ShiftDirection × Reading)) (s : State) : (postShift shift s).cal = s.cal := by
  cases shift with
  | none => rfl
  | some x => exact post_cal ..

theorem stampNow_postShift (shift : Option (ShiftDirection × Reading)) (s : State) :
    stampNow (postShift shift s) = stampNow s := by
  simp only [stampNow, postShift_cal]

theorem countSecond_eq (shift : Option (ShiftDirection × Reading)) (s : State) : countSecond shift s =
    let counted : State := { s with cal := { s.cal with runSecond := s.cal.runSecond + 1 } }
    { postShift shift counted with matcher := some ⟨stampNow counted, 0, true⟩ } := by
  rw [countSecond, startPass, stampNow_postShift]

theorem cal_countSecond (shift : Option (ShiftDirection × Reading)) (s : State) : (countSecond shift s).cal =
    { s.cal with runSecond := s.cal.runSecond + 1 } := postShift_cal shift _

theorem matcher_countSecond (shift : Option (ShiftDirection × Reading)) (s : State) : (countSecond shift s).matcher =
    some ⟨⟨s.cal.reading, s.cal.fold, s.cal.valid, s.cal.runSecond + 1⟩, 0, true⟩ := by
  rw [countSecond_eq]
  rfl

/-- Every update event leaves the reading, or makes R51's of it. -/
theorem reading_updateEvent {s t : State} (h : exec .updateEvent s = .next t) : t.cal.reading = s.cal.reading ∨
    t.cal.reading = (updateReading s.cal.rule s.cal.valid s.cal.fold s.cal.reading).reading := by
  by_cases hv : s.supply.phase = .unpowered ∧ s.supply.vbakLow = true
  · obtain ⟨hu, hlow⟩ := hv
    rw [exec_updateEvent_vbakLow hu hlow] at h
    cases h
    exact .inl rfl
  · by_cases hp : s.supply.phase = .inService
    · rw [exec_updateEvent_inService hp] at h
      cases h
      rw [kickTx_cal, cal_countSecond]
      exact .inr rfl
    · rw [exec_updateEvent_outOfService hp hv] at h
      cases h
      exact .inr rfl

/-! ### The obligations on the update event -/

/-- Settles O34: by whether the reading is the last second of its day. -/
theorem calendarAdvancesOneSecond : Obligations.CalendarAdvancesOneSecond := by
  refine ⟨by decide, fun r hr hl => ⟨next_inRange hr hl, ?_⟩, fun s t hr hf _ ht => ?_⟩
  · by_cases h : r.BeforeMidnight
    · obtain ⟨-, hsec, hdays⟩ := next_midnight hr hl h
      have hlast := secondOfDay_beforeMidnight h
      refine ⟨?_, (weekday_dayLater hdays).trans (if_pos h).symm⟩
      simp only [seconds_eq, hsec, hlast, hdays]
      omega
    · obtain ⟨hdate, -, hsec⟩ := next_within_day hr h
      have hdays := daysFrom2000_sameDate hdate
      refine ⟨?_, (weekday_sameDate hdate).trans (if_neg h).symm⟩
      simp only [seconds_eq, hsec, hdays]
      exact (Nat.add_assoc ..).symm
  · rcases reading_updateEvent ht with h | h
    · rw [h]
      exact hr
    · rw [h]
      exact updateReading_inRange _ _ hr hf

/-- Settles O33: by which transition the candidate meets. -/
theorem daylightTransitions : Obligations.DaylightTransitions := by
  refine ⟨fun rule valid fold r hl => ⟨updateReading_valid hl, updateReading_off hl, fun hv he => ?_, atTransition_iff,
    inRepeatedHour_iff rule⟩, fun t y _ _ hd hd' hw hw' => transitionDay_spec t y hd hd' hw hw'⟩
  have hforward := forwardApplies_on hv he r.next
  have hback := backApplies_on hv he fold r.next
  cases hf : atTransition rule.forward r.next with
  | true =>
    obtain ⟨-, -, hh, -, -⟩ := (atTransition_iff _ _).mp hf
    obtain ⟨hs, hn, ho⟩ := foldAfter_notBack hv he fold { r.next with hour := r.next.hour + 1 }
    rw [updateReading_forward hl (hforward.trans hf)]
    exact ⟨fun _ => ⟨by rw [hh], rfl⟩, fun hback => absurd rfl hback.2.2, fun hnot => absurd rfl hnot, fun _ => hs,
      fun _ => hn, fun _ => ho⟩
  | false =>
    cases hb : backApplies rule valid fold r.next with
    | true =>
      have hat := hback.mp hb
      obtain ⟨-, -, hh, -, -⟩ := (atTransition_iff _ _).mp hat.1
      rw [hf] at hat
      rw [updateReading_back hl (hforward.trans hf) hb]
      exact ⟨nofun, fun _ => ⟨by rw [hh], rfl, foldAfter_back hv he ..⟩, fun _ hnot => absurd hat hnot,
        fun hnot => absurd hat hnot, fun hnot => absurd hat hnot, fun hnot => absurd hat hnot⟩
    | false =>
      obtain ⟨hs, hn, ho⟩ := foldAfter_notBack hv he fold r.next
      rw [hf, hb] at hback
      rw [updateReading_ordinary hl (hforward.trans hf) hb]
      exact ⟨nofun, fun h => absurd (hback.mpr h) nofun, fun _ _ => ⟨rfl, rfl⟩, fun _ => hs, fun _ => hn, fun _ => ho⟩

/-- Settles O31: the three branches of the event, in service by whether a transition is applied. -/
theorem updateEventAdvances : Obligations.UpdateEventAdvances := by
  intro s
  refine ⟨fun hp hs => ?_, fun direction candidate hp hs => ?_, exec_updateEvent_outOfService,
    exec_updateEvent_vbakLow⟩
  · rw [exec_updateEvent_inService hp, shiftNow, hs, countSecond_eq]
    rfl
  · rw [exec_updateEvent_inService hp, shiftNow, hs, countSecond_eq]
    rfl

/-- Settles O32: at the end of the range no transition is applied, so that no notice is posted. -/
theorem endOfRange : Obligations.EndOfRange := by
  intro s hr hp
  have hu : updateReading s.cal.rule s.cal.valid s.cal.fold s.cal.reading = ⟨firstReading, .normal, false, none⟩ := by
    rw [hr]
    exact updateReading_lastReading ..
  have hcal : (advanceCalendar s).cal =
      { s.cal with prescaler := 0, reading := firstReading, fold := .normal, valid := false } := by
    simp only [advanceCalendar, hu]
  by_cases hs : s.supply.phase = .inService
  · have hshift : shiftNow s = none := congrArg UpdateResult.shift hu
    rw [exec_updateEvent_inService hs, hshift]
    have hc := (kickTx_cal _).trans (cal_countSecond none (advanceCalendar s))
    have hm := (kickTx_matcher _).trans (matcher_countSecond none (advanceCalendar s))
    rw [hcal] at hc hm
    exact ⟨_, rfl, congrArg Calendar.reading hc, congrArg Calendar.fold hc, congrArg Calendar.valid hc,
      (kickTx_notices _).1, fun _ => ⟨_, hm, rfl, rfl, rfl, rfl, fun _ _ => rfl⟩, fun h => absurd hs h⟩
  · have hv : ¬ (s.supply.phase = .unpowered ∧ s.supply.vbakLow = true) := by
      rintro ⟨-, hlow⟩
      rcases hp with hp | hp
      · exact hs hp
      · rw [hlow] at hp
        cases hp
    rw [exec_updateEvent_outOfService hs hv]
    exact ⟨_, rfl, congrArg Calendar.reading hcal, congrArg Calendar.fold hcal, congrArg Calendar.valid hcal, rfl,
      fun h => absurd h hs, fun _ => rfl⟩

end Sys2Proof.Machine
end

section
/-! The requests that write the configuration or the clock, and those that answer from the blocks as they stand (R65, R67 to
R69, R102, R128, R133, R151, R152). -/

namespace Sys2Proof.Machine

/-! ### CLOCK-SET, CLOCK-RULE and SEGMENT-CONFIG (R65, R69, R128) -/

theorem newFold_eq (rule : DaylightRule) (q : ClockSetReq) :
    q.newFold rule = q.fold.getD (if inRepeatedHour rule q.reading then .first else .normal) := by
  unfold ClockSetReq.newFold
  cases q.fold <;> rfl

theorem segmentConfigOp_eq (i : Seg) (c : SegConfig) (s : State) : segmentConfigOp (i, c) s =
    ({ s with
      store := { s.store with segRecords := s.store.segRecords.set i ⟨c, segConfigCheck c⟩ }
      ports := if (s.port i).health = .closed then s.ports else s.ports.set i { s.port i with cfgPending := true } },
     [0x00#8, byte1 (s.port i).health.code]) := by
  unfold segmentConfigOp
  split <;> rfl

/-- Settles O30: each request's act as one update, with its reply on the link. -/
theorem configurationRequests : Obligations.ConfigurationRequests := by
  refine ⟨fun s r q f hs hb hf => ?_, fun s r rule hs hb => ?_, fun s r i c hs hb => ?_⟩
  · rw [hf, ← newFold_eq]
    exact congrArg _ (serve_immediate_eq hs hb rfl rfl)
  · rw [← foldUnder_eq]
    exact congrArg _ (serve_store_eq hs hb rfl rfl)
  · have h := serve_store_eq (op := segmentConfigOp) hs hb (by rw [segmentConfigOp_eq]; rfl)
      (by rw [segmentConfigOp_eq]; rfl)
    rw [segmentConfigOp_eq] at h
    exact congrArg _ h

/-! ### Requests that change nothing but the link -/

/-- A request that uses no store and whose act changes nothing answers at once (R143). -/
theorem serve_snapshot {s : State} {r : Request} {kind : Byte} {α : Type} {a : α} {parse : List Byte → Except ReqError α}
    {op : α → State → State × List Byte} {b : List Byte} (hs : Serving s r kind) (hp : parse r.body = .ok a)
    (hop : op a s = (s, b)) : serve kind false parse op s = { s with link := s.link.answered r b } := by
  have h := serve_immediate_eq (op := op) hs hp (by rw [hop]) (by rw [hop])
  rw [hop] at h
  exact h

theorem parseFlag_flag {body : List Byte} {b : Bool} (h : body = [if b then 0x01#8 else 0x00#8]) :
    parseFlag body = .ok b := by
  subst h
  cases b <;> rfl

theorem parseEcho_short {body : List Byte} (h : body.length ≤ 251) : parseEcho body = .ok body := if_pos h

theorem partStatusOp_link (clear : Bool) (s : State) : (partStatusOp clear s).1 =
    { s with link := { s.link with discards := if clear then 0 else s.link.discards } } := by
  cases clear <;> rfl

/-! ### The records that they carry (Tables 10-4, 10-7 to 10-9) -/

theorem flagBit_mul (n : Nat) (b : Bool) : n * flagBit b = if b then n else 0 := by
  cases b <;> simp [flagBit]

theorem jobBytes_eq (j : Job) : jobBytes j = byte2 j.tag.toNat ++
    [byte1 j.entry.val, byte1 (j.destination + if j.stale then 128 else 0),
     byte1 (j.urgency + 4 * j.cause.code + (if j.inService then 16 else 0) + if j.due.isSome then 32 else 0)] ++
    dueBytes j.due ++ byte4 j.created.toNat := by
  simp only [jobBytes, destinationByte, flagBit_mul]

theorem service_absent {s : State} {i : Seg} (h : jobInService s i = none) :
    serviceCounts s i = [0x00#8, 0x00#8] ∧ serviceBytes s i = [0xFF#8, 0xFF#8, 0x00#8, 0x00#8] := by
  constructor
  · rw [serviceCounts, h]
  · rw [serviceBytes, h]
    rfl

theorem service_job {s : State} {i : Seg} {j : Job} (h : jobInService s i = some j) :
    serviceCounts s i = [byte1 j.attempts, byte1 j.busy] ∧
      serviceBytes s i = byte2 j.tag.toNat ++ [byte1 j.attempts, byte1 j.busy] := by
  constructor
  · rw [serviceCounts, h]
  · rw [serviceBytes, h]

theorem segConfigBytes_eq (c : SegConfig) : segConfigBytes c = [byte1 c.lineSpeed, byte1 c.window, byte1 c.retryLimit] ++
    byte2 c.backoff ++ [byte1 c.busyLimit] ++ byte2 c.ageLimit ++
    [byte1 c.probeInterval, if c.openAtStart then 0x01#8 else 0x00#8] := by
  unfold segConfigBytes
  cases c.openAtStart <;> rfl

/-- PART-STATUS answers from the state before its act, which at most clears the discard count (R152). -/
theorem exec_partStatus {s : State} {r : Request} {clear : Bool} (hs : Serving s r 0x31#8)
    (hb : r.body = [if clear then 0x01#8 else 0x00#8]) :
    exec .partStatus s = .next { s with
      link := { s.link with discards := if clear then 0 else s.link.discards }.answered r
        (doneBytes (partStatusBytes s)) } := by
  have h := serve_immediate (op := partStatusOp) hs (parseFlag_flag hb)
    (by rw [partStatusOp_link]; exact hs.inHand) (by rw [partStatusOp_link]; exact hs.inService)
  rw [partStatusOp_link] at h
  exact congrArg _ h

/-- Settles O39: each act answers its snapshot of the state it finds, and each record is its fields one after another. -/
theorem immediateSnapshots : Obligations.ImmediateSnapshots := by
  refine ⟨fun s r hs hb => ?_, fun s r i hs hb => ?_, fun s r i hs hb => ?_, fun s r hs hb => ?_,
    fun s r clear hs hb => ?_, fun j => ?_, segConfigBytes_eq,
    fun s i => ⟨service_absent, fun j => service_job⟩, fun probe => rfl⟩
  · exact congrArg _ (serve_snapshot hs (parseNone_nil hb) rfl)
  · exact congrArg _ (serve_snapshot hs (parseSegment_byte1 hb) rfl)
  · exact congrArg _ (serve_snapshot hs (parseSegment_byte1 hb) rfl)
  · exact congrArg _ (serve_snapshot hs (parseEcho_short hb) rfl)
  · rw [exec_partStatus hs hb, partStatusBytes, flagBit_mul]
    rfl
  · rw [jobBytes_eq]
    cases j.due <;> rfl

end Sys2Proof.Machine
end

section
/-! ENTRY-FIRE, by what its offer meets (R81, R86, R87, R93, R94). -/

namespace Sys2Proof.Machine

/-! ### What an offer meets, test by test (R81, R94) -/

section Met

variable {path : FaultPath} {i : Seg} {o : Offer} {m : ReportMode} {s : State}

/-- An offer to a CLOSED segment (R81). -/
theorem meetOffer_closed (hc : (s.port i).health = .closed) :
    meetOffer path i o m s = (.closed, reportEnd m (o.end i .closed) s) := by
  rw [meetOffer, if_pos hc]

/-- An offer beside a waiting job of its entry (R81). -/
theorem meetOffer_coalesced (hc : (s.port i).health ≠ .closed) {j : Job}
    (hj : (s.queue i).find? (fun j => !j.inService && j.entry == o.entry) = some j) :
    meetOffer path i o m s = (.coalesced j.tag, s) := by
  rw [meetOffer, if_neg hc, hj]

/-- An offer to a queue with room (R93). -/
theorem meetOffer_room (hc : (s.port i).health ≠ .closed)
    (hn : (s.queue i).find? (fun j => !j.inService && j.entry == o.entry) = none) (hl : (s.queue i).length < 16) :
    meetOffer path i o m s = (.queued (nextFreeTag s), considerTakeIn i (withNewJob i o s)) := by
  rw [meetOffer, if_neg hc, hn, ← makeJob_eq]
  exact if_pos hl

/-- An offer to a full queue whose last job is in service, or as urgent as the offer or more (R94). -/
theorem meetOffer_dropped (hc : (s.port i).health ≠ .closed)
    (hn : (s.queue i).find? (fun j => !j.inService && j.entry == o.entry) = none) (hl : 16 ≤ (s.queue i).length)
    (hv : ∀ j, (s.queue i).getLast? = some j → j.inService = true ∨ j.urgency ≤ o.urgency) :
    meetOffer path i o m s = (.dropped, reportEnd m (o.end i .full) s) := by
  rw [meetOffer, if_neg hc, hn]
  refine (if_neg (Nat.not_lt.mpr hl)).trans ?_
  cases hlast : (s.queue i).getLast? with
  | none => rfl
  | some j =>
    refine if_neg fun h => ?_
    simp only [Bool.and_eq_true, Bool.not_eq_true', decide_eq_true_eq] at h
    obtain ⟨hwaits, hurgent⟩ := h
    rcases hv j hlast with hserved | hless
    · rw [hwaits] at hserved
      cases hserved
    · omega

/-- The removal of the last job of a full queue arms no high-water flag: 15 jobs are left (R95). -/
theorem removeTo_dropLast (hl : 16 ≤ (s.queue i).length) : removeTo i (s.queue i).dropLast s =
    { s with dispatch := { s.dispatch with queues := s.dispatch.queues.set i (s.queue i).dropLast } } := by
  rw [removeTo, if_neg]
  rw [List.length_dropLast, Config.rearmMark]
  omega

/-- The end of a waiting job that an offer displaces (R94, R104). -/
theorem end_displaced {j : Job} (h : j.inService = false) (i : Seg) : j.end i .dropped (some .displaced) =
    { waitingEnd .dropped j.stale i j with reason := some .displaced } := by
  simp [Job.end, waitingEnd, h]

/-- An offer to a full queue whose last job waits and is less urgent (R94). -/
theorem meetOffer_displaces (hc : (s.port i).health ≠ .closed)
    (hn : (s.queue i).find? (fun j => !j.inService && j.entry == o.entry) = none) (hl : 16 ≤ (s.queue i).length)
    {victim : Job} (hlast : (s.queue i).getLast? = some victim) (hw : victim.inService = false)
    (hu : o.urgency < victim.urgency) :
    meetOffer path i o m s = (.queued (nextFreeTag (withoutVictim path i victim s)),
      considerTakeIn i (withNewJob i o (withoutVictim path i victim s))) := by
  rw [meetOffer, if_neg hc, hn, ← makeJob_eq]
  refine (if_neg (Nat.not_lt.mpr hl)).trans ?_
  rw [hlast]
  refine (if_pos (by simp [hw, hu])).trans ?_
  rw [removeTo_dropLast hl, end_displaced hw]
  rfl

end Met

/-- The report of an offer that is ended at once changes the notices alone (R81, R106). -/
theorem reportEnd_dropped_eq (m : ReportMode) (o : Offer) (i : Seg) (reason : DropReason) (s : State) :
    reportEnd m (o.end i reason) s = { s with
      notices := if m = .none then s.notices else (post (.dispatchReport (offerEnd i o reason)) s).notices } := by
  rw [reportEnd_dropped]
  split
  · rfl
  · exact post_eq_self ..

/-! ### What no offer touches -/

/-- Between `s` and `u`, at a grant of `q`, an offer was met: nothing but queues, headers, entry states, the map, the
ports' transmitters and fetch lines, and notices posted, has changed. -/
structure OfferFrame (s u : State) (q : Requester) : Prop where
  heap : u.store.heap = s.store.heap
  segRecords : u.store.segRecords = s.store.segRecords
  daylightRecord : u.store.daylightRecord = s.store.daylightRecord
  compacting : u.ctl.compacting = s.ctl.compacting
  frontier : u.ctl.frontier = s.ctl.frontier
  moved : u.ctl.moved = s.ctl.moved
  order : OrderAfter s u q
  matcher : u.matcher = s.matcher
  link : u.link = s.link
  cal : u.cal = s.cal
  supply : u.supply = s.supply
  free : u.free = s.free
  pending : u.pending = s.pending
  ports : ∀ i, u.port i = { s.port i with tx := (u.port i).tx, fetchOp := (u.port i).fetchOp }
  notices : NoticesGrow s.notices u.notices

theorem offerFrame_meetOffer (path : FaultPath) (i : Seg) (o : Offer) (m : ReportMode) (q : Requester) (s : State) :
    OfferFrame s (meetOffer path i o m (grant q s)).2 q where
  heap := by simp
  segRecords := by simp
  daylightRecord := by simp
  compacting := by simp
  frontier := by simp
  moved := by simp
  order := by simp [OrderAfter, grant]
  matcher := by simp
  link := by simp
  cal := by simp
  supply := by simp
  free := by simp
  pending := by simp
  ports k := (kept_port k (s.port k)).meetOffer path i o m (s := grant q s) rfl
  notices := (kept_noticesGrow s.notices).meetOffer path i o m (s := grant q s) (NoticesGrow.refl _)

/-- An offer that leaves the headers alone, then a header write and a reply: the entry's frame. -/
theorem OfferFrame.entryFrame {s u : State} {q : Requester} (hf : OfferFrame s u q)
    (hh : u.store.headers = s.store.headers) (hs : u.ctl.states = s.ctl.states) (e : EntryIx) (h : Header)
    (l : HostLink) : EntryFrame s { writeHeader e h u with link := l } e where
  headers k hk := by
    rw [← hh]
    exact (header_writeHeader ..).trans (if_neg hk)
  states k hk := by
    rw [stateOf, stateOf, ← hs]
    exact (stateOf_writeHeader ..).trans (if_neg hk)
  segRecords := hf.segRecords
  daylightRecord := hf.daylightRecord
  compacting := hf.compacting
  frontier := hf.frontier
  moved := hf.moved
  cal := hf.cal
  supply := hf.supply
  free := hf.free
  pending := hf.pending
  ports := hf.ports
  notices := hf.notices

/-! ### ENTRY-FIRE, by what its offer met (R87) -/

section Fire

variable {s : State} {r : Request} {e : EntryIx} {h : Header} {d : Definition}

/-- The link, with the reply that a manual fire's disposition gives (R87). -/
def firedLink (s : State) (r : Request) (met : Disposition) : HostLink :=
  s.link.answered r (0x00#8 :: byte1 met.code :: byte2 met.tag.toNat)

theorem fireOp_holds (hh : Holds s e h d) {met : Disposition} {u : State}
    (hm : meetOffer .hostRead d.seg (manualOffer e d s.cal.runSecond) d.report s = (met, u)) :
    fireOp e s = (writeHeader e (firedHeader h s.cal.runSecond met) u,
      0x00#8 :: byte1 met.code :: byte2 met.tag.toNat) := by
  simp only [fireOp, hh.defined, hh.sound, hm, if_true]
  rfl

/-- ENTRY-FIRE of a sound header: the offer, one header write, and the reply. -/
theorem exec_entryFire (hs : ServingStore s r 0x07#8) (hb : r.body = [byte1 e.val]) (hh : Holds s e h d)
    {met : Disposition} {u : State}
    (hm : meetOffer .hostRead d.seg (manualOffer e d s.cal.runSecond) d.report (grant .commandInterpreter s) =
      (met, u)) :
    exec .entryFire s = .next { writeHeader e (firedHeader h s.cal.runSecond met) u with link := firedLink s r met } ∧
      OfferFrame s u .commandInterpreter := by
  have hframe := offerFrame_meetOffer .hostRead d.seg (manualOffer e d s.cal.runSecond) d.report .commandInterpreter s
  rw [hm] at hframe
  have hop := fireOp_holds (hh.grant .commandInterpreter) hm
  have hserve := serve_store_eq (op := fireOp) hs (parseIndex_byte1 hb) (by rw [hop]; exact hframe.link)
    (by rw [hop]; exact hframe.supply)
  rw [hop] at hserve
  exact ⟨congrArg _ hserve, hframe⟩

/-- ENTRY-FIRE whose offer changes the notices alone. -/
theorem entryFire_makesNoJob (hs : ServingStore s r 0x07#8) (hb : r.body = [byte1 e.val]) (hh : Holds s e h d)
    {met : Disposition} {n : NoticeUnit}
    (hm : meetOffer .hostRead d.seg (manualOffer e d s.cal.runSecond) d.report (grant .commandInterpreter s) =
      (met, { grant .commandInterpreter s with notices := n })) :
    ∃ t, exec .entryFire s = .next t ∧ t.link = firedLink s r met ∧
      t.store.headers.get e = freshHeader (firedHeader h s.cal.runSecond met) ∧ t.notices = n ∧
      t.dispatch = s.dispatch ∧ t.ports = s.ports ∧ t.ctl.map = s.ctl.map ∧ t.store.heap = s.store.heap ∧
      t.matcher = s.matcher ∧ EntryFrame s t e ∧ OrderAfter s t .commandInterpreter := by
  obtain ⟨hexec, hframe⟩ := exec_entryFire hs hb hh hm
  exact ⟨_, hexec, rfl, (header_writeHeader ..).trans (if_pos rfl), rfl, rfl, rfl, rfl, rfl, rfl,
    hframe.entryFrame rfl rfl .., hframe.order⟩

/-- A manual fire's offer that is ended at once, for a reason. -/
theorem meetOffer_manual_ended {reason : DropReason} {code : Byte}
    (hc : (reason = .closed ∧ code = 0x03#8 ∧ (s.port d.seg).health = .closed) ∨
      (reason = .full ∧ code = 0x02#8 ∧ (s.port d.seg).health ≠ .closed ∧ 16 ≤ (s.queue d.seg).length ∧
        (∀ j ∈ s.queue d.seg, j.entry = e → j.inService = true) ∧
        ∀ j, (s.queue d.seg).getLast? = some j → j.inService = true ∨ j.urgency ≤ d.urgency)) :
    ∃ met, meetOffer .hostRead d.seg (manualOffer e d s.cal.runSecond) d.report s =
        (met, reportEnd d.report ((manualOffer e d s.cal.runSecond).end d.seg reason) s) ∧
      byte1 met.code = code ∧ met.tag = 0xFFFF#16 ∧ met.endedAtOnce = true := by
  rcases hc with ⟨rfl, rfl, hclosed⟩ | ⟨rfl, rfl, hopen, hfull, hserved, hlast⟩
  · exact ⟨.closed, meetOffer_closed hclosed, rfl, rfl, rfl⟩
  · exact ⟨.dropped, meetOffer_dropped hopen (find_none_waiting hserved) hfull hlast, rfl, rfl, rfl⟩

end Fire

/-- Settles O21: an offer that is ended at once posts at most its report, and a coalesced one changes nothing. -/
theorem fireWithoutJob : Obligations.FireWithoutJob := by
  intro s r e h d hs hb hh
  dsimp only
  refine ⟨fun reason code hc => ?_, fun j hopen hj => ?_⟩
  · obtain ⟨met, hm, hcode, htag, hended⟩ := meetOffer_manual_ended (s := grant .commandInterpreter s) hc
    rw [reportEnd_dropped_eq] at hm
    obtain ⟨t, ht, hl, hheader, hn, hrest⟩ := entryFire_makesNoJob hs hb hh hm
    refine ⟨t, ht, ?_, ?_, ?_, hrest⟩
    · rw [hl, firedLink, hcode, htag]
      rfl
    · rw [hheader, firedHeader, hended]
      rfl
    · rw [hn]
      split
      · rfl
      · exact post_notices_congr rfl rfl
  · obtain ⟨t, ht, hl, hheader, hn, hrest⟩ :=
      entryFire_makesNoJob hs hb hh (meetOffer_coalesced (s := grant .commandInterpreter s) hopen hj)
    exact ⟨t, ht, hl, hheader, hn, hrest⟩

/-! ### What does not look at the arbiter's order -/

theorem withoutVictim_withOrder (path : FaultPath) (i : Seg) (victim : Job) (l : List Requester) (s : State) :
    withoutVictim path i victim (withOrder l s) = withOrder l (withoutVictim path i victim s) := by
  rw [withoutVictim, withoutVictim, ← recordEnd_withOrder]
  rfl

theorem grant_eq_withOrder (q : Requester) (s : State) : grant q s = withOrder (grant q s).ctl.order s := rfl

theorem withNewJob_withOrder (i : Seg) (o : Offer) (l : List Requester) (s : State) :
    withNewJob i o (withOrder l s) = withOrder l (withNewJob i o s) := by
  have hpost : (post (.queueHigh i 12) (withOrder l s)).notices = (post (.queueHigh i 12) s).notices :=
    post_notices_congr rfl rfl
  rw [withNewJob, hpost]
  rfl

/-- A displacing offer in a state just granted: the one in the state itself, and the grant. -/
theorem meetOffer_displaces_granted {path : FaultPath} {i : Seg} {o : Offer} {m : ReportMode} {s : State}
    (q : Requester) (hc : (s.port i).health ≠ .closed) (hn : ∀ j ∈ s.queue i, j.entry = o.entry → j.inService = true)
    (hl : (s.queue i).length = 16) {victim : Job} (hlast : (s.queue i).getLast? = some victim)
    (hw : victim.inService = false) (hu : o.urgency < victim.urgency) :
    meetOffer path i o m (grant q s) = (.queued (nextFreeTag (withoutVictim path i victim s)),
      withOrder (grant q s).ctl.order (considerTakeIn i (withNewJob i o (withoutVictim path i victim s)))) := by
  rw [meetOffer_displaces (s := grant q s) hc (find_none_waiting hn) (ge_of_eq hl) hlast hw hu, grant_eq_withOrder,
    withoutVictim_withOrder, withNewJob_withOrder, considerTakeIn_withOrder]
  rfl

/-- The job that an offer makes, and the take-in after it, leave the store. -/
theorem newJob_store (i : Seg) (o : Offer) (s : State) : (considerTakeIn i (withNewJob i o s)).store = s.store :=
  considerTakeIn_store ..

/-- They leave the store's accounts. -/
theorem newJob_ctl (i : Seg) (o : Offer) (s : State) : (considerTakeIn i (withNewJob i o s)).ctl = s.ctl :=
  considerTakeIn_ctl ..

/-- Settles O22: with room the offer makes its job in the state itself, at a full queue in the state that the victim's
recording leaves; the arbiter's order plays no part in either. -/
theorem fireQueuesJob : Obligations.FireQueuesJob := by
  refine ⟨fun s r e h d victim hs hb hh hopen hserved hfull hlast hwaits hurgent => ?_,
    fun s r e h d hs hb hh hopen hserved hroom => ?_⟩
  · obtain ⟨hexec, hframe⟩ := exec_entryFire hs hb hh
      (meetOffer_displaces_granted .commandInterpreter hopen hserved hfull hlast hwaits hurgent)
    intro u made
    have hstore : (considerTakeIn d.seg made).store = u.store := newJob_store ..
    have hctl : (considerTakeIn d.seg made).ctl = u.ctl := newJob_ctl ..
    have hmap : (considerTakeIn d.seg made).ctl.map = u.ctl.map := congrArg StoreControl.map hctl
    refine ⟨_, hexec, rfl, (header_writeHeader ..).trans (if_pos rfl), fun k hk => ⟨?_, ?_⟩, rfl, rfl,
      considerTakeIn_notices .., hmap, hframe.heap, hframe.segRecords, hframe.daylightRecord, hframe.compacting,
      hframe.frontier, hframe.moved, hframe.matcher, hframe.cal, hframe.supply, hframe.free,
      hframe.pending, hframe.order⟩
    · rw [← hstore]
      exact (header_writeHeader ..).trans (if_neg hk)
    · rw [stateOf, stateOf, ← hctl]
      exact (stateOf_writeHeader ..).trans (if_neg hk)
  · obtain ⟨hexec, hframe⟩ := exec_entryFire hs hb hh
      (meetOffer_room (s := grant .commandInterpreter s) hopen (find_none_waiting hserved) hroom)
    intro high job made
    obtain ⟨hdispatch, hports⟩ := considerTakeIn_congr (i := d.seg) (t := made)
      (s := withNewJob d.seg (manualOffer e d s.cal.runSecond) (grant .commandInterpreter s)) rfl rfl rfl
    have hnotices : (withNewJob d.seg (manualOffer e d s.cal.runSecond) (grant .commandInterpreter s)).notices =
        if high then (post (.queueHigh d.seg 12) s).notices else s.notices := by
      rw [grant_eq_withOrder, withNewJob_withOrder]
      rfl
    have hstore := newJob_store d.seg (manualOffer e d s.cal.runSecond) (grant .commandInterpreter s)
    have hctl := newJob_ctl d.seg (manualOffer e d s.cal.runSecond) (grant .commandInterpreter s)
    have hheaders := congrArg ProgramStore.headers hstore
    have hmap := congrArg StoreControl.map hctl
    have hstates := congrArg StoreControl.states hctl
    exact ⟨_, hexec, rfl, (header_writeHeader ..).trans (if_pos rfl), hdispatch, hports,
      (considerTakeIn_notices ..).trans hnotices, hmap, hframe.heap, hframe.matcher,
      hframe.entryFrame hheaders hstates .., hframe.order⟩

end Sys2Proof.Machine
end

section
/-! SCAN_STEP: the steps that make no match, and the header that a match writes (R73, R77 to R84). -/

namespace Sys2Proof.Machine

/-! ### The step on one entry (Table 4-2, R79) -/

section Scan

variable {stamp : Stamp} {e : EntryIx} {s : State} {h : Header} {d : Definition}

theorem scanEntry_undefined (hd : (stateOf s e).defined = false) : scanEntry stamp e s = s := by
  simp [scanEntry, hd]

theorem scanEntry_fault (hd : (stateOf s e).defined = true) (hr : readHeader s e = none) :
    scanEntry stamp e s = quarantine e .header .scan s := by
  simp [scanEntry, hd, hr]

theorem scanEntry_unarmed (hh : Holds s e h d) (ha : stateOf s e ≠ .armed) : scanEntry stamp e s = s := by
  simp [scanEntry, hh.defined, hh.sound, ha]

theorem scanEntry_armed (hh : Holds s e h d) (ha : stateOf s e = .armed) :
    scanEntry stamp e s = scanArmed stamp e h d s := by
  rw [scanEntry, if_pos hh.defined, hh.sound]
  exact if_pos ha

/-! ### An ARMED entry, by its schedule (R77, R78) -/

/-- The match of a CALENDAR entry, in the words of R77. -/
theorem calendarMatches_iff (stamp : Stamp) (pattern : Pattern) (policy : FoldPolicy) :
    calendarMatches stamp pattern policy = true ↔
      stamp.valid = true ∧ pattern.satisfiedBy stamp.reading = true ∧ (stamp.fold = .second → policy = .twice) := by
  simp only [calendarMatches, Bool.and_eq_true, Bool.or_eq_true, bne_iff_ne, beq_iff_eq, and_assoc, ne_eq,
    ← imp_iff_not_or]

/-- A CALENDAR entry that does not match. -/
theorem scanArmed_calendar_off {pattern : Pattern} {policy : FoldPolicy} (hs : d.schedule = .calendar pattern policy)
    (hm : ¬ (stamp.valid = true ∧ pattern.satisfiedBy stamp.reading = true ∧
      (stamp.fold = .second → policy = .twice))) :
    scanArmed stamp e h d s = s := by
  rw [scanArmed, hs]
  exact if_neg (fun hc => hm ((calendarMatches_iff ..).mp hc))

/-- An INTERVAL entry that counts down. -/
theorem scanArmed_interval_counts {period first remaining : Nat} (hs : d.schedule = .interval period first remaining)
    (hr : 2 ≤ remaining) : scanArmed stamp e h d s =
      writeHeader e { h with defn := some { d with schedule := .interval period first (remaining - 1) } } s := by
  rw [scanArmed, hs]
  exact if_pos hr

/-- Whether an ARMED entry's schedule matches at a step (R77, R78). -/
def Matches (stamp : Stamp) (d : Definition) : Prop :=
  (∃ pattern policy, d.schedule = .calendar pattern policy ∧ stamp.valid = true ∧
      pattern.satisfiedBy stamp.reading = true ∧ (stamp.fold = .second → policy = .twice)) ∨
    ∃ period first, d.schedule = .interval period first 1

/-- A definition with an INTERVAL entry's remaining reloaded, as a match takes it (R78). -/
def Definition.reloaded (d : Definition) : Definition :=
  { d with schedule := match d.schedule with
      | .calendar pattern policy => .calendar pattern policy
      | .interval period first _ => .interval period first period }

theorem reloaded_calendar {pattern : Pattern} {policy : FoldPolicy} (hs : d.schedule = .calendar pattern policy) :
    d.reloaded = d := by
  rw [Definition.reloaded, hs]
  simp only [← hs]

theorem schedule_reloaded_interval {period first remaining : Nat} (hs : d.schedule = .interval period first remaining) :
    d.reloaded.schedule = .interval period first period := by
  rw [Definition.reloaded, hs]

/-- A match is made of the definition with its schedule reloaded (R78). -/
theorem scanArmed_matches (hm : Matches stamp d) : scanArmed stamp e h d s = makeMatch stamp e h d.reloaded s := by
  rcases hm with ⟨pattern, policy, hs, hmatch⟩ | ⟨period, first, hs⟩
  · rw [scanArmed, reloaded_calendar hs, hs]
    exact if_pos ((calendarMatches_iff ..).mpr hmatch)
  · rw [scanArmed, Definition.reloaded, hs]
    rfl

end Scan

/-! ### The match (R80 to R84) -/

theorem isCoalesced_iff (met : Disposition) : met.isCoalesced = true ↔ ∃ tag, met = .coalesced tag := by
  cases met <;> simp [Disposition.isCoalesced]

theorem endedAtOnce_iff (met : Disposition) : met.endedAtOnce = true ↔ met = .dropped ∨ met = .closed := by
  cases met <;> simp [Disposition.endedAtOnce]

/-- A match spends the last fire where it joins no job and at most one fire is left (R82). -/
theorem spentLast_iff (d : Definition) (met : Disposition) : spentLast d met = true ↔
    (¬ ∃ tag, met = .coalesced tag) ∧ (d.remainingFires = some 1 ∨ d.remainingFires = some 0) := by
  rw [← isCoalesced_iff]
  unfold spentLast firesLeft
  cases met.isCoalesced
  · rcases d.remainingFires with _ | _ | _ | n <;> simp
  · simp

/-- When the entry retires (R83). -/
theorem retires_iff (d : Definition) (met : Disposition) : retires d met = true ↔
    (¬ ∃ tag, met = .coalesced tag) ∧ (d.remainingFires = some 1 ∨ d.remainingFires = some 0) ∧ d.reload = false := by
  rw [retires, Bool.and_eq_true, spentLast_iff, Bool.not_eq_true', and_assoc]

/-- A match that joins a waiting job: no fire is spent, and the coalesced count advances (R82, R84). -/
theorem matched_joined {d : Definition} {met : Disposition} (h : ∃ tag, met = .coalesced tag) :
    (d.matched met).remainingFires = d.remainingFires ∧ (d.matched met).coalesced = min 255 (d.coalesced + 1) := by
  obtain ⟨tag, rfl⟩ := h
  exact ⟨rfl, rfl⟩

/-- A match that joins none: a fire is spent, or the count is reloaded with the last (R82, R83). -/
theorem matched_alone {d : Definition} {met : Disposition} (h : ¬ ∃ tag, met = .coalesced tag) :
    (d.matched met).coalesced = d.coalesced ∧ (d.remainingFires = none → (d.matched met).remainingFires = none) ∧
      ∀ n, d.remainingFires = some n →
        (d.matched met).remainingFires = if n ≤ 1 ∧ d.reload = true then d.fireCount else some (n - 1) := by
  have hc : met.isCoalesced = false := by rwa [← Bool.not_eq_true, isCoalesced_iff]
  have hfires : (d.matched met).remainingFires =
      if d.remainingFires.map (· - 1) = some 0 ∧ d.reload = true then d.fireCount
      else d.remainingFires.map (· - 1) := by
    simp [Definition.matched, spentLast, firesLeft, hc]
  refine ⟨by simp [Definition.matched, hc], fun hn => by simp [hfires, hn], fun n hn => ?_⟩
  simp [hfires, hn, Nat.sub_eq_zero_iff_le]

/-- The offer of a match looks at the kind of the schedule, and not at what is left of an interval (R80). -/
theorem matchOffer_reloaded (e : EntryIx) (d : Definition) (stamp : Stamp) :
    matchOffer e d.reloaded stamp = matchOffer e d stamp := by
  unfold matchOffer Definition.reloaded
  cases d.schedule <;> rfl

/-- The header that a match writes, field by field (Table 4-3). -/
theorem matchedHeader_reloaded (h : Header) (d : Definition) (stamp : Stamp) (met : Disposition) :
    matchedHeader h d.reloaded stamp met =
      { state := if retires d met then .named .retired else h.state
        defn := some (d.reloaded.matched met)
        body := h.body
        lastOutcome := if met = .dropped ∨ met = .closed then some .dropped else h.lastOutcome
        lastMatch := some (lastMatchOf d stamp) } := by
  have hlast : lastMatchOf d.reloaded stamp = lastMatchOf d stamp := by
    unfold lastMatchOf Definition.reloaded
    cases d.schedule <;> rfl
  rw [matchedHeader, hlast]
  simp only [endedAtOnce_iff]
  rfl

/-- A match, in one update of what its offer leaves: one header write, and COUNT-EXHAUSTED where the entry retires. -/
theorem makeMatch_reloaded {stamp : Stamp} {e : EntryIx} {h : Header} {d : Definition} {s u : State} {met : Disposition}
    (hm : meetOffer .scan d.seg (matchOffer e d stamp) d.report s = (met, u)) :
    makeMatch stamp e h d.reloaded s = { writeHeader e (matchedHeader h d.reloaded stamp met) u with
      notices := if retires d met then (post (.countExhausted e d.fireCount met) u).notices else u.notices } := by
  have hn : (post (.countExhausted e d.fireCount met)
      (writeHeader e (matchedHeader h d.reloaded stamp met) u)).notices =
      (post (.countExhausted e d.fireCount met) u).notices := post_notices_congr rfl rfl
  have hmet : meetOffer .scan d.reloaded.seg (matchOffer e d.reloaded stamp) d.reloaded.report s = (met, u) := by
    rw [matchOffer_reloaded]
    exact hm
  rw [makeMatch, hmet, ← hn]
  by_cases hr : retires d met = true
  · rw [if_pos hr]
    exact (if_pos hr).trans (post_eq_self ..)
  · rw [if_neg hr]
    exact if_neg hr

/-! ### SCAN_STEP -/

/-- The quarantine's effects do not include the Matcher. -/
theorem Quarantined.matcher {s t : State} {e : EntryIx} {r : FaultRecord} {path : FaultPath}
    (h : Quarantined s t e r path) (m : Option Pass) : Quarantined s { t with matcher := m } e r path where
  header := h.header
  state := h.state
  granules := h.granules
  heap := h.heap
  jobs := { h.jobs with }
  notices := h.notices
  frame := { h.frame with }

/-- Settles O36: of each entry, by its state and its schedule. -/
theorem scanStepWithoutMatch : Obligations.ScanStepWithoutMatch := by
  intro s p hp hsweep hg
  have hexec := exec_scanStep hp hsweep hg
  refine ⟨fun hnot => ?_, fun h d period first remaining hh ha hs hr => ?_, fun hd hr => ?_⟩
  · have hstep : scanEntry p.stamp p.cursor (grant .matcher s) = grant .matcher s := by
      rcases hnot with hd | ⟨h, d, hh, hst | hst | ⟨pattern, policy, ha, hs, hm⟩⟩
      · exact scanEntry_undefined hd
      · exact scanEntry_unarmed (hh.grant _) (ne_of_eq_of_ne hst nofun)
      · exact scanEntry_unarmed (hh.grant _) (ne_of_eq_of_ne hst nofun)
      · rw [scanEntry_armed (hh.grant _) ha, scanArmed_calendar_off hs hm]
    rw [hexec, hstep]
  · rw [hexec, scanEntry_armed (hh.grant _) ha, scanArmed_interval_counts hs hr]
  · rw [scanEntry_fault (s := grant .matcher s) hd hr] at hexec
    exact ⟨_, hexec, (quarantined_quarantine p.cursor .header .scan _).of_grant.matcher _, rfl, by simp,
      by simp [OrderAfter, grant]⟩

/-- A granted scan step on an ARMED entry whose schedule matches (R77, R78, R80 to R85). -/
theorem exec_scanStep_matches {s u : State} {p : Pass} {h : Header} {d : Definition} {met : Disposition}
    (hp : s.matcher = some p) (hsweep : p.sweep = false) (hg : granted s .matcher = true) (hh : Holds s p.cursor h d)
    (ha : stateOf s p.cursor = .armed) (hmatch : Matches p.stamp d)
    (hm : meetOffer .scan d.seg (matchOffer p.cursor d p.stamp) d.report (grant .matcher s) = (met, u)) :
    exec .scanStep s = .next (kickTx { writeHeader p.cursor (matchedHeader h d.reloaded p.stamp met) u with
        notices := if retires d met then (post (.countExhausted p.cursor d.fireCount met) u).notices else u.notices
        matcher := if p.cursor = 255 then none else some { p with cursor := p.cursor + 1 } }) ∧
      OfferFrame s u .matcher := by
  have hframe := offerFrame_meetOffer .scan d.seg (matchOffer p.cursor d p.stamp) d.report .matcher s
  rw [hm] at hframe
  rw [exec_scanStep hp hsweep hg, scanEntry_armed (hh.grant _) ha, scanArmed_matches hmatch,
    makeMatch_reloaded hm]
  exact ⟨rfl, hframe⟩

/-- Settles O37: the match is one header write in what the offer leaves. -/
theorem scanMatchWritesHeader : Obligations.ScanMatchWritesHeader := by
  intro s p h d hp hsweep hg hh ha hmatch
  dsimp only
  generalize hm : meetOffer .scan d.seg (matchOffer p.cursor d p.stamp) d.report (grant .matcher s) = answer
  obtain ⟨met, u⟩ := answer
  obtain ⟨hexec, hframe⟩ := exec_scanStep_matches hp hsweep hg hh ha hmatch hm
  simp only [← retires_iff d met]
  refine ⟨_, d.reloaded.matched met, hexec, ?_, ?_, rfl, fun pattern policy hs => ?_, fun period first k hs => ?_,
    matched_joined (d := d.reloaded), matched_alone (d := d.reloaded), rfl, rfl, rfl, rfl, rfl, hframe.compacting,
    hframe.frontier, hframe.moved, hframe.free, hframe.pending, fun k hk => ⟨?_, ?_⟩, hframe.heap, hframe.segRecords,
    hframe.daylightRecord, hframe.link, hframe.cal, hframe.supply, hframe.order⟩
  · exact (header_writeHeader ..).trans ((if_pos rfl).trans (congrArg freshHeader (matchedHeader_reloaded ..)))
  · refine (stateOf_writeHeader ..).trans ((if_pos rfl).trans ?_)
    rw [matchedHeader_reloaded]
    exact apply_ite StoredState.entryState ..
  · rw [reloaded_calendar hs]
    rfl
  · exact schedule_reloaded_interval hs
  · exact (header_writeHeader ..).trans (if_neg hk)
  · exact (stateOf_writeHeader ..).trans (if_neg hk)

end Sys2Proof.Machine
end

section
/-! The dispatch queues through every step: their bounds, their order and their tags (R89 to R93, R169, R179). -/

namespace Sys2Proof.Machine

/-- A removal from one queue keeps the queues sound (R92). -/
theorem QueuesSound.removeTo {s : State} (h : QueuesSound s) {i : Seg} {q : List Job} (hq : Removed q (s.queue i)) :
    QueuesSound (removeTo i q s) := by
  refine queuesSound_of_fewer h (fun k => ?_) (fun k => ?_)
  · rw [queue_removeTo]
    split
    · exact queueOrder_removed hq (h.order i)
    · exact h.order k
  · rw [queue_removeTo]
    split
    · next hk =>
      obtain ⟨l, hperm, hsub⟩ := removed_subperm hq
      exact hk ▸ ⟨l.map _, hperm.map _, hsub.map _⟩
    · exact List.Subperm.refl _

/-- The stale marks of a withdraw, which find no waiting job of the entries withdrawn, keep the queues sound (R96). -/
theorem QueuesSound.markStale {s : State} (h : QueuesSound s) {owns : EntryIx → Bool}
    (hw : ∀ i, ∀ j ∈ s.queue i, owns j.entry = true → j.inService = true) : QueuesSound (markStale owns s) := by
  refine queuesSound_map s _ h (fun j => if owns j.entry then { j with stale := true } else j) (fun j => ?_)
    (fun i => Or.inl (queue_markStale owns i s)) (fun i j hj hwaits _ => if_neg fun ho => ?_)
  · split
    · exact ⟨true, j.attempts, j.busy, rfl⟩
    · exact ⟨j.stale, j.attempts, j.busy, rfl⟩
  · rw [hw i j hj ho] at hwaits
    cases hwaits

/-- A change of the counts of the job in service keeps the queues sound (R115, R118). -/
theorem QueuesSound.onJob {s : State} (h : QueuesSound s) (i : Seg) {f : Job → Job} (hf : CountsOnly f) :
    QueuesSound (onJob i f s) := by
  refine queuesSound_map s _ h (fun j => if j.inService then f j else j) (fun j => ?_) (fun k => ?_)
    (fun _ j _ hwaits _ => if_neg (by simp [hwaits]))
  · obtain ⟨a, b, hj⟩ := hf j
    split
    · exact ⟨j.stale, a, b, hj⟩
    · exact ⟨j.stale, j.attempts, j.busy, rfl⟩
  · rw [queue_onJob]
    by_cases hk : k = i
    · exact Or.inl (by rw [if_pos hk, hk])
    · exact Or.inr (if_neg hk)

/-- Every elementary update of a command keeps the queues sound: the updates of the queues one by one, a stop and the
start of service by leaving them empty, and all others by not touching them. -/
theorem kept_queuesSound : KeptByCommands QueuesSound where
  post _ _ h := queuesSound_of h (by simp)
  rewrite _ _ _ _ h := queuesSound_of h rfl
  clear _ _ _ _ h := queuesSound_of h rfl
  setEnded _ _ _ h := queuesSound_of h rfl
  removeTo _ _ _ hq h := h.removeTo hq
  markStale _ _ hw h := h.markStale hw
  takeHead i j rest s hw hm h := queuesSound_takeHead i j rest s hw hm h
  presentLine _ _ h := queuesSound_of h rfl
  spendHigh _ _ h := queuesSound_of h rfl
  insert i o s hr hn h := queuesSound_insert i o s hr hn h
  onPort _ _ _ h := queuesSound_of h rfl
  onJob i _ _ hf h := h.onJob i hf
  putSegRecord _ _ _ h := queuesSound_of h rfl
  pending _ _ h := queuesSound_of h rfl
  grant _ _ h := queuesSound_of h rfl
  reply _ _ h := queuesSound_of h (by simp)
  kick _ h := queuesSound_of h (by simp)
  cal _ _ h := queuesSound_of h rfl
  daylight _ _ h := queuesSound_of h rfl
  place _ _ _ _ _ _ _ _ _ _ h := queuesSound_of h rfl
  erase _ h := queuesSound_of h rfl
  compactor _ _ _ _ h := queuesSound_of h rfl
  move _ _ _ _ _ _ _ _ _ _ h := queuesSound_of h rfl
  hold _ _ h := queuesSound_of h rfl
  segHold _ _ _ h := queuesSound_of h rfl
  clearDiscards _ h := queuesSound_of h rfl
  reset _ _ _ _ h := queuesSound_of h rfl
  ack _ _ _ h := queuesSound_of h (by simp)
  mask _ _ h := queuesSound_of h rfl
  rx _ _ h := queuesSound_of h rfl
  discard _ h := queuesSound_of h rfl
  present _ h := queuesSound_of h rfl
  meet _ _ _ _ h := queuesSound_of h (by simp)
  replySent _ _ _ h := queuesSound_of h (by simp)
  noticeSent _ _ _ h := queuesSound_of h (by simp [idleTx])
  timer _ _ h := queuesSound_of h (by simp)
  matcher _ _ h := queuesSound_of h rfl
  supply _ _ _ h := queuesSound_of h rfl
  stop _ _ _ _ := queuesSound_start _ rfl
  startUnit u s _ h := queuesSound_of h (congrArg DispatchUnit.queues (runStartUnit_dispatch s u))
  lost _ _ _ _ h := queuesSound_of h rfl
  service _ _ _ := queuesSound_start _ (by rw [beginService_dispatch]; rfl)

/-- Settles O8: every elementary update of a command keeps the queues sound. -/
theorem stepKeepsQueues : Obligations.StepKeepsQueues :=
  fun _ _ h hs => kept_queuesSound.step h hs

end Sys2Proof.Machine
end

section
/-! The disposition of an offer, a new job's place in its queue, and its tag (R81, R91, R92, R94). -/

namespace Sys2Proof.Machine

/-! ### The place of a new job (R92) -/

/-- Whether a job of the queue keeps its place before a new job `j` (R92). -/
def Job.staysBefore (j k : Job) : Bool := k.inService || decide (k.urgency ≤ j.urgency)

/-- A new job stands before the first waiting job that is less urgent. -/
theorem insertJob_eq (j : Job) (q : List Job) :
    insertJob j q = q.takeWhile j.staysBefore ++ j :: q.dropWhile j.staysBefore := by
  induction q with
  | nil => rfl
  | cons k q ih =>
    rw [insertJob, List.takeWhile_cons, List.dropWhile_cons, Job.staysBefore]
    split
    · rw [ih]
      rfl
    · rfl

/-- In a queue in order, a job behind a waiting one waits too, and is no more urgent (R89, R92). -/
theorem QueueOrder.behind_waiting {a b : List Job} {k x : Job} (h : QueueOrder (a ++ k :: b)) (hk : k.inService = false)
    (hx : x ∈ b) : x.inService = false ∧ k.urgency ≤ x.urgency := by
  have hwaits : x.inService = false := by
    refine h.service x ?_
    cases a <;> simp [hx]
  have horder := h.urgency
  rw [waiting_append, List.pairwise_append] at horder
  obtain ⟨-, hback, -⟩ := horder
  rw [waiting, List.filter_cons_of_pos (by simp [hk]), List.pairwise_cons] at hback
  exact ⟨hwaits, hback.1 x (List.mem_filter.mpr ⟨hx, by simp [hwaits]⟩)⟩

/-- The place of a new job in a queue in order (R92). -/
theorem insertJob_place (j : Job) {q : List Job} (h : QueueOrder q) :
    ∃ a b, q = a ++ b ∧ insertJob j q = a ++ j :: b ∧ (∀ k ∈ a, k.inService = true ∨ k.urgency ≤ j.urgency) ∧
      ∀ k ∈ b, k.inService = false ∧ j.urgency < k.urgency := by
  have hsplit : q.takeWhile j.staysBefore ++ q.dropWhile j.staysBefore = q := List.takeWhile_append_dropWhile
  refine ⟨_, _, hsplit.symm, insertJob_eq j q, fun k hk => ?_, ?_⟩
  · simpa [Job.staysBefore] using List.mem_takeWhile_imp hk
  · cases hb : q.dropWhile j.staysBefore with
    | nil => simp
    | cons k b =>
      have hk : k.inService = false ∧ j.urgency < k.urgency := by
        have hfirst := List.head_dropWhile_not j.staysBefore (l := q) (by simp [hb])
        simpa [hb, Job.staysBefore] using hfirst
      obtain ⟨hwaits, hless⟩ := hk
      rw [← hsplit, hb] at h
      intro x hx
      rcases List.mem_cons.mp hx with rfl | hx
      · exact ⟨hwaits, hless⟩
      · obtain ⟨hxw, hxu⟩ := h.behind_waiting hwaits hx
        exact ⟨hxw, by omega⟩

/-! ### The tag of a new job (R91) -/

/-- Of 66 consecutive values, at most 64 of them held and one FFFFH, one is free. -/
theorem exists_free_tag {held : List Word16} (hl : held.length ≤ 64) (t : Word16) :
    ∃ n < 66, t + BitVec.ofNat 16 n ≠ noTag ∧ t + BitVec.ofNat 16 n ∉ held := by
  by_contra hnone
  have htaken : (List.range 66).map (fun n => t + BitVec.ofNat 16 n) ⊆ noTag :: held := by
    intro x hx
    obtain ⟨n, hn, rfl⟩ := List.mem_map.mp hx
    by_contra hfree
    rw [List.mem_cons, not_or] at hfree
    exact hnone ⟨n, List.mem_range.mp hn, hfree⟩
  have hdistinct : ((List.range 66).map (fun n => t + BitVec.ofNat 16 n)).Nodup := by
    refine List.Nodup.map_on (fun a ha b hb hab => ?_) List.nodup_range
    rw [List.mem_range] at ha hb
    have heq := congrArg BitVec.toNat (add_left_cancel hab)
    rw [BitVec.toNat_ofNat, BitVec.toNat_ofNat] at heq
    omega
  have hcount := (hdistinct.subperm htaken).length_le
  rw [List.length_map, List.length_range, List.length_cons] at hcount
  omega

/-- The tag of a new job is the first free value from the allocator's on (R91). -/
theorem nextFreeTag_first {s : State} (h : QueuesSound s) :
    nextFreeTag s ≠ 0xFFFF#16 ∧ nextFreeTag s ∉ heldTags s ∧
      ∃ n < 66, nextFreeTag s = s.dispatch.nextTag + BitVec.ofNat 16 n ∧
        ∀ k < n, s.dispatch.nextTag + BitVec.ofNat 16 k = 0xFFFF#16 ∨
          s.dispatch.nextTag + BitVec.ofNat 16 k ∈ heldTags s := by
  have hlen := heldTags_length h
  have hfree := freeTag_free (heldTags s) hlen s.dispatch.nextTag
  obtain ⟨n, -, htag, hbefore⟩ := freeTag_first (heldTags s) 66 s.dispatch.nextTag hfree
  obtain ⟨k, hk, hktag, hkheld⟩ := exists_free_tag hlen s.dispatch.nextTag
  refine ⟨hfree.1, hfree.2, n, ?_, htag, hbefore⟩
  by_contra hn
  exact (hbefore k (by omega)).elim hktag hkheld

/-! ### The offer (R81, R94) -/

/-- Settles O23: the offer by its tests in order, the place by the scan of the queue, the tag by counting. -/
theorem offerDispositions : Obligations.OfferDispositions := by
  refine ⟨fun s path i o m => ?_, fun j q h _ => insertJob_place j h, fun s h => nextFreeTag_first h⟩
  intro met joined dropped
  have hdropped : ∀ reason, reportEnd m (o.end i reason) s = dropped reason :=
    fun reason => reportEnd_dropped m o i reason s
  refine ⟨fun hc => ?_, fun hc j hj => meetOffer_coalesced hc hj, fun hc hn hl => meetOffer_room hc hn hl,
    fun hc hn hl j hlast => ⟨fun hw hu => meetOffer_displaces hc hn hl hlast hw hu, fun hj => ?_⟩⟩
  · rw [← hdropped]
    exact meetOffer_closed hc
  · rw [← hdropped]
    refine meetOffer_dropped hc hn hl fun k hk => ?_
    rw [hlast] at hk
    cases hk
    exact hj

end Sys2Proof.Machine
end

section
/-! The recording of a job end, and of the records pending on a fetch line (R104 to R106, R113). -/

namespace Sys2Proof.Machine

/-! ### One job end (R105, R106) -/

/-- An end whose entry holds no report mode is reported where it is a failure (R106). -/
theorem recordBare_ite (s : State) (j : JobEnd) : recordBare s j =
    if j.outcome ∈ [.rejected, .failed, .busyLimit, .expired, .dropped, .fault] then post (.dispatchReport j) s
    else s := by
  simp only [recordBare, reportEnd_ite, reduceCtorEq, true_and, false_or]

/-! ### The records pending on a line (R104) -/

theorem recordPending_nil {i : Seg} {s : State} (path : FaultPath) (n : Nat) (h : s.dispatch.ended.get i = []) :
    recordPending path i n s = s := by
  cases n with
  | zero => rfl
  | succ n => rw [recordPending, h]

theorem recordPending_cons {i : Seg} {s : State} {j : JobEnd} {rest : List JobEnd} (path : FaultPath) (n : Nat)
    (h : s.dispatch.ended.get i = j :: rest) :
    recordPending path i (n + 1) s = recordPending path i n (recordEnd path (setEnded i rest s) j) := by
  rw [recordPending, h]

/-- A granted recording operation (R104). -/
theorem exec_recordingOperation {i : Seg} {s : State} (hop : (s.port i).fetchOp = .record)
    (hg : granted s (.fetch i) = true) :
    exec (.recordingOperation i) s = .next (kickTx (recordLine i (takeFetchLine i s))) := by
  change Host.Outcome.next _ = _
  rw [if_pos (by simp [hop, hg])]

/-- A granted fetch (R113). -/
theorem exec_fetch {i : Seg} {s : State} (hop : (s.port i).fetchOp = .fetch) (hg : granted s (.fetch i) = true) :
    exec (.fetch i) s = .next (kickTx (fetchOnLine i s)) := by
  change Host.Outcome.next _ = _
  rw [if_pos (by simp [hop, hg])]

/-! ### A recording that finds no fault, before the grant of its line or after it -/

theorem post_onPort (b : NoticeBody) (i : Seg) (f : Port → Port) (s : State) :
    post b (onPort i f s) = onPort i f (post b s) := by
  have hnotices : (post b (onPort i f s)).notices = (post b s).notices := post_notices_congr rfl rfl
  rw [post_eq_self b (onPort i f s), post_eq_self b s, hnotices]
  rfl

theorem reportEnd_onPort (m : ReportMode) (j : JobEnd) (i : Seg) (f : Port → Port) (s : State) :
    reportEnd m j (onPort i f s) = onPort i f (reportEnd m j s) := by
  unfold reportEnd
  split
  · exact post_onPort ..
  · rfl

/-- A recording that finds no fault does not look at the ports. -/
theorem recordEnd_onPort (path : FaultPath) {j : JobEnd} (i : Seg) (f : Port → Port) {s : State}
    (hs : (stateOf s j.entry).defined = true → (readHeader s j.entry).isSome = true) :
    recordEnd path (onPort i f s) j = onPort i f (recordEnd path s j) := by
  by_cases hd : (stateOf s j.entry).defined = true
  · obtain ⟨⟨h, d⟩, hr⟩ := Option.isSome_iff_exists.mp (hs hd)
    rw [recordEnd_sound path ⟨hd, hr⟩, recordEnd_sound (s := onPort i f s) path ⟨hd, hr⟩, ← reportEnd_onPort]
    split <;> rfl
  · rw [Bool.not_eq_true] at hd
    rw [recordEnd_bare path hd, recordEnd_bare (s := onPort i f s) path hd]
    exact reportEnd_onPort ..

/-- A recording that finds no fault, made after its line's grant, or before it. -/
theorem recordEnd_takeFetchLine (path : FaultPath) {j : JobEnd} (i : Seg) {s : State}
    (hs : (stateOf s j.entry).defined = true → (readHeader s j.entry).isSome = true) :
    recordEnd path (takeFetchLine i s) j = takeFetchLine i (recordEnd path s j) := by
  have hgrant : recordEnd path (grant (.fetch i) s) j = grant (.fetch i) (recordEnd path s j) := by
    rw [grant_eq_withOrder, recordEnd_withOrder, grant_eq_withOrder _ (recordEnd path s j)]
    simp [grant]
  rw [takeFetchLine, recordEnd_onPort path i _ (s := grant (.fetch i) s) hs, hgrant]
  rfl

/-- What the arbiter looks at: the phase, its order, and what each requester has pending (R27). -/
theorem granted_of {s t : State} (hu : s.supply = t.supply) (ho : s.ctl.order = t.ctl.order)
    (hc : s.ctl.compacting = t.ctl.compacting) (hl : s.link = t.link) (hm : s.matcher = t.matcher)
    (hp : s.ports = t.ports) (q : Requester) : granted s q = granted t q := by
  have hpresents : presents s = presents t := by
    funext x
    cases x with
    | commandInterpreter => simp only [presents, inHand, hl]
    | matcher => simp only [presents, hm]
    | fetch k => simp only [presents, State.port, hp]
    | compactor => simp only [presents, hc]
  rw [granted, granted, hpresents, State.inService, State.inService, hu, ho]

section FirstRecord

variable {i : Seg} {s : State} {j : JobEnd} {rest : List JobEnd}
  (hended : s.dispatch.ended.get i = j :: rest)
  (hs : (stateOf s j.entry).defined = true → (readHeader s j.entry).isSome = true)
include hended hs

/-- An operation of the line that records its first record without a fault: the same as the operation after the record is
recorded (R104). -/
theorem recordLine_first :
    recordLine i (takeFetchLine i s) = recordLine i (takeFetchLine i (recordEnd .fetch (setEnded i rest s) j)) := by
  have hsound : AllSound (setEnded i rest s) [j] := fun k hk => List.mem_singleton.mp hk ▸ hs
  obtain ⟨hdispatch, -, -, -⟩ := recordEnd_settled .fetch hsound
  have hrest : (recordEnd .fetch (setEnded i rest s) j).dispatch.ended.get i = rest := by
    rw [hdispatch, ended_setEnded, if_pos rfl]
  have hlength : ((takeFetchLine i s).dispatch.ended.get i).length = rest.length + 1 := congrArg List.length hended
  have hlength' : ((takeFetchLine i (recordEnd .fetch (setEnded i rest s) j)).dispatch.ended.get i).length =
      rest.length := congrArg List.length hrest
  rw [recordLine, recordLine, hlength, hlength', recordPending_cons (s := takeFetchLine i s) .fetch _ hended,
    ← recordEnd_takeFetchLine .fetch i (s := setEnded i rest s) hs]
  rfl

omit hended in
/-- The line's operation stays granted through that recording. -/
theorem granted_recordEnd_first :
    granted (recordEnd .fetch (setEnded i rest s) j) (.fetch i) = granted s (.fetch i) ∧
      (recordEnd .fetch (setEnded i rest s) j).port i = s.port i := by
  have hsound : AllSound (setEnded i rest s) [j] := fun k hk => List.mem_singleton.mp hk ▸ hs
  obtain ⟨-, hports, -, -⟩ := recordEnd_settled .fetch hsound
  refine ⟨granted_of (by simp) ?_ ?_ (by simp) (by simp) hports _, congrArg (·.get i) hports⟩
  · exact recordEnd_ctl_order ..
  · exact recordEnd_ctl_compacting ..

/-- The commands of a line, at its grant, with the first record recorded before. -/
theorem exec_line_first {c : Instr} {op : FetchOp} (hg : granted s (.fetch i) = true) (hop : (s.port i).fetchOp = op)
    (hc : (c, op) ∈ [(.fetch i, .fetch), (.recordingOperation i, .record)]) :
    exec c s = exec c (recordEnd .fetch (setEnded i rest s) j) := by
  obtain ⟨hgranted, hport⟩ := granted_recordEnd_first (rest := rest) hs
  rw [← hport] at hop
  simp only [List.mem_cons, Prod.mk.injEq, List.not_mem_nil, or_false] at hc
  rcases hc with ⟨rfl, rfl⟩ | ⟨rfl, rfl⟩
  · rw [exec_fetch (hport ▸ hop) hg, exec_fetch hop (hgranted.trans hg), fetchOnLine, recordLine_first hended hs]
    rfl
  · rw [exec_recordingOperation (hport ▸ hop) hg, exec_recordingOperation hop (hgranted.trans hg),
      recordLine_first hended hs]

end FirstRecord

/-- Settles O47: one end by what is read of its entry, a line's records one by one, and the line's operation by its first
record, whose recording does not look at the line. -/
theorem recordingWritesOutcome : Obligations.RecordingWritesOutcome := by
  refine ⟨fun path s j => ⟨fun h d hh => ?_, fun hd => ?_, fun hd hr => ⟨quarantine j.entry .header path s,
      quarantined_quarantine .., quarantine_link .., quarantine_matcher .., quarantine_ctl_order .., ?_⟩⟩,
    fun path i n s => ⟨rfl, recordPending_nil path n, fun j rest => recordPending_cons path n⟩,
    fun s i hop hg => exec_recordingOperation hop hg,
    fun s i j rest c op hc hop hg hended hs => exec_line_first hended hs hg hop hc⟩
  · rw [recordEnd_sound path hh, reportEnd_ite]
  · rw [recordEnd_bare path hd, recordBare_ite]
  · rw [recordEnd_fault path hd hr, recordBare_ite]

end Sys2Proof.Machine
end

section
/-! Take-in considered for a segment: the heads that are too old, the next waiting job, and the records pending (R97, R98,
R104). -/

namespace Sys2Proof.Machine

/-! ### The heads that expire (R98) -/

/-- The waiting jobs at the head of a queue that are too old. -/
def oldHeads (i : Seg) (s : State) : List Job :=
  (waiting (s.queue i)).takeWhile (fun j => j.tooOld s.cal.runSecond (s.port i).cfg.ageLimit)

/-- The waiting jobs behind them. -/
def youngJobs (i : Seg) (s : State) : List Job :=
  (waiting (s.queue i)).dropWhile (fun j => j.tooOld s.cal.runSecond (s.port i).cfg.ageLimit)

theorem youngJobs_waits {i : Seg} {s : State} {j : Job} (h : j ∈ youngJobs i s) : j.inService = false := by
  simpa using (List.mem_filter.mp ((List.dropWhile_sublist _).subset h)).2

theorem queue_expireHeads (i : Seg) (s : State) :
    (expireHeads i s).queue i = (s.queue i).filter (·.inService) ++ youngJobs i s := by
  rw [expireHeads, queue_setEnded, queue_removeTo, if_pos rfl, splitOld_eq]
  rfl

theorem waiting_expireHeads (i : Seg) (s : State) :
    ((expireHeads i s).queue i).filter (fun j => !j.inService) = youngJobs i s := by
  have hyoung : (youngJobs i s).filter (fun j => !j.inService) = youngJobs i s :=
    List.filter_eq_self.mpr fun j hj => by simp [youngJobs_waits hj]
  rw [queue_expireHeads, List.filter_append, hyoung]
  simp [List.filter_filter]

theorem service_expireHeads (i : Seg) (s : State) :
    ((expireHeads i s).queue i).filter (·.inService) = (s.queue i).filter (·.inService) := by
  have hyoung : (youngJobs i s).filter (·.inService) = [] :=
    List.filter_eq_nil_iff.mpr fun j hj => by simp [youngJobs_waits hj]
  rw [queue_expireHeads, List.filter_append, hyoung]
  simp [List.filter_filter]

theorem ended_expireHeads (i : Seg) (s : State) : (expireHeads i s).dispatch.ended =
    s.dispatch.ended.set i (s.dispatch.ended.get i ++ (oldHeads i s).map (fun j => j.end i .expired none)) := by
  rw [expireHeads, splitOld_eq]
  rfl

/-! ### Whether a job goes into service (R97) -/

/-- The segment's port and flags allow take-in, no job is in service, and a job that is not too old waits. -/
def TakesIn (i : Seg) (s : State) : Prop :=
  (s.port i).tx = .idle ∧ ((s.port i).health = .up ∨ (s.port i).health = .suspect) ∧
    s.dispatch.segHold.get i = false ∧ s.dispatch.hold = false ∧ (s.queue i).filter (·.inService) = [] ∧
    youngJobs i s ≠ []

theorem any_inService_eq_false {q : List Job} : q.any (·.inService) = false ↔ q.filter (·.inService) = [] := by
  rw [List.any_eq_false, List.filter_eq_nil_iff]

/-- The expiry of the heads does not bear on whether take-in is allowed. -/
theorem mayTakeIn_expireHeads (i : Seg) (s : State) : mayTakeIn (expireHeads i s) i = true ↔
    (s.port i).tx = .idle ∧ ((s.port i).health = .up ∨ (s.port i).health = .suspect) ∧
      s.dispatch.segHold.get i = false ∧ s.dispatch.hold = false ∧ (s.queue i).filter (·.inService) = [] := by
  rw [mayTakeIn, Bool.and_eq_true, Bool.not_eq_true', any_inService_eq_false, service_expireHeads]
  simp only [Bool.and_eq_true, Bool.or_eq_true, beq_iff_eq, Bool.not_eq_true', and_assoc]
  exact Iff.rfl

theorem takesIn_iff (i : Seg) (s : State) :
    TakesIn i s ↔ mayTakeIn (expireHeads i s) i = true ∧ youngJobs i s ≠ [] := by
  rw [mayTakeIn_expireHeads]
  simp only [TakesIn, and_assoc]

section Considered

variable {i : Seg} {s : State} (hopen : (s.port i).health ≠ .closed)
include hopen

/-- The first job that is not too old goes into service (R97). -/
theorem considerTakeIn_takes (ht : TakesIn i s) {j : Job} {l : List Job} (hj : youngJobs i s = j :: l) :
    considerTakeIn i s = takeHead i j l (expireHeads i s) := by
  rw [considerTakeIn, if_neg hopen]
  dsimp only
  rw [waiting_expireHeads, hj]
  exact if_pos ((takesIn_iff i s).mp ht).1

/-- Where none can go into service, a pending record is presented (R104). -/
theorem considerTakeIn_waits (ht : ¬ TakesIn i s) : considerTakeIn i s = presentRecording i (expireHeads i s) := by
  rw [considerTakeIn, if_neg hopen]
  dsimp only
  rw [waiting_expireHeads]
  cases hj : youngJobs i s with
  | nil => rfl
  | cons j l => exact if_neg fun hm => ht ((takesIn_iff i s).mpr ⟨hm, by simp [hj]⟩)

end Considered

/-! ### The line afterwards -/

@[simp] theorem presentRecording_dispatch (i : Seg) (s : State) : (presentRecording i s).dispatch = s.dispatch := by
  unfold presentRecording
  split <;> rfl

theorem presentRecording_ports (i : Seg) (s : State) : (presentRecording i s).ports = s.ports.set i { s.port i with
    fetchOp := if s.dispatch.ended.get i ≠ [] ∧ (s.port i).fetchOp = .none then .record else (s.port i).fetchOp } := by
  unfold presentRecording
  split
  · rfl
  · exact (set_get_self s.ports i).symm

section Line

variable {i : Seg} {s : State} (hopen : (s.port i).health ≠ .closed)
include hopen

/-- The queue with its next job in service, and the port in FETCH (R97, R112). -/
theorem line_takes (ht : TakesIn i s) {j : Job} {l : List Job} (hj : youngJobs i s = j :: l) :
    (considerTakeIn i s).queue i = j.taken :: l ∧
      (considerTakeIn i s).ports = s.ports.set i { s.port i with tx := .fetch, fetchOp := .fetch } := by
  have ⟨_, _, _, _, hnone, _⟩ := ht
  rw [considerTakeIn_takes hopen ht hj, queue_takeHead, if_pos rfl, service_expireHeads, hnone]
  exact ⟨rfl, rfl⟩

/-- The queue less the heads that expired, and a pending record presented (R98, R104). -/
theorem line_waits (ht : ¬ TakesIn i s) :
    (considerTakeIn i s).queue i = (s.queue i).filter (·.inService) ++ youngJobs i s ∧
      (considerTakeIn i s).ports = s.ports.set i { s.port i with
        fetchOp := if s.dispatch.ended.get i ++ (oldHeads i s).map (fun j => j.end i .expired none) ≠ [] ∧
          (s.port i).fetchOp = .none then .record else (s.port i).fetchOp } := by
  rw [considerTakeIn_waits hopen ht]
  refine ⟨?_, ?_⟩
  · rw [State.queue, presentRecording_dispatch]
    exact queue_expireHeads i s
  · rw [presentRecording_ports, ended_expireHeads, get_set_self]
    rfl

/-- The heads that expired are pending records (R98). -/
theorem ended_considerTakeIn : (considerTakeIn i s).dispatch.ended =
    s.dispatch.ended.set i (s.dispatch.ended.get i ++ (oldHeads i s).map (fun j => j.end i .expired none)) := by
  rw [← ended_expireHeads]
  by_cases ht : TakesIn i s
  · have ⟨_, _, _, _, _, hyoung⟩ := ht
    obtain ⟨j, l, hj⟩ := List.exists_cons_of_ne_nil hyoung
    rw [considerTakeIn_takes hopen ht hj, takeHead_dispatch_ended]
  · rw [considerTakeIn_waits hopen ht, presentRecording_dispatch]

/-- Take-in changes the number of jobs by the heads that expire. -/
theorem length_considerTakeIn :
    ((considerTakeIn i s).queue i).length = ((s.queue i).filter (·.inService)).length + (youngJobs i s).length := by
  by_cases ht : TakesIn i s
  · have ⟨_, _, _, _, hnone, hyoung⟩ := ht
    obtain ⟨j, l, hj⟩ := List.exists_cons_of_ne_nil hyoung
    rw [(line_takes hopen ht hj).1, hj, hnone]
    simp
  · rw [(line_waits hopen ht).1, List.length_append]

/-- The high-water flag after take-in (R95). -/
theorem highArmed_considerTakeIn : (considerTakeIn i s).dispatch.highArmed.get i = (s.dispatch.highArmed.get i ||
    decide ((youngJobs i s).length < (waiting (s.queue i)).length ∧
      ((s.queue i).filter (·.inService)).length + (youngJobs i s).length ≤ 8)) := by
  have harmed := ((kept_rearmed i s).considerTakeIn i (Rearmed.refl i s)).2
  have hsplit := filter_split_length (fun j : Job => j.inService) (s.queue i)
  have hless : ((s.queue i).filter (·.inService)).length + (youngJobs i s).length < (s.queue i).length ↔
      (youngJobs i s).length < (waiting (s.queue i)).length := by
    rw [← hsplit]
    exact Nat.add_lt_add_iff_left
  simp only [harmed, length_considerTakeIn hopen, hless]

end Line

/-- The high-water flags of the other segments stay (R95). -/
theorem highArmed_considerTakeIn_ne {i k : Seg} (hk : k ≠ i) (s : State) :
    (considerTakeIn i s).dispatch.highArmed.get k = s.dispatch.highArmed.get k := by
  have harmed := ((kept_rearmed k s).considerTakeIn i (Rearmed.refl k s)).2
  rw [considerTakeIn_queue_ne hk] at harmed
  simpa using harmed

/-- Settles O41: the line by whether a job goes into service, the rest of the state by what take-in keeps. -/
theorem takeInConsidered : Obligations.TakeInConsidered := by
  refine ⟨fun s i hc => if_pos hc, fun s i hopen => ?_⟩
  intro tooOld heads rest serving ended allowed t
  obtain ⟨hhold, hsegHold⟩ := (kept_holds s.dispatch.hold s.dispatch.segHold).considerTakeIn i ⟨rfl, rfl⟩
  refine ⟨considerTakeIn_eq i s, ended_considerTakeIn hopen, fun ht j l hj => line_takes hopen ht hj,
    fun ht => line_waits hopen ht, fun k hk => ⟨considerTakeIn_queue_ne hk s, highArmed_considerTakeIn_ne hk s⟩,
    highArmed_considerTakeIn hopen, (kept_nextTag s.dispatch.nextTag).considerTakeIn i rfl, hhold, hsegHold⟩

end Sys2Proof.Machine
end

section
/-! The two operations that end waiting jobs queue by queue: the expiry sweep and QUEUE-PURGE (R99, R101, R104). -/

namespace Sys2Proof.Machine

/-! ### The ending of the waiting jobs that a test selects -/

/-- The waiting jobs that a test selects leave, their ends are recorded, and take-in is considered for some segments: what
the expiry sweep and QUEUE-PURGE have in common. -/
def endWaiting (path : FaultPath) (named : List Seg) (sel : Seg → Job → Bool) (o : JobOutcome) (s : State) : State :=
  considerAll named (recordAll path (endsOf sel o s) (removeSelected sel s))

theorem sweepQueues_eq (p : Pass) (s : State) :
    sweepQueues p s = endWaiting .scan (losing (sweepTest p s) s) (sweepTest p s) .expired s := rfl

theorem purgeOp_eq (named : List Seg) (s : State) :
    purgeOp named s = (endWaiting .hostRead named (fun i _ => named.contains i) .purged s,
      [0x00#8, byte1 (endsOf (fun i _ => named.contains i) .purged s).length]) := rfl

section EndWaiting

variable {path : FaultPath} {named : List Seg} {sel : Seg → Job → Bool} {o : JobOutcome}

/-- What the removal of the selected jobs brings about, and every recording and take-in keeps. -/
theorem Kept.endWaiting_of_removed {P : State → Prop} (k : Kept P) {s : State} (h : P (removeSelected sel s)) :
    P (Machine.endWaiting path named sel o s) :=
  k.considerAll _ (k.recordAll _ _ h)

theorem Kept.endWaiting {P : State → Prop} (k : Kept P) {s : State} (h : P s) :
    P (Machine.endWaiting path named sel o s) := k.endWaiting_of_removed (k.removeSelected sel h)

/-- At a grant it keeps to the frame of an offer. -/
theorem offerFrame_endWaiting (q : Requester) (s : State) : OfferFrame s (endWaiting path named sel o (grant q s)) q where
  heap := (kept_store_heap s).endWaiting rfl
  segRecords := (kept_store_segRecords s).endWaiting rfl
  daylightRecord := (kept_store_daylightRecord s).endWaiting rfl
  compacting := (kept_ctl_compacting s).endWaiting rfl
  frontier := (kept_ctl_frontier s).endWaiting rfl
  moved := (kept_ctl_moved s).endWaiting rfl
  order := (kept_ctl_order (grant q s)).endWaiting rfl
  matcher := (kept_matcher s).endWaiting rfl
  link := (kept_link s).endWaiting rfl
  cal := (kept_cal s).endWaiting rfl
  supply := (kept_supply s).endWaiting rfl
  free := (kept_free s).endWaiting rfl
  pending := (kept_pending s).endWaiting rfl
  ports i := (kept_port i (s.port i)).endWaiting (s := grant q s) rfl
  notices := (kept_noticesGrow s.notices).endWaiting (s := grant q s) (NoticesGrow.refl _)

/-- The same at a grant, in the words of the statements. -/
theorem endWaiting_grant (q : Requester) (s : State) : endWaiting path named sel o (grant q s) =
    named.foldl (fun u i => considerTakeIn i u)
      ((waitingEnds sel o s).foldl (recordEnd path) (withoutWaiting sel (grant q s))) := by
  rw [endWaiting, endsOf_eq, removeSelected_eq]
  rfl

/-- Where each job selected has a sound header or none, no recording finds a fault. -/
theorem allSound_endsOf {s : State} (h : ∀ i, ∀ j ∈ s.queue i, j.inService = false → sel i j = true →
    (stateOf s j.entry).defined = true → (readHeader s j.entry).isSome = true) :
    AllSound (removeSelected sel s) (endsOf sel o s) := by
  intro k hk
  obtain ⟨i, j, hj, hwaits, hsel, rfl⟩ := endsOf_entry hk
  exact h i j hj hwaits hsel

/-- Recordings that find no fault leave each line to the removal, and to take-in where it is considered. -/
theorem line_endWaiting {s : State} (hs : AllSound (removeSelected sel s) (endsOf sel o s)) (hn : named.Nodup) (i : Seg) :
    SameLine i (endWaiting path named sel o s)
      (if i ∈ named then considerTakeIn i (removeSelected sel s) else removeSelected sel s) := by
  obtain ⟨hdispatch, hports, hcal⟩ := recordAll_settled path (endsOf sel o s) hs
  have hline : SameLine i (recordAll path (endsOf sel o s) (removeSelected sel s)) (removeSelected sel s) := by
    constructor
    · rw [State.queue, hdispatch, State.queue]
    · rw [hdispatch]
    · rw [State.port, hports, State.port]
    · exact hcal
    · rw [hdispatch]
    · rw [hdispatch]
  refine (sameLine_considerAll hn i _).trans ?_
  split
  · exact hline.considerTakeIn
  · exact hline

end EndWaiting

/-! ### The expiry sweep (R99) -/

/-- A granted sweep, not yet made in its pass. -/
theorem exec_expirySweep {s : State} {p : Pass} (hp : s.matcher = some p) (hsweep : p.sweep = true)
    (hg : granted s .matcher = true) : exec .expirySweep s =
      .next (kickTx { sweepQueues p (grant .matcher s) with matcher := some { p with sweep := false } }) := by
  simp only [exec, execExpirySweep, hp, hsweep, hg, Bool.and_self, if_true]

theorem losing_eq (sel : Seg → Job → Bool) (s : State) :
    losing sel s = Seg.all.filter (fun i => (s.queue i).any (fun j => !j.inService && sel i j)) := by
  refine List.filter_congr fun i _ => ?_
  rw [Bool.eq_iff_iff]
  simp [selected]

theorem tooOld_eq_false_iff {j : Job} {now : RunSecond} {limit : Nat} :
    j.tooOld now limit = false ↔ limit = 0 ∨ (now - j.created).toNat ≤ limit := by
  rw [Job.tooOld, Bool.and_eq_false_iff, bne_eq_false_iff_eq, decide_eq_false_iff_not, Nat.not_lt, Job.age]

/-- After a sweep no waiting job is older than its segment's age limit (R99). -/
theorem sweepQueues_none_old (p : Pass) (s : State) (i : Seg) {j : Job} (hj : j ∈ (sweepQueues p s).queue i)
    (hwaits : j.inService = false) : sweepTest p s i j = false := by
  rw [sweepTest, tooOld_eq_false_iff, or_iff_not_imp_left]
  intro hlimit
  refine (kept_age i p.stamp.runSecond (s.port i).cfg.ageLimit).endWaiting_of_removed (path := .scan)
    (named := losing (sweepTest p s) s) (o := .expired) (fun k hk hkw => ?_) j hj hwaits
  rw [queue_removeSelected, List.mem_filter, hkw, Bool.false_or, Bool.not_eq_true'] at hk
  exact (tooOld_eq_false_iff.mp hk.2).resolve_left hlimit

/-- A waiting job that is not too old is not among the heads that expire. -/
theorem mem_youngJobs {i : Seg} {s : State} {j : Job} (hj : j ∈ s.queue i) (hwaits : j.inService = false)
    (hyoung : j.tooOld s.cal.runSecond (s.port i).cfg.ageLimit = false) : j ∈ youngJobs i s := by
  have hmem : j ∈ oldHeads i s ++ youngJobs i s := by
    rw [oldHeads, youngJobs, List.takeWhile_append_dropWhile]
    exact List.mem_filter.mpr ⟨hj, by simp [hwaits]⟩
  refine (List.mem_append.mp hmem).resolve_left fun hold => ?_
  have := List.mem_takeWhile_imp hold
  simp [hyoung] at this

/-- At take-in a job that serves, or is not too old, stays or goes into service (R97, R98). -/
theorem mem_considerTakeIn {i : Seg} {s : State} {j : Job} (hj : j ∈ s.queue i)
    (hstays : j.inService = true ∨ j.tooOld s.cal.runSecond (s.port i).cfg.ageLimit = false) :
    j ∈ (considerTakeIn i s).queue i ∨ j.taken ∈ (considerTakeIn i s).queue i := by
  have hmem : j ∈ (s.queue i).filter (·.inService) ++ youngJobs i s := by
    rw [List.mem_append, List.mem_filter]
    cases hserves : j.inService with
    | true => exact Or.inl ⟨hj, rfl⟩
    | false => exact Or.inr (mem_youngJobs hj hserves (hstays.resolve_left (by simp [hserves])))
  by_cases hopen : (s.port i).health = .closed
  · rw [considerTakeIn, if_pos hopen]
    exact Or.inl hj
  · by_cases ht : TakesIn i s
    · have ⟨_, _, _, _, hnone, hyoung⟩ := ht
      obtain ⟨k, l, hk⟩ := List.exists_cons_of_ne_nil hyoung
      rw [hnone, hk, List.nil_append, List.mem_cons] at hmem
      rw [(line_takes hopen ht hk).1]
      rcases hmem with rfl | hl
      · exact Or.inr List.mem_cons_self
      · exact Or.inl (List.mem_cons_of_mem _ hl)
    · rw [(line_waits hopen ht).1]
      exact Or.inl hmem

/-- Unless a recording finds a fault, a sweep at its update's run-second leaves every job that serves, or is not too old, in
its queue, or has it in service. -/
theorem mem_sweepQueues {p : Pass} {s : State} (hsound : ∀ i, ∀ j ∈ s.queue i, j.inService = false →
      sweepTest p s i j = true → (stateOf s j.entry).defined = true → (readHeader s j.entry).isSome = true)
    (hnow : s.cal.runSecond = p.stamp.runSecond) {i : Seg} {j : Job} (hj : j ∈ s.queue i)
    (hstays : j.inService = true ∨ sweepTest p s i j = false) :
    j ∈ (sweepQueues p s).queue i ∨ j.taken ∈ (sweepQueues p s).queue i := by
  have hline := (line_endWaiting (path := .scan) (allSound_endsOf (o := .expired) hsound)
    (nodup_losing (sweepTest p s) s) i).queue
  have hremoved : j ∈ (removeSelected (sweepTest p s) s).queue i := by
    rw [queue_removeSelected, List.mem_filter]
    exact ⟨hj, by simpa using hstays⟩
  rw [sweepQueues_eq, hline]
  split
  · refine mem_considerTakeIn hremoved (hstays.imp_right fun hyoung => ?_)
    rw [removeSelected_cal, State.port, removeSelected_ports, hnow]
    exact hyoung
  · exact Or.inl hremoved

/-- Settles O38: the sweep ends the jobs selected, by its own test none so old is left, and what it keeps is the frame of
the ending of waiting jobs. -/
theorem sweepExpiresOldJobs : Obligations.SweepExpiresOldJobs := by
  intro s p hp hsweep hg old losers recorded
  have hframe : OfferFrame s (sweepQueues p (grant .matcher s)) .matcher := offerFrame_endWaiting ..
  have hnextTag : (sweepQueues p (grant .matcher s)).dispatch.nextTag = s.dispatch.nextTag :=
    (kept_nextTag _).endWaiting rfl
  have hholds := (kept_holds s.dispatch.hold s.dispatch.segHold).endWaiting (path := .scan)
    (named := losing old s) (sel := old) (o := .expired) (s := grant .matcher s) ⟨rfl, rfl⟩
  obtain ⟨hhold, hsegHold⟩ := hholds
  have hsweeps : sweepQueues p (grant .matcher s) = losers.foldl (fun u i => considerTakeIn i u) recorded := by
    rw [sweepQueues_eq, endWaiting_grant, losing_eq]
    rfl
  exact ⟨_, exec_expirySweep hp hsweep hg, by rw [hsweeps],
    fun i j hj hwaits => sweepQueues_none_old p (grant .matcher s) i hj hwaits,
    fun hsound hnow i j hj hstays => mem_sweepQueues (s := grant .matcher s) hsound hnow hj hstays, hframe.heap,
    hframe.segRecords, hframe.daylightRecord, hnextTag, hhold, hsegHold, hframe.link, hframe.cal, hframe.supply,
    hframe.ports, hframe.notices, hframe.order⟩

/-! ### QUEUE-PURGE (R101) -/

/-- QUEUE-PURGE names each queue once. -/
theorem nodup_parsePurge {body : List Byte} {named : List Seg} (h : parsePurge body = .ok named) : named.Nodup := by
  unfold parsePurge tested at h
  split at h
  · split at h
    · cases h
    · cases h
      split
      · decide
      · exact List.nodup_singleton _
  · cases h

/-- The number of jobs that a purge ends: the waiting jobs of the queues named. -/
theorem length_endsOf_named (named : List Seg) (o : JobOutcome) (s : State) :
    (endsOf (fun i _ => named.contains i) o s).length =
      ((Seg.all.filter (fun i => named.contains i)).map (fun i => (waiting (s.queue i)).length)).sum := by
  unfold endsOf
  induction Seg.all with
  | nil => rfl
  | cons i l ih =>
    rw [List.flatMap_cons, List.length_append, List.length_map, ih, List.filter_cons]
    by_cases hi : i ∈ named
    · simp [selected, waiting, hi]
    · simp [selected, hi]

section Purge

variable {named : List Seg} {s : State}

/-- A purge leaves only jobs in service in the queues named. -/
theorem purgeOp_serves {i : Seg} (hi : i ∈ named) {j : Job} (hj : j ∈ (purgeOp named s).1.queue i) :
    j.inService = true := by
  refine (kept_serving i).endWaiting_of_removed (path := .hostRead) (named := named) (o := .purged)
    (fun k hk => ?_) j hj
  rw [queue_removeSelected, List.mem_filter] at hk
  simpa [hi] using hk.2

/-- Unless a recording finds a fault, the jobs in service of the queues named stay as they are, and so do the queues not
named. -/
theorem queue_purgeOp (hn : named.Nodup) (hsound : ∀ i ∈ named, ∀ j ∈ s.queue i, j.inService = false →
    (stateOf s j.entry).defined = true → (readHeader s j.entry).isSome = true) (i : Seg) :
    (purgeOp named s).1.queue i = if i ∈ named then (s.queue i).filter (·.inService) else s.queue i := by
  have hline := (line_endWaiting (path := .hostRead) (named := named) (sel := fun i _ => named.contains i)
    (allSound_endsOf (o := .purged) fun k j hj hwaits hk => hsound k (by simpa using hk) j hj hwaits) hn i).queue
  have hremoved := queue_removeSelected (fun i _ => named.contains i) i s
  rw [purgeOp_eq, hline]
  by_cases hi : i ∈ named
  · have hserves : (removeSelected (fun i _ => named.contains i) s).queue i = (s.queue i).filter (·.inService) := by
      simpa [hi] using hremoved
    rw [if_pos hi, if_pos hi, (line_considerTakeIn_drained fun j hj => ?_).1, hserves]
    rw [hserves] at hj
    exact (List.mem_filter.mp hj).2
  · rw [if_neg hi, if_neg hi, hremoved]
    simp [hi]

end Purge

/-- Settles O42: the purge ends the jobs of the queues named, by its own test none waits there, and what it keeps is the
frame of the ending of waiting jobs. -/
theorem purgeEmptiesQueues : Obligations.PurgeEmptiesQueues := by
  intro s r named hs hparse purged recorded
  have hframe : OfferFrame s (purgeOp named (grant .commandInterpreter s)).1 .commandInterpreter :=
    offerFrame_endWaiting ..
  have hnextTag : (purgeOp named (grant .commandInterpreter s)).1.dispatch.nextTag = s.dispatch.nextTag :=
    (kept_nextTag _).endWaiting rfl
  obtain ⟨hhold, hsegHold⟩ := (kept_holds s.dispatch.hold s.dispatch.segHold).endWaiting (path := .hostRead)
    (named := named) (sel := purged) (o := .purged) (s := grant .commandInterpreter s) ⟨rfl, rfl⟩
  refine ⟨_, congrArg Host.Outcome.next (serve_store_eq hs hparse hframe.link hframe.supply), ?_,
    fun i hi j hj => purgeOp_serves hi hj, fun hsound => ?_, hhold, hsegHold, hnextTag, hframe.ports, hframe.heap,
    hframe.segRecords, hframe.daylightRecord, hframe.cal, hframe.matcher, hframe.supply, hframe.notices, hframe.order⟩
  · rw [purgeOp_eq, length_endsOf_named, endWaiting_grant]
    rfl
  · have hqueue := queue_purgeOp (s := grant .commandInterpreter s) (nodup_parsePurge hparse) hsound
    exact ⟨fun i hi => (hqueue i).trans (if_pos hi), fun i hi => (hqueue i).trans (if_neg hi)⟩

end Sys2Proof.Machine
end

section
/-! The hold flags, and SEGMENT-OPEN with the load of a configuration record (R49, R100, R129, R132). -/

namespace Sys2Proof.Machine

/-! ### The hold flags (R100, R132) -/

theorem dispatchReleaseOp_link (s : State) : (dispatchReleaseOp () s).1.link = s.link := by
  unfold dispatchReleaseOp
  split
  · exact considerAll_link ..
  · rfl

theorem dispatchReleaseOp_supply (s : State) : (dispatchReleaseOp () s).1.supply = s.supply := by
  unfold dispatchReleaseOp
  split
  · exact considerAll_supply ..
  · rfl

theorem segmentReleaseOp_link (i : Seg) (s : State) : (segmentReleaseOp i s).1.link = s.link := by
  unfold segmentReleaseOp
  split
  · exact considerTakeIn_link ..
  · rfl

theorem segmentReleaseOp_supply (i : Seg) (s : State) : (segmentReleaseOp i s).1.supply = s.supply := by
  unfold segmentReleaseOp
  split
  · exact considerTakeIn_supply ..
  · rfl

/-- Settles O40: each of the four acts leaves the link and the supply, so that its request is answered in one update. -/
theorem holdFlags : Obligations.HoldFlags :=
  ⟨fun _ _ hs hb => congrArg _ (serve_immediate_eq hs (parseNone_nil hb) rfl rfl),
    fun s _ hs hb => congrArg _ (serve_immediate_eq (op := dispatchReleaseOp) hs (parseNone_nil hb)
      (dispatchReleaseOp_link s) (dispatchReleaseOp_supply s)),
    fun _ _ _ hs hb => congrArg _ (serve_immediate_eq hs (parseSegment_byte1 hb) rfl rfl),
    fun s _ i hs hb => congrArg _ (serve_immediate_eq (op := segmentReleaseOp) hs (parseSegment_byte1 hb)
      (segmentReleaseOp_link i s) (segmentReleaseOp_supply i s))⟩

/-! ### The load of a configuration record (R49) -/

/-- The configuration that a load puts in the port's copy. -/
def loadedConfig (i : Seg) (s : State) : SegConfig :=
  if (s.store.segRecords.get i).check = segConfigCheck (s.store.segRecords.get i).config then
    (s.store.segRecords.get i).config
  else defaultSegConfig

/-- A sound record is copied; the defaults replace a faulty one, with CONFIG-FAULT posted. -/
theorem loadConfig_eq (i : Seg) (path : FaultPath) (s : State) :
    let sound := (s.store.segRecords.get i).check = segConfigCheck (s.store.segRecords.get i).config
    loadConfig i path s = { s with
      store := { s.store with
        segRecords := if sound then s.store.segRecords
          else s.store.segRecords.set i (freshSegConfig defaultSegConfig) }
      ports := s.ports.set i { s.port i with cfg := loadedConfig i s, cfgPending := false }
      notices := (if sound then s else post (.configFault (.segment i) path) s).notices } := by
  unfold loadConfig loadedConfig
  dsimp only
  split
  · rfl
  · have hnotices : (post (.configFault (.segment i) path) (putSegRecord i defaultSegConfig s)).notices =
        (post (.configFault (.segment i) path) s).notices := post_notices_congr rfl rfl
    rw [post_eq_notices, hnotices]
    rfl

theorem port_loadConfig (i : Seg) (path : FaultPath) (s : State) :
    (loadConfig i path s).port i = { s.port i with cfg := loadedConfig i s, cfgPending := false } := by
  rw [loadConfig_eq]
  exact get_set_self ..

/-! ### SEGMENT-OPEN (R129) -/

/-- A port reset by SEGMENT-OPEN becomes UP, with its notice. -/
theorem changeHealth_reopened {i : Seg} {s : State} (hc : (s.port i).health = .closed) :
    changeHealth i .up .open none (onPort i Port.reopened s) = { s with
      ports := s.ports.set i { (s.port i).reopened with health := .up }
      notices := (post (.segmentState i .closed .up 0 .open none) s).notices } := by
  have hport : (onPort i Port.reopened s).port i = (s.port i).reopened := by rw [port_onPort, if_pos rfl]
  have hhealth : (s.port i).reopened.health = .closed := hc
  have hnotices : (post (.segmentState i .closed .up (s.port i).reopened.silence .open none)
        (onPort i Port.reopened s)).notices =
      (post (.segmentState i .closed .up 0 .open none) s).notices := post_notices_congr rfl rfl
  rw [changeHealth_eq, hport, hhealth, if_neg (by decide), hnotices, onPort_eq, set_set_self]

theorem segmentOpenOp_open {i : Seg} {s : State} (h : (s.port i).health ≠ .closed) :
    segmentOpenOp i s = (s, [0x05#8, byte1 (s.port i).health.code]) := if_neg h

/-- SEGMENT-OPEN of a closed segment: the record is loaded, the port reset and UP, and take-in considered. -/
theorem segmentOpenOp_closed {i : Seg} {s : State} (hc : (s.port i).health = .closed) :
    segmentOpenOp i s = (considerTakeIn i { loadConfig i .hostRead s with
      ports := (loadConfig i .hostRead s).ports.set i { (s.port i).reopened with
        health := .up, cfg := loadedConfig i s, cfgPending := false }
      notices := (post (.segmentState i .closed .up 0 .open none) (loadConfig i .hostRead s)).notices },
      [0x00#8, byte1 (loadedConfig i s).lineSpeed]) := by
  have hport := port_loadConfig i .hostRead s
  have hclosed : ((loadConfig i .hostRead s).port i).health = .closed := by rw [hport]; exact hc
  rw [segmentOpenOp, if_pos hc]
  dsimp only
  rw [changeHealth_reopened hclosed, port_onPort, if_pos rfl, hport]
  rfl

/-- Settles O43: the record is loaded, sound or faulty, and then the port is reset. -/
theorem segmentOpenResetsPort : Obligations.SegmentOpenResetsPort := by
  intro s r i hs hb
  refine ⟨fun h => congrArg _ (serve_unchanged hs (parseSegment_byte1 hb) (segmentOpenOp_open h)), fun hc => ?_⟩
  intro stored sound cfg posted opened
  have hop : segmentOpenOp i (grant .commandInterpreter s) =
      (considerTakeIn i opened, [0x00#8, byte1 cfg.lineSpeed]) := by
    rw [segmentOpenOp_closed (s := grant .commandInterpreter s) hc, loadConfig_eq, set_set_self]
    obtain ⟨hnotices, hcal⟩ : (if sound then grant .commandInterpreter s
        else post (.configFault (.segment i) .hostRead) (grant .commandInterpreter s)).notices = posted.notices ∧
        s.cal = posted.cal := by
      simp only [posted]
      split
      · exact ⟨rfl, rfl⟩
      · exact ⟨post_notices_congr rfl rfl, (post_cal ..).symm⟩
    exact congrArg (fun n => (considerTakeIn i { opened with notices := n }, [0x00#8, byte1 cfg.lineSpeed]))
      (post_notices_congr hnotices hcal)
  have hserve := serve_store_eq (op := segmentOpenOp) hs (parseSegment_byte1 hb)
    (by rw [hop]; exact considerTakeIn_link ..) (by rw [hop]; exact considerTakeIn_supply ..)
  rw [hop] at hserve
  exact congrArg _ hserve

end Sys2Proof.Machine
end

section
/-! FETCH with no record pending on its line: the load of a pending configuration, the telegram of a sound job, and
the end of a stale or faulty one (R110, R113 to R115, R120 to R122). -/

namespace Sys2Proof.Machine

/-! ### A configuration load, before the grant of its line or after it -/

@[simp] theorem loadConfig_dispatch (i : Seg) (path : FaultPath) (s : State) :
    (loadConfig i path s).dispatch = s.dispatch := by
  rw [loadConfig_eq]

@[simp] theorem loadConfig_ctl (i : Seg) (path : FaultPath) (s : State) : (loadConfig i path s).ctl = s.ctl := by
  rw [loadConfig_eq]

theorem port_takeFetchLine (i : Seg) (s : State) :
    (takeFetchLine i s).port i = { s.port i with fetchOp := .none } := by
  rw [takeFetchLine, port_onPort, if_pos rfl]
  rfl

theorem takeFetchLine_eq (i : Seg) (s : State) : takeFetchLine i s =
    { grant (.fetch i) s with ports := s.ports.set i { s.port i with fetchOp := .none } } := rfl

/-- A load does not look at the fetch line, nor the line's grant at the configuration. -/
theorem loadConfig_takeFetchLine (i : Seg) (path : FaultPath) (s : State) :
    loadConfig i path (takeFetchLine i s) = takeFetchLine i (loadConfig i path s) := by
  have hnotices : (if (s.store.segRecords.get i).check = segConfigCheck (s.store.segRecords.get i).config then
        takeFetchLine i s else post (.configFault (.segment i) path) (takeFetchLine i s)).notices =
      (if (s.store.segRecords.get i).check = segConfigCheck (s.store.segRecords.get i).config then s
        else post (.configFault (.segment i) path) s).notices := by
    split
    · rfl
    · exact post_notices_congr rfl rfl
  rw [takeFetchLine_eq i (loadConfig i path s), port_loadConfig, loadConfig_eq i path s, set_set_self, ← hnotices,
    loadConfig_eq, port_takeFetchLine, takeFetchLine_eq, set_set_self]
  rfl

/-! ### The fetch line with no record pending (R113) -/

section Line

variable {i : Seg} {s : State} (hended : s.dispatch.ended.get i = [])
include hended

/-- Without a pending record the line's operation records nothing. -/
theorem recordLine_nil : recordLine i (takeFetchLine i s) = takeFetchLine i s := by
  have hnone : (takeFetchLine i s).dispatch.ended.get i = [] := hended
  exact recordPending_nil .fetch _ hnone

/-- The fetch of the job in service, with no configuration pending. -/
theorem fetchOnLine_job {j : Job} (hcfg : (s.port i).cfgPending = false) (hj : jobInService s i = some j) :
    fetchOnLine i s = fetchJob i j (takeFetchLine i s) := by
  have hport : ((takeFetchLine i s).port i).cfgPending = false := by
    rw [port_takeFetchLine]
    exact hcfg
  have hservice : jobInService (takeFetchLine i s) i = some j := hj
  rw [fetchOnLine, recordLine_nil hended]
  simp only [hport, hservice, Bool.false_eq_true, if_false]

/-- A pending configuration is loaded in the operation, or before it. -/
theorem fetchOnLine_load (hcfg : (s.port i).cfgPending = true) :
    fetchOnLine i s = fetchOnLine i (loadConfig i .fetch s) := by
  have hport : ((takeFetchLine i s).port i).cfgPending = true := by
    rw [port_takeFetchLine]
    exact hcfg
  have hloaded : ((takeFetchLine i (loadConfig i .fetch s)).port i).cfgPending = false := by
    rw [port_takeFetchLine, port_loadConfig]
  rw [fetchOnLine, recordLine_nil hended, fetchOnLine, recordLine_nil (s := loadConfig i .fetch s) (by simp [hended])]
  simp only [hport, hloaded, if_true, Bool.false_eq_true, if_false, loadConfig_takeFetchLine]

end Line

/-! ### FETCH of a sound job (R110, R113, R115, R122) -/

/-- The sequence bit and the resync mark of a telegram by its destination's sequence state; a broadcast has neither. -/
theorem dataTelegram_eq (p : Port) (destination : Nat) (body : List Byte) : dataTelegram p destination body =
    { destination := destination
      probe := false
      seqBit := destination != 127 && p.seqOf destination == .one
      resync := destination != 127 && p.seqOf destination == .unknown
      body := body } := by
  unfold dataTelegram
  by_cases h : destination = 127
  · simp [h]
  · rw [if_neg h]
    cases p.seqOf destination <;> simp [h]

theorem sendFetched_eq (i : Seg) (j : Job) (body : List Byte) (s : State) : sendFetched i j body s = { s with
    ports := s.ports.set i (Port.enterSend { s.port i with
      buffer := some (dataTelegram (s.port i) j.destination body), probe := false })
    dispatch := { s.dispatch with queues := s.dispatch.queues.set i ((s.queue i).map
      (fun k => if k.inService then { k with attempts := k.attempts + 1 } else k)) } } := rfl

/-- A job that is not stale, with a sound header and a sound body or none, is sent. -/
theorem fetchJob_sends {i : Seg} {s : State} {j : Job} {h : Header} {d : Definition} {body : List Byte}
    (hstale : j.stale = false) (hread : readHeader s j.entry = some (h, d))
    (hbody : (h.body = none ∧ body = []) ∨
      ∃ b, h.body = some b ∧ recordSound s.store.heap j.entry b = true ∧ body = recordBody s.store.heap b) :
    fetchJob i j s = sendFetched i j body s := by
  rw [fetchJob, hstale, hread]
  rcases hbody with ⟨hnone, rfl⟩ | ⟨b, hsome, hsound, rfl⟩
  · simp [hnone]
  · simp [hsome, hsound]

/-- A load leaves what the arbiter looks at. -/
theorem granted_loadConfig (i : Seg) (path : FaultPath) (s : State) (q : Requester) :
    granted (loadConfig i path s) q = granted s q := by
  refine granted_congr (by simp) (by simp) (by simp) (by simp) (fun k => ?_) q
  by_cases hk : k = i
  · rw [hk, port_loadConfig]
  · rw [loadConfig_eq]
    exact congrArg Port.fetchOp (PerSegment.get_set_ne _ _ _ _ hk)

/-- FETCH with a configuration pending is FETCH after its load (R49, R113). -/
theorem exec_fetch_load {i : Seg} {s : State} (hop : (s.port i).fetchOp = .fetch) (hg : granted s (.fetch i) = true)
    (hended : s.dispatch.ended.get i = []) (hcfg : (s.port i).cfgPending = true) :
    exec (.fetch i) s = exec (.fetch i) (loadConfig i .fetch s) := by
  rw [exec_fetch hop hg, exec_fetch (s := loadConfig i .fetch s) (by rw [port_loadConfig]; exact hop)
    ((granted_loadConfig ..).trans hg), fetchOnLine_load hended hcfg]

/-- Settles O45: the sound job is sent, in one update of its port and its attempt count; a pending configuration is
loaded in the operation as before it. -/
theorem fetchSendsTelegram : Obligations.FetchSendsTelegram := by
  refine ⟨fun s i j h d body hop hg hended hcfg hj hstale hread hbody => ?_, fun s i hop hg hended hcfg => ?_⟩
  · rw [exec_fetch hop hg, fetchOnLine_job hended hcfg hj,
      fetchJob_sends (s := takeFetchLine i s) hstale hread hbody, sendFetched_eq, dataTelegram_eq,
      port_takeFetchLine, takeFetchLine_eq, set_set_self]
    rfl
  · intro stored
    have hload := exec_fetch_load hop hg hended hcfg
    refine ⟨fun hsound => ?_, fun hfaulty => ?_⟩
    · rw [hload, loadConfig_eq, loadedConfig]
      simp only [stored] at hsound
      simp only [if_pos hsound]
      rfl
    · rw [hload, loadConfig_eq, loadedConfig]
      simp only [stored] at hfaulty
      simp only [if_neg hfaulty]

/-! ### FETCH that ends its job (R114, R121) -/

/-- The end of a job at its line's operation, seen from before the grant. -/
theorem JobEnded.of_takeFetchLine {i : Seg} {s m : State} {e : JobEnd} (h : JobEnded (takeFetchLine i s) m i e) :
    JobEnded s m i e :=
  h.of_same rfl rfl rfl (fun k hk => ⟨by rw [takeFetchLine, port_onPort, if_neg hk]; rfl, rfl⟩) rfl rfl rfl rfl rfl
    rfl rfl rfl rfl

/-- A stale job ends SUPERSEDED (R114). -/
theorem fetchJob_stale {i : Seg} {s : State} {j : Job} (h : j.stale = true) :
    fetchJob i j s = endJob i .superseded s := by
  rw [fetchJob, if_pos h]

/-- A faulty header or body quarantines the job's entry and ends the job FAULT (R114). -/
theorem fetchJob_fault {i : Seg} {s : State} {j : Job} {record : FaultRecord} (hstale : j.stale = false)
    (hfault : (record = .header ∧ readHeader s j.entry = none) ∨
      (record = .body ∧ ∃ h d b, readHeader s j.entry = some (h, d) ∧ h.body = some b ∧
        recordSound s.store.heap j.entry b = false)) :
    fetchJob i j s = endJob i .fault (quarantine j.entry record .fetch s) := by
  rw [fetchJob, hstale]
  rcases hfault with ⟨rfl, hread⟩ | ⟨rfl, h, d, b, hread, hbody, hsound⟩
  · simp [hread]
  · simp [hread, hbody, hsound]

/-- Settles O46: the end of the job in service, of the state at the grant or of the quarantine's. -/
theorem fetchEndsJob : Obligations.FetchEndsJob := by
  intro s i j hop hg hended hcfg hj idle
  have hfetch : exec (.fetch i) s = .next (kickTx (fetchJob i j (takeFetchLine i s))) := by
    rw [exec_fetch hop hg, fetchOnLine_job hended hcfg hj]
  have hservice : jobInService (takeFetchLine i s) i = some j := hj
  refine ⟨fun hstale => ?_, fun record hstale hfault => ?_⟩
  · obtain ⟨m, hm, hend, hport, hstore, hctl, hnotices⟩ := endJob_eq .superseded hservice
    rw [port_takeFetchLine] at hport
    exact ⟨m, by rw [hfetch, fetchJob_stale hstale, hm], hend.of_takeFetchLine, hport, hstore, hctl, hnotices⟩
  · obtain ⟨m, hm, hend, hport, hstore, hctl, hnotices⟩ :=
      endJob_eq .fault (jobInService_quarantine i record .fetch _ j hservice)
    refine ⟨quarantine j.entry record .fetch (takeFetchLine i s), m, ?_, ?_, ?_, ?_, ?_, hend, hport, hstore, hctl,
      hnotices⟩
    · rw [hfetch, fetchJob_fault (s := takeFetchLine i s) hstale hfault, hm]
    · exact (quarantined_quarantine j.entry record .fetch (takeFetchLine i s)).of_grant (q := .fetch i)
    · exact quarantine_link ..
    · exact quarantine_matcher ..
    · exact quarantine_ctl_order ..

end Sys2Proof.Machine
end

section
/-! The line of a port: the 2 ms gap, the end of a telegram, and what stands on SPnTX (R109, R110, R115, R120). -/

namespace Sys2Proof.Machine

/-! ### The end of a job at an event of its port (R121) -/

/-- A port that sends no probe becomes IDLE. -/
theorem Port.toIdle_eq {p : Port} (h : p.probe = false) :
    p.toIdle = { p with tx := .idle, buffer := none, de := false, cand := [] } := by
  simp only [Port.toIdle, h]

/-- The end of a job in a state that differs from `s` in port `i` and the notices alone. -/
theorem JobEnded.of_port {i : Seg} {p : Port} {n : NoticeUnit} {s m : State} {e : JobEnd}
    (h : JobEnded { s with ports := s.ports.set i p, notices := n } m i e) : JobEnded s m i e :=
  h.of_same rfl rfl rfl (fun _ hk => ⟨PerSegment.get_set_ne _ _ _ _ hk, rfl⟩) rfl rfl rfl rfl rfl rfl rfl rfl rfl

/-- The job in service of `s` ends in a state that differs from `s` in port `i` and the notices alone. -/
theorem endJob_of_port {i : Seg} {p : Port} {n : NoticeUnit} {s t : State} {j : Job} (o : JobOutcome)
    (ht : t = { s with ports := s.ports.set i p, notices := n }) (hj : jobInService s i = some j) :
    ∃ m, endJob i o t = considerTakeIn i m ∧ JobEnded s m i (j.end i o none) ∧ m.port i = p.toIdle ∧
      m.store = s.store ∧ m.ctl = s.ctl ∧ m.notices = n := by
  subst ht
  have hservice : jobInService { s with ports := s.ports.set i p, notices := n } i = some j := hj
  obtain ⟨m, hm, hend, hport, hrest⟩ := endJob_eq o hservice
  exact ⟨m, hm, hend.of_port, hport.trans (congrArg Port.toIdle (get_set_self ..)), hrest⟩

/-! ### The end of the gap and of a telegram -/

section Ends

variable {i : Seg} {s : State}

theorem exec_sendStartAfterGap (h : (s.port i).gap = true) :
    exec (.sendStartAfterGap i) s = .next (onPort i Port.gapPassed s) := by
  change Host.Outcome.next _ = _
  rw [if_pos h]

/-- A telegram ends on a port that transmits it (R115). -/
theorem exec_telegramSendEnd (htx : (s.port i).tx = .send) (hde : (s.port i).de = true) :
    exec (.telegramSendEnd i) s = .next (kickTx (telegramEnds i s)) := by
  change Host.Outcome.next _ = _
  rw [if_pos (by simp [htx, hde])]

/-- The row changes nothing in a port outside SEND or with the driver off. -/
theorem exec_telegramSendEnd_none (h : (s.port i).tx ≠ .send ∨ (s.port i).de = false) :
    exec (.telegramSendEnd i) s = .next s := by
  change Host.Outcome.next _ = _
  rw [if_neg (by simpa [imp_iff_not_or] using h)]

/-- The end of a probe, or of a telegram that a device answers, opens the window (R115, R116). -/
theorem telegramEnds_awaits (h : (s.port i).probe = true ∨ ∃ j, jobInService s i = some j ∧ j.destination ≠ 127) :
    telegramEnds i s = onPort i Port.awaiting (onPort i Port.released s) := by
  unfold telegramEnds
  dsimp only
  split
  · rfl
  · rename_i hprobe
    obtain ⟨j, hj, hdest⟩ := h.resolve_left hprobe
    have hservice : jobInService (onPort i Port.released s) i = some j := hj
    rw [hservice]
    exact if_neg hdest

/-- The end of a broadcast ends its job (R120). -/
theorem telegramEnds_broadcast {j : Job} (hprobe : (s.port i).probe = false) (hj : jobInService s i = some j)
    (hdest : j.destination = 127) : telegramEnds i s = endJob i .broadcastSent (onPort i Port.released s) := by
  have hservice : jobInService (onPort i Port.released s) i = some j := hj
  unfold telegramEnds
  simp only [hprobe, hservice, hdest, Bool.false_eq_true, if_false, if_true]

end Ends

/-! ### What stands on SPnTX -/

/-- A port outside SEND, or with the driver off, leaves the line at the idle level (R109). -/
theorem lineOutput_idle {p : Port} (h : p.tx ≠ .send ∨ p.de = false) : p.lineOutput = .idle := by
  rw [Port.lineOutput, if_neg]
  rintro ⟨htx, hde⟩
  exact h.elim (· htx) (by simp [hde])

/-- A telegram on the line, character by character (Table 10-11). -/
theorem lineOutput_sends {p : Port} {t : Telegram} (htx : p.tx = .send) (hde : p.de = true)
    (hbuffer : p.buffer = some t) : p.lineOutput = .sends p.cfg.lineSpeed (t.bytes.flatMap characterBits) := by
  rw [Port.lineOutput, if_pos ⟨htx, hde⟩, hbuffer]
  rfl

theorem flagSum_eq (probe seqBit resync : Bool) : flagBit probe + 2 * flagBit seqBit + 4 * flagBit resync =
    (if probe then 1 else 0) + (if seqBit then 2 else 0) + (if resync then 4 else 0) := by
  cases probe <;> cases seqBit <;> cases resync <;> rfl

/-- Settles O48: the ends by what the port sends, and the line by the port's state. -/
theorem telegramOnLine : Obligations.TelegramOnLine := by
  refine ⟨fun s i h => exec_sendStartAfterGap h, fun s i htx hde h => ?_, fun s i j htx hde hprobe hj hdest => ?_,
    fun s i h => ⟨exec_telegramSendEnd_none h, lineOutput_idle h⟩, fun p t htx hde hbuffer => ?_, fun b => rfl⟩
  · rw [exec_telegramSendEnd htx hde, telegramEnds_awaits h, onPort_onPort]
    rfl
  · obtain ⟨m, hm, hend, hport, hrest⟩ := endJob_of_port .broadcastSent (onPort_eq i Port.released s) hj
    refine ⟨m, ?_, hend, hport.trans (Port.toIdle_eq (p := (s.port i).released) hprobe), hrest⟩
    rw [exec_telegramSendEnd htx hde, telegramEnds_broadcast hprobe hj hdest, hm]
  · rw [lineOutput_sends htx hde hbuffer, ← flagSum_eq]
    rfl

end Sys2Proof.Machine
end

section
/-! The end of a job's response window, and the timers of the probes and of the back-off (R118, R119, R123 to R126). -/

namespace Sys2Proof.Machine

/-! ### RESPONSE_WINDOW_EXPIRY (R119, R126) -/

/-- The 2 ms gap has passed. -/
def Port.gapOver (p : Port) : Port := { p with gap := false }

theorem onJob_onPort (i : Seg) (f : Job → Job) (g : Port → Port) (s : State) :
    onJob i f (onPort i g s) = onPort i g (onJob i f s) := rfl

section Window

variable {i : Seg} {s : State}

theorem exec_responseWindowExpiry (htx : (s.port i).tx = .await) : exec (.responseWindowExpiry i) s =
    .next (kickTx (if (s.port i).probe then probeSilent i (onPort i Port.gapOver s)
      else windowSilent i (onPort i Port.gapOver s))) := by
  change Host.Outcome.next _ = _
  rw [if_pos (by simp [htx])]
  rfl

/-- Within the effective retry limit the telegram is sent again, a new attempt. -/
theorem windowSilent_again {j : Job} (hj : jobInService s i = some j)
    (h : j.attempts ≤ effectiveLimit (s.port i)) : windowSilent i s =
      onPort i Port.enterSend (onJob i (fun k => { k with attempts := k.attempts + 1 }) s) := by
  unfold windowSilent
  simp only [hj, if_pos h]

/-- Above it the job ends FAILED. -/
theorem windowSilent_fails {j : Job} (hj : jobInService s i = some j)
    (h : effectiveLimit (s.port i) < j.attempts) :
    windowSilent i s = endJob i .failed (segmentSilent i j.destination s) := by
  unfold windowSilent
  simp only [hj, if_neg (Nat.not_le.mpr h)]

end Window

/-- The health of a segment after one more silent job (R123). -/
def silentHealth (p : Port) : Health :=
  if p.silence + 1 = 3 then .suspect else if p.silence + 1 = 6 then .down else p.health

/-- A port after a job for a destination has ended FAILED (R119, R123, R125). -/
def Port.unanswered (p : Port) (destination : Nat) : Port :=
  { p with
    health := silentHealth p
    silence := p.silence + 1
    seqTable := (p.setSeq destination .unknown).seqTable
    probeTarget := some destination
    probeTimer := p.probeTimer || p.silence + 1 == 6 }

/-- A silent job's destination, counted after the 2 ms gap has passed, changes the port and the notices alone. -/
theorem segmentSilent_gapOver (i : Seg) (destination : Nat) (s : State) :
    segmentSilent i destination (onPort i Port.gapOver s) = { s with
      ports := s.ports.set i ((s.port i).gapOver.unanswered destination)
      notices := if silentHealth (s.port i) = (s.port i).health then s.notices
        else (post (.segmentState i (s.port i).health (silentHealth (s.port i)) ((s.port i).silence + 1) .silence
          (some destination)) s).notices } := by
  have hport : (onPort i Port.gapOver s).port i = (s.port i).gapOver := by rw [port_onPort, if_pos rfl]
  have hnotices : ∀ b, (post b (onPort i Port.gapOver s)).notices = (post b s).notices :=
    fun _ => post_notices_congr rfl rfl
  rw [segmentSilent_eq, hport, hnotices, onPort_eq, set_set_self]
  rfl

/-- Settles O50: another attempt is one update of the port and the job; a FAILED end is that of the job in service, after
the segment's silence is counted. -/
theorem windowExpiryJudged : Obligations.WindowExpiryJudged := by
  intro s i j htx hprobe hj limit after
  have hservice : jobInService (onPort i Port.gapOver s) i = some j := hj
  have hlimitEq : effectiveLimit ((onPort i Port.gapOver s).port i) = limit := by
    rw [port_onPort, if_pos rfl]
    rfl
  have hexec : exec (.responseWindowExpiry i) s = .next (kickTx (windowSilent i (onPort i Port.gapOver s))) := by
    rw [exec_responseWindowExpiry htx, hprobe]
    rfl
  refine ⟨fun hlimit => ?_, fun hlimit => ?_⟩
  · rw [hexec, windowSilent_again hservice (by rw [hlimitEq]; exact hlimit), onJob_onPort, onPort_onPort]
    rfl
  · obtain ⟨m, hm, hend, hport, hstore, hctl, hnotices⟩ :=
      endJob_of_port .failed (segmentSilent_gapOver i j.destination s) hj
    refine ⟨m, ?_, hend, ?_, fun n => ?_, hstore, hctl, hnotices⟩
    · rw [hexec, windowSilent_fails hservice (by rw [hlimitEq]; exact hlimit), hm]
    · rw [hport, Port.toIdle_eq (p := (s.port i).gapOver.unanswered j.destination) hprobe]
      rfl
    · rw [hport]
      exact get_setSeq (s.port i).gapOver j.destination .unknown n

/-! ### A whole device reply in a window (R111, R117, R188) -/

theorem exec_deviceReply (i : Seg) (chars : List RxChar) (s : State) :
    exec (.deviceReply i chars) s = .next (kickTx (chars.foldl (hear i) s)) := rfl

/-- A valid reply ends the window: a BUSY, or an ACK or REJECT whose echo agrees. -/
theorem hear_valid {i : Seg} {s : State} {sent : Telegram} {b : Byte} {kind : DeviceReplyKind}
    (htx : (s.port i).tx = .await) (hcand : (s.port i).cand = []) (hbuffer : (s.port i).buffer = some sent)
    (hdest : sent.destination ≤ 126) (hkind : deviceReplyKind b = some kind)
    (hecho : kind = .busy ∨ b.getLsbD 4 = sent.seqBit) :
    ((0x69#8 :: byte1 sent.destination :: b :: byte2 (crc16 [byte1 sent.destination, b]).toNat).map RxChar.good).foldl
      (hear i) s = windowAnswered i kind sent s := by
  rw [hear_reply i s htx hcand b sent hbuffer hdest, hkind]
  cases kind with
  | busy => rfl
  | ack => simp only [if_pos (hecho.resolve_left (by decide))]
  | reject => simp only [if_pos (hecho.resolve_left (by decide))]

/-! ### BACKOFF_EXPIRY, PROBE_TIMER_EXPIRY and the end of a probe (R118, R125, R126) -/

section Probe

variable {i : Seg} {s : State}

theorem exec_backoffExpiry (htx : (s.port i).tx = .backoff) :
    exec (.backoffExpiry i) s = .next (onPort i (fun p => p.gapOver.enterSend) s) := by
  change Host.Outcome.next _ = _
  rw [if_pos (by simp [htx])]
  rfl

theorem exec_probeTimerExpiry {target : Nat} (htarget : (s.port i).probeTarget = some target)
    (htimer : (s.port i).probeTimer = true) (hdown : (s.port i).health = .down) (htx : (s.port i).tx = .idle) :
    exec (.probeTimerExpiry i) s = .next (onPort i (fun p => p.probing target) s) := by
  change execProbeTimerExpiry i s = _
  rw [execProbeTimerExpiry, htarget]
  simp [htimer, hdown, htx]

/-- A valid reply to a probe on a DOWN segment makes it UP (R126). -/
theorem probeAnswered_down {sent : Telegram} (hdown : (s.port i).health = .down) : probeAnswered i sent s =
    considerTakeIn i { s with
      ports := s.ports.set i { (s.port i).toIdle with health := .up, silence := 0 }
      notices := (post (.segmentState i .down .up 0 .probe (some sent.destination)) s).notices } := by
  rw [probeAnswered, segmentAnswered_eq, hdown]
  simp only [reduceCtorEq, or_true, if_true, onPort_eq, State.port, get_set_self, set_set_self]
  rfl

end Probe

theorem windowAnswered_probe {i : Seg} {s : State} (kind : DeviceReplyKind) (sent : Telegram)
    (hprobe : (s.port i).probe = true) : windowAnswered i kind sent s = probeAnswered i sent s := if_pos hprobe

/-- The replies to a probe, whose sequence bit is 0: ACK, BUSY with either echo, and REJECT (R126). -/
theorem deviceReplyKind_probe {b : Byte} (hb : b ∈ [0x01#8, 0x02#8, 0x03#8, 0x12#8]) :
    ∃ kind, deviceReplyKind b = some kind ∧ (kind = .busy ∨ b.getLsbD 4 = false) := by
  simp only [List.mem_cons, List.not_mem_nil, or_false] at hb
  rcases hb with rfl | rfl | rfl | rfl
  · exact ⟨.ack, rfl, Or.inr rfl⟩
  · exact ⟨.busy, rfl, Or.inl rfl⟩
  · exact ⟨.reject, rfl, Or.inr rfl⟩
  · exact ⟨.busy, rfl, Or.inl rfl⟩

/-- Settles O51: each timer's end is one update of the port, and so is the end of a probe, before take-in. -/
theorem portTimers : Obligations.PortTimers := by
  refine ⟨fun s i htx => exec_backoffExpiry htx, fun s i target htarget htimer hdown htx =>
    exec_probeTimerExpiry htarget htimer hdown htx,
    fun s i sent b htx hcand hprobe hdown hbuffer _ hseq _ hdest hb => ?_, fun s i htx hprobe => ?_⟩
  · obtain ⟨kind, hkind, hecho⟩ := deviceReplyKind_probe hb
    rw [exec_deviceReply, hear_valid htx hcand hbuffer hdest hkind (by rw [hseq]; exact hecho),
      windowAnswered_probe kind sent hprobe, probeAnswered_down hdown]
    rfl
  · rw [exec_responseWindowExpiry htx, hprobe, if_pos rfl, probeSilent, onPort_onPort]
    rfl

end Sys2Proof.Machine
end

section
/-! A device reply in a job's window: the candidates that are ignored, the answers that end the job, and BUSY (R111,
R117, R118, R121 to R124, R188). -/

namespace Sys2Proof.Machine

/-! ### Characters that change nothing (R111, R188) -/

/-- Characters that leave the port as it was: what follows is heard as if they had not come. -/
theorem exec_deviceReply_ignored {i : Seg} {s : State} {chars : List RxChar} (h : chars.foldl (hear i) s = s) :
    exec (.deviceReply i chars) s = .next (kickTx s) ∧
      ∀ later, exec (.deviceReply i (chars ++ later)) s = exec (.deviceReply i later) s := by
  simp only [exec_deviceReply, List.foldl_append, h, implies_true, and_self]

/-! ### The answers -/

/-- A port after a valid reply to its telegram (R123). -/
def Port.answered (p : Port) : Port :=
  { p with silence := 0, health := if p.health = .suspect ∨ p.health = .down then .up else p.health }

/-- The notices after a valid reply in a job's window: SEGMENT-STATE where the segment was SUSPECT or DOWN (R124). -/
def answeredNotices (i : Seg) (destination : Nat) (s : State) : NoticeUnit :=
  if (s.port i).health = .suspect ∨ (s.port i).health = .down then
    (post (.segmentState i (s.port i).health .up 0 .reply (some destination)) s).notices
  else s.notices

/-- The sequence state of a destination turned by an ACK or REJECT (R117, R122). -/
def Port.turned (p : Port) (sent : Telegram) : Port := p.setSeq sent.destination (if sent.seqBit then .zero else .one)

theorem turned_eq (p : Port) (sent : Telegram) : p.turned sent = { p with seqTable := (p.turned sent).seqTable } :=
  setSeq_eq ..

/-- A valid ACK or REJECT changes, before its job ends, the port and the notices alone. -/
theorem segmentAnswered_turned (i : Seg) (sent : Telegram) (s : State) :
    segmentAnswered i .reply sent.destination (onPort i (fun p => p.turned sent) s) = { s with
      ports := s.ports.set i { (s.port i).answered with seqTable := ((s.port i).turned sent).seqTable }
      notices := answeredNotices i sent.destination s } := by
  have hport : (onPort i (fun p => p.turned sent) s).port i =
      { s.port i with seqTable := ((s.port i).turned sent).seqTable } := by
    rw [port_onPort, if_pos rfl, ← turned_eq]
  have hnotices : ∀ b, (post b (onPort i (fun p => p.turned sent) s)).notices = (post b s).notices :=
    fun _ => post_notices_congr rfl rfl
  rw [segmentAnswered_eq, hport]
  simp only [hnotices]
  rw [onPort_eq, set_set_self]
  rfl

/-! ### ACK and REJECT (R117) -/

/-- The reply bytes of an ACK and a REJECT whose echo agrees, and the outcomes that they bring. -/
theorem deviceReplyKind_answer {o : JobOutcome} {b : Byte} {seqBit : Bool}
    (h : (o, b) ∈ [(JobOutcome.delivered, if seqBit then 0x11#8 else 0x01#8),
      (JobOutcome.rejected, if seqBit then 0x13#8 else 0x03#8)]) :
    ∃ kind, deviceReplyKind b = some kind ∧ b.getLsbD 4 = seqBit ∧
      (kind, o) ∈ [(DeviceReplyKind.ack, JobOutcome.delivered), (.reject, .rejected)] := by
  simp only [List.mem_cons, Prod.mk.injEq, List.not_mem_nil, or_false] at h
  rcases h with ⟨rfl, rfl⟩ | ⟨rfl, rfl⟩
  · exact ⟨.ack, by cases seqBit <;> rfl, by cases seqBit <;> rfl, by simp⟩
  · exact ⟨.reject, by cases seqBit <;> rfl, by cases seqBit <;> rfl, by simp⟩

theorem windowAnswered_job {i : Seg} {s : State} {kind : DeviceReplyKind} {o : JobOutcome} (sent : Telegram)
    (hprobe : (s.port i).probe = false)
    (h : (kind, o) ∈ [(DeviceReplyKind.ack, JobOutcome.delivered), (.reject, .rejected)]) :
    windowAnswered i kind sent s = jobAnswered i o sent s := by
  simp only [List.mem_cons, Prod.mk.injEq, List.not_mem_nil, or_false] at h
  rcases h with ⟨rfl, rfl⟩ | ⟨rfl, rfl⟩ <;> simp [windowAnswered, hprobe]

/-- The end of the job in service by an ACK or a REJECT. -/
theorem jobAnswered_eq {i : Seg} {s : State} {j : Job} (o : JobOutcome) (sent : Telegram)
    (hj : jobInService s i = some j) :
    ∃ m, jobAnswered i o sent s = considerTakeIn i m ∧ JobEnded s m i (j.end i o none) ∧
      m.port i = { (s.port i).answered with seqTable := ((s.port i).turned sent).seqTable }.toIdle ∧
      m.store = s.store ∧ m.ctl = s.ctl ∧ m.notices = answeredNotices i sent.destination s :=
  endJob_of_port o (segmentAnswered_turned i sent s) hj

/-! ### BUSY (R118) -/

/-- The busy count of a job advanced. -/
def Job.busier (j : Job) : Job := { j with busy := j.busy + 1 }

theorem jobInService_busier {i : Seg} {s : State} {j : Job} (hj : jobInService s i = some j) :
    jobInService (onJob i Job.busier s) i = some j.busier := by
  rw [jobInService, queue_onJob, if_pos rfl]
  exact service_map Job.busier (fun _ => rfl) _ _ hj

/-- A valid BUSY counted, and the segment answered: what stands before it is judged. -/
def busyCounted (i : Seg) (destination : Nat) (s : State) : State :=
  { onJob i Job.busier s with
    ports := s.ports.set i (s.port i).answered
    notices := answeredNotices i destination s }

theorem segmentAnswered_busier (i : Seg) (destination : Nat) (s : State) :
    segmentAnswered i .reply destination (onJob i Job.busier s) = busyCounted i destination s := by
  have hport : (onJob i Job.busier s).port i = s.port i := rfl
  have hnotices : ∀ b, (post b (onJob i Job.busier s)).notices = (post b s).notices :=
    fun _ => post_notices_congr rfl rfl
  rw [segmentAnswered_eq, hport]
  simp only [hnotices]
  rfl

theorem port_busyCounted (i : Seg) (destination : Nat) (s : State) :
    (busyCounted i destination s).port i = (s.port i).answered := get_set_self ..

theorem deviceReplyKind_busy {b : Byte} (h : b = 0x02#8 ∨ b = 0x12#8) : deviceReplyKind b = some .busy := by
  rcases h with rfl | rfl <;> rfl

theorem windowAnswered_busy {i : Seg} {s : State} (sent : Telegram) (hprobe : (s.port i).probe = false) :
    windowAnswered i .busy sent s = jobBusy i sent s := by
  simp [windowAnswered, hprobe]

section Busy

variable {i : Seg} {s : State} {j : Job} (sent : Telegram) (hj : jobInService s i = some j)
include hj

theorem busyCount_busyCounted (destination : Nat) : busyCount (busyCounted i destination s) i = j.busy + 1 := by
  have hservice : jobInService (busyCounted i destination s) i = some j.busier := jobInService_busier hj
  rw [busyCount, hservice]
  rfl

/-- Within the busy limit the port backs off; take-in is considered where the segment becomes UP (R97). -/
theorem jobBusy_backsOff (hlimit : j.busy + 1 ≤ (s.port i).cfg.busyLimit) : jobBusy i sent s =
    if (s.port i).health = .up then onPort i Port.backingOff (busyCounted i sent.destination s)
    else considerTakeIn i (onPort i Port.backingOff (busyCounted i sent.destination s)) := by
  have hle : busyCount (busyCounted i sent.destination s) i ≤
      ((busyCounted i sent.destination s).port i).cfg.busyLimit := by
    rw [busyCount_busyCounted hj, port_busyCounted]
    exact hlimit
  rw [jobBusy, show segmentAnswered i .reply sent.destination (onJob i (fun j => { j with busy := j.busy + 1 }) s) =
    busyCounted i sent.destination s from segmentAnswered_busier ..]
  exact if_pos hle

/-- Above it the job ends BUSY-LIMIT. -/
theorem jobBusy_ends (hlimit : (s.port i).cfg.busyLimit < j.busy + 1) :
    jobBusy i sent s = endJob i .busyLimit (busyCounted i sent.destination s) := by
  have hgt : ¬ busyCount (busyCounted i sent.destination s) i ≤
      ((busyCounted i sent.destination s).port i).cfg.busyLimit := by
    rw [busyCount_busyCounted hj, port_busyCounted]
    exact Nat.not_le.mpr hlimit
  rw [jobBusy, show segmentAnswered i .reply sent.destination (onJob i (fun j => { j with busy := j.busy + 1 }) s) =
    busyCounted i sent.destination s from segmentAnswered_busier ..]
  exact if_neg hgt

/-- The end of a job whose busy count has advanced is the end of the job in service. -/
theorem endJob_busyCounted (destination : Nat) :
    ∃ m, endJob i .busyLimit (busyCounted i destination s) = considerTakeIn i m ∧
      JobEnded s m i (j.busier.end i .busyLimit none) ∧ m.port i = (s.port i).answered.toIdle ∧
      m.store = s.store ∧ m.ctl = s.ctl ∧ m.notices = answeredNotices i destination s := by
  obtain ⟨m, hm, hend, hrest⟩ := endJob_of_port (s := onJob i Job.busier s) .busyLimit
    (show busyCounted i destination s = _ from rfl) (jobInService_busier hj)
  have hwaiting : ((onJob i Job.busier s).queue i).filter (fun j => !j.inService) =
      (s.queue i).filter (fun j => !j.inService) := by
    rw [queue_onJob, if_pos rfl]
    exact waiting_map_service Job.busier (fun _ => rfl) _
  refine ⟨m, hm, hend.of_same hwaiting rfl rfl (fun k hk => ⟨rfl, ?_⟩) rfl rfl rfl rfl rfl rfl rfl rfl rfl, hrest⟩
  rw [queue_onJob, if_neg hk]

end Busy

/-- Settles O49: the ignored candidates leave the port as it was; the answers end the job in service after the segment
is answered; a BUSY is counted, and then judged. -/
theorem deviceReplyTaken : Obligations.DeviceReplyTaken := by
  refine ⟨fun s i chars h => ?_, fun s i sent htx hcand hbuffer => ?_,
    fun s i j sent b htx hcand hprobe hbuffer _ hdest hj => ?_⟩
  · rw [exec_deviceReply, hear_outside_await i chars s h]
  · intro ignored
    exact ⟨fun source reply high low h => exec_deviceReply_ignored (hear_invalid i s htx hcand source reply high low
        sent hbuffer (judgeCandidate_eq_none sent source reply high low h)),
      fun c h => exec_deviceReply_ignored (hear_no_mark i s hcand c h),
      fun l c hl hc => exec_deviceReply_ignored (hear_broken i s htx hcand l c hl hc)⟩
  · intro chars revived answered told idle
    refine ⟨fun o ho => ?_, fun hb hlimit => ?_, fun hb hlimit => ?_, fun hb => ?_⟩
    · obtain ⟨kind, hkind, hecho, hko⟩ := deviceReplyKind_answer ho
      obtain ⟨m, hm, hend, hport, htold⟩ := jobAnswered_eq o sent hj
      refine ⟨m, ?_, htold, hend, ?_, fun n => ?_⟩
      · rw [exec_deviceReply, hear_valid htx hcand hbuffer hdest hkind (Or.inr hecho),
          windowAnswered_job sent hprobe hko, hm]
      · rw [hport]
        exact Port.toIdle_eq hprobe
      · rw [hport]
        exact get_setSeq (s.port i) sent.destination _ n
    · have hexec : exec (.deviceReply i chars) s = .next (kickTx (jobBusy i sent s)) := by
        rw [exec_deviceReply, hear_valid htx hcand hbuffer hdest (deviceReplyKind_busy hb) (Or.inl rfl),
          windowAnswered_busy sent hprobe]
      refine ⟨onPort i Port.backingOff (busyCounted i sent.destination s),
        by rw [hexec, jobBusy_backsOff sent hj hlimit], ⟨rfl, rfl, rfl⟩, rfl, ?_, rfl, fun k hk => ?_⟩
      · rw [port_onPort, if_pos rfl, port_busyCounted]
        simp only [Port.backingOff, Port.answered, hcand, answered, revived]
      · rw [port_onPort, if_neg hk]
        exact PerSegment.get_set_ne _ _ _ _ hk
    · obtain ⟨m, hm, hend, hport, htold⟩ := endJob_busyCounted hj sent.destination
      refine ⟨m, ?_, htold, hend, hport.trans (Port.toIdle_eq hprobe)⟩
      rw [exec_deviceReply, hear_valid htx hcand hbuffer hdest (deviceReplyKind_busy hb) (Or.inl rfl),
        windowAnswered_busy sent hprobe, jobBusy_ends sent hj hlimit, hm]
    · have hecho : b &&& 0x03#8 ≠ 0x02#8 ∧ b.getLsbD 4 ≠ sent.seqBit := by
        rw [hb]
        cases sent.seqBit <;> decide
      exact (exec_deviceReply_ignored (hear_invalid i s htx hcand _ b _ _ sent hbuffer
        (judgeCandidate_eq_none sent _ b _ _ (Or.inr (Or.inr (Or.inr (Or.inr hecho))))))).1

end Sys2Proof.Machine
end

section
/-! SEGMENT-CLOSE: the port stops, the pending records are recorded, every job of the segment ends, and the notice comes
last (R130). -/

namespace Sys2Proof.Machine

/-! ### Its acts before the notice -/

/-- A port as SEGMENT-CLOSE stops it (R130). -/
def Port.closing (p : Port) : Port := { p.cut with health := .closed }

/-- The pending records of a closing segment recorded (R130). -/
def recordsClosed (i : Seg) (s : State) : State :=
  recordPending .hostRead i (s.dispatch.ended.get i).length (onPort i Port.closing s)

/-- The acts of SEGMENT-CLOSE but for its notice. -/
def jobsClosed (i : Seg) (s : State) : State := purgeWaiting i (abandonService i (recordsClosed i s))

theorem closeSegment_eq (i : Seg) (s : State) : closeSegment i s =
    post (.segmentState i (s.port i).health .closed ((jobsClosed i s).port i).silence .close none)
      (jobsClosed i s) := rfl

theorem Kept.abandonService {P : State → Prop} (k : Kept P) {i : Seg} (hport : ∀ f s, P s → P (onPort i f s))
    {s : State} (h : P s) : P (abandonService i s) := by
  unfold Machine.abandonService
  split
  · exact h
  · exact k.recordEnd _ _ (k.removeTo _ _ _ (Or.inl List.filter_sublist) (hport _ _ h))

theorem Kept.purgeWaiting {P : State → Prop} (k : Kept P) (i : Seg) {s : State} (h : P s) : P (purgeWaiting i s) :=
  k.recordAll _ _ (k.removeTo _ _ _ (Or.inl (List.nil_sublist _)) h)

/-- What the shared operations and a change of port `i` keep, the acts of SEGMENT-CLOSE keep. -/
theorem Kept.jobsClosed {P : State → Prop} (k : Kept P) {i : Seg} (hport : ∀ f s, P s → P (onPort i f s)) {s : State}
    (h : P s) : P (jobsClosed i s) :=
  k.purgeWaiting i (k.abandonService hport (k.recordPending _ _ _ (hport _ _ h)))

/-! ### The closed segment's own line -/

theorem closed_onPort (i : Seg) (s : State) : ((onPort i Port.closing s).port i).health = .closed := by
  rw [port_onPort, if_pos rfl]
  rfl

/-- The records are recorded, and the port is left as it was stopped. -/
theorem line_recordsClosed (i : Seg) (s : State) :
    (recordsClosed i s).dispatch.ended.get i = [] ∧ (recordsClosed i s).port i = (s.port i).closing := by
  obtain ⟨hended, hport⟩ := closedLine_recordPending i .hostRead _ (onPort i Port.closing s) (closed_onPort i s) rfl
  exact ⟨hended, hport.trans (by rw [port_onPort, if_pos rfl])⟩

/-- The sequence state of the job in service set UNKNOWN, if there is one (R130). -/
def Port.abandoned (p : Port) (destination : Option Nat) : Port := destination.elim p (p.setSeq · .unknown)

theorem abandoned_eq (p : Port) (destination : Option Nat) :
    p.abandoned destination = { p with seqTable := (p.abandoned destination).seqTable } := by
  cases destination with
  | none => rfl
  | some d => exact setSeq_eq p d .unknown

theorem line_abandonService {i : Seg} {s : State} (hc : (s.port i).health = .closed) :
    ((abandonService i s).dispatch.ended.get i).length = (s.dispatch.ended.get i).length ∧
      (abandonService i s).port i = (s.port i).abandoned (serviceDestination s i) := by
  unfold abandonService serviceDestination
  cases hj : jobInService s i with
  | none => exact ⟨rfl, rfl⟩
  | some j =>
    dsimp only
    have hport : (removeTo i ((s.queue i).filter (fun j => !j.inService))
        (onPort i (fun p => p.setSeq j.destination .unknown) s)).port i = (s.port i).setSeq j.destination .unknown := by
      rw [State.port, removeTo_ports]
      exact get_set_self ..
    have hclosed : ((s.port i).setSeq j.destination .unknown).health = .closed := by
      rw [setSeq_eq]
      exact hc
    obtain ⟨hlength, hsame⟩ := closedLine_recordEnd i .hostRead (j.end i .abandoned none) _
      (by rw [hport]; exact hclosed)
    exact ⟨hlength, hsame.trans hport⟩

theorem closed_abandonService {i : Seg} {s : State} (hc : (s.port i).health = .closed) :
    ((abandonService i s).port i).health = .closed := by
  rw [(line_abandonService hc).2, abandoned_eq]
  exact hc

theorem line_purgeWaiting {i : Seg} {s : State} (hc : (s.port i).health = .closed) :
    ((purgeWaiting i s).dispatch.ended.get i).length = (s.dispatch.ended.get i).length ∧
      (purgeWaiting i s).port i = s.port i ∧ (purgeWaiting i s).queue i = [] := by
  obtain ⟨hlength, hport⟩ := closedLine_recordAll i .hostRead ((s.queue i).map (fun j => j.end i .purged none))
    (removeTo i [] s) hc
  exact ⟨hlength, hport, queueNil_recordAll i .hostRead _ _ (by rw [queue_removeTo, if_pos rfl])⟩

/-- After the acts of SEGMENT-CLOSE nothing is pending or queued, and the port is as it was stopped, with the sequence
state of the job that was in service UNKNOWN. -/
theorem line_jobsClosed (i : Seg) (s : State) : (jobsClosed i s).dispatch.ended.get i = [] ∧
    (jobsClosed i s).port i = (s.port i).closing.abandoned (serviceDestination s i) ∧
      (jobsClosed i s).queue i = [] := by
  obtain ⟨hended, hport⟩ := line_recordsClosed i s
  have hclosed : ((recordsClosed i s).port i).health = .closed := by
    rw [hport]
    rfl
  have hservice : serviceDestination (recordsClosed i s) i = serviceDestination s i :=
    serviceDestination_recordPending i .hostRead _ _ (closed_onPort i s)
  obtain ⟨hlength, habandoned⟩ := line_abandonService hclosed
  obtain ⟨hlength', hpurged, hqueue⟩ := line_purgeWaiting (closed_abandonService hclosed)
  refine ⟨?_, ?_, hqueue⟩
  · exact List.length_eq_zero_iff.mp (hlength'.trans (hlength.trans (congrArg List.length hended)))
  · exact hpurged.trans (by rw [habandoned, hport, hservice])

/-! ### The same acts in the words of the statement: the closed port and its high-water flag left out -/

theorem SameBut.trans {i : Seg} {s t u : State} (h : SameBut i s t) (h' : SameBut i t u) : SameBut i s u :=
  ⟨h.same.trans h'.same, h.closed, h'.closed'⟩

theorem SameBut.store {i : Seg} {s t : State} (h : SameBut i s t) : s.store = t.store :=
  congrArg (fun w => w.store) h.same

theorem SameBut.notices {i : Seg} {s t : State} (h : SameBut i s t) : s.notices = t.notices :=
  congrArg (fun w => w.notices) h.same

theorem SameBut.cal {i : Seg} {s t : State} (h : SameBut i s t) : s.cal = t.cal :=
  congrArg (fun w => w.cal) h.same

/-- The lines of the other segments are the same. -/
theorem SameBut.line {i k : Seg} {s t : State} (h : SameBut i s t) (hk : k ≠ i) : s.queue k = t.queue k ∧
    s.dispatch.ended.get k = t.dispatch.ended.get k ∧ s.port k = t.port k := by
  have hport := congrArg (fun w => w.port k) h.same
  simp only [port_blotted, if_neg hk] at hport
  exact ⟨h.queue k, congrArg (fun w => w.dispatch.ended.get k) h.same, hport⟩

/-- A removal differs from a change of the queue in the high-water flag alone. -/
theorem sameBut_removeTo {i : Seg} {s : State} (hc : (s.port i).health = .closed) (q : List Job) :
    SameBut i (removeTo i q s) (setQueue i q s) where
  same := by
    unfold removeTo setQueue blotted
    split
    · dsimp only
      rw [set_set_self]
    · rfl
  closed := hc
  closed' := hc

theorem sameBut_onPort {i : Seg} {s : State} {f : Port → Port} (hc : (s.port i).health = .closed)
    (hf : (f (s.port i)).health = .closed) : SameBut i (onPort i f s) s where
  same := by
    rw [onPort_eq]
    unfold blotted
    dsimp only
    rw [set_set_self]
  closed := by
    rw [port_onPort, if_pos rfl]
    exact hf
  closed' := hc

theorem SameBut.setQueue {i : Seg} {s t : State} (h : SameBut i s t) (k : Seg) (q : List Job) :
    SameBut i (setQueue k q s) (setQueue k q t) where
  same := congrArg (Machine.setQueue k q) h.same
  closed := h.closed
  closed' := h.closed'

/-- The end of the job in service, if there is one, ABANDONED. -/
def serviceEnds (i : Seg) (s : State) : List JobEnd := (jobInService s i).toList.map (fun j => j.end i .abandoned none)

/-- The end of the job in service in one update of the queue and one recording. -/
theorem sameBut_abandonService {i : Seg} {s : State} (hc : (s.port i).health = .closed) : SameBut i (abandonService i s)
    (recordAll .hostRead (serviceEnds i s) (setQueue i (waiting (s.queue i)) s)) := by
  unfold abandonService serviceEnds
  cases hj : jobInService s i with
  | none =>
    have hwaiting : waiting (s.queue i) = s.queue i :=
      List.filter_eq_self.mpr fun j hjq => by simpa using List.find?_eq_none.mp hj j hjq
    have hsame : setQueue i (waiting (s.queue i)) s = s := by
      rw [hwaiting]
      unfold setQueue State.queue
      rw [set_get_self]
    change SameBut i s (setQueue i (waiting (s.queue i)) s)
    rw [hsame]
    exact SameBut.refl hc
  | some j =>
    have hclosed : ((s.port i).setSeq j.destination .unknown).health = .closed := by
      rw [setSeq_eq]
      exact hc
    have hport := sameBut_onPort (f := fun p => p.setSeq j.destination .unknown) hc hclosed
    exact ((hport.removeTo i _).trans (sameBut_removeTo hc _)).recordEnd .hostRead (j.end i .abandoned none)

/-- The purge in one update of the queue and the recordings. -/
theorem sameBut_purgeWaiting {i : Seg} {s t : State} (h : SameBut i s t) : SameBut i (purgeWaiting i s)
    (recordAll .hostRead ((t.queue i).map (fun j => j.end i .purged none)) (setQueue i [] t)) := by
  unfold purgeWaiting
  rw [h.queue]
  exact ((h.removeTo i []).trans (sameBut_removeTo h.closed' [])).recordAll .hostRead _

/-- On a closed segment with no job in service, the shared operations bring none into service. -/
theorem kept_closedWaiting (i : Seg) :
    Kept (fun s => (s.port i).health = .closed ∧ ∀ j ∈ s.queue i, j.inService = false) where
  post _ _ h := by simpa [State.port] using h
  rewrite _ _ _ _ h := h
  clear _ _ _ _ h := h
  setEnded _ _ _ h := h
  removeTo k q s hq h := by
    refine ⟨h.1, fun j hj => ?_⟩
    rw [queue_removeTo] at hj
    split at hj
    · rename_i hk
      subst hk
      exact h.2 j (hq.mem hj)
    · exact h.2 j hj
  markStale owns s _ h := by
    refine ⟨h.1, fun j hj => ?_⟩
    rw [queue_markStale, List.mem_map] at hj
    obtain ⟨x, hx, rfl⟩ := hj
    split <;> exact h.2 x hx
  takeHead k j rest s _ hm h := by
    have hk : i ≠ k := by
      rintro rfl
      simp [mayTakeIn, h.1] at hm
    rw [port_takeHead, if_neg hk, queue_takeHead, if_neg hk]
    exact h
  presentLine k s h := by
    refine ⟨?_, h.2⟩
    rw [port_onPort]
    split
    · rename_i hk
      subst hk
      exact h.1
    · exact h.1

/-- The ends of the jobs as the statement writes them. -/
theorem serviceEnds_eq (i : Seg) (s : State) : serviceEnds i s = (jobInService s i).toList.map (fun j =>
    { waitingEnd .abandoned j.stale i j with attempts := j.attempts, busy := j.busy }) := by
  unfold serviceEnds
  refine List.map_congr_left fun j hj => ?_
  have hserves : j.inService = true := by
    simpa using List.find?_some (Option.mem_toList.mp hj)
  simp [Job.end, waitingEnd, hserves]

/-- The state after the end of the job in service, seen as in the statement. -/
def serviceAbandoned (i : Seg) (s : State) : State :=
  recordAll .hostRead (serviceEnds i s) (setQueue i (waiting (s.queue i)) s)

/-- Only waiting jobs are left for the purge. -/
theorem purgedEnds_eq {i : Seg} {s : State} (hc : (s.port i).health = .closed) :
    ((serviceAbandoned i s).queue i).map (fun j => j.end i .purged none) =
      ((serviceAbandoned i s).queue i).map (fun j => waitingEnd .purged j.stale i j) := by
  have hwaits : ∀ j ∈ (serviceAbandoned i s).queue i, j.inService = false := by
    refine ((kept_closedWaiting i).recordAll .hostRead (serviceEnds i s) (s := setQueue i (waiting (s.queue i)) s)
      ⟨hc, fun j hj => ?_⟩).2
    rw [queue_setQueue, if_pos rfl] at hj
    simpa using (List.mem_filter.mp hj).2
  exact List.map_congr_left fun j hj => end_waiting (hwaits j hj) i .purged

/-- The acts of SEGMENT-CLOSE, the closed port and its high-water flag left out. -/
def jobsPurged (i : Seg) (s : State) : State :=
  recordAll .hostRead (((serviceAbandoned i s).queue i).map (fun j => waitingEnd .purged j.stale i j))
    (setQueue i [] (serviceAbandoned i s))

theorem sameBut_jobsClosed (i : Seg) (s : State) : SameBut i (jobsClosed i s) (jobsPurged i (recordsClosed i s)) := by
  have hclosed : ((recordsClosed i s).port i).health = .closed := by
    rw [(line_recordsClosed i s).2]
    rfl
  have h := sameBut_purgeWaiting (sameBut_abandonService hclosed)
  rw [show recordAll .hostRead (serviceEnds i (recordsClosed i s)) _ = serviceAbandoned i (recordsClosed i s) from rfl,
    purgedEnds_eq hclosed] at h
  exact h

theorem segmentCloseOp_closed {i : Seg} {s : State} (h : (s.port i).health = .closed) :
    segmentCloseOp i s = (s, [0x00#8, 0x00#8]) := if_pos h

theorem segmentCloseOp_open {i : Seg} {s : State} (h : (s.port i).health ≠ .closed) :
    segmentCloseOp i s = (closeSegment i s, [0x00#8, byte1 (s.queue i).length]) := if_neg h

/-! ### What the acts leave -/

/-- The high-water flag of the closed segment is armed where its queue held a job (R95). -/
theorem highArmed_jobsClosed (i : Seg) (s : State) : (jobsClosed i s).dispatch.highArmed.get i =
    (s.dispatch.highArmed.get i || (s.queue i).length != 0) := by
  have harmed := ((kept_rearmed i s).jobsClosed (i := i) (fun _ _ h => h) (Rearmed.refl i s)).2
  rw [(line_jobsClosed i s).2.2] at harmed
  rw [harmed]
  cases s.queue i <;> simp

/-- The ports of the other segments keep all but their take-in. -/
theorem port_jobsClosed_ne {i k : Seg} (hk : k ≠ i) (s : State) : (jobsClosed i s).port k =
    { s.port k with tx := ((jobsClosed i s).port k).tx, fetchOp := ((jobsClosed i s).port k).fetchOp } :=
  (kept_port k (s.port k)).jobsClosed (i := i) (fun f t h => by rw [port_onPort, if_neg hk]; exact h) rfl

/-- The destination of the job in service is UNKNOWN, and no other (R130). -/
theorem seqTable_abandoned (i : Seg) (s : State) (p : Port) (n : Fin 126) :
    (p.abandoned (serviceDestination s i)).seqTable.get n =
      if ∃ j, jobInService s i = some j ∧ j.destination = n.val + 1 then .unknown else p.seqTable.get n := by
  unfold serviceDestination
  cases hj : jobInService s i with
  | none => simp [Port.abandoned]
  | some j => simpa [Port.abandoned] using get_setSeq p j.destination .unknown n

/-- Settles O44: the segment's own line by the acts in order, the rest of the part by leaving that line's port out. -/
theorem segmentCloseEndsJobs : Obligations.SegmentCloseEndsJobs := by
  intro s r i hs hb
  refine ⟨fun hc => congrArg _ (serve_unchanged hs (parseSegment_byte1 hb) (segmentCloseOp_closed hc)), fun hopen => ?_⟩
  intro record pending abandoned purged
  set u := grant .commandInterpreter s
  have hsame : SameBut i (jobsClosed i u) purged := by
    have hpurged : purged = jobsPurged i (recordsClosed i u) := by
      unfold jobsPurged serviceAbandoned
      rw [serviceEnds_eq]
      rfl
    rw [hpurged]
    exact sameBut_jobsClosed i u
  obtain ⟨hended, hport, hqueue⟩ := line_jobsClosed i u
  have hclose : closeSegment i u = { jobsClosed i u with notices :=
      (post (.segmentState i (s.port i).health .closed (s.port i).silence .close none) (jobsClosed i u)).notices } := by
    rw [closeSegment_eq, hport, abandoned_eq, post_eq_notices]
    rfl
  have hgrow : NoticesGrow s.notices (jobsClosed i u).notices :=
    (kept_noticesGrow s.notices).jobsClosed (fun _ _ h => h) (s := u) (NoticesGrow.refl _)
  have hnextTag : (jobsClosed i u).dispatch.nextTag = s.dispatch.nextTag :=
    (kept_nextTag s.dispatch.nextTag).jobsClosed (fun _ _ h => h) (s := u) rfl
  obtain ⟨hhold, hsegHold⟩ := (kept_holds s.dispatch.hold s.dispatch.segHold).jobsClosed (i := i) (fun _ _ h => h)
    (s := u) ⟨rfl, rfl⟩
  have hkeeps := closeSegment_keeps i u
  have hop := segmentCloseOp_open (s := u) hopen
  rw [hclose] at hkeeps hop
  obtain ⟨hlink, hsupply, hheap, hrecords, hdaylight, hcal, hmatcher, horder⟩ := hkeeps
  have hserve := serve_store_eq (op := segmentCloseOp) hs (parseSegment_byte1 hb) (by rw [hop]; exact hlink)
    (by rw [hop]; exact hsupply)
  rw [hop] at hserve
  refine ⟨_, congrArg Host.Outcome.next hserve, rfl, hsame.store, post_notices_congr hsame.notices hsame.cal,
    fun k hk => hsame.line hk, highArmed_jobsClosed i u, hnextTag, hqueue, hended, ?_, fun n => ?_, hhold, hsegHold,
    ⟨jobsClosed i u, rfl, hgrow, rfl⟩, hgrow.post _, fun k hk => port_jobsClosed_ne hk u, hheap, hrecords, hdaylight,
    hcal, hmatcher, hsupply, horder⟩
  · change (jobsClosed i u).port i = { (u.port i).closing with seqTable := ((jobsClosed i u).port i).seqTable }
    rw [hport]
    exact abandoned_eq ..
  · change ((jobsClosed i u).port i).seqTable.get n = _
    rw [hport]
    exact seqTable_abandoned i u (u.port i).closing n

end Sys2Proof.Machine
end

section
/-! The bounds of the Host Link Unit, through every step (R137, R140, R141, R145). -/

namespace Sys2Proof.Machine

/-- The receiver's state is no part of the bounds. -/
theorem linkWithin_setRx (r : Receiver) (s : State) (h : LinkWithin s) : LinkWithin (setRx r s) :=
  ⟨h.requests, h.distinct, h.oneReply, h.cache, h.cacheDistinct, h.immediate, h.discards⟩

/-- The host-absent flag is no part of the bounds. -/
theorem linkWithin_hostPresent (s : State) (h : LinkWithin s) : LinkWithin (hostPresent s) :=
  ⟨h.requests, h.distinct, h.oneReply, h.cache, h.cacheDistinct, h.immediate, h.discards⟩

/-- A discard count within its ceiling is within the bounds (R137, R152). -/
theorem linkWithin_discards {n : Nat} (hn : n ≤ 65535) (s : State) (h : LinkWithin s) :
    LinkWithin { s with link := { s.link with discards := n } } :=
  ⟨h.requests, h.distinct, h.oneReply, h.cache, h.cacheDistinct, h.immediate, hn⟩

/-- A request taken while fewer than 4 are held, of a SEQ that none of them has (R139, R140). -/
theorem linkWithin_takeRequest {s : State} {r : Request} (hb : r.built = false) (hl : s.link.requests.length < 4)
    (hn : r.seq ∉ s.link.requests.map (·.seq)) (h : LinkWithin s) :
    LinkWithin { s with link := { s.link with requests := s.link.requests ++ [r] } } := by
  refine ⟨?_, ?_, ?_, h.cache, h.cacheDistinct, h.immediate, h.discards⟩
  · simpa using hl
  · rw [List.map_append, List.nodup_append]
    refine ⟨h.distinct, List.nodup_singleton _, fun a ha b hb' hab => hn ?_⟩
    obtain rfl : b = r.seq := List.mem_singleton.mp hb'
    exact hab ▸ ha
  · have hsame : (s.link.requests ++ [r]).filter (·.built) = s.link.requests.filter (·.built) := by simp [hb]
    rw [hsame]
    exact h.oneReply

/-- The tests of R139 keep the bounds: a frame is dropped, answered at once, or taken as a new request. -/
theorem linkWithin_meetFrame (seq kind : Byte) (body : List Byte) (s : State) (h : LinkWithin s) :
    LinkWithin (meetFrame seq kind body s) := by
  unfold meetFrame
  split
  · exact h
  · rename_i hqueued
    split
    · exact linkWithin_answerAtOnce _ rfl s h
    · split
      · exact linkWithin_answerAtOnce _ rfl s h
      · rename_i hroom
        refine linkWithin_takeRequest rfl (Nat.lt_of_not_le hroom) ?_ h
        simpa using hqueued

/-- The end of a notice leaves no reply on TXD, as before (R161). -/
theorem linkWithin_noticeSent {n : Notice} {s : State} (ht : s.link.tx = some (.notice n)) (h : LinkWithin s) :
    LinkWithin (noticeSent n (idleTx s)) := by
  have hidle : LinkWithin (idleTx s) := by
    refine ⟨h.requests, h.distinct, ?_, h.cache, h.cacheDistinct, h.immediate, h.discards⟩
    have hone := h.oneReply
    unfold HostLink.waitingSeqs HostLink.repliesOut at hone
    rw [ht] at hone
    exact hone
  unfold noticeSent
  split
  · exact hidle
  · exact hidle

/-- Whether the host is absent is no part of the bounds (R163). -/
theorem linkWithin_timerExpired (s : State) (h : LinkWithin s) : LinkWithin (timerExpired s) := by
  unfold timerExpired
  split
  · exact h
  · exact ⟨h.requests, h.distinct, h.oneReply, h.cache, h.cacheDistinct, h.immediate, h.discards⟩

/-- NOTICE-ACK acts on the notices alone (R162). -/
theorem noticeAckOp_link (serial : Word16) (s : State) : (noticeAckOp serial s).1.link = s.link := by
  simp only [noticeAckOp, makeGap]
  split
  · rfl
  · rfl

/-- Service begins with the link at its start-up values and a notice on TXD (R181). -/
theorem linkWithin_beginService (s : State) : LinkWithin (beginService (volatileInit s)) := by
  rw [beginService_volatileInit]
  have hstart := linkBounds_start (LinkSpeed.ofStraps s.supply.ls1 s.supply.ls0)
  exact ⟨hstart.requests, hstart.distinct, hstart.oneReply, hstart.cache, hstart.cacheDistinct, hstart.immediate,
    hstart.discards⟩

/-- Every elementary update of a command keeps the bounds: the link's own operations by their lemmas, and every other
update leaves the link as it is. -/
theorem kept_linkWithin : KeptByCommands LinkWithin where
  post _ _ h := linkWithin_of h (post_link ..)
  rewrite _ _ _ _ h := h
  clear _ _ _ _ h := h
  setEnded _ _ _ h := h
  removeTo _ _ _ _ h := h
  markStale _ _ _ h := h
  takeHead _ _ _ _ _ _ h := h
  presentLine _ _ h := h
  spendHigh _ _ h := h
  insert _ _ _ _ _ h := h
  onPort _ _ _ h := h
  onJob _ _ _ _ h := h
  putSegRecord _ _ _ h := h
  pending _ _ h := h
  grant _ _ h := h
  reply := linkWithin_replyInHand
  kick := linkWithin_kickTx
  cal _ _ h := h
  daylight _ _ h := h
  place _ _ _ _ _ _ _ _ _ _ h := h
  erase _ h := h
  compactor _ _ _ _ h := h
  move _ _ _ _ _ _ _ _ _ _ h := h
  hold _ _ h := h
  segHold _ _ _ h := h
  clearDiscards := linkWithin_discards (Nat.zero_le _)
  reset r s hr _ h := linkWithin_beginReset r s hr h
  ack _ _ _ h := linkWithin_of h (noticeAckOp_link ..)
  mask _ _ h := h
  rx := linkWithin_setRx
  discard s h := linkWithin_discards (countUp_le _) s h
  present := linkWithin_hostPresent
  meet := linkWithin_meetFrame
  replySent r s ht h := linkWithin_replySent r s ht h
  noticeSent _ _ ht h := linkWithin_noticeSent ht h
  timer s _ h := linkWithin_timerExpired s h
  matcher _ _ h := h
  supply _ _ _ h := h
  stop _ s _ _ := linkBounds_start s.link.speed
  startUnit u s _ h := linkWithin_of h (runStartUnit_link s u)
  lost _ _ _ _ h := h
  service s _ _ := linkWithin_beginService s

/-- Settles O6: every elementary update of a command keeps the link's bounds. -/
theorem stepKeepsLinkBounds : Obligations.StepKeepsLinkBounds :=
  fun _ _ h hs => kept_linkWithin.step h hs

end Sys2Proof.Machine
end

section
/-! What tests 1 to 3 refuse, by KIND (R144), and what a refused request does. -/

namespace Sys2Proof.Machine

/-- What a parser's answer refuses, if anything. -/
def refusal {α : Type} : Except ReqError α → Option ReqError
  | .ok _ => none
  | .error e => some e

/-- The KINDs of Table 10-2. -/
def requestKinds : List Nat :=
  [0x01, 0x02, 0x03, 0x04, 0x05, 0x06, 0x07, 0x10, 0x11, 0x12, 0x13, 0x14, 0x15, 0x18, 0x19, 0x1A, 0x20, 0x21, 0x22,
    0x23, 0x28, 0x29, 0x2A, 0x2B, 0x2C, 0x2D, 0x30, 0x31, 0x32, 0x38, 0x39]

theorem knownKind_iff (kind : Byte) : knownKind kind = true ↔ kind.toNat ∈ requestKinds := by
  simp only [knownKind, requestKinds, Bool.or_eq_true, Bool.and_eq_true, decide_eq_true_eq, beq_iff_eq, List.mem_cons,
    List.not_mem_nil, or_false]
  omega

section Refused

variable {s : State} {r : Request} {e : ReqError}

/-- Test 1: a KIND that Table 10-2 does not name. -/
theorem requestError_unknown (h : r.kind.toNat ∉ requestKinds) : requestError s r = some .unknownKind := by
  unfold requestError
  split
  case h_32 => rfl
  all_goals
    rename_i hkind
    exact absurd (by rw [hkind]; decide) h

/-- A KIND that Table 10-2 does not name has the command of unknown kinds. -/
theorem requestCommand_unknown {kind : Byte} (h : kind.toNat ∉ requestKinds) :
    requestCommand kind = .unknownKindRequest := by
  unfold requestCommand
  split
  case h_32 => rfl
  all_goals
    rename_i hkind
    exact absurd (by rw [hkind]; decide) h

/-- A request of an unknown KIND is answered so, and acts on no block but the link. -/
theorem exec_unknownKind (hp : s.supply.phase = .inService) (hr : inHand s = some r)
    (hk : r.kind.toNat ∉ requestKinds) : exec .unknownKindRequest s =
      .next { s with link := s.link.answered r ReqError.unknownKind.bytes } := by
  have hknown : knownKind r.kind = false := Bool.eq_false_iff.mpr fun h => hk ((knownKind_iff _).mp h)
  change execUnknownKindRequest s = _
  simp [execUnknownKindRequest, hr, State.inService, hp, hknown, finish_eq _ hr hp]

/-- A command that carries out requests of one KIND answers the refusal of its parser, and acts on no block but the
link. -/
theorem exec_refused {n : Nat} {α : Type} {usesStore : Bool} {parse : List Byte → Except ReqError α}
    {op : α → State → State × List Byte} (hp : s.supply.phase = .inService) (hr : inHand s = some r)
    (hk : r.kind.toNat = n)
    (hc : exec (requestCommand (BitVec.ofNat 8 n)) s = .next (serve (BitVec.ofNat 8 n) usesStore parse op s))
    (he : refusal (parse r.body) = some e) :
    exec (requestCommand r.kind) s = .next { s with link := s.link.answered r e.bytes } := by
  subst hk
  rw [BitVec.ofNat_toNat, BitVec.setWidth_eq] at hc
  have herror : parse r.body = .error e := by
    cases hx : parse r.body with
    | ok a => rw [hx] at he; cases he
    | error e' => rw [hx] at he; cases he; rfl
  rw [hc, serve_refused ⟨hp, hr, rfl⟩ usesStore herror]

/-- Settles O12: the command of each KIND of Table 10-2 is a `serve` with the parser that tests 2 and 3 are, and
PART-RESET is never refused. -/
theorem refusedRequestActsOnLinkOnly : Obligations.RefusedRequestActsOnLinkOnly := by
  intro s r e hp hr he
  by_cases hk : r.kind.toNat ∈ requestKinds
  · unfold requestError at he
    split at he
    case h_29 => cases he -- PART-RESET
    case h_32 hnone => simp_all [requestKinds] -- no KIND of the table
    all_goals
      rename_i hkind
      exact exec_refused hp hr hkind rfl he
  · rw [requestCommand_unknown hk, exec_unknownKind hp hr hk]
    rw [requestError_unknown hk] at he
    cases he
    rfl

end Refused

end Sys2Proof.Machine
end

section
/-! Reception: what a whole frame does, what the discard of the frame in hand does, and characters in parts
(R136 to R142, R150, R153). -/

namespace Sys2Proof.Machine

/-! ### A well-formed frame (R139 to R142, R150, R165) -/

/-- The host is present, as one update of the link and the notices (R150, R165). -/
theorem hostPresent_eq (s : State) : hostPresent s = { s with
    link := { s.link with hostAbsent := false }
    notices := { s.notices with
      queue := if s.link.hostAbsent then
        s.notices.queue.map (fun q => if q.inFlight then { q with resend := true } else q) else s.notices.queue
      resendCount := 0
      hostAbsent := if s.link.hostAbsent then false else s.notices.hostAbsent } } := by
  unfold hostPresent NoticeUnit.markAll
  cases s.link.hostAbsent <;> rfl

/-- In service, a well-formed frame that the receiver takes from HUNT on meets the tests of R139, the host present. -/
theorem exec_frameArrival {s : State} {seq kind : Byte} {body : List Byte} (hp : s.supply.phase = .inService)
    (hrx : s.link.rx = .hunt) (hb : body.length ≤ 252) :
    exec (.frameArrival ((frameBytes seq kind body).map RxChar.good)) s =
      .next (kickTx (meetFrame seq kind body (hostPresent s))) := by
  have hhunt : ∀ rx, setRx .hunt (setRx rx s) = s := by
    intro rx
    simp only [setRx, ← hrx]
  change Host.Outcome.next (receiveAll _ s) = _
  simp only [receiveAll, State.inService, hp, beq_self_eq_true, if_true]
  rw [receive_frame s seq kind body hrx hb, frameArrives, hhunt]

section Tests

variable {s : State} {seq kind : Byte} {body : List Byte}

/-- The first test: the SEQ of a request in the queue (R139). -/
theorem meetFrame_queued (h : s.link.requests.any (fun r => r.seq == seq) = true) : meetFrame seq kind body s = s :=
  if_pos h

/-- The second test: the SEQ and KIND of a cached reply (R139, R145). -/
theorem meetFrame_cached {c : CacheEntry} (hq : s.link.requests.any (fun r => r.seq == seq) = false)
    (hc : s.link.cache.find? (fun c => c.seq == seq && c.kind == kind) = some c) :
    meetFrame seq kind body s = answerAtOnce ⟨c.seq, c.kind, c.body, true⟩ s := by
  simp [meetFrame, hq, hc]

/-- The third test: no room for a request (R139, R140). -/
theorem meetFrame_full (hq : s.link.requests.any (fun r => r.seq == seq) = false)
    (hc : s.link.cache.find? (fun c => c.seq == seq && c.kind == kind) = none) (hl : 4 ≤ s.link.requests.length) :
    meetFrame seq kind body s = answerAtOnce ⟨seq, kind, busyBytes, true⟩ s := by
  simp [meetFrame, hq, hc, Config.requestCapacity, hl]

/-- A frame that passes the three tests is a request taken (R139, R140). -/
theorem meetFrame_taken (hq : s.link.requests.any (fun r => r.seq == seq) = false)
    (hc : s.link.cache.find? (fun c => c.seq == seq && c.kind == kind) = none) (hl : s.link.requests.length < 4) :
    meetFrame seq kind body s =
      { s with link := { s.link with requests := s.link.requests ++ [⟨seq, kind, body, false⟩] } } := by
  simp [meetFrame, hq, hc, Config.requestCapacity, Nat.not_le.mpr hl]

end Tests

/-- An immediate answer finds a place in the reply list, or the frame counts as a discard (R141, R142). -/
theorem answerAtOnce_eq (x : Reply) (s : State) : answerAtOnce x s =
    if s.link.replies.countP (·.immediate) < 4 then
      { s with link := { s.link with replies := s.link.replies ++ [x] } }
    else { s with link := { s.link with discards := min 65535 (s.link.discards + 1) } } := by
  unfold answerAtOnce Config.immediateCapacity
  by_cases h : s.link.replies.countP (·.immediate) < 4
  · rw [if_neg (by omega), if_pos h]
  · rw [if_pos (by omega), if_neg h]
    rfl

/-! ### The discard of the frame in hand (R137, R138) -/

/-- One character in service. -/
theorem exec_frameDiscard {s : State} (c : RxChar) (hp : s.supply.phase = .inService) :
    exec (.frameDiscard [c]) s = .next (receive s c) := by
  change Host.Outcome.next (receiveAll [c] s) = _
  simp [receiveAll, State.inService, hp]

section Receive

variable {s : State} {c : RxChar}

/-- LENGTH takes a LEN of 2 to 254 alone (R137). -/
theorem receive_length_bad (hrx : s.link.rx = .length)
    (h : c.stopOk = false ∨ c.data.toNat < 2 ∨ 254 < c.data.toNat) : receive s c = discardFrame s := by
  unfold receive
  rw [hrx]
  refine if_neg ?_
  simp only [Bool.and_eq_true, decide_eq_true_eq]
  rintro ⟨hstop, hlow, hhigh⟩
  rcases h with h | h | h
  · rw [hstop] at h
    cases h
  · omega
  · omega

/-- A bad stop bit discards the frame in hand, whatever the receiver's state in it (R137). -/
theorem receive_stop_bad (hrx : s.link.rx ≠ .hunt) (h : c.stopOk = false) : receive s c = discardFrame s := by
  cases hr : s.link.rx with
  | hunt => exact absurd hr hrx
  | length => exact receive_length_bad hr (.inl h)
  | collect len kept => simp [receive, hr, h]
  | check len kept high => cases high <;> simp [receive, hr, h]

/-- A check that does not agree discards the frame (R137). -/
theorem receive_check_bad {len high : Byte} {kept : List Byte} (hrx : s.link.rx = .check len kept (some high))
    (h : byte2 (crc16 (len :: kept)).toNat ≠ [high, c.data]) : receive s c = discardFrame s := by
  simp [receive, hrx, h]

/-- In HUNT only the start character A5H with a good stop bit is taken (R136). -/
theorem receive_hunt_other (hrx : s.link.rx = .hunt) (h : c.stopOk = false ∨ c.data ≠ 0xA5#8) : receive s c = s := by
  rcases h with h | h <;> simp [receive, hrx, h]

end Receive

/-- The inter-character timer discards the frame in hand (R138). -/
theorem exec_interCharacterTimerExpiry {s : State} (hp : s.supply.phase = .inService) (hrx : s.link.rx ≠ .hunt) :
    exec .interCharacterTimerExpiry s = .next (discardFrame s) := by
  change Host.Outcome.next (if s.inService && s.link.rx != .hunt then _ else _) = _
  simp [State.inService, hp, hrx]

/-! ### Characters in parts, and out of service -/

/-- A frame may come in parts: the receiver takes the second from where the first left it (R136). -/
theorem receiveAll_append (a b : List RxChar) (s : State) : receiveAll (a ++ b) s = receiveAll b (receiveAll a s) := by
  unfold receiveAll State.inService
  by_cases h : (s.supply.phase == .inService) = true
  · rw [if_pos h, if_pos h, supply_receive_all, if_pos h, List.foldl_append]
  · rw [if_neg h, if_neg h, if_neg h]

/-- Out of service no character is taken (R153, R154). -/
theorem receiveAll_outOfService {s : State} (h : s.supply.phase ≠ .inService) (l : List RxChar) :
    receiveAll l s = s := by
  simp [receiveAll, State.inService, h]

/-- Settles O52: the frame's tests one by one, then the discards, the parts, and reception out of service. -/
theorem frameReception : Obligations.FrameReception := by
  refine ⟨fun s seq kind body hp hrx hb => ?_, fun s hp => ?_, fun s t a b ha => ?_, fun s chars hp => ?_⟩
  · intro queued cached present placed arrives
    have hpresent : hostPresent s = present := hostPresent_eq s
    have harrives : arrives = .next (kickTx (meetFrame seq kind body present)) :=
      hpresent ▸ exec_frameArrival hp hrx hb
    have hplaced : ∀ x, answerAtOnce x present = placed x := fun x => answerAtOnce_eq x present
    refine ⟨fun hq => ?_, fun c hq hc => ?_, fun hq hc hl => ?_, fun hq hc hl => ?_⟩
    · rw [harrives, meetFrame_queued (s := present) hq]
    · rw [harrives, meetFrame_cached (s := present) hq hc, hplaced]
    · rw [harrives, meetFrame_full (s := present) hq hc hl, hplaced]
      rfl
    · rw [harrives, meetFrame_taken (s := present) hq hc hl]
  · refine ⟨fun c hrx h => ?_, fun c hrx h => ?_, fun c len high kept hrx h => ?_, fun hrx => ?_, fun c hrx h => ?_⟩
    · rw [exec_frameDiscard c hp, receive_length_bad hrx h]
      rfl
    · rw [exec_frameDiscard c hp, receive_stop_bad hrx h]
      rfl
    · rw [exec_frameDiscard c hp, receive_check_bad hrx h]
      rfl
    · exact exec_interCharacterTimerExpiry hp hrx
    · rw [exec_frameDiscard c hp, receive_hunt_other hrx h]
  · have hall : receiveAll a s = t := Host.Outcome.next.inj ha
    subst hall
    exact ⟨rfl, congrArg Host.Outcome.next (receiveAll_append a b s)⟩
  · refine ⟨congrArg _ (receiveAll_outOfService hp chars), congrArg _ (receiveAll_outOfService hp chars), ?_⟩
    refine congrArg Host.Outcome.next (if_neg ?_)
    simp [State.inService, hp]

end Sys2Proof.Machine
end

section
/-! The field tests of each kind in the order of their ordinals, and what the bodies carry (R144, R187, chapter 10.4). -/

namespace Sys2Proof.Machine

/-! ### The parser of each KIND (Table 10-2) -/

section Parsers

variable {s : State} {r : Request}

theorem requestError_define (h : r.kind.toNat = 0x01) : requestError s r = refusal (parseDefine r.body) := by
  simp only [requestError, h]
  rfl

theorem requestError_index (h : r.kind.toNat ∈ [0x02, 0x03, 0x04, 0x05, 0x07, 0x11, 0x12]) :
    requestError s r = refusal (parseIndex r.body) := by
  simp only [List.mem_cons, List.not_mem_nil, or_false] at h
  rcases h with h | h | h | h | h | h | h <;> simp only [requestError, h] <;> rfl

theorem requestError_none (h : r.kind.toNat ∈ [0x06, 0x13, 0x14, 0x15, 0x19, 0x22, 0x23]) :
    requestError s r = refusal (parseNone r.body) := by
  simp only [List.mem_cons, List.not_mem_nil, or_false] at h
  rcases h with h | h | h | h | h | h | h <;> simp only [requestError, h] <;> rfl

theorem requestError_segment (h : r.kind.toNat ∈ [0x20, 0x29, 0x2A, 0x2B, 0x2C, 0x2D]) :
    requestError s r = refusal (parseSegment r.body) := by
  simp only [List.mem_cons, List.not_mem_nil, or_false] at h
  rcases h with h | h | h | h | h | h <;> simp only [requestError, h] <;> rfl

theorem requestError_load (h : r.kind.toNat = 0x10) : requestError s r = refusal (parseBodyLoad r.body) := by
  simp only [requestError, h]
  rfl

theorem requestError_clockSet (h : r.kind.toNat = 0x18) :
    requestError s r = refusal (parseClockSet s.cal.rule r.body) := by
  simp only [requestError, h]
  rfl

theorem requestError_clockRule (h : r.kind.toNat = 0x1A) : requestError s r = refusal (parseClockRule r.body) := by
  simp only [requestError, h]
  rfl

theorem requestError_purge (h : r.kind.toNat = 0x21) : requestError s r = refusal (parsePurge r.body) := by
  simp only [requestError, h]
  rfl

theorem requestError_segConfig (h : r.kind.toNat = 0x28) : requestError s r = refusal (parseSegConfig r.body) := by
  simp only [requestError, h]
  rfl

theorem requestError_echo (h : r.kind.toNat = 0x30) : requestError s r = refusal (parseEcho r.body) := by
  simp only [requestError, h]
  rfl

theorem requestError_flag (h : r.kind.toNat = 0x31) : requestError s r = refusal (parseFlag r.body) := by
  simp only [requestError, h]
  rfl

theorem requestError_reset (h : r.kind.toNat = 0x32) : requestError s r = none := by
  simp only [requestError, h]

theorem requestError_ack (h : r.kind.toNat = 0x38) :
    requestError s r = refusal (parseAck (inFlightSerials s) r.body) := by
  simp only [requestError, h]
  rfl

theorem requestError_mask (h : r.kind.toNat = 0x39) : requestError s r = refusal (parseMask r.body) := by
  simp only [requestError, h]
  rfl

end Parsers

/-! ### Test 2: the lengths (Table 10-2) -/

section Lengths

variable {body : List Byte}

theorem parseIndex_length (h : body.length ≠ 1) : parseIndex body = .error .badLength := by
  unfold parseIndex
  split
  · exact absurd rfl h
  · rfl

theorem parseSegment_length (h : body.length ≠ 1) : parseSegment body = .error .badLength := by
  unfold parseSegment
  split
  · exact absurd rfl h
  · rfl

theorem parsePurge_length (h : body.length ≠ 1) : parsePurge body = .error .badLength := by
  unfold parsePurge
  split
  · exact absurd rfl h
  · rfl

theorem parseFlag_length (h : body.length ≠ 1) : parseFlag body = .error .badLength := by
  unfold parseFlag
  split
  · exact absurd rfl h
  · rfl

theorem parseNone_length (h : body.length ≠ 0) : parseNone body = .error .badLength :=
  if_neg (by simpa using h)

theorem parseBodyLoad_length (h : body.length < 2 ∨ 241 < body.length) : parseBodyLoad body = .error .badLength := by
  cases body with
  | nil => rfl
  | cons b bytes =>
    rw [List.length_cons] at h
    exact if_neg (by omega)

/-- ENTRY-DEFINE's length goes by its kind byte (R187). -/
theorem parseDefine_length (h : body.length < 4 ∨ (byteAt body 2 = 0 ∧ body.length ≠ 17) ∨
    (byteAt body 2 = 1 ∧ body.length ≠ 16) ∨ (body.length ≠ 16 ∧ body.length ≠ 17)) :
    parseDefine body = .error .badLength := by
  unfold parseDefine
  split
  · rfl
  · split
    · exact if_neg (by omega)
    · exact if_neg (by omega)
    · rename_i h0 h1
      have hkind : byteAt body 2 ≠ 0 ∧ byteAt body 2 ≠ 1 := ⟨h0, h1⟩
      exact if_neg (by omega)

end Lengths

/-! ### Test 3: the fields in the order of their ordinals (R144, R187) -/

/-- What it means that some tests decide whether a request is refused: none does where all hold, and the first that fails
names its ordinal. -/
def DecidedBy (s : State) (r : Request) (tests : List (Nat × Prop)) : Prop :=
  ((∀ x ∈ tests, x.2) → requestError s r = none) ∧
    ∀ before n p after, tests = before ++ (n, p) :: after → (∀ x ∈ before, x.2) → ¬ p →
      requestError s r = some (.badField n)

/-- Some tests as the model makes them agree with some tests as the spec states them: the same ordinals in the same order,
and each says the same where those before it hold. -/
def TestsAgree : List (Nat × Bool) → List (Nat × Prop) → Prop
  | [], [] => True
  | (m, ok) :: l, (n, p) :: t => m = n ∧ (ok = true ↔ p) ∧ (p → TestsAgree l t)
  | _, _ => False

theorem TestsAgree.nil : TestsAgree [] [] := trivial

theorem TestsAgree.cons {n : Nat} {ok : Bool} {p : Prop} {l : List (Nat × Bool)} {t : List (Nat × Prop)}
    (h : ok = true ↔ p) (hl : p → TestsAgree l t) : TestsAgree ((n, ok) :: l) ((n, p) :: t) := ⟨rfl, h, hl⟩

/-- No test fails where every one of the agreeing tests holds. -/
theorem TestsAgree.firstFault_none {l : List (Nat × Bool)} {t : List (Nat × Prop)} (h : TestsAgree l t)
    (hall : ∀ x ∈ t, x.2) : firstFault l = none := by
  induction l generalizing t with
  | nil => rfl
  | cons a l ih =>
    match t, h with
    | (n, p) :: t, ⟨_, hok, hl⟩ =>
      have hp : p := hall (n, p) List.mem_cons_self
      simp only [firstFault, hok.mpr hp, if_true]
      exact ih (hl hp) fun x hx => hall x (List.mem_cons_of_mem _ hx)

/-- The first of the agreeing tests to fail is the first that the model finds. -/
theorem TestsAgree.firstFault_first {l : List (Nat × Bool)} {before after : List (Nat × Prop)} {n : Nat} {p : Prop}
    (h : TestsAgree l (before ++ (n, p) :: after)) (hbefore : ∀ x ∈ before, x.2) (hp : ¬ p) :
    firstFault l = some n := by
  induction before generalizing l with
  | nil =>
    match l, h with
    | (_, ok) :: l, ⟨hn, hok, _⟩ =>
      have hfalse : ok = false := Bool.eq_false_iff.mpr fun ht => hp (hok.mp ht)
      simp [firstFault, hfalse, hn]
  | cons b before ih =>
    match l, h with
    | (_, ok) :: l, ⟨_, hok, hl⟩ =>
      have hb : b.2 := hbefore b List.mem_cons_self
      simp only [firstFault, hok.mpr hb, if_true]
      exact ih (hl hb) fun x hx => hbefore x (List.mem_cons_of_mem _ hx)

/-- A parser that makes tests which agree with some tests as the spec states them. -/
def TestedBy {α : Type} (x : Except ReqError α) (tests : List (Nat × Prop)) : Prop :=
  ∃ l a, x = tested l a ∧ TestsAgree l tests

/-- A request is decided by the tests that its parser makes. -/
theorem TestedBy.decides {s : State} {r : Request} {α : Type} {x : Except ReqError α} {t : List (Nat × Prop)}
    (h : TestedBy x t) (he : requestError s r = refusal x) : DecidedBy s r t := by
  obtain ⟨l, a, rfl, hagree⟩ := h
  constructor
  · intro hall
    rw [he, tested, hagree.firstFault_none hall]
    rfl
  · rintro before n p after rfl hbefore hp
    rw [he, tested, hagree.firstFault_first hbefore hp]
    rfl

end Sys2Proof.Machine
end

section
/-! The tests that each parser makes, as the spec states them (R144, R187). -/

namespace Sys2Proof.Machine

/-! ### Numbers in a body -/

theorem byteAt_of_lt {body : List Byte} {k : Nat} (h : k < body.length) : byteAt body k = body[k].toNat := by
  rw [byteAt, List.getD_eq_getElem _ _ h]

theorem natAt_two {body : List Byte} {k : Nat} (h : k + 1 < body.length) :
    natAt body k 2 = 256 * byteAt body k + byteAt body (k + 1) := by
  have hlist : (body.drop k).take 2 = [body[k], body[k + 1]] := by
    rw [List.drop_eq_getElem_cons (by omega), List.drop_eq_getElem_cons h]
    rfl
  rw [natAt, hlist, byteAt_of_lt (by omega), byteAt_of_lt h]
  simp only [natOfBytes, List.foldl_cons, List.foldl_nil]
  omega

theorem natAt_three {body : List Byte} {k : Nat} (h : k + 2 < body.length) :
    natAt body k 3 = 256 * (256 * byteAt body k + byteAt body (k + 1)) + byteAt body (k + 2) := by
  have hlist : (body.drop k).take 3 = [body[k], body[k + 1], body[k + 2]] := by
    rw [List.drop_eq_getElem_cons (by omega), List.drop_eq_getElem_cons (by omega), List.drop_eq_getElem_cons h]
    rfl
  rw [natAt, hlist, byteAt_of_lt (by omega), byteAt_of_lt (by omega), byteAt_of_lt h]
  simp only [natOfBytes, List.foldl_cons, List.foldl_nil]
  omega

theorem byteAt_lt (body : List Byte) (k : Nat) : byteAt body k < 256 := (body.getD k 0).isLt

/-! ### ENTRY-DEFINE (Table 10-6, R4, R6 to R10) -/

theorem anyInRange_iff (max n : Nat) : anyInRange max n = true ↔ n ≤ max ∨ n = 255 := by
  simp [anyInRange]

theorem dayField_eq_day {n k : Nat} : dayField n = .day k ↔ n = k ∧ n ≠ 255 ∧ n ≠ 32 := by
  unfold dayField
  split
  · simp_all
  · split <;> simp_all

/-- The month test, which a day out of range does not reach (R6, R187). -/
theorem monthTest_iff {d m : Nat} (hd : (1 ≤ d ∧ d ≤ 32) ∨ d = 255) :
    (decide (1 ≤ m) && anyInRange 12 m && !impossibleDay (dayField d) (anyField m)) = true ↔
      ((1 ≤ m ∧ m ≤ 12) ∨ m = 255) ∧ ¬ (m = 2 ∧ (d = 30 ∨ d = 31)) ∧ ¬ (m ∈ [4, 6, 9, 11] ∧ d = 31) := by
  have hday : ∀ n, dayField d = .day n → n ≤ 31 := by
    intro n hn
    rw [dayField_eq_day] at hn
    omega
  have hmonth : ∀ n, n ≠ 255 → (anyField m = some n ↔ m = n) := by
    intro n hn
    unfold anyField
    split
    · simp only [reduceCtorEq, false_iff]
      omega
    · rw [Option.some.injEq]
  simp only [Bool.and_eq_true, Bool.not_eq_true', decide_eq_true_eq, anyInRange_iff, impossibleDay_iff _ _ hday, ne_eq,
    dayField_eq_day, List.mem_cons, List.not_mem_nil, or_false, hmonth _ (show 2 ≠ 255 by decide),
    hmonth _ (show 4 ≠ 255 by decide), hmonth _ (show 6 ≠ 255 by decide), hmonth _ (show 9 ≠ 255 by decide),
    hmonth _ (show 11 ≠ 255 by decide)]
  omega

/-- The target and delivery fields as Table 10-6 states their tests, from byte `k` and ordinal `o` (R9, R10). -/
def targetSpec (body : List Byte) (k o : Nat) : List (Nat × Prop) :=
  [(o, byteAt body k ≤ 3), (o + 1, 1 ≤ byteAt body (k + 1) ∧ byteAt body (k + 1) ≤ 127), (o + 2, byteAt body (k + 2) ≤ 3),
   (o + 3, 256 * byteAt body (k + 3) + byteAt body (k + 3 + 1) ≠ 0), (o + 4, byteAt body (k + 5) ≤ 1),
   (o + 5, byteAt body (k + 6) ≤ 2)]

theorem targetTests_agree {body : List Byte} {k : Nat} (o : Nat) (h : k + 4 < body.length) :
    TestsAgree (targetTests body k o) (targetSpec body k o) := by
  refine .cons decide_eq_true_iff fun _ => .cons decide_eq_true_iff fun _ => .cons decide_eq_true_iff fun _ =>
    .cons ?_ fun _ => .cons decide_eq_true_iff fun _ => .cons decide_eq_true_iff fun _ => .nil
  rw [decide_eq_true_iff, natAt_two h]

theorem parseDefine_calendar {body : List Byte} (hk : byteAt body 2 = 0) (hl : body.length = 17) :
    parseDefine body = tested (calendarTests body)
      (defineReq body 10 (.calendar (patternOf body) (if byteAt body 9 = 1 then .twice else .once))) := by
  simp [parseDefine, hk, hl]

theorem parseDefine_interval {body : List Byte} (hk : byteAt body 2 = 1) (hl : body.length = 16) :
    parseDefine body = tested (intervalTests body)
      (defineReq body 9 (.interval (natAt body 3 3) (natAt body 6 3) (natAt body 6 3))) := by
  simp [parseDefine, hk, hl]

theorem testedBy_calendar {body : List Byte} (hk : byteAt body 2 = 0) (hl : body.length = 17) :
    TestedBy (parseDefine body)
      ([(3, byteAt body 1 ≤ 3), (5, byteAt body 3 ≤ 59 ∨ byteAt body 3 = 255),
        (6, byteAt body 4 ≤ 59 ∨ byteAt body 4 = 255), (7, byteAt body 5 ≤ 23 ∨ byteAt body 5 = 255),
        (8, 1 ≤ byteAt body 6 ∧ byteAt body 6 ≤ 127), (9, (1 ≤ byteAt body 7 ∧ byteAt body 7 ≤ 32) ∨ byteAt body 7 = 255),
        (10, ((1 ≤ byteAt body 8 ∧ byteAt body 8 ≤ 12) ∨ byteAt body 8 = 255) ∧
          ¬ (byteAt body 8 = 2 ∧ (byteAt body 7 = 30 ∨ byteAt body 7 = 31)) ∧
          ¬ (byteAt body 8 ∈ [4, 6, 9, 11] ∧ byteAt body 7 = 31)), (11, byteAt body 9 ≤ 1)] ++ targetSpec body 10 12) := by
  refine ⟨_, _, parseDefine_calendar hk hl, ?_⟩
  refine .cons decide_eq_true_iff fun _ => .cons (anyInRange_iff ..) fun _ => .cons (anyInRange_iff ..) fun _ =>
    .cons (anyInRange_iff ..) fun _ => .cons decide_eq_true_iff fun _ => .cons ?_ fun hday =>
    .cons (monthTest_iff hday) fun _ => .cons decide_eq_true_iff fun _ => targetTests_agree 12 (by omega)
  rw [Bool.or_eq_true, decide_eq_true_iff, beq_iff_eq]

theorem testedBy_interval {body : List Byte} (hk : byteAt body 2 = 1) (hl : body.length = 16) :
    let t (k : Nat) := 256 * (256 * byteAt body k + byteAt body (k + 1)) + byteAt body (k + 2)
    TestedBy (parseDefine body)
      ([(3, byteAt body 1 ≤ 3), (5, 1 ≤ t 3 ∧ t 3 ≤ 86400), (6, 1 ≤ t 6 ∧ t 6 ≤ t 3)] ++ targetSpec body 9 7) := by
  intro t
  have h3 : natAt body 3 3 = t 3 := natAt_three (by omega)
  have h6 : natAt body 6 3 = t 6 := natAt_three (by omega)
  refine ⟨_, _, parseDefine_interval hk hl, ?_⟩
  rw [intervalTests, h3, h6]
  exact .cons decide_eq_true_iff fun _ => .cons decide_eq_true_iff fun _ => .cons decide_eq_true_iff fun _ =>
    targetTests_agree 7 (by omega)

/-- A kind byte that names no schedule fails test 4, unless the flags fail test 3 (R187). -/
theorem testedBy_noSchedule {body : List Byte} (hk : 2 ≤ byteAt body 2) (hl : body.length = 16 ∨ body.length = 17) :
    TestedBy (parseDefine body) [(3, byteAt body 1 ≤ 3), (4, False)] := by
  refine ⟨[(3, decide (byteAt body 1 ≤ 3)), (4, false)], defineReq body 9 (.interval 0 0 0), ?_,
    .cons decide_eq_true_iff fun _ => .cons (by simp) fun _ => .nil⟩
  unfold parseDefine
  rw [if_neg (by omega)]
  split
  · omega
  · omega
  · rw [if_pos hl]
    by_cases h : byteAt body 1 ≤ 3 <;> simp [tested, firstFault, h]

/-! ### Bodies of one byte -/

section OneByte

variable {body : List Byte}

theorem testedBy_segment (h : body.length = 1) : TestedBy (parseSegment body) [(1, byteAt body 0 ≤ 3)] := by
  obtain ⟨x, rfl⟩ := List.length_eq_one_iff.mp h
  exact ⟨_, _, rfl, .cons decide_eq_true_iff fun _ => .nil⟩

theorem testedBy_purge (h : body.length = 1) :
    TestedBy (parsePurge body) [(1, byteAt body 0 ≤ 3 ∨ byteAt body 0 = 255)] := by
  obtain ⟨x, rfl⟩ := List.length_eq_one_iff.mp h
  refine ⟨_, _, rfl, .cons ?_ fun _ => .nil⟩
  rw [Bool.or_eq_true, decide_eq_true_iff, beq_iff_eq]
  rfl

theorem testedBy_flag (h : body.length = 1) : TestedBy (parseFlag body) [(1, byteAt body 0 ≤ 1)] := by
  obtain ⟨x, rfl⟩ := List.length_eq_one_iff.mp h
  exact ⟨_, _, rfl, .cons decide_eq_true_iff fun _ => .nil⟩

end OneByte

/-! ### Configuration and clock requests (Tables 10-5 and 10-8, R48, R64, R68) -/

theorem testedBy_segConfig {body : List Byte} (h : body.length = 11) :
    let w (k : Nat) := 256 * byteAt body k + byteAt body (k + 1)
    TestedBy (parseSegConfig body)
      [(1, byteAt body 0 ≤ 3), (2, byteAt body 1 ≤ 3), (3, 5 ≤ byteAt body 2 ∧ byteAt body 2 ≤ 200),
       (4, byteAt body 3 ≤ 7), (5, 10 ≤ w 4 ∧ w 4 ≤ 1000), (6, byteAt body 6 ≤ 15), (7, w 7 ≤ 3600),
       (8, 1 ≤ byteAt body 9 ∧ byteAt body 9 ≤ 60), (9, byteAt body 10 ≤ 1)] := by
  have h4 := natAt_two (body := body) (k := 4) (by omega)
  have h7 := natAt_two (body := body) (k := 7) (by omega)
  refine ⟨_, _, if_pos h, ?_⟩
  simp [TestsAgree, segConfigTests, h4, h7]

theorem sameTransitionDate_iff (a b : Transition) :
    sameTransitionDate a b = true ↔ a.month = b.month ∧ a.week = b.week ∧ a.weekday = b.weekday := by
  simp [sameTransitionDate, and_assoc]

theorem testedBy_clockRule {body : List Byte} (h : body.length = 9) : TestedBy (parseClockRule body)
    [(1, byteAt body 0 ≤ 1), (2, 1 ≤ byteAt body 1 ∧ byteAt body 1 ≤ 12), (3, 1 ≤ byteAt body 2 ∧ byteAt body 2 ≤ 5),
     (4, 1 ≤ byteAt body 3 ∧ byteAt body 3 ≤ 7), (5, 1 ≤ byteAt body 4 ∧ byteAt body 4 ≤ 22),
     (6, 1 ≤ byteAt body 5 ∧ byteAt body 5 ≤ 12), (7, 1 ≤ byteAt body 6 ∧ byteAt body 6 ≤ 5),
     (8, (1 ≤ byteAt body 7 ∧ byteAt body 7 ≤ 7) ∧
       ¬ (byteAt body 1 = byteAt body 5 ∧ byteAt body 2 = byteAt body 6 ∧ byteAt body 3 = byteAt body 7)),
     (9, 1 ≤ byteAt body 8 ∧ byteAt body 8 ≤ 23)] := by
  refine ⟨_, _, if_pos h, .cons decide_eq_true_iff fun _ => .cons decide_eq_true_iff fun _ =>
    .cons decide_eq_true_iff fun _ => .cons decide_eq_true_iff fun _ => .cons decide_eq_true_iff fun _ =>
    .cons decide_eq_true_iff fun _ => .cons decide_eq_true_iff fun _ => .cons ?_ fun _ =>
    .cons decide_eq_true_iff fun _ => .nil⟩
  rw [Bool.and_eq_true, Bool.not_eq_true', ← Bool.not_eq_true, sameTransitionDate_iff]
  exact and_congr_left' decide_eq_true_iff

theorem inSkippedHour_iff (rule : DaylightRule) (r : Reading) : inSkippedHour rule r = true ↔
    rule.enabled = true ∧ r.month = rule.forward.month ∧ r.day = transitionDay rule.forward r.year ∧
      r.hour = rule.forward.hour := by
  simp [inSkippedHour, onTransitionDate, and_assoc]

theorem testedBy_clockSet {rule : DaylightRule} {body : List Byte} (h : body.length = 6) :
    let year := 2000 + byteAt body 0
    let month := byteAt body 1 % 16
    let fold := byteAt body 1 / 16 % 4
    let day := byteAt body 2 % 32
    let onDate (x : Transition) := rule.enabled = true ∧ month = x.month ∧ day = transitionDay x year
    TestedBy (parseClockSet rule body)
      [(1, byteAt body 0 ≤ 199), (2, 1 ≤ month ∧ month ≤ 12), (3, fold ≤ 2), (4, 1 ≤ day ∧ day ≤ lastDay year month),
       (5, byteAt body 3 ≤ 23), (6, byteAt body 4 ≤ 59),
       (7, byteAt body 5 ≤ 59 ∧ ¬ (onDate rule.forward ∧ byteAt body 3 = rule.forward.hour) ∧
         (fold = 0 ∨ (onDate rule.back ∧ byteAt body 3 + 1 = rule.back.hour)))] := by
  intro year month fold day onDate
  refine ⟨_, _, if_pos h, .cons decide_eq_true_iff fun _ => .cons decide_eq_true_iff fun _ =>
    .cons decide_eq_true_iff fun _ => .cons decide_eq_true_iff fun _ => .cons decide_eq_true_iff fun _ =>
    .cons decide_eq_true_iff fun _ => .cons ?_ fun _ => .nil⟩
  rw [Bool.and_eq_true, Bool.and_eq_true, Bool.or_eq_true, Bool.not_eq_true', decide_eq_true_iff, beq_iff_eq,
    ← Bool.not_eq_true, inSkippedHour_iff, inRepeatedHour_iff, and_assoc]
  simp only [onDate, and_assoc]
  rfl

/-! ### The notice requests (R162, R167) -/

theorem testedBy_ack {s : State} {body : List Byte} (h : body.length = 2) :
    TestedBy (parseAck (inFlightSerials s) body)
      [(1, ∃ q ∈ s.notices.queue, q.inFlight = true ∧
        q.notice.serial.toNat = 256 * byteAt body 0 + byteAt body 1)] := by
  refine ⟨_, _, if_pos h, .cons ?_ fun _ => .nil⟩
  have hlt := byteAt_lt body
  have hserial : ∀ x : Word16, x = BitVec.ofNat 16 (natAt body 0 2) ↔
      x.toNat = 256 * byteAt body 0 + byteAt body 1 := by
    intro x
    rw [natAt_two (by omega), ← BitVec.toNat_inj, BitVec.toNat_ofNat,
      Nat.mod_eq_of_lt (by have := hlt 0; have := hlt (0 + 1); omega)]
  simp only [inFlightSerials, NoticeUnit.inFlight, List.contains_iff_mem, List.mem_map, List.mem_filter, hserial,
    and_assoc]

/-- A set without bit 0 and without bits 8 to 15 is an even number below 256. -/
theorem maskBits_iff (x : Word16) : x &&& 0xFF01#16 = 0#16 ↔ x.toNat < 256 ∧ x.toNat % 2 = 0 := by
  have hmask : ∀ i < 16, (0xFF01#16).getLsbD i = decide (i = 0 ∨ 8 ≤ i) := by decide
  have hzero : x.getLsbD 0 = decide (x.toNat % 2 = 1) := Nat.testBit_zero ..
  constructor
  · intro h
    have hclear : ∀ i < 16, i = 0 ∨ 8 ≤ i → x.getLsbD i = false := by
      intro i hi hset
      have hand : (x &&& 0xFF01#16).getLsbD i = false := by rw [h, BitVec.getLsbD_zero]
      rwa [BitVec.getLsbD_and, hmask i hi, decide_eq_true hset, Bool.and_true] at hand
    refine ⟨Nat.lt_pow_two_of_testBit (n := 8) _ fun i hi => ?_, ?_⟩
    · by_cases h16 : i < 16
      · exact hclear i h16 (.inr hi)
      · exact BitVec.getLsbD_of_ge x i (Nat.le_of_not_lt h16)
    · have h0 := hclear 0 (by decide) (.inl rfl)
      rw [hzero, decide_eq_false_iff_not] at h0
      omega
  · rintro ⟨hlt, heven⟩
    refine BitVec.eq_of_getLsbD_eq fun i hi => ?_
    rw [BitVec.getLsbD_and, hmask i hi, BitVec.getLsbD_zero]
    by_cases hset : i = 0 ∨ 8 ≤ i
    · rcases hset with rfl | h8
      · rw [hzero, heven]
        rfl
      · have hbit : x.getLsbD i = false :=
          Nat.testBit_lt_two_pow (lt_of_lt_of_le hlt (Nat.pow_le_pow_right (n := 2) (by decide) h8))
        rw [hbit, Bool.false_and]
    · rw [decide_eq_false hset, Bool.and_false]

theorem testedBy_mask {body : List Byte} (h : body.length = 2) : TestedBy (parseMask body)
    [(1, 256 * byteAt body 0 + byteAt body 1 < 256 ∧ (256 * byteAt body 0 + byteAt body 1) % 2 = 0)] := by
  refine ⟨_, _, if_pos h, .cons ?_ fun _ => .nil⟩
  have hlt : natAt body 0 2 < 65536 := by
    rw [natAt_two (by omega)]
    have := byteAt_lt body 0
    have := byteAt_lt body (0 + 1)
    omega
  rw [beq_iff_eq, maskBits_iff, BitVec.toNat_ofNat, Nat.mod_eq_of_lt hlt, natAt_two (by omega)]

end Sys2Proof.Machine
end

section
/-! What the bodies carry, the lengths, and the bodies without field tests: tests 1 to 3 in one statement (R144). -/

namespace Sys2Proof.Machine

/-! ### What the bodies carry (section 10.4) -/

/-- A well-formed ENTRY-DEFINE is a CALENDAR body of 17 bytes or an INTERVAL body of 16 (R16, R187). -/
theorem parseDefine_cases {body : List Byte} {q : DefineReq} (h : parseDefine body = .ok q) :
    (byteAt body 2 = 0 ∧ body.length = 17 ∧
      q = defineReq body 10 (.calendar (patternOf body) (if byteAt body 9 = 1 then .twice else .once))) ∨
    (byteAt body 2 = 1 ∧ body.length = 16 ∧
      q = defineReq body 9 (.interval (natAt body 3 3) (natAt body 6 3) (natAt body 6 3))) := by
  unfold parseDefine at h
  split at h
  · cases h
  · split at h
    · rename_i hk
      split at h
      · rename_i hl
        exact .inl ⟨hk, hl, (tested_ok h).symm⟩
      · cases h
    · rename_i hk
      split at h
      · rename_i hl
        exact .inr ⟨hk, hl, (tested_ok h).symm⟩
      · cases h
    · split at h <;> cases h

theorem reportMode_eq (n : Nat) : reportMode n = if n = 0 then .none else if n = 1 then .failures else .all := by
  unfold reportMode
  split
  · rfl
  · rfl
  · rename_i h0 h1
    rw [if_neg h0, if_neg h1]

/-- What an ENTRY-DEFINE body carries with its target fields from byte `k`, in the terms of Table 10-6. -/
theorem defineReq_eq {body : List Byte} {k : Nat} (schedule : Schedule) (h : k + 4 < body.length) :
    let fires (n : Nat) : Option Nat := if n = 65535 then none else some n
    let count := 256 * byteAt body (k + 3) + byteAt body (k + 3 + 1)
    defineReq body k schedule =
      { index := Fin.ofNat 256 (byteAt body 0)
        arm := decide (byteAt body 1 % 2 = 1)
        keepBody := decide (byteAt body 1 / 2 % 2 = 1)
        defn :=
          { schedule := schedule
            segment := byteAt body k
            destination := byteAt body (k + 1)
            urgency := byteAt body (k + 2)
            fireCount := fires count
            remainingFires := fires count
            reload := decide (byteAt body (k + 5) = 1)
            report := if byteAt body (k + 6) = 0 then .none else if byteAt body (k + 6) = 1 then .failures else .all
            coalesced := 0 } } := by
  intro fires count
  simp only [defineReq, definitionOf, natAt_two h, reportMode_eq]
  rfl

theorem parseClockSet_ok {rule : DaylightRule} {body : List Byte} {q : ClockSetReq}
    (h : parseClockSet rule body = .ok q) :
    q.reading = ⟨2000 + byteAt body 0, byteAt body 1 % 16, byteAt body 2 % 32, byteAt body 3, byteAt body 4,
      byteAt body 5⟩ ∧
    q.fold = if byteAt body 1 / 16 % 4 = 0 then none else if byteAt body 1 / 16 % 4 = 1 then some .first
      else some .second := by
  unfold parseClockSet at h
  split at h
  · obtain rfl := tested_ok h
    refine ⟨rfl, ?_⟩
    dsimp only
    split
    · rename_i h0
      rw [if_pos h0]
    · rename_i h1
      rw [h1]
      rfl
    · rename_i h0 h1
      rw [if_neg h0, if_neg h1]
  · cases h

theorem parseClockRule_ok {body : List Byte} {rule : DaylightRule} (h : parseClockRule body = .ok rule) :
    rule = ⟨decide (byteAt body 0 = 1), ⟨byteAt body 1, byteAt body 2, byteAt body 3, byteAt body 4⟩,
      ⟨byteAt body 5, byteAt body 6, byteAt body 7, byteAt body 8⟩⟩ := by
  unfold parseClockRule at h
  split at h
  · exact (tested_ok h).symm
  · cases h

theorem firstFault_of_tested_ok {α : Type} {l : List (Nat × Bool)} {a b : α} (h : tested l a = .ok b) :
    firstFault l = none := by
  unfold tested at h
  split at h
  · cases h
  · assumption

theorem parseSegConfig_ok {body : List Byte} {i : Seg} {c : SegConfig} (h : parseSegConfig body = .ok (i, c)) :
    i.val = byteAt body 0 ∧
      c = ⟨byteAt body 1, byteAt body 2, byteAt body 3, 256 * byteAt body 4 + byteAt body 5, byteAt body 6,
        256 * byteAt body 7 + byteAt body 8, byteAt body 9, decide (byteAt body 10 = 1)⟩ := by
  unfold parseSegConfig at h
  split at h
  · rename_i hl
    have hpair := tested_ok h
    have hseg : byteAt body 0 ≤ 3 :=
      of_decide_eq_true (firstFault_eq_none.mp (firstFault_of_tested_ok h) (1, _) List.mem_cons_self)
    rw [natAt_two (by omega), natAt_two (by omega)] at hpair
    obtain ⟨hi, hc⟩ := Prod.mk.inj hpair
    refine ⟨?_, hc.symm⟩
    rw [← hi]
    exact Nat.mod_eq_of_lt (by omega)
  · cases h

theorem parsePurge_ok {body : List Byte} {l : List Seg} (h : parsePurge body = .ok l) :
    l = if byteAt body 0 = 255 then [0, 1, 2, 3] else [Fin.ofNat 4 (byteAt body 0)] := by
  unfold parsePurge at h
  split at h
  · exact (tested_ok h).symm
  · cases h

/-! ### The lengths of Table 10-2 -/

/-- Test 2: a body whose length Table 10-2 does not list for its KIND, ENTRY-DEFINE apart. -/
theorem requestError_length {s : State} {r : Request} {kinds : List Nat} {least most : Nat}
    (hrow : (kinds, least, most) ∈ [([0x02, 0x03, 0x04, 0x05, 0x07, 0x11, 0x12, 0x20, 0x21, 0x29, 0x2A, 0x2B, 0x2C,
        0x2D, 0x31], 1, 1), ([0x06, 0x13, 0x14, 0x15, 0x19, 0x22, 0x23], 0, 0), ([0x10], 2, 241), ([0x18], 6, 6),
      ([0x1A], 9, 9), ([0x28], 11, 11), ([0x30], 0, 251), ([0x38, 0x39], 2, 2)])
    (hk : r.kind.toNat ∈ kinds) (hl : r.body.length < least ∨ most < r.body.length) :
    requestError s r = some .badLength := by
  have hbad {α : Type} {x : Except ReqError α} (he : requestError s r = refusal x) (hx : x = .error .badLength) :
      requestError s r = some .badLength := by
    rw [he, hx]
    rfl
  simp only [List.mem_cons, Prod.mk.injEq, List.not_mem_nil, or_false] at hrow
  rcases hrow with ⟨rfl, rfl, rfl⟩ | ⟨rfl, rfl, rfl⟩ | ⟨rfl, rfl, rfl⟩ | ⟨rfl, rfl, rfl⟩ | ⟨rfl, rfl, rfl⟩ |
    ⟨rfl, rfl, rfl⟩ | ⟨rfl, rfl, rfl⟩ | ⟨rfl, rfl, rfl⟩
  · have hone : r.body.length ≠ 1 := by omega
    by_cases hindex : r.kind.toNat ∈ [0x02, 0x03, 0x04, 0x05, 0x07, 0x11, 0x12]
    · exact hbad (requestError_index hindex) (parseIndex_length hone)
    by_cases hseg : r.kind.toNat ∈ [0x20, 0x29, 0x2A, 0x2B, 0x2C, 0x2D]
    · exact hbad (requestError_segment hseg) (parseSegment_length hone)
    have hrest : r.kind.toNat = 0x21 ∨ r.kind.toNat = 0x31 := by
      simp only [List.mem_cons, List.not_mem_nil, or_false] at hk hindex hseg
      omega
    rcases hrest with h | h
    · exact hbad (requestError_purge h) (parsePurge_length hone)
    · exact hbad (requestError_flag h) (parseFlag_length hone)
  · exact hbad (requestError_none hk) (parseNone_length (by omega))
  · exact hbad (requestError_load (List.mem_singleton.mp hk)) (parseBodyLoad_length hl)
  · exact hbad (requestError_clockSet (List.mem_singleton.mp hk)) (if_neg (by omega))
  · exact hbad (requestError_clockRule (List.mem_singleton.mp hk)) (if_neg (by omega))
  · exact hbad (requestError_segConfig (List.mem_singleton.mp hk)) (if_neg (by omega))
  · exact hbad (requestError_echo (List.mem_singleton.mp hk)) (if_neg (by omega))
  · simp only [List.mem_cons, List.not_mem_nil, or_false] at hk
    rcases hk with h | h
    · exact hbad (requestError_ack h) (if_neg (by omega))
    · exact hbad (requestError_mask h) (if_neg (by omega))

/-! ### Bodies without field tests -/

section Untested

variable {s : State} {r : Request}

theorem requestError_index_ok (hk : r.kind.toNat ∈ [0x02, 0x03, 0x04, 0x05, 0x07, 0x11, 0x12])
    (hl : r.body.length = 1) : requestError s r = none := by
  obtain ⟨x, hx⟩ := List.length_eq_one_iff.mp hl
  rw [requestError_index hk, hx]
  rfl

theorem requestError_none_ok (hk : r.kind.toNat ∈ [0x06, 0x13, 0x14, 0x15, 0x19, 0x22, 0x23])
    (hl : r.body.length = 0) : requestError s r = none := by
  rw [requestError_none hk, parseNone_nil (List.length_eq_zero_iff.mp hl)]
  rfl

theorem requestError_load_ok (hk : r.kind.toNat = 0x10) (h2 : 2 ≤ r.body.length) (h241 : r.body.length ≤ 241) :
    requestError s r = none := by
  rw [requestError_load hk]
  cases hb : r.body with
  | nil => simp [hb] at h2
  | cons x bytes =>
    rw [hb, List.length_cons] at h2 h241
    have hok : parseBodyLoad (x :: bytes) = .ok (entryIx x.toNat, bytes) := if_pos (by omega)
    rw [hok]
    rfl

theorem requestError_echo_ok (hk : r.kind.toNat = 0x30) (hl : r.body.length ≤ 251) : requestError s r = none := by
  rw [requestError_echo hk, parseEcho_short hl]
  rfl

end Untested

/-- Settles O60: the parser of each KIND by its length, its tests and what it carries. -/
theorem requestTests : Obligations.RequestTests := by
  intro s r kind len b w t refused decides anyOr target
  refine ⟨requestError_unknown, fun kinds least most => requestError_length, fun hk hl => ?_, requestError_index_ok,
    requestError_none_ok, requestError_load_ok, requestError_echo_ok, requestError_reset, ?_⟩
  · change requestError s r = _
    rw [requestError_define hk, parseDefine_length hl]
    rfl
  refine ⟨fun hk hl => (testedBy_segment hl).decides (requestError_segment hk),
    fun hk hl => (testedBy_purge hl).decides (requestError_purge hk),
    fun hk hl => (testedBy_flag hl).decides (requestError_flag hk),
    fun hk hl => (testedBy_ack hl).decides (requestError_ack hk),
    fun hk hl => (testedBy_mask hl).decides (requestError_mask hk),
    fun hk hl => (testedBy_segConfig hl).decides (requestError_segConfig hk),
    fun hk hl => (testedBy_clockRule hl).decides (requestError_clockRule hk),
    fun hk hl => (testedBy_clockSet hl).decides (requestError_clockSet hk),
    fun hk hb hl => (testedBy_calendar hb hl).decides (requestError_define hk),
    fun hk hb hl => (testedBy_interval hb hl).decides (requestError_define hk),
    fun hk hb hl => (testedBy_noSchedule hb hl).decides (requestError_define hk),
    ?_, fun q => parseClockSet_ok, fun rule => parseClockRule_ok, fun i c => parseSegConfig_ok, fun l => parsePurge_ok⟩
  intro q hq any fires carried
  rcases parseDefine_cases hq with ⟨hk, hl, hcarried⟩ | ⟨hk, hl, hcarried⟩
  · have hkind : b 2 = 0 := hk
    refine ⟨by omega, fun _ => ?_, fun h1 => by omega⟩
    rw [hcarried, defineReq_eq _ (by omega)]
    rfl
  · have hkind : b 2 = 1 := hk
    refine ⟨by omega, fun h0 => by omega, fun _ => ?_⟩
    rw [hcarried, defineReq_eq _ (by omega), natAt_three (by omega), natAt_three (by omega)]
    rfl

end Sys2Proof.Machine
end

section
/-! The end of a transmission and the choice of the next frame (R140, R145, R147, R160, R161). -/

namespace Sys2Proof.Machine

/-! ### The end of a transmission -/

/-- A reply sent that answered a request, as one update (R140, R145). -/
theorem replySent_reply {r : Reply} (s : State) (h : r.immediate = false) :
    let others := s.link.cache.filter (fun c => c.seq != r.seq)
    replySent r s = { s with link := { s.link with
      tx := none
      requests := s.link.requests.filter (fun q => q.seq != r.seq)
      cache := (if others.length < 4 then others else others.drop 1) ++ [⟨r.seq, r.kind, r.body⟩] } } := by
  simp only [replySent, h, Bool.false_eq_true, if_false]
  rfl

/-- An immediate answer sent leaves the queue and the cache as they are (R147). -/
theorem replySent_immediate {r : Reply} (s : State) (h : r.immediate = true) :
    replySent r s = { s with link := { s.link with tx := none } } := by
  rw [replySent, if_pos h]
  rfl

/-- The end of a reply that is not the last of a PART-RESET: the transmitter chooses its next frame (R140, R147). -/
theorem exec_replyTransmitEnd {s : State} {r : Reply} (start : StartInput) (ht : s.link.tx = some (.reply r))
    (h : s.supply.phase ≠ .resetting ∨ s.link.replies ≠ []) :
    exec (.replyTransmitEnd start) s = .next (kickTx (replySent r s)) := by
  have hlast : ¬ (s.supply.phase = .resetting ∧ s.link.replies = []) := by
    rintro ⟨hp, hr⟩
    rcases h with h | h
    · exact h hp
    · exact h hr
  change execReplyTransmitEnd start s = _
  simp only [execReplyTransmitEnd, ht, if_neg hlast]

/-- The notice sent is the oldest in flight (R161). -/
theorem oldestInFlight_eq (n : NoticeUnit) (serial : Word16) :
    oldestInFlight n serial = ((n.inFlight.head?).map (·.notice.serial) == some serial) := by
  unfold oldestInFlight
  cases n.inFlight <;> rfl

/-- A notice sent may start the resend timer, and changes nothing else (R161). -/
theorem noticeSent_eq (n : Notice) (s : State) : noticeSent n s = { s with
    notices := { s.notices with timer := s.notices.timer ||
      ((s.notices.inFlight.head?).map (·.notice.serial) == some n.serial && !s.notices.hostAbsent) } } := by
  unfold noticeSent
  rw [oldestInFlight_eq]
  generalize ((s.notices.inFlight.head?).map (·.notice.serial) == some n.serial) = oldest
  cases ht : s.notices.timer <;> cases ha : s.notices.hostAbsent <;> cases oldest <;> simp [← ht]

/-- The end of a notice's frame (R161). -/
theorem exec_noticeFrameEnd {s : State} {n : Notice} (ht : s.link.tx = some (.notice n)) :
    exec .noticeFrameEnd s = .next (kickTx (noticeSent n (idleTx s))) := by
  change execNoticeFrameEnd s = _
  simp only [execNoticeFrameEnd, ht]

/-! ### The notice offered (R160) -/

/-- No notice of some is marked for resending. -/
theorem find?_marked_none {l : List QueuedNotice} (h : ∀ x ∈ l, x.inFlight = false ∨ x.resend = false) :
    l.find? (fun q => q.inFlight && q.resend) = none := by
  rw [List.find?_eq_none]
  intro x hx
  rcases h x hx with h | h <;> simp [h]

/-- Nothing is offered while the host is absent, or where no notice is marked and none unsent may go. -/
theorem offer_none {n : NoticeUnit} (h : n.hostAbsent = true ∨ ((∀ x ∈ n.queue, x.inFlight = false ∨ x.resend = false) ∧
    (8 ≤ n.inFlight.length ∨ ∀ x ∈ n.queue, x.inFlight = true))) : n.offer = none := by
  unfold NoticeUnit.offer
  rcases h with h | ⟨hm, h⟩
  · rw [if_pos h]
  · rw [find?_marked_none hm]
    rcases h with h | h
    · simp [Config.inFlightCapacity, Nat.not_lt.mpr h]
    · have hunsent : n.queue.find? (fun q => !q.inFlight) = none := by simpa [List.find?_eq_none] using h
      simp [hunsent]

/-- The element that a test selects after some that it finds none of. -/
theorem find?_append_cons {α : Type} {p : α → Bool} {a b : List α} {q : α} (ha : a.find? p = none)
    (hq : p q = true) : (a ++ q :: b).find? p = some q := by
  rw [List.find?_append, ha, Option.none_or, List.find?_cons_of_pos hq]

/-- The oldest marked notice is offered, otherwise the oldest unsent one while fewer than 8 are in flight (R160). -/
theorem offer_some {n : NoticeUnit} {a b : List QueuedNotice} {q : QueuedNotice} (habsent : n.hostAbsent = false)
    (hq : n.queue = a ++ q :: b)
    (h : (q.inFlight = true ∧ q.resend = true ∧ ∀ x ∈ a, x.inFlight = false ∨ x.resend = false) ∨
      (q.inFlight = false ∧ n.inFlight.length < 8 ∧ (∀ x ∈ n.queue, x.inFlight = false ∨ x.resend = false) ∧
        ∀ x ∈ a, x.inFlight = true)) : n.offer = some q.notice := by
  unfold NoticeUnit.offer
  rcases h with ⟨hf, hr, ha⟩ | ⟨hf, hroom, hm, ha⟩
  · have hmarked : n.queue.find? (fun q => q.inFlight && q.resend) = some q := by
      rw [hq]
      exact find?_append_cons (find?_marked_none ha) (by simp [hf, hr])
    simp [habsent, hmarked]
  · have hunsent : n.queue.find? (fun q => !q.inFlight) = some q := by
      rw [hq]
      exact find?_append_cons (by simpa [List.find?_eq_none] using ha) (by simp [hf])
    simp [habsent, find?_marked_none hm, hunsent, Config.inFlightCapacity, hroom]

/-! ### The choice of the next frame (R147) -/

/-- The transmitter begins nothing while it sends, outside service, or with no reply and no notice to send. -/
theorem kickTx_stays {s : State}
    (h : s.link.tx ≠ none ∨ (s.supply.phase ≠ .inService ∧ s.supply.phase ≠ .resetting) ∨
      (s.link.replies = [] ∧
        (s.supply.phase = .resetting ∨ immediateInHand s = true ∨ s.notices.offer = none))) : kickTx s = s := by
  unfold kickTx
  split
  · rfl
  · rename_i hidle
    split
    · rfl
    · rename_i hserving
      obtain ⟨hr, h⟩ := (h.resolve_left (fun h => h hidle)).resolve_left hserving
      rw [hr]
      dsimp only
      split
      · rename_i hkick
        simp only [State.inService, Bool.and_eq_true, beq_iff_eq, Bool.not_eq_true'] at hkick
        rcases h with h | h | h
        · rw [h] at hkick
          cases hkick.1
        · rw [h] at hkick
          cases hkick.2
        · rw [h]
      · rfl

/-- The idle transmitter begins the first reply. -/
theorem kickTx_reply {s : State} {r : Reply} {rest : List Reply}
    (hp : s.supply.phase = .inService ∨ s.supply.phase = .resetting) (ht : s.link.tx = none)
    (hr : s.link.replies = r :: rest) :
    kickTx s = { s with link := { s.link with tx := some (.reply r), replies := rest } } := by
  have hserving : ¬ (s.supply.phase ≠ .inService ∧ s.supply.phase ≠ .resetting) := fun h => hp.elim h.1 h.2
  simp only [kickTx, ht, if_neg hserving, hr]

/-- With no reply, and no request that is carried out at once, it begins the notice offered. -/
theorem kickTx_notice {s : State} {n : Notice} (hp : s.supply.phase = .inService) (ht : s.link.tx = none)
    (hr : s.link.replies = []) (hi : immediateInHand s = false) (hn : s.notices.offer = some n) :
    kickTx s = { s with link := { s.link with tx := some (.notice n) }, notices := s.notices.begun n.serial } := by
  simp [kickTx, ht, hr, hp, State.inService, hi, hn]

/-! ### TXD (R135, R186) -/

theorem HostLink.lineOutput_idle {l : HostLink} (h : l.tx = none) : l.lineOutput = .idle := by
  rw [HostLink.lineOutput, h]

theorem HostLink.lineOutput_frame {l : HostLink} {f : TxFrame} (h : l.tx = some f) :
    l.lineOutput = .sends l.speed.code (f.bytes.flatMap characterBits) := by
  rw [HostLink.lineOutput, h]
  rfl

/-- A reply's KIND is its request's plus 80H, or BFH where Table 10-2 names no such request (R186). -/
theorem replyKind_eq (kind : Byte) :
    replyKind kind = if kind.toNat ∈ requestKinds then kind + 0x80#8 else 0xBF#8 := by
  unfold replyKind
  by_cases h : kind.toNat ∈ requestKinds
  · rw [if_pos h, if_pos ((knownKind_iff kind).mpr h)]
  · rw [if_neg h, if_neg (mt (knownKind_iff kind).mp h)]

/-! ### The contents of each kind of notice (Table 10-10) -/

theorem byte1_recordCode (record : FaultRecord) : byte1 record.code = if record = .body then 0x01#8 else 0x00#8 := by
  cases record <;> rfl

theorem dispatchReport_bytes (j : JobEnd) : (NoticeBody.dispatchReport j).bytes = byte2 j.tag.toNat ++
    [byte1 j.entry.val, byte1 j.segment.val, byte1 (j.destination + 128 * flagBit j.stale),
     byte1 (4 * j.cause.code + 32 * flagBit j.due.isSome)] ++
    (match j.due with
      | some d => readingBytes d.reading d.fold false
      | none => [0x00#8, 0x00#8, 0x00#8, 0x00#8, 0x00#8, 0x00#8]) ++ byte4 j.created.toNat ++
    [byte1 j.outcome.code, byte1 (dropReasonCode j.reason), byte1 j.attempts, byte1 j.busy] := by
  rw [NoticeBody.bytes]
  cases j.due <;> rfl

theorem configFault_bytes (name : ConfigName) (path : FaultPath) : (NoticeBody.configFault name path).bytes =
    [0x01#8, match name with
      | .segment i => byte1 i.val
      | .daylight => 0x04#8, 0xFF#8, byte1 path.code] := by
  cases name <;> rfl

theorem clockShift_bytes (direction : ShiftDirection) (candidate : Reading) (hours : Nat) :
    (NoticeBody.clockShift direction candidate hours).bytes =
      [if direction = .back then 0x01#8 else 0x00#8] ++ readingBytes candidate .normal false ++ [byte1 hours] := by
  cases direction <;> rfl

theorem readingBytes_eq (r : Reading) (fold : Fold) (valid : Bool) : readingBytes r fold valid =
    [byte1 (r.year - 2000), byte1 (r.month + 16 * fold.code + if valid then 64 else 0), byte1 (r.day + 32 * r.weekday),
     byte1 r.hour, byte1 r.minute, byte1 r.second] := by
  rw [readingBytes, flagBit_mul]

/-! ### The check (section 10.1) -/

/-- One bit through the cyclic code, by the bit that leaves at the top. -/
theorem crcBit_eq (c : Word16) : crcBit c = if c.getLsbD 15 then (c <<< 1) ^^^ 0x1021#16 else c <<< 1 := by
  unfold crcBit
  rw [BitVec.msb_eq_getLsbD_last]

/-- The check goes byte by byte, eight bits each. -/
theorem crc16_append (l : List Byte) (b : Byte) : crc16 (l ++ [b]) =
    (List.range 8).foldl (fun c _ => crcBit c) (crc16 l ^^^ (b.setWidth 16 <<< 8)) := by
  rw [crc16, List.foldl_append]
  rfl

/-- Settles O53: the ends, the choices, the line, and each code and layout by its own equation. -/
theorem transmissionEnds : Obligations.TransmissionEnds := by
  refine ⟨fun s r start ht h hr => ?_, fun s r start ht h hr => ?_, fun s n ht => ?_, fun s h => kickTx_stays ?_,
    fun s r rest hp ht hr => kickTx_reply hp ht hr, fun s a b q hp ht hr hi habsent hq h => ?_, fun l => ?_,
    fun b => ?_, readingBytes_eq, rfl, fun l b => ?_, rfl, rfl, rfl, rfl, fun tag => rfl, rfl, rfl, rfl, rfl, rfl,
    by decide⟩
  · rw [exec_replyTransmitEnd start ht h, replySent_reply s hr]
  · rw [exec_replyTransmitEnd start ht h, replySent_immediate s hr]
  · rw [exec_noticeFrameEnd ht, noticeSent_eq]
    rfl
  · rcases h with h | h | ⟨hr, h⟩
    · exact .inl h
    · exact .inr (.inl h)
    · refine .inr (.inr ⟨hr, ?_⟩)
      rcases h with h | h | h | h
      · exact .inl h
      · exact .inr (.inr (offer_none (.inl h)))
      · exact .inr (.inl h)
      · exact .inr (.inr (offer_none (.inr h)))
  · exact kickTx_notice hp ht hr hi (offer_some habsent hq h)
  · refine ⟨HostLink.lineOutput_idle, fun r hr => ?_, fun n hn => HostLink.lineOutput_frame hn⟩
    rw [HostLink.lineOutput_frame hr, TxFrame.bytes, replyKind_eq]
    rfl
  · cases b with
    | dispatchReport j => exact congrArg _ (dispatchReport_bytes j)
    | countExhausted e fires d => exact congrArg _ (by rw [NoticeBody.bytes, fireBytes_eq])
    | entryFault e record path => exact congrArg _ (by rw [NoticeBody.bytes, byte1_recordCode])
    | configFault name path => exact congrArg _ (configFault_bytes name path)
    | clockShift direction candidate hours => exact congrArg _ (clockShift_bytes ..)
    | _ => rfl
  · rw [crc16_append, funext crcBit_eq]

end Sys2Proof.Machine
end

section
/-! How a start-up begins, and what each of its record operations does (R140, R145, R170, R173 to R177, R183). -/

namespace Sys2Proof.Machine

/-! ### The beginning (R170, R172, R183) -/

/-- The state in which the first record operation of a start-up is made: the cause set and the straps sampled (R170). -/
def startBegun (start : StartInput) (s : State) : State :=
  { s with supply := { s.supply with
      phase := .starting
      cause := startCauseOf s
      faults := []
      entriesQuarantined := 0
      recordsReplaced := 0
      claims := []
      startDone := 0
      powerLost := false
      vbakLow := false
      ls1 := start.ls1
      ls0 := start.ls0 } }

/-- A start-up begins with the first record operations of its sequence (R172). -/
theorem beginStart_eq (start : StartInput) (s : State) : beginStart start s =
    let made := (startSequence (startCauseOf s)).take start.work
    let u := made.foldl runStartUnit (startBegun start s)
    { u with supply := { u.supply with startDone := made.length } } := by
  unfold beginStart runStart
  simp only [startUnits_eq, List.drop_zero, Nat.zero_add]
  rfl

/-- What the beginning of a start-up leaves and sets, whatever record operations are made (R170). -/
theorem beginStart_keeps (start : StartInput) (s : State) :
    (beginStart start s).supply.phase = .starting ∧ (beginStart start s).supply.cause = startCauseOf s ∧
      (beginStart start s).supply.ls1 = start.ls1 ∧ (beginStart start s).supply.ls0 = start.ls0 ∧
      (beginStart start s).supply.powerLost = false ∧ (beginStart start s).store.heap = s.store.heap := by
  obtain ⟨hheap, hphase, hcause, hls1, hls0, hpower⟩ := runStart_keeps start.work (startBegun start s)
  exact ⟨hphase, hcause, hls1, hls0, hpower, hheap⟩

/-- With no record operation made, the store, the calendar and the latch are as they were. -/
theorem beginStart_none {start : StartInput} (s : State) (h : start.work = 0) :
    (beginStart start s).store = s.store ∧ (beginStart start s).cal = s.cal ∧
      (beginStart start s).supply.backupLost = s.supply.backupLost := by
  rw [beginStart_eq, h]
  exact ⟨rfl, rfl, rfl⟩

/-- The link as the end of a reply leaves it (R140, R145). -/
theorem replySent_link (r : Reply) (s : State) :
    let others := s.link.cache.filter (fun c => c.seq != r.seq)
    replySent r s = { s with link := if r.immediate then { s.link with tx := none }
      else { s.link with
        tx := none
        requests := s.link.requests.filter (fun q => q.seq != r.seq)
        cache := (if others.length < 4 then others else others.drop 1) ++ [⟨r.seq, r.kind, r.body⟩] } } := by
  intro others
  cases h : r.immediate with
  | true => exact replySent_immediate s h
  | false => exact replySent_reply s h

/-- The state from which a start-up begins: its link, and NRST high where its release is what begins it (R170). -/
def startFrom (link : HostLink) (s : State) : State :=
  { s with link := link, supply := { s.supply with nrst := s.supply.nrst || s.supply.phase == .held } }

/-- The three events that begin a start-up (R170, R183). -/
theorem exec_begins {s : State} {c : Instr} {start : StartInput}
    (h : (c = .mainSupplyReturn start ∧ s.supply.phase = .unpowered ∧ s.supply.nrst = true) ∨
      (c = .nrstRelease start ∧ s.supply.phase = .held) ∨
      (c = .replyTransmitEnd start ∧ s.supply.phase = .resetting ∧ s.link.replies = [] ∧
        ∃ r, s.link.tx = some (.reply r))) :
    ∃ link, exec c s = .next (beginStart start (startFrom link s)) ∧ (s.supply.phase ≠ .resetting → link = s.link) ∧
      ∀ r, s.supply.phase = .resetting → s.link.tx = some (.reply r) → link = (replySent r s).link := by
  rcases h with ⟨rfl, hp, hn⟩ | ⟨rfl, hp⟩ | ⟨rfl, hp, hr, r, ht⟩
  · refine ⟨s.link, ?_, fun _ => rfl, fun r hp' => absurd hp' (by simp [hp])⟩
    have hfrom : startFrom s.link s = s := by
      simp only [startFrom, hn, Bool.true_or]
      rw [← hn]
    change execMainSupplyReturn start s = _
    simp only [execMainSupplyReturn, powerReturns, hp, hn, if_true, hfrom]
  · refine ⟨s.link, ?_, fun _ => rfl, fun r hp' => absurd hp' (by simp [hp])⟩
    change execNrstRelease start s = _
    simp [execNrstRelease, startFrom, hp]
  · refine ⟨(replySent r s).link, ?_, fun hp' => absurd hp hp', fun r' _ ht' => ?_⟩
    · have hfrom : startFrom (replySent r s).link s = replySent r s := by
        have hnrst : (s.supply.nrst || s.supply.phase == .held) = s.supply.nrst := by simp [hp]
        rw [replySent_link]
        simp only [startFrom, hnrst]
      change execReplyTransmitEnd start s = _
      simp only [execReplyTransmitEnd, ht, hp, hr, and_self, if_true, hfrom]
    · rw [ht] at ht'
      cases ht'
      rfl

/-! ### The integrity pass (R174 to R177) -/

theorem monthOk_iff (t : Transition) : t.monthOk = true ↔ 1 ≤ t.month ∧ t.month ≤ 12 := decide_eq_true_iff

theorem weekOk_iff (t : Transition) : t.weekOk = true ↔ 1 ≤ t.week ∧ t.week ≤ 5 := decide_eq_true_iff

theorem weekdayOk_iff (t : Transition) : t.weekdayOk = true ↔ 1 ≤ t.weekday ∧ t.weekday ≤ 7 := decide_eq_true_iff

/-- The tests of the daylight record in the spec's terms (R48, R68, R174). -/
theorem daylightSound_iff (r : DaylightRule) :
    let dated (x : Transition) := (1 ≤ x.month ∧ x.month ≤ 12) ∧ (1 ≤ x.week ∧ x.week ≤ 5) ∧
      1 ≤ x.weekday ∧ x.weekday ≤ 7
    firstFault (daylightTests r) = none ↔ dated r.forward ∧ dated r.back ∧
      (1 ≤ r.forward.hour ∧ r.forward.hour ≤ 22) ∧ (1 ≤ r.back.hour ∧ r.back.hour ≤ 23) ∧
      ¬ (r.forward.month = r.back.month ∧ r.forward.week = r.back.week ∧ r.forward.weekday = r.back.weekday) := by
  rw [daylightTests_iff, ← Bool.not_eq_true, sameTransitionDate_iff]
  simp only [monthOk_iff, weekOk_iff, weekdayOk_iff]

section TestEntry

variable {s : State} {e : EntryIx}

/-- An EMPTY entry is passed by (R175). -/
theorem testEntry_empty (h : (s.store.headers.get e).header.state = .named .empty) : testEntry e s = s := if_pos h

/-- A header that fails the tests is quarantined (R175, R177). -/
theorem testEntry_badHeader (h : (s.store.headers.get e).header.state ≠ .named .empty)
    (hp : ¬ HeaderPasses (s.store.headers.get e)) : testEntry e s = startQuarantine e .header s := by
  simp [testEntry, h, mt (passes_iff _ h).mp hp]

/-- A sound header without a body reference is passed by (R175). -/
theorem testEntry_bodiless (h : (s.store.headers.get e).header.state ≠ .named .empty)
    (hp : HeaderPasses (s.store.headers.get e)) (hb : (s.store.headers.get e).header.body = none) :
    testEntry e s = s := by
  simp [testEntry, h, (passes_iff _ h).mpr hp, hb]

/-- A body reference is claimed where its record is sound and unclaimed, and the entry is quarantined otherwise
(R176, R177). -/
theorem testEntry_body {b : BodyRef} (h : (s.store.headers.get e).header.state ≠ .named .empty)
    (hp : HeaderPasses (s.store.headers.get e)) (hb : (s.store.headers.get e).header.body = some b) :
    testEntry e s =
      if b.inHeap && !s.supply.claims.any b.overlaps && recordSound s.store.heap e b then
        { s with supply := { s.supply with claims := s.supply.claims ++ [b] } }
      else startQuarantine e .body s := by
  simp only [testEntry, if_neg h, if_pos ((passes_iff _ h).mpr hp), hb]

end TestEntry

/-- Settles O58: the events that begin a start-up, its beginning, and each record operation. -/
theorem startUpBegins : Obligations.StartUpBegins := by
  unfold Obligations.StartUpBegins
  intro segDefault ruleDefault
  refine ⟨fun s c start h => ?_, fun s start hp hn => ?_, fun s => ⟨fun e => rfl, fun i => rfl, rfl, rfl, rfl⟩,
    fun s i => ?_, fun s => ?_, fun s e => ?_⟩
  · intro cause begun made sent
    obtain ⟨link, hexec, hlink, hreplied⟩ := exec_begins h
    obtain ⟨hphase, hcause, hls1, hls0, hpower, hheap⟩ := beginStart_keeps start (startFrom link s)
    refine ⟨_, link, hexec, hlink, fun hp r ht => ?_, beginStart_eq start (startFrom link s), hphase, hcause, hls1, hls0,
      hpower, hheap, fun h0 => beginStart_none (startFrom link s) h0⟩
    rw [hreplied r hp ht, replySent_link]
  · change execMainSupplyReturn start s = _
    simp [execMainSupplyReturn, powerReturns, hp, hn]
  · intro stored c sound
    have htests : (stored.check = segConfigCheck c ∧ firstFault (segConfigTests c) = none) ↔ sound :=
      and_congr_right' (segConfigTests_iff c)
    exact ⟨fun h => if_pos (htests.mpr h), fun h => if_neg (mt htests.mp h)⟩
  · intro stored a b dated sound
    have htests : (stored.check = daylightCheck stored.rule ∧ firstFault (daylightTests stored.rule) = none) ↔ sound :=
      and_congr_right' (daylightSound_iff stored.rule)
    exact ⟨fun h => if_pos (htests.mpr h), fun h => if_neg (mt htests.mp h)⟩
  · intro stored t faulty
    refine ⟨testEntry_empty, testEntry_badHeader, testEntry_bodiless, fun b hst hp hb => ?_⟩
    have ht : t = _ := testEntry_body hst hp hb
    have hiff := refTests_iff s e b
    exact ⟨fun h => ht.trans (if_pos (hiff.mpr h)), fun h => ht.trans (if_neg (mt hiff.mp h))⟩

end Sys2Proof.Machine
end

section
/-! The Notice Unit: the posting of a notice, the resend timer, NOTICE-ACK and NOTICE-MASK, and the notice window through
every step (R149, R155, R158, R159, R161 to R163, R167). -/

namespace Sys2Proof.Machine

/-! ### The window through every step (R149, R155) -/

/-- A post may change the window, and not the host-absent flag or its copy (R158). -/
theorem noticesSound_post (b : NoticeBody) (s : State) (h : NoticesSound s) : NoticesSound (post b s) :=
  ⟨noticeWindow_post b s h.1, by rw [post_notices_hostAbsent, post_link, h.2]⟩

/-- The expiry marks the notices in flight and counts one resend more, or finds the host absent: the flag, its copy and
the stopped timer change together (R163). -/
theorem noticesSound_timerExpired (s : State) (h : NoticesSound s) : NoticesSound (timerExpired s) := by
  obtain ⟨hwindow, hcopy⟩ := h
  unfold timerExpired
  split
  · rename_i hcount
    have hmarked := noticeWindow_markAll hwindow
    exact ⟨⟨hmarked.capacity, hmarked.serials, hmarked.inFlight, hmarked.older, hmarked.marks, hcount, hmarked.lost,
      hmarked.full, fun _ => rfl⟩, hcopy⟩
  · exact ⟨⟨hwindow.capacity, hwindow.serials, hwindow.inFlight, hwindow.older, hwindow.marks, hwindow.resends,
      hwindow.lost, hwindow.full, fun _ => rfl⟩, rfl⟩

/-- The arrival of a frame clears the flag and its copy together: the copy was set where the flag was (R165). -/
theorem noticesSound_hostPresent (s : State) (h : NoticesSound s) : NoticesSound (hostPresent s) := by
  obtain ⟨hwindow, hcopy⟩ := h
  unfold hostPresent
  split
  · have hmarked := noticeWindow_markAll hwindow
    exact ⟨⟨hmarked.capacity, hmarked.serials, hmarked.inFlight, hmarked.older, hmarked.marks, Nat.zero_le _,
      hmarked.lost, hmarked.full, fun habsent => (Bool.false_ne_true habsent).elim⟩, rfl⟩
  · rename_i hpresent
    exact ⟨⟨hwindow.capacity, hwindow.serials, hwindow.inFlight, hwindow.older, hwindow.marks, Nat.zero_le _,
      hwindow.lost, hwindow.full, hwindow.timer⟩, hcopy.trans (Bool.eq_false_of_not_eq_true hpresent)⟩

/-- The end of a notice's frame starts the timer only while the host is present (R161). -/
theorem noticesSound_noticeSent (n : Notice) (s : State) (h : NoticesSound s) : NoticesSound (noticeSent n s) := by
  obtain ⟨hwindow, hcopy⟩ := h
  unfold noticeSent
  split
  · rename_i hstart
    refine ⟨⟨hwindow.capacity, hwindow.serials, hwindow.inFlight, hwindow.older, hwindow.marks, hwindow.resends,
      hwindow.lost, hwindow.full, fun habsent => ?_⟩, hcopy⟩
    have hpresent : s.notices.hostAbsent = false := by simpa using (Bool.and_eq_true_iff.mp hstart).2
    exact absurd (hpresent.symm.trans habsent) Bool.false_ne_true
  · exact ⟨hwindow, hcopy⟩

/-- The mask is no part of the window (R167). -/
theorem noticesSound_mask (m : Word16) (s : State) (h : NoticesSound s) :
    NoticesSound { s with notices := { s.notices with mask := m } } :=
  ⟨⟨h.1.capacity, h.1.serials, h.1.inFlight, h.1.older, h.1.marks, h.1.resends, h.1.lost, h.1.full, h.1.timer⟩, h.2⟩

/-- The tests of R139 act on the requests, the replies and the discard count. -/
theorem meetFrame_notices (seq kind : Byte) (body : List Byte) (s : State) :
    (meetFrame seq kind body s).notices = s.notices ∧
      (meetFrame seq kind body s).link.hostAbsent = s.link.hostAbsent := by
  unfold meetFrame answerAtOnce countDiscard
  repeat' split
  all_goals exact ⟨rfl, rfl⟩

/-- A reply built leaves the notices and the host-absent flag (R143). -/
theorem replyInHand_notices (body : List Byte) (s : State) :
    (replyInHand body s).notices = s.notices ∧ (replyInHand body s).link.hostAbsent = s.link.hostAbsent := by
  unfold replyInHand
  split
  all_goals exact ⟨rfl, rfl⟩

/-- So does a reply sent (R140, R147). -/
theorem replySent_notices (r : Reply) (s : State) :
    (replySent r s).notices = s.notices ∧ (replySent r s).link.hostAbsent = s.link.hostAbsent := by
  unfold replySent
  split
  all_goals exact ⟨rfl, rfl⟩

/-- Service begins with the notices that the start-up posted, from the start-up values on (R168, R180, R181). -/
theorem noticesSound_beginService (s : State) : NoticesSound (beginService (volatileInit s)) := by
  have hinit : NoticesSound (volatileInit s) := ⟨noticeWindow_start, rfl⟩
  have hposted : ∀ (faults : List FaultItem) (u : State), NoticesSound u →
      NoticesSound (faults.foldl postFaultItem u) := fun faults u hu =>
    List.foldlRecOn faults postFaultItem hu fun v hv item _ => by
      cases item <;> exact noticesSound_post _ v hv
  exact noticesSound_kickTx _ (noticesSound_of (hposted _ _ (noticesSound_post _ _ hinit)) rfl rfl)

/-- Every elementary update of a command keeps the notices sound: the Notice Unit's own operations by their lemmas, and
every other update leaves the notices and the host-absent flag as they are. -/
theorem kept_noticesSound : KeptByCommands NoticesSound where
  post := noticesSound_post
  rewrite _ _ _ _ h := h
  clear _ _ _ _ h := h
  setEnded _ _ _ h := h
  removeTo _ _ _ _ h := h
  markStale _ _ _ h := h
  takeHead _ _ _ _ _ _ h := h
  presentLine _ _ h := h
  spendHigh _ _ h := h
  insert _ _ _ _ _ h := h
  onPort _ _ _ h := h
  onJob _ _ _ _ h := h
  putSegRecord _ _ _ h := h
  pending _ _ h := h
  grant _ _ h := h
  reply body s h := noticesSound_of h (replyInHand_notices body s).1 (replyInHand_notices body s).2
  kick := noticesSound_kickTx
  cal _ _ h := h
  daylight _ _ h := h
  place _ _ _ _ _ _ _ _ _ _ h := h
  erase _ h := h
  compactor _ _ _ _ h := h
  move _ _ _ _ _ _ _ _ _ _ h := h
  hold _ _ h := h
  segHold _ _ _ h := h
  clearDiscards _ h := h
  reset _ _ _ _ h := h
  ack serial s hserial h := noticesSound_ack serial s hserial h
  mask := noticesSound_mask
  rx _ _ h := h
  discard _ h := h
  present := noticesSound_hostPresent
  meet seq kind body s h :=
    noticesSound_of h (meetFrame_notices seq kind body s).1 (meetFrame_notices seq kind body s).2
  replySent r s _ h := noticesSound_of h (replySent_notices r s).1 (replySent_notices r s).2
  noticeSent n s _ h := noticesSound_noticeSent n (idleTx s) h
  timer s _ h := noticesSound_timerExpired s h
  matcher _ _ h := h
  supply _ _ _ h := h
  stop _ _ _ _ := ⟨noticeWindow_start, rfl⟩
  startUnit u s _ h := noticesSound_of h (runStartUnit_notices s u) (by rw [runStartUnit_link])
  lost _ _ _ _ h := h
  service s _ _ := noticesSound_beginService s

/-- Settles O7: every elementary update of a command keeps the window and the copy of the host-absent flag. -/
theorem stepKeepsNotices : Obligations.StepKeepsNotices :=
  fun _ _ h hs => kept_noticesSound.step h hs

/-! ### Posting (R158) -/

/-- A notice that is not masked is counted as lost while the queue is full. -/
theorem post_full {b : NoticeBody} {s : State} (hm : s.notices.mask.getLsbD b.code = false)
    (hl : 32 ≤ s.notices.queue.length) :
    post b s = { s with notices := { s.notices with gapCount := min 65535 (s.notices.gapCount + 1) } } := by
  rw [post, if_neg (by simp [hm]), if_pos (show Config.noticeCapacity ≤ _ from hl)]
  rfl

/-- A notice that is not masked is made where there is room. -/
theorem post_room {b : NoticeBody} {s : State} (hm : s.notices.mask.getLsbD b.code = false)
    (hl : s.notices.queue.length < 32) : post b s = makeNotice b s := by
  rw [post, if_neg (by simp [hm]), if_neg (show ¬ Config.noticeCapacity ≤ _ from Nat.not_le.mpr hl)]

/-- Settles O54: masked, lost for want of room, or made. -/
theorem postingOfNotices : Obligations.PostingOfNotices :=
  fun _ _ => ⟨fun hm => if_pos hm, post_full, post_room⟩

/-! ### The resend timer (R163) -/

/-- The expiry of a running timer, with the choice of the next frame. -/
theorem exec_resendTimerExpiry {s : State} (h : s.notices.timer = true) :
    exec .resendTimerExpiry s = .next (kickTx (timerExpired s)) := by
  change execResendTimerExpiry s = _
  rw [execResendTimerExpiry, if_pos h]

/-! ### NOTICE-ACK (R159, R162) -/

/-- A serial in flight is the field of a NOTICE-ACK that passes its test. -/
theorem parseAck_byte2 {serials : List Word16} {w : Word16} (h : w ∈ serials) :
    parseAck serials (byte2 w.toNat) = .ok w := by
  have hin : serials.contains w = true := List.contains_iff_mem.mpr h
  rw [parseAck, if_pos (show (byte2 w.toNat).length = 2 from rfl)]
  simp only [natAt_byte2, tested, firstFault, hin, if_true]

/-- The GAP notice that the losses await, if there are any. -/
def gapNotice (s : State) : List QueuedNotice :=
  if s.notices.gapCount = 0 then [] else [⟨⟨s.notices.nextSerial, stampNow s, .gap s.notices.gapCount⟩, false, false⟩]

/-- The making of the GAP notice as one update, whether there are losses or none (R159). -/
theorem makeGap_eq (s : State) : makeGap s = { s with notices := { s.notices with
    queue := s.notices.queue ++ gapNotice s
    nextSerial := if s.notices.gapCount = 0 then s.notices.nextSerial else s.notices.nextSerial + 1
    gapCount := 0 } } := by
  unfold makeGap gapNotice
  split
  · rename_i hnone
    simp [← hnone]
  · rfl

/-- NOTICE-ACK's act where the queue is cut behind the notice acknowledged (R162). -/
theorem noticeAckOp_eq {s : State} {a b : List QueuedNotice} {q : QueuedNotice} (hq : s.notices.queue = a ++ q :: b)
    (ha : ∀ x ∈ a, x.notice.serial ≠ q.notice.serial) : noticeAckOp q.notice.serial s =
      ({ s with notices := { s.notices with
          queue := b ++ gapNotice s
          nextSerial := if s.notices.gapCount = 0 then s.notices.nextSerial else s.notices.nextSerial + 1
          resendCount := 0
          gapCount := 0
          timer := !s.notices.hostAbsent && b.any (·.inFlight) } },
       [0x00#8, byte1 (a.length + 1), byte1 (b ++ gapNotice s).length]) := by
  have hrest : dropThrough q.notice.serial s.notices.queue = b := by
    rw [hq]
    exact dropThrough_append _ a b q rfl ha
  have hremoved : s.notices.queue.length - b.length = a.length + 1 := by
    rw [hq, List.length_append, List.length_cons]
    omega
  simp only [noticeAckOp, hrest, hremoved, makeGap_eq]
  rfl

/-- Settles O55: the expiry below the sixth and at it, then NOTICE-ACK and NOTICE-MASK as one update each, with its
reply. -/
theorem noticeWindowEvents : Obligations.NoticeWindowEvents := by
  refine ⟨fun s ht hc => ?_, fun s ht hc => ?_, fun s r a b q hs hb hq hf ha => ?_, fun s r mask hs hb hm => ?_⟩
  · rw [exec_resendTimerExpiry ht, timerExpired, if_pos (show _ < Config.resendLimit from hc)]
    rfl
  · rw [exec_resendTimerExpiry ht, timerExpired, if_neg (show ¬ _ < Config.resendLimit from hc ▸ Nat.lt_irrefl _)]
  · have hserial : q.notice.serial ∈ inFlightSerials s :=
      List.mem_map_of_mem (List.mem_filter.mpr ⟨by simp [hq], hf⟩)
    have hack := serve_immediate_eq (op := noticeAckOp) hs (hb ▸ parseAck_byte2 hserial)
      (noticeAckOp_link ..) (by simp)
    rw [noticeAckOp_eq hq ha] at hack
    exact congrArg _ hack
  · have hparse : parseMask r.body = .ok mask := by rw [hb, parseMask_byte2, if_pos hm]
    exact congrArg _ (serve_immediate_eq (op := noticeMaskOp) hs hparse rfl rfl)

end Sys2Proof.Machine
end

section
/-! PART-RESET, the stops, the loss of the backup domain, and the supply events outside their phase (R154, R169, R171,
R182, R183). -/

namespace Sys2Proof.Machine

/-! ### PART-RESET (R154, R182, R183) -/

/-- The requests behind the one in hand, where the queue is cut at it (R183). -/
theorem behindInHand_append {before behind : List Request} {r : Request} (hb : ∀ q ∈ before, q.built = true)
    (hu : ∀ q ∈ r :: behind, q.built = false) : behindInHand (before ++ r :: behind) = behind := by
  have hbuilt : before.filter (fun q => !q.built) = [] := by
    simpa only [List.filter_eq_nil_iff, Bool.not_eq_true', Bool.not_eq_false] using hb
  have hunbuilt : (r :: behind).filter (fun q => !q.built) = r :: behind := by
    simpa only [List.filter_eq_self, Bool.not_eq_true'] using hu
  rw [behindInHand, List.filter_append, hbuilt, hunbuilt]
  rfl

/-- PART-RESET in hand takes the part out of service, and the transmitter may begin the first reply (R147, R182). -/
theorem exec_partReset {s : State} {r : Request} (hs : Serving s r 0x32#8) :
    exec .partReset s = .next (kickTx (beginReset r s)) := by
  obtain ⟨hp, hr, hk⟩ := hs
  change execPartReset s = _
  simp [execPartReset, State.inService, hp, hr, hk]

/-- Every port's work is cut (R182). -/
theorem beginReset_port (r : Request) (s : State) (i : Seg) : (beginReset r s).port i = (s.port i).cut :=
  PerSegment.get_map ..

/-- The phase that PART-RESET enters is RESETTING, and the transmitter's choice leaves it (R154). -/
theorem kickTx_beginReset_phase (r : Request) (s : State) : (kickTx (beginReset r s)).supply.phase = .resetting :=
  congrArg Supply.phase (kickTx_supply _)

/-- Settles O56: the state that the reset begins, in which the requests behind are those of the queue cut at the one in
hand; with the phase RESETTING nothing is granted. -/
theorem partResetAnswersAll : Obligations.PartResetAnswersAll := by
  intro s r before behind hs hq hb hu
  have hbehind : behindInHand s.link.requests = behind := by rw [hq, behindInHand_append hb hu]
  refine ⟨beginReset r s, exec_partReset hs, ?_, beginReset_port r s,
    fun q => not_granted _ q (by rw [kickTx_beginReset_phase]; simp)⟩
  simp only [beginReset, resetReplies, hbehind, ← List.append_assoc]
  rfl

/-! ### The stops and the loss of the backup domain (R169, R171) -/

/-- MAIN_SUPPLY_FAIL with main supply good (R169). -/
theorem exec_mainSupplyFail {s : State} (h : s.supply.phase ≠ .unpowered) : exec .mainSupplyFail s =
    .next (stopped { (loseVolatile s).supply with phase := .unpowered, powerLost := true } s) :=
  congrArg _ (if_neg h)

/-- NRST_ASSERT with main supply good and NRST high (R169). -/
theorem exec_nrstAssert {s : State} (hu : s.supply.phase ≠ .unpowered) (hh : s.supply.phase ≠ .held) :
    exec .nrstAssert s = .next (stopped { (loseVolatile s).supply with phase := .held, nrst := false } s) :=
  congrArg _ (if_neg (not_or.mpr ⟨hu, hh⟩))

/-- BACKUP_LOST with main supply absent (R171). -/
theorem exec_backupLost {s : State} (h : s.supply.phase = .unpowered) : exec .backupLost s =
    .next (backupGone { s.supply with backupLost := true, vbakLow := true } s) :=
  congrArg _ (if_pos h)

theorem stopped_port (p : Supply) (s : State) (i : Seg) : (stopped p s).port i = Port.start defaultSegConfig :=
  PerSegment.get_same ..

theorem stopped_queue (p : Supply) (s : State) (i : Seg) : (stopped p s).queue i = [] :=
  PerSegment.get_same ..

/-- Either stop releases every line, empties the queues and takes the part out of service (R169). -/
theorem stopped_lost {p : Supply} (s : State) (hp : p.phase ≠ .inService) :
    (∀ i, ((stopped p s).port i).de = false ∧ (stopped p s).queue i = []) ∧ (stopped p s).link.tx = none ∧
      (stopped p s).link.requests = [] ∧ (stopped p s).matcher = none ∧ (stopped p s).notices.queue = [] ∧
      ∀ q, granted (stopped p s) q = false :=
  ⟨fun i => ⟨by rw [stopped_port]; rfl, stopped_queue p s i⟩, rfl, rfl, rfl, rfl, fun q => not_granted _ q hp⟩

/-- Settles O57: each stop is the volatile state lost beside its own supply fields; every other row is one branch of its
test of the phase. -/
theorem stopsLoseVolatileState : Obligations.StopsLoseVolatileState := by
  refine ⟨fun s c phase h => ?_, fun s h => congrArg _ (if_pos h), fun s start h => congrArg _ (if_neg h),
    fun s h => congrArg _ (if_neg h), fun s h => congrArg _ (if_pos h), fun s start h => congrArg _ (if_neg h),
    fun s h => congrArg _ (if_neg h), fun s h => ⟨_, exec_backupLost h, rfl⟩⟩
  rcases h with ⟨rfl, rfl, hu⟩ | ⟨rfl, rfl, hu, hh⟩
  · exact ⟨_, exec_mainSupplyFail hu, rfl, rfl, rfl, rfl, rfl, rfl, rfl, rfl, rfl, rfl, rfl, stopped_lost s (by simp)⟩
  · exact ⟨_, exec_nrstAssert hu hh, rfl, rfl, rfl, rfl, rfl, rfl, rfl, rfl, rfl, rfl, rfl, stopped_lost s (by simp)⟩

end Sys2Proof.Machine
end

section
/-! The heap's canonical form through every step and every start-up (R29, R30). -/

namespace Sys2Proof.Machine

/-- The invariant looks at the heap's bytes alone. -/
theorem HeapCanonical.of_heap {s t : State} (h : HeapCanonical s) (hh : t.store.heap = s.store.heap) :
    HeapCanonical t := by
  rw [HeapCanonical, hh]
  exact h

/-- Bytes written inside the heap. -/
theorem HeapCanonical.of_write {s t : State} (h : HeapCanonical s) {a : Nat} {bytes : List Byte}
    (hh : t.store.heap = Memory.writeBytes s.store.heap a bytes) (ha : a + bytes.length ≤ 32768) : HeapCanonical t := by
  rw [HeapCanonical, hh, Memory.wf_iff]
  exact Memory.canonical_writeBytes ((Memory.wf_iff _).mp h) _ ha

/-- A record of `n` body bytes ends within its granules (R29). -/
theorem record_within_granules (n : Nat) : n + 4 ≤ 16 * granulesFor n := by
  unfold granulesFor
  omega

/-- A record placed in a run that the Store Controller allocates lies in the heap (R32, R38). -/
theorem heapCanonical_placeBody {s : State} (h : HeapCanonical s) (e : EntryIx) (hd : Header) {start : Nat}
    {body : List Byte} (ha : allocate s.ctl (granulesFor body.length) = some start) :
    HeapCanonical (placeBody e hd start body s) := by
  refine h.of_write (a := 16 * start) (bytes := bodyRecord e body) rfl ?_
  have hrun := (allocate_run (granulesFor_pos _) ha).1
  have hrecord := record_within_granules body.length
  rw [bodyRecord_length]
  omega

/-- A sound record above the frontier lies in the heap, so its copy down to the frontier does (R42). -/
theorem heapCanonical_moveRecord {s : State} (h : HeapCanonical s) {e : EntryIx} (hd : Header) {r : BodyRef}
    (hs : recordSound s.store.heap e r = true) (hf : s.ctl.frontier ≤ r.first) :
    HeapCanonical (moveRecord e hd r s) := by
  refine h.of_write (a := 16 * s.ctl.frontier)
    (bytes := Memory.readBytes s.store.heap (16 * r.first) (r.length + 4)) rfl ?_
  obtain ⟨⟨-, -, hrun⟩, -⟩ := recordSound_bytes hs
  have hrecord := record_within_granules r.length
  rw [Memory.readBytes_length]
  omega

/-- The heap that a loss of the backup domain leaves lists its free values in canonical form (R171). -/
theorem heapCanonical_backupGone (p : Supply) (s : State) : HeapCanonical (backupGone p s) := by
  have hheap : (backupGone p s).store.heap = lostHeap s.free := by simp only [backupGone, lostStore]
  rw [HeapCanonical, hheap]
  exact lostHeap_wf s.free

/-- Two elementary updates write heap bytes, BODY-LOAD's and the compactor's, the loss of the backup domain leaves another
canonical heap, and no other update touches the heap. -/
theorem kept_heapCanonical : KeptByCommands HeapCanonical where
  post _ _ h := h.of_heap (by simp)
  rewrite _ _ _ _ h := h
  clear _ _ _ _ h := h
  setEnded _ _ _ h := h
  removeTo _ _ _ _ h := h
  markStale _ _ _ h := h
  takeHead _ _ _ _ _ _ h := h
  presentLine _ _ h := h
  spendHigh _ _ h := h
  insert _ _ _ _ _ h := h
  onPort _ _ _ h := h
  onJob _ _ _ _ h := h
  putSegRecord _ _ _ h := h
  pending _ _ h := h
  grant _ _ h := h
  reply _ _ h := h.of_heap (by simp)
  kick _ h := h.of_heap (by simp)
  cal _ _ h := h
  daylight _ _ h := h
  place e hd _ _ _ _ _ ha _ _ h := heapCanonical_placeBody h e hd ha
  erase _ h := h
  compactor _ _ _ _ h := h
  move _ hd _ _ _ _ _ hl _ hs h := heapCanonical_moveRecord h hd hs (lowestFrom_run hl).1
  hold _ _ h := h
  segHold _ _ _ h := h
  clearDiscards _ h := h
  reset _ _ _ _ h := h
  ack _ _ _ h := h.of_heap (by simp)
  mask _ _ h := h
  rx _ _ h := h
  discard _ h := h
  present _ h := h
  meet _ _ _ _ h := h.of_heap (by simp)
  replySent _ _ _ h := h.of_heap (by simp)
  noticeSent _ _ _ h := h.of_heap (by simp [idleTx])
  timer _ _ h := h.of_heap (by simp)
  matcher _ _ h := h
  supply _ _ _ h := h
  stop _ _ _ h := h
  startUnit u s _ h := h.of_heap (runStartUnit_heap s u)
  lost p s _ _ _ := heapCanonical_backupGone p s
  service s _ h := h.of_heap (by rw [beginService_store]; rfl)

/-- Settles O5: every elementary update of a command keeps the heap canonical. -/
theorem stepKeepsHeapCanonical : Obligations.StepKeepsHeapCanonical :=
  fun _ _ h hs => kept_heapCanonical.step h hs

end Sys2Proof.Machine
end

section
/-! The arbiter's choice: the request in hand, what each requester has pending, and the grant (R27, R143, Table 2-2). -/

namespace Sys2Proof.Machine

/-- The request in hand is the first without a reply (R143). -/
theorem inHand_iff {s : State} {r : Request} : inHand s = some r ↔
    ∃ a b, s.link.requests = a ++ r :: b ∧ r.built = false ∧ ∀ x ∈ a, x.built = true := by
  simp only [inHand, List.find?_eq_some_iff_append, Bool.not_eq_true', Bool.not_not]
  constructor
  · rintro ⟨hr, a, b, hq, ha⟩
    exact ⟨a, b, hq, hr, ha⟩
  · rintro ⟨a, b, hq, hr, ha⟩
    exact ⟨hr, a, b, hq, ha⟩

/-! ### The requests that use the store (Table 2-2) -/

/-- The KINDs of the requests that use the store (Table 2-2). -/
def storeKinds : List Nat :=
  [0x01, 0x02, 0x03, 0x04, 0x05, 0x06, 0x07, 0x10, 0x11, 0x12, 0x13, 0x14, 0x15, 0x1A, 0x21, 0x28, 0x29, 0x2A]

/-- A KIND's command is a store request served with a parser, and tests 2 and 3 are that parser (R143, R144). -/
structure ServesStore {α : Type} (kind : Byte) (parse : List Byte → Except ReqError α)
    (op : α → State → State × List Byte) : Prop where
  carried : ∀ s, exec (requestCommand kind) s = .next (serve kind true parse op s)
  ready : ∀ body, storeReady kind body = passed (parse body)
  error : ∀ (s : State) (r : Request), requestError s { r with kind := kind } = refusal (parse r.body)

/-- Table 2-2, with the parser and the operation of each of its requests. -/
theorem servesStore_of_storeKind : ∀ n ∈ storeKinds, ∃ (α : Type) (parse : List Byte → Except ReqError α)
    (op : α → State → State × List Byte), ServesStore (BitVec.ofNat 8 n) parse op := by
  simp only [storeKinds, List.forall_mem_cons]
  refine ⟨⟨_, parseDefine, defineOp, ?_⟩, ⟨_, parseIndex, armOp, ?_⟩, ⟨_, parseIndex, disarmOp, ?_⟩,
    ⟨_, parseIndex, deleteOp, ?_⟩, ⟨_, parseIndex, readOp, ?_⟩, ⟨_, parseNone, mapOp, ?_⟩,
    ⟨_, parseIndex, fireOp, ?_⟩, ⟨_, parseBodyLoad, loadOp, ?_⟩, ⟨_, parseIndex, bodyReadOp, ?_⟩,
    ⟨_, parseIndex, dropOp, ?_⟩, ⟨_, parseNone, compactOp, ?_⟩, ⟨_, parseNone, storeStatusOp, ?_⟩,
    ⟨_, parseNone, eraseOp, ?_⟩, ⟨_, parseClockRule, clockRuleOp, ?_⟩, ⟨_, parsePurge, purgeOp, ?_⟩,
    ⟨_, parseSegConfig, segmentConfigOp, ?_⟩, ⟨_, parseSegment, segmentOpenOp, ?_⟩,
    ⟨_, parseSegment, segmentCloseOp, ?_⟩, List.forall_mem_nil _⟩
  all_goals exact ⟨fun _ => rfl, fun _ => rfl, fun _ _ => rfl⟩

theorem servesStore {r : Request} (h : r.kind.toNat ∈ storeKinds) :
    ∃ (α : Type) (parse : List Byte → Except ReqError α) (op : α → State → State × List Byte),
      ServesStore r.kind parse op := by
  have hserves := servesStore_of_storeKind _ h
  rwa [BitVec.ofNat_toNat, BitVec.setWidth_eq] at hserves

theorem passed_iff {α : Type} {x : Except ReqError α} : passed x = true ↔ refusal x = none := by
  cases x <;> simp [passed, refusal]

/-- Only a request of Table 2-2 has a store operation presented for it. -/
theorem storeKind_of_storeReady {kind : Byte} {body : List Byte} (h : storeReady kind body = true) :
    kind.toNat ∈ storeKinds := by
  unfold storeReady at h
  split at h
  case h_19 => cases h -- no KIND of Table 2-2
  all_goals
    rename_i hkind
    rw [hkind]
    decide

/-- A request is ready for the store exactly when it is of Table 2-2 and passes tests 1 to 3 (R143, R144). -/
theorem storeReady_iff (s : State) (r : Request) :
    storeReady r.kind r.body = true ↔ r.kind.toNat ∈ storeKinds ∧ requestError s r = none := by
  have hcongr (h : r.kind.toNat ∈ storeKinds) : storeReady r.kind r.body = true ↔ requestError s r = none := by
    obtain ⟨α, parse, op, hserve⟩ := servesStore h
    rw [hserve.ready, passed_iff, ← hserve.error s r]
  exact ⟨fun h => ⟨storeKind_of_storeReady h, (hcongr (storeKind_of_storeReady h)).mp h⟩,
    fun ⟨hk, he⟩ => (hcongr hk).mpr he⟩

/-- A store request that is not granted waits, and nothing changes (R143). -/
theorem exec_waits {s : State} {r : Request} (hp : s.supply.phase = .inService) (hr : inHand s = some r)
    (hready : storeReady r.kind r.body = true) (hg : granted s .commandInterpreter = false) :
    exec (requestCommand r.kind) s = .next s := by
  obtain ⟨α, parse, op, hserve⟩ := servesStore (storeKind_of_storeReady hready)
  rw [hserve.carried]
  rw [hserve.ready] at hready
  cases hx : parse r.body with
  | ok a => rw [serve_waits ⟨hp, hr, rfl⟩ hx hg]
  | error e => rw [hx] at hready; cases hready

/-! ### What the requesters have pending, and the grant (R27) -/

theorem presents_commandInterpreter_iff {s : State} : presents s .commandInterpreter = true ↔
    ∃ r, inHand s = some r ∧ storeReady r.kind r.body = true := by
  unfold presents
  cases inHand s with
  | none => simp
  | some r => simp

theorem presents_matcher_iff {s : State} : presents s .matcher = true ↔ s.matcher ≠ none :=
  Option.isSome_iff_ne_none

theorem presents_fetch_iff {s : State} {i : Seg} : presents s (.fetch i) = true ↔ (s.port i).fetchOp ≠ .none :=
  bne_iff_ne

theorem presents_compactor_iff {s : State} : presents s .compactor = true ↔ s.ctl.compacting = true := Iff.rfl

/-- The granted requester is, in service, the first of the order that has an operation pending (R27). -/
theorem granted_iff {s : State} {q : Requester} : granted s q = true ↔
    s.supply.phase = .inService ∧ presents s q = true ∧
      ∃ a b, s.ctl.order = a ++ q :: b ∧ ∀ x ∈ a, presents s x = false := by
  simp only [granted, State.inService, Bool.and_eq_true, beq_iff_eq, List.find?_eq_some_iff_append, Bool.not_eq_true']

/-- Settles O13: the request in hand, Table 2-2, what is pending, the grant, and the wait of a request that is not
granted. -/
theorem arbiterGrantsHighestPending : Obligations.ArbiterGrantsHighestPending :=
  ⟨fun _ _ => inHand_iff, storeReady_iff,
    fun _ => ⟨presents_commandInterpreter_iff, presents_matcher_iff, fun _ => presents_fetch_iff,
      presents_compactor_iff⟩,
    fun _ _ => granted_iff, fun _ _ => rfl, fun _ _ => exec_waits⟩

end Sys2Proof.Machine
end

section
/-! The step, and the state after reset: a cold start just ended, in which the invariants hold. -/

namespace Sys2Proof.Machine

/-! ### The step -/

/-- Settles O1: it is the definition of a step on a queue that is not empty. -/
theorem stepRunsFrontCommand : Obligations.StepRunsFrontCommand := fun _ _ _ => rfl

/-- No command faults and none is refused. -/
theorem exec_next (c : Instr) (s : State) : ∃ t, exec c s = .next t := by
  cases c <;> exact ⟨_, rfl⟩

theorem step_idle {s : State} (h : s.pending = []) : step s = .next s := by
  rw [step, h]

/-- Settles O2: the step idles on an empty queue, and otherwise is one command. -/
theorem stepAnswersNext : Obligations.StepAnswersNext := by
  refine ⟨fun s => ?_, fun s => step_idle⟩
  cases hq : s.pending with
  | nil => exact ⟨s, step_idle hq⟩
  | cons c rest =>
    rw [step, hq]
    exact exec_next c _

/-! ### The blocks of the state after reset -/

theorem header_reset (e : EntryIx) : State.reset.store.headers.get e = freshHeader (bareHeader .empty) := by
  simp [State.reset, ProgramStore.cold, Vector.get_eq_getElem]

theorem stateOf_reset (e : EntryIx) : stateOf State.reset e = .empty := by
  simp [State.reset, StoreControl.start, stateOf, Vector.get_eq_getElem]

theorem map_reset (g : Fin 2048) : State.reset.ctl.map.get g = none := by
  simp [State.reset, StoreControl.start, Vector.get_eq_getElem]

theorem segRecord_reset (i : Seg) : State.reset.store.segRecords.get i = freshSegConfig defaultSegConfig :=
  PerSegment.get_same ..

theorem port_reset (i : Seg) : State.reset.port i = Port.start defaultSegConfig := PerSegment.get_same ..

/-- Every queue is empty, with no pending record, no hold and its high-water flag armed (R107). -/
theorem dispatch_reset (i : Seg) : State.reset.queue i = [] ∧ State.reset.dispatch.ended.get i = [] ∧
    State.reset.dispatch.segHold.get i = false ∧ State.reset.dispatch.highArmed.get i = true :=
  ⟨PerSegment.get_same .., PerSegment.get_same .., PerSegment.get_same .., PerSegment.get_same ..⟩

/-- Settles O3: the blocks that hold one value per entry, granule or segment by their lemmas, every other field by its
value. -/
theorem resetIsColdStart : Obligations.ResetIsColdStart :=
  ⟨rfl, rfl, rfl, fun e => ⟨header_reset e, stateOf_reset e⟩, map_reset, rfl, rfl, segRecord_reset, rfl, rfl, rfl, rfl,
    rfl, rfl, rfl, dispatch_reset, rfl, rfl, fun i => ⟨port_reset i, by rw [port_reset]; rfl⟩, rfl, rfl, rfl, rfl, rfl,
    rfl, rfl, rfl, rfl, rfl⟩

/-! ### The invariants in the state after reset -/

/-- The link's bounds look at no notice on TXD: they are those of the start-up values. -/
theorem linkBounds_reset : LinkBounds State.reset.link := by
  obtain ⟨hrequests, hdistinct, hone, hcache, hcacheDistinct, himmediate, hdiscards⟩ := linkBounds_start .b19200
  exact ⟨hrequests, hdistinct, hone, hcache, hcacheDistinct, himmediate, hdiscards⟩

/-- STARTED is the one notice, in flight, its serial just before the next (R181). -/
theorem noticesSound_reset : NoticesSound State.reset := by
  refine ⟨⟨by decide, fun k hk => ?_, by decide, List.pairwise_singleton .., by decide, by decide, by decide,
    fun h => absurd rfl h, fun _ => rfl⟩, rfl⟩
  obtain rfl : k = 0 := Nat.lt_one_iff.mp hk
  rfl

theorem listAgrees_reset : ListAgrees State.reset := by
  intro e
  rw [stateOf_reset, header_reset]
  rfl

/-- No header holds a body reference, and no granule has an owner. -/
theorem mapAgrees_reset : MapAgrees State.reset := by
  intro e
  simp [header_reset, map_reset, freshHeader, bareHeader]

/-- Settles O4: the lemmas of this section, with the heap and the arbiter's order at their start-up values. -/
theorem invariantsHoldAtReset : Obligations.InvariantsHoldAtReset :=
  ⟨rfl, linkBounds_reset, noticesSound_reset, queuesSound_start _ rfl, List.Perm.refl _, listAgrees_reset,
    mapAgrees_reset⟩

end Sys2Proof.Machine
end
